-- ==== Sys2Proof/Word.lean ====
section
/-! DEFINITION. The words of the links and highways, and the exact numbers of the signal path.

Spec: R160 (bytes), R165 (16-bit words), R78, R80, R139 (exact linear values: the estimate is "formed without
rounding or limiting", a gain of g dB multiplies by 10^(g/20)). -/

namespace Sys2Proof

/-- A byte of a link frame or a code of a highway (R77, R160). -/
abbrev Byte := BitVec 8

/-- A 16-bit word of an address space item (R165), and a coefficient (R20). -/
abbrev Word := BitVec 16

/-- An exact real number of the signal path: the list `[(e₁, q₁), (e₂, q₂), …]` stands for
`q₁ · 10^(e₁/200) + q₂ · 10^(e₂/200) + …`. Canonical form: exponents below 200 and strictly rising, no
coefficient 0 (DEDUCED: every value of R77 to R143 is such a sum; log entry 6). -/
abbrev Lin := List (Nat × Rat)

end Sys2Proof
end

