-- ==== Sys2Proof/Config.lean ====
section
/-! DEFINITION. The fixed sizes of the part, and the free values: what the spec leaves open.

Every `opaque` constant has no body, so no proof can see a value of it. -/

namespace Sys2Proof.Config

/-- Channels, and timeslots of a highway frame (section 5.1). -/
abbrev channels : Nat := 128

/-- Segments of the pool (R19). -/
abbrev segments : Nat := 1024

/-- Lists other than F: C0 to C127 and W0 to W7 (section 5.1). They are also the claimables (R152). -/
abbrev chains : Nat := 136

/-- Positions at which a sync pulse can fall: the 8.192 MHz bit clocks of a 125 µs frame (section 8 of
00_scope). DEDUCED, log entry 15. -/
abbrev framePositions : Nat := 1024

/-- The longest channel or work list (R27). -/
def maxChain : Nat := 16

/-- The most entries of the Purge Batch (R60). -/
def maxBatch : Nat := 16

/-- The most entries of the Relocation Queue (R127). -/
def maxRelocation : Nat := 8

/-- The largest start delay (R19). -/
def maxDelay : Nat := 1984

/-- Samples of the reference history (R79). -/
def historyLength : Nat := 2048

/-- Entries of the peak history (R99). -/
def peakHistoryLength : Nat := 65

/-- Free value: one period of the sequence of a channel's comfort noise generator, as it stands at a background estimate
of +3 dBm0 (R114 gives its power and spectrum, not its samples). DESIGN CHOICE, log entry 8. -/
opaque noiseSequence (channel : Nat) : List Rat

/-- Free value: the sum of squares of the part of a block's samples that lies in the tone band of R103 (`send` names the
direction); the spec gives the band and no filter. DESIGN CHOICE, log entry 9. -/
opaque toneBandEnergy (channel block : Nat) (send : Bool) (samples : List Rat) : Rat

/-- Free value: whether a reversal (R104) is seen where a tone is too disturbed for its phase to tell; `before` are the
samples of the preceding block. The spec gives no method that finds a phase. DESIGN CHOICE, log entry 10. -/
opaque reversalSeen (channel block : Nat) (send : Bool) (before samples : List Rat) : Bool

/-- Free value: whether a level that lies exactly half way between two tenths of a dB is taken as the upper one
(R78 says "the nearest 0.1 dB" only). The argument is the upper one. DESIGN CHOICE, log entry 7. -/
opaque levelTieUp (level : Int) : Bool

/-- Free value: whether a RESTART keeps LSU's block accumulators (R138 says it does, R149 that only the samples
after the RESTART count). DESIGN CHOICE, log entry 12. -/
opaque restartKeepsLsuBlock : Bool

end Sys2Proof.Config
end

