-- ==== Sys2Proof/Syntax.lean ====
section
/-! DEFINITION. The commands of the part: one constructor for each row of the opcode table, with its operands. -/

namespace Sys2Proof

/-- One of the two control planes, and its link, panel and queue (section 5.7). -/
inductive Plane
  | a
  | b
  deriving DecidableEq, Repr

/-- The other plane of the pair (R153). -/
def Plane.other : Plane → Plane
  | .a => .b
  | .b => .a

/-- A channel number (section 5.1). -/
abbrev ChannelNo := Fin Config.channels

/-- A timeslot number (section 5.1). -/
abbrev Timeslot := Fin Config.channels

/-- The companding laws, as LAWSEL selects them (R77). -/
inductive Law
  | aLaw
  | muLaw
  deriving DecidableEq, Repr

/-- Arguments 1 and 2 of a command word: bytes 1 to 5 of the layout of section 10.6. -/
structure Args where
  /-- Argument 1 (bytes 1 and 2). -/
  arg1 : Word
  /-- Argument 2, list field (byte 3). -/
  listField : Byte
  /-- Argument 2, delay field (bytes 4 and 5). -/
  delayField : Word
  deriving DecidableEq, Repr

/-- The commands: each constructor is one row of spec/opcode_table.json. The table gives no operands; those here are
what the cited rule says the event or request carries. -/
inductive Instr
  /-- R34: the reset pin, with the level of LAWSEL it samples (R77). -/
  | powerOnReset (law : Law)
  /-- R16: a pulse on FSYNC at one of the bit clocks of a frame. -/
  | syncPulse (position : Fin Config.framePositions)
  /-- R15: the expected frame start passes with no pulse. -/
  | missedSync
  /-- R10: a channel's arrival, with the codes of its timeslot. -/
  | samplePairArrival (channel : ChannelNo) (rin sin : Byte)
  /-- R12: a channel's block boundary. -/
  | blockBoundary (channel : ChannelNo)
  /-- R18: 1 ms of the internal timebase. -/
  | stampTick
  /-- R165. -/
  | read (plane : Plane) (space : Byte) (index : Word) (count : Byte)
  /-- R3: a WRITE to CHANNEL_CONFIG with good arguments. -/
  | writeChannelConfig (plane : Plane) (index : Word) (count : Byte) (data : List Word)
  /-- R167: a WRITE to COEFF with good arguments. -/
  | writeCoeff (plane : Plane) (index : Word) (count : Byte) (data : List Word)
  /-- R166: any other WRITE. -/
  | write (plane : Plane) (space : Byte) (index : Word) (count : Byte) (data : List Word)
  /-- R168. -/
  | status (plane : Plane)
  /-- R169, R174. -/
  | takeEvents (plane : Plane) (n : Byte)
  /-- R169. -/
  | setTrigger (plane : Plane) (level : Byte)
  /-- R170. -/
  | linkReset (plane : Plane)
  /-- R160: a select interval in which `bytes` whole bytes are clocked. -/
  | replyFrame (plane : Plane) (bytes : Nat)
  /-- R38. -/
  | allocate (plane : Plane) (args : Args)
  /-- R48, first event. -/
  | allocateTake
  /-- R48, second event. -/
  | allocateLink
  /-- R38. -/
  | release (plane : Plane) (args : Args)
  /-- R49, first event. -/
  | releaseTake
  /-- R49, second event, and R30. -/
  | releaseLinkIntoF
  /-- R38. -/
  | move (plane : Plane) (args : Args)
  /-- R50 and R51, first event. -/
  | moveTake
  /-- R51, second event. -/
  | moveLink
  /-- R38. -/
  | swap (plane : Plane) (args : Args)
  /-- R52. -/
  | swapTake
  /-- R38. -/
  | empty (plane : Plane) (args : Args)
  /-- R53, R54. -/
  | emptyTake
  /-- R54. -/
  | emptyLinkIntoF
  /-- R54. -/
  | emptyUnlink
  /-- R129 to R132. -/
  | relocationTake
  /-- R131. -/
  | relocationLink
  /-- R61. -/
  | purge (plane : Plane) (args : Args)
  /-- R69. -/
  | suspend (plane : Plane) (args : Args)
  /-- R71. -/
  | resume (plane : Plane) (args : Args)
  /-- R153. -/
  | claim (plane : Plane) (args : Args)
  /-- R153. -/
  | unclaim (plane : Plane) (args : Args)
  /-- R153. -/
  | seize (plane : Plane) (args : Args)
  /-- R13. -/
  | restart (plane : Plane) (args : Args)
  /-- R63. -/
  | gatherTimerExpiry
  /-- R65. -/
  | segmentClearEnd
  /-- R72. -/
  | suspendTimerExpiry
  /-- R175. -/
  | quietTimerExpiry (plane : Plane)
  /-- R2: the codes of a timeslot that no channel serves. -/
  | transparentTimeslot (timeslot : Timeslot) (rin sin : Byte)
  /-- R161: a frame whose kind byte or check byte is bad. -/
  | badFrame (plane : Plane) (frame : List Byte)
  /-- R37: a COMMAND request whose command code names no command. -/
  | command (plane : Plane) (code : Byte) (args : Args)
  deriving DecidableEq, Repr

end Sys2Proof
end

