-- ==== Sys2Proof/Decode.lean ====
section
/-! DEFINITION. The decoder of table words. The opcode table of this block gives no row any bits ("fields" are empty
and there is no "fixed"), so no word spells a command. How the bytes of a link frame spell a request is R161's matter,
in Machine/Frames.lean. -/

namespace Sys2Proof

/-- The command that a word spells by the table's bits: none. -/
def decodeTableWord (_nbits _w : Nat) : Option Instr := none

end Sys2Proof
end

