-- ==== Sys2Proof/Machine/State.lean ====
section
/-! DEFINITION. The state of the part as plain data, the reasons a step can stop, and the state after power-on reset.

Section 5.5 of the introduction: a field that may be absent is an `Option`. -/

namespace Sys2Proof.Machine

/-- The number of a segment (R19). -/
abbrev SegNo := Fin Config.segments

/-- The code of a channel list (0 to 127) or work list (128 to 135); also a claimable's code (R152). -/
abbrev ChainCode := Fin Config.chains

/-! ### Configuration records (R1) -/

/-- The mode field of R1. -/
inductive Mode
  | off
  | observe
  | active
  deriving DecidableEq, Repr

/-- The step field of R1: 1/2, 1/4, 1/8, 1/16. -/
inductive StepSize
  | half
  | quarter
  | eighth
  | sixteenth
  deriving DecidableEq, Repr

/-- The hybrid margin field of R1. -/
inductive Margin
  | db0
  | db3
  | db6
  deriving DecidableEq, Repr

/-- The ALC fields of one direction (R1). -/
structure AlcConfig where
  /-- ALC mode: AUTO when set, FIXED when clear. -/
  auto : Bool
  /-- Fixed gain in steps of 0.5 dB. -/
  fixedGain : Int
  /-- Upper level in dBm0. -/
  upper : Int
  /-- Lower level in dBm0. -/
  lower : Int
  deriving DecidableEq, Repr

/-- A configuration record (R1). -/
structure ConfigRecord where
  mode : Mode
  timeslot : Timeslot
  step : StepSize
  margin : Margin
  suppressor : Bool
  toneBypass : Bool
  tracking : Bool
  receive : AlcConfig
  send : AlcConfig
  deriving DecidableEq, Repr

/-- The defaults of R1 for one direction. -/
def AlcConfig.default : AlcConfig := { auto := true, fixedGain := 0, upper := -12, lower := -24 }

/-- The defaults of R1 for a channel. -/
def ConfigRecord.default (n : ChannelNo) : ConfigRecord :=
  { mode := .off, timeslot := n, step := .quarter, margin := .db6, suppressor := true, toneBypass := true,
    tracking := false, receive := .default, send := .default }

/-! ### Channels -/

/-- The canceller states of R8. -/
inductive Canceller
  | off
  | restarting
  | running
  | bypassed
  deriving DecidableEq, Repr

/-- The divergence states of R118. -/
inductive Divergence
  | steady
  | watchful
  | diverged
  deriving DecidableEq, Repr

/-- The suppressor states of R110. -/
inductive Suppressor
  | opened
  | closed
  deriving DecidableEq, Repr

/-- The tone states of R105. -/
inductive Tone
  | listening
  | tone
  | bypassSuppressor
  | bypassFull
  deriving DecidableEq, Repr

/-- The standing of a block (R82). -/
inductive Standing
  | adapt
  | hold
  deriving DecidableEq, Repr

/-- LSU's state of one direction (R138). -/
structure LsuDir where
  /-- Gain in steps of 0.5 dB. -/
  gain : Int
  high : Nat
  low : Nat
  limit : Bool
  /-- Sum of squares of the block in progress. -/
  blockAcc : Lin
  /-- Sum over the completed blocks of the window. -/
  windowAcc : Lin
  deriving DecidableEq, Repr

/-- The block accumulators of R90. -/
structure BlockAcc where
  refPower : Lin
  sinPower : Lin
  errorPower : Lin
  sinPeak : Lin
  refPeak : Lin
  deriving DecidableEq, Repr

/-- The block record of R94; levels in 0.1 dBm0, the ERLE in 0.1 dB. -/
structure BlockRecord where
  rinLevel : Int
  sinLevel : Int
  errorLevel : Int
  erle : Int
  farActive : Bool
  sinPeak : Lin
  refPeak : Lin
  adapt : Bool
  whollyRunning : Bool
  deriving DecidableEq, Repr

/-- One channel of CHT, with what every block keeps for it. -/
structure Channel where
  /-- The governing record (R1). -/
  governing : ConfigRecord
  /-- The pending record (R4). -/
  pendingRecord : Option ConfigRecord
  /-- The convergence flag (R95). -/
  converged : Bool
  /-- The last block ERLE in 0.1 dB (R91). -/
  erle : Int
  /-- The divergence count (R118). -/
  divCount : Nat
  /-- The divergence state (R118). -/
  divState : Divergence
  /-- The double-talk flag (R99). -/
  doubleTalk : Bool
  /-- The suppressor state (R110). -/
  suppressor : Suppressor
  /-- The tone state (R105). -/
  tone : Tone
  /-- LSU's receive direction (R138). -/
  receive : LsuDir
  /-- LSU's send direction (R138). -/
  send : LsuDir
  /-- The search cursor (R124). -/
  cursor : Nat
  /-- The owed flag (R74). -/
  owed : Bool
  /-- The block count (R9). -/
  blockCount : Word
  /-- The reference history, delay 0 first (R79). -/
  history : List Lin
  /-- The block accumulators (R90). -/
  acc : BlockAcc
  /-- The standing of the block in progress (R82). -/
  standing : Standing
  /-- The wholly running mark (R88). -/
  whollyRunning : Bool
  /-- The convergence run count (R95). -/
  runCount : Nat
  /-- The block record of the last boundary (R94). -/
  blockRecord : Option BlockRecord
  /-- The peak history, age 0 first (R99). -/
  peakHistory : List Lin
  /-- The double-talk hangover count (R99). -/
  hangover : Nat
  /-- The tone count (R105). -/
  toneCount : Nat
  /-- The reversed mark (R105). -/
  reversed : Bool
  /-- The quiet count (R105). -/
  quietCount : Nat
  /-- The Rin samples of the block in progress, before the gain, which TBD measures (R103). -/
  toneRin : List Rat
  /-- The Sin samples of the block in progress, which TBD measures (R103). -/
  toneSin : List Rat
  /-- The Rin samples of the block that stands directly before the block in progress, against which TBD sees a phase step
  that falls across the boundary (R104, log entry 10); none where no block stands directly before it. -/
  beforeRin : List Rat
  /-- The Sin samples of that block (R104, log entry 10). -/
  beforeSin : List Rat
  /-- The suppressor hangover (R110). -/
  suppHangover : Nat
  /-- The background estimate in 0.1 dBm0 (R110). -/
  background : Int
  /-- The tracking period count (R124). -/
  trackCount : Nat
  /-- The window position (R138). -/
  windowPos : Nat
  /-- The model's own: the number of the block, the argument of the free values (log entry 11). -/
  freeBlock : Nat
  deriving DecidableEq, Repr

/-- A block accumulator that holds no sample. -/
def BlockAcc.zero : BlockAcc :=
  { refPower := [], sinPower := [], errorPower := [], sinPeak := [], refPeak := [] }

/-- The all-zero reference history (R79). -/
def zeroHistory : List Lin := List.replicate Config.historyLength []

/-- The all-zero peak history (R99). -/
def zeroPeaks : List Lin := List.replicate Config.peakHistoryLength []

/-- The default gain of a direction: "0 dB in AUTO; the fixed gain in FIXED" (R9). -/
def AlcConfig.startGain (a : AlcConfig) : Int := if a.auto then 0 else a.fixedGain

/-- A direction with its gain at the default and everything else zero (R138, R150). -/
def LsuDir.start (a : AlcConfig) : LsuDir :=
  { gain := a.startGain, high := 0, low := 0, limit := false, blockAcc := [], windowAcc := [] }

/-- A channel after power-on reset (R1, R9, R79, R95, R99, R105, R110, R124, R138). -/
def Channel.reset (n : ChannelNo) : Channel :=
  { governing := .default n, pendingRecord := none, converged := false, erle := 0, divCount := 0, divState := .steady,
    doubleTalk := false, suppressor := .opened, tone := .listening, receive := .start .default, send := .start .default,
    cursor := 0, owed := false, blockCount := 0, history := zeroHistory, acc := .zero, standing := .hold,
    whollyRunning := false, runCount := 0, blockRecord := none, peakHistory := zeroPeaks, hangover := 0, toneCount := 0,
    reversed := false, quietCount := 0, toneRin := [], toneSin := [], beforeRin := [], beforeSin := [], suppHangover := 0,
    background := -700, trackCount := 0, windowPos := 0, freeBlock := 0 }

/-! ### The Tail Segment Pool -/

/-- A segment record (R19). Its number is its place in the pool; its list, prev and next are read off the lists
(log entry 4). -/
structure Segment where
  /-- The start delay in samples. -/
  startDelay : Option Nat
  /-- The 64 taps (R20). -/
  coeffs : Vector Word 64
  /-- The weight as held, in units of 2⁻³⁰ (R21). -/
  weight : Nat
  /-- The vacancy count (R22). -/
  vacancy : Nat
  deriving DecidableEq, Repr

/-- The 64 zero taps. -/
def zeroCoeffs : Vector Word 64 := Vector.replicate 64 0

/-- A segment as it stands in the free list (R26). -/
def Segment.free : Segment := { startDelay := none, coeffs := zeroCoeffs, weight := 0, vacancy := 0 }

/-! ### The Purge Engine (R59, R60) -/

/-- The engine states of R59. -/
inductive Engine
  | idle
  | gathering
  | running
  | suspending
  | suspended
  deriving DecidableEq, Repr

/-- A requester set, drawn from A, B and Internal (R60). -/
structure Requesters where
  a : Bool
  b : Bool
  internal : Bool
  deriving DecidableEq, Repr

/-- An entry of the Purge Batch (R60). -/
structure BatchEntry where
  list : ChainCode
  requesters : Requesters
  progress : Nat
  finished : Bool
  deriving DecidableEq, Repr

/-- The clear in progress: the entry being worked, named by its list, and the segment being cleared (R59).
`disturbed` is set when a structural event resets the entry's progress during the clear (R65, R68). -/
structure Clear where
  list : ChainCode
  segment : SegNo
  disturbed : Bool
  deriving DecidableEq, Repr

/-- PGE's state (R59). A timer is set while it runs. -/
structure Pge where
  engine : Engine
  batch : List BatchEntry
  gatherTimer : Bool
  suspendTimer : Bool
  clear : Option Clear
  deriving DecidableEq, Repr

/-! ### Panels, results and the List Controller (R36, R40) -/

/-- OK and the refusal codes, in the order of section 10.6. -/
inductive Status
  | ok
  | badFrame
  | badAddress
  | badCommand
  | badValue
  | badList
  | badSegment
  | badDelay
  | badLevels
  | panelBusy
  | notHolder
  | claimed
  | inPurge
  | purgeBusy
  | batchFull
  | notRunning
  | notSuspended
  | chainFull
  | overlap
  | empty
  | timeslotTaken
  | notWritable
  deriving DecidableEq, Repr

/-- The commands of R38. -/
inductive CommandCode
  | allocate
  | release
  | move
  | swap
  | empty
  | purge
  | suspend
  | resume
  | claim
  | unclaim
  | seize
  | restart
  deriving DecidableEq, Repr

/-- A command word as taken (R168). -/
structure CommandWord where
  code : CommandCode
  args : Args
  deriving DecidableEq, Repr

/-- The panel states of R36. -/
inductive PanelState
  | idle
  | pending
  | running
  deriving DecidableEq, Repr

/-- A panel record (R36). The arguments are absent exactly when the command is (R171). -/
structure Panel where
  state : PanelState
  command : Option CommandWord
  valid : Bool
  status : Option Status
  segment : Option SegNo
  count : Option Nat
  deriving DecidableEq, Repr

/-- The panel record after a reset (R36, R57). -/
def Panel.reset : Panel :=
  { state := .idle, command := none, valid := false, status := none, segment := none, count := none }

/-- The requesters of LC's arbiter (R42). -/
inductive Requester
  | panel (p : Plane)
  | relocation
  deriving DecidableEq, Repr

/-- LC's current command with its arguments (R40); a SWAP completes at its take (R52) and is never current. The
segment being carried is the one in transit. -/
inductive LcWork
  | allocate (target : ChainCode) (delay : Nat)
  | release
  | move (target : ChainCode) (delay : Nat)
  | empty (list : ChainCode) (size : Nat)
  | relocation (channel : ChannelNo) (delay : Nat)
  deriving DecidableEq, Repr

/-- The current command and its issuer (R40). -/
structure LcJob where
  work : LcWork
  issuer : Requester
  deriving DecidableEq, Repr

/-- LC's state (R40). LC is BUSY exactly while a current command is present. -/
structure Lc where
  current : Option LcJob
  detached : Bool
  arbiter : Requester
  deriving DecidableEq, Repr

/-- An entry of the Relocation Queue (R128). -/
structure RelocEntry where
  segment : SegNo
  channel : ChannelNo
  deriving DecidableEq, Repr

/-! ### Events and queues (R172, R173) -/

/-- The twelve event kinds. -/
inductive EventKind
  | converged
  | diverged
  | toneBypass
  | levelLimit
  | trackMoved
  | trackBlocked
  | purgeDone
  | purgeResumed
  | claimLost
  | framingLost
  | framingRestored
  | overrun
  deriving DecidableEq, Repr

/-- An event with its subject and detail (R172). -/
inductive Event
  | converged (channel : ChannelNo) (erle : Int)
  | diverged (channel : ChannelNo) (count : Nat) (erle : Int)
  | toneBypass (channel : ChannelNo) (state : Tone)
  | levelLimit (channel : ChannelNo) (send : Bool) (gain : Int)
  | trackMoved (channel : ChannelNo) (segment : SegNo) (oldDelay newDelay : Nat)
  | trackBlocked (channel : ChannelNo) (segment : SegNo) (delay : Nat)
  | purgeDone (list : ChainCode) (requesters : Requesters)
  | purgeResumed
  | claimLost (claimable : ChainCode) (seizer : Plane)
  | framingLost
  | framingRestored
  | overrun (kind : EventKind) (subject : Option ChainCode)
  deriving DecidableEq, Repr

/-- A stored event record: the event, its stamp, and its routing field, set for "both queues" (R172). -/
structure EventRecord where
  event : Event
  stamp : Word
  both : Bool
  deriving DecidableEq, Repr

/-- An event queue (R173, R175, R176), oldest entry first. The quiet timer is set while it runs. -/
structure Queue where
  entries : List EventRecord
  trigger : Nat
  quietTimer : Bool
  quietMark : Bool
  deriving DecidableEq, Repr

/-- The queue's reset (R177). -/
def Queue.reset : Queue := { entries := [], trigger := 16, quietTimer := true, quietMark := false }

/-! ### Links -/

/-- The states of a link interface (R160); REPLY_READY holds the reply frame. -/
inductive LinkState
  | awaitRequest
  | replyReady (reply : List Byte)
  deriving DecidableEq, Repr

/-- One link: its interface, the bytes the part drove on data out in the last reply frame, its panel and its event
queue. -/
structure Port where
  iface : LinkState
  sent : List Byte
  panel : Panel
  queue : Queue
  deriving DecidableEq, Repr

/-- A link after power-on reset (R36, R160, R177). -/
def Port.reset : Port := { iface := .awaitRequest, sent := [], panel := .reset, queue := .reset }

/-- A holder of the Claim Table (R152): none for NONE. -/
abbrev Holder := Option Plane

/-! ### The Highway Interface -/

/-- The framing states of R15 and R16. -/
inductive Framing
  | lost
  | framed
  deriving DecidableEq, Repr

/-- What a channel has done in the frame in progress (R11): whether it has taken its arrival, whether it serves its
timeslot only from the next frame, and whether it has had its block boundary. -/
structure FrameMark where
  arrived : Bool
  joining : Bool
  boundary : Bool
  deriving DecidableEq, Repr

/-- The marks at a frame start. -/
def FrameMark.clear : FrameMark := { arrived := false, joining := false, boundary := false }

/-- HWI's state, and the codes last carried in each timeslot of Rout and Sout (R2, R15, R16, R18, R77). In FRAMED the
candidate is the frame position. -/
structure Hwi where
  law : Law
  framing : Framing
  missCount : Nat
  huntCount : Nat
  candidate : Option (Fin Config.framePositions)
  phase : Nat
  stamp : Word
  marks : Vector FrameMark Config.channels
  rout : Vector Byte Config.channels
  sout : Vector Byte Config.channels
  deriving DecidableEq, Repr

/-- The idle code of a law (R77). -/
def idleCode : Law → Byte
  | .aLaw => 0xD5
  | .muLaw => 0xFF

/-- HWI after power-on reset (R16, R18). Every timeslot carries idle code, since framing is LOST (R2). -/
def Hwi.reset (law : Law) : Hwi :=
  { law := law, framing := .lost, missCount := 0, huntCount := 0, candidate := none, phase := 0, stamp := 0,
    marks := Vector.replicate _ .clear, rout := Vector.replicate _ (idleCode law), sout := Vector.replicate _ (idleCode law) }

/-! ### The whole part -/

/-- The state of the part. -/
structure State where
  hwi : Hwi
  channels : Vector Channel Config.channels
  segments : Vector Segment Config.segments
  /-- The free list F, first segment first (R25). -/
  free : List SegNo
  /-- The channel and work lists, first segment first (R23). -/
  chains : Vector (List SegNo) Config.chains
  /-- The in-transit slot (R33). -/
  transit : Option SegNo
  lc : Lc
  /-- The Relocation Queue, head first (R128). -/
  relocation : List RelocEntry
  pge : Pge
  /-- The Claim Table (R152). -/
  claims : Vector Holder Config.chains
  portA : Port
  portB : Port
  /-- The commands that are waiting, first in first out: the model's interface. -/
  pending : List Instr
  deriving DecidableEq, Repr

/-- Why a step stops with a fault. The part has none: every wrong request is answered by a refusal code, which is part
of the state (R39, R164). Nobody raises one, which is safe. -/
inductive Fault
  deriving DecidableEq, Repr

/-- Why a command has no meaning. -/
inductive Refusal
  /-- Raised by an arm of `exec` whose command has no meaning yet; safe. No arm raises it. -/
  | notModelled (mnemonic : String)
  deriving DecidableEq, Repr

/-- The part after power-on reset with the given level of LAWSEL (R1, R9, R16, R34, R36, R40, R59, R128, R152, R160,
R170, R177). -/
def State.powerOn (law : Law) : State :=
  { hwi := .reset law
    channels := Vector.ofFn Channel.reset
    segments := Vector.replicate _ .free
    free := List.finRange Config.segments
    chains := Vector.replicate _ []
    transit := none
    lc := { current := none, detached := false, arbiter := .relocation }
    relocation := []
    pge := { engine := .idle, batch := [], gatherTimer := false, suspendTimer := false, clear := none }
    claims := Vector.replicate _ none
    portA := .reset
    portB := .reset
    pending := [] }

/-- The machine right after power-on reset, with LAWSEL low (DESIGN CHOICE, log entry 13). -/
def State.reset : State := State.powerOn .aLaw

end Sys2Proof.Machine
end

