-- ==== Sys2Proof/Machine/Ops.lean ====
section
/-! DEFINITION. The named operations over the state: one accessor and one update for each numbered store, the channel
resets, and the raising of events (R158, R172 to R175). -/

namespace Sys2Proof.Machine

/-! ### Accessors and updates -/

/-- Channel n of CHT. -/
def State.channel (s : State) (n : ChannelNo) : Channel := s.channels[n.val]

/-- Changes one channel. -/
def State.modChannel (s : State) (n : ChannelNo) (f : Channel → Channel) : State :=
  { s with channels := s.channels.set n.val (f (s.channel n)) }

/-- The record of segment g. -/
def State.segment (s : State) (g : SegNo) : Segment := s.segments[g.val]

/-- Changes one segment record. -/
def State.modSegment (s : State) (g : SegNo) (f : Segment → Segment) : State :=
  { s with segments := s.segments.set g.val (f (s.segment g)) }

/-- Changes the records of some segments. -/
def State.modSegments (s : State) (l : List SegNo) (f : Segment → Segment) : State :=
  l.foldl (fun s g => s.modSegment g f) s

/-- A channel or work list, first segment first. -/
def State.chain (s : State) (c : ChainCode) : List SegNo := s.chains[c.val]

/-- Replaces a channel or work list. -/
def State.setChain (s : State) (c : ChainCode) (l : List SegNo) : State :=
  { s with chains := s.chains.set c.val l }

/-- The holder of a claimable (R152). -/
def State.holder (s : State) (c : ChainCode) : Holder := s.claims[c.val]

/-- Changes the holder of a claimable. -/
def State.setHolder (s : State) (c : ChainCode) (h : Holder) : State :=
  { s with claims := s.claims.set c.val h }

/-- What a channel has done in the frame in progress. -/
def State.mark (s : State) (n : ChannelNo) : FrameMark := s.hwi.marks[n.val]

/-- Changes a channel's frame mark. -/
def State.modMark (s : State) (n : ChannelNo) (f : FrameMark → FrameMark) : State :=
  { s with hwi := { s.hwi with marks := s.hwi.marks.set n.val (f (s.mark n)) } }

/-- Sends codes on Rout and Sout in a timeslot. -/
def State.sendCodes (s : State) (t : Timeslot) (rout sout : Byte) : State :=
  { s with hwi := { s.hwi with rout := s.hwi.rout.set t.val rout, sout := s.hwi.sout.set t.val sout } }

/-- A plane's link. -/
def State.port (s : State) : Plane → Port
  | .a => s.portA
  | .b => s.portB

/-- Changes a plane's link. -/
def State.modPort (s : State) (p : Plane) (f : Port → Port) : State :=
  match p with
  | .a => { s with portA := f s.portA }
  | .b => { s with portB := f s.portB }

/-- Changes a plane's panel. -/
def State.modPanel (s : State) (p : Plane) (f : Panel → Panel) : State :=
  s.modPort p fun port => { port with panel := f port.panel }

/-- Changes a plane's event queue. -/
def State.modQueue (s : State) (p : Plane) (f : Queue → Queue) : State :=
  s.modPort p fun port => { port with queue := f port.queue }

/-- The code of channel n's list, which is n (section 5.1). -/
def channelCode (n : ChannelNo) : ChainCode := ⟨n.val, Nat.lt_trans n.isLt (by decide)⟩

/-- The channel whose list has the given code; none for a work list. -/
def codeChannel (c : ChainCode) : Option ChannelNo := if h : c.val < Config.channels then some ⟨c.val, h⟩ else none

/-- The chain a channel works with (R32). -/
def State.channelChain (s : State) (n : ChannelNo) : List SegNo := s.chain (channelCode n)

/-- The start delay of a segment of a channel or work list; such a segment has one (R19). -/
def State.delay (s : State) (g : SegNo) : Nat := (s.segment g).startDelay.getD 0

/-! ### Channel resets (R5, R6, R13) -/

/-- A direction of LSU with gain, counts, flag and window accumulator at their defaults; the block accumulator is kept
(R149, R150). -/
def lsuRestart (a : AlcConfig) (d : LsuDir) : LsuDir :=
  { d with gain := a.startGain, high := 0, low := 0, limit := false, windowAcc := [] }

/-- The status record at the defaults of R9 and the hidden state at its power-on values, as R5, R6 and R13 have them
in common, under the given record. Kept: the records, the search cursor, the owed flag, and everything of the block in
progress. -/
def Channel.restarted (c : Channel) (r : ConfigRecord) : Channel :=
  { c with
    converged := false, erle := 0, divCount := 0, divState := .steady, doubleTalk := false, suppressor := .opened,
    tone := .listening, receive := lsuRestart r.receive c.receive, send := lsuRestart r.send c.send, blockCount := 0,
    history := zeroHistory, peakHistory := zeroPeaks, hangover := 0, toneCount := 0, reversed := false, quietCount := 0,
    suppHangover := 0, background := -700, runCount := 0, trackCount := 0, windowPos := 0 }

/-- Drops the block in progress with its partial measurements (R5, R17, R90, R138). The next block has no block directly
before it (log entry 10). The wholly running mark is kept as the dropped block left it: the spec gives the mark of the first
block after a framing loss only where RUNNING is left during the loss (DESIGN CHOICE, log entry 20). -/
def Channel.dropBlock (c : Channel) : Channel :=
  { c with acc := .zero, toneRin := [], toneSin := [], beforeRin := [], beforeSin := [],
           receive := { c.receive with blockAcc := [] }, send := { c.send with blockAcc := [] } }

/-! ### Raising events -/

/-- The kind of an event. -/
def eventKind : Event → EventKind
  | .converged .. => .converged
  | .diverged .. => .diverged
  | .toneBypass .. => .toneBypass
  | .levelLimit .. => .levelLimit
  | .trackMoved .. => .trackMoved
  | .trackBlocked .. => .trackBlocked
  | .purgeDone .. => .purgeDone
  | .purgeResumed => .purgeResumed
  | .claimLost .. => .claimLost
  | .framingLost => .framingLost
  | .framingRestored => .framingRestored
  | .overrun .. => .overrun

/-- The subject of an event; none where R172's table has it absent. -/
def eventSubject : Event → Option ChainCode
  | .converged n _ | .diverged n _ _ | .toneBypass n _ | .levelLimit n _ _ | .trackMoved n _ _ _
  | .trackBlocked n _ _ => some (channelCode n)
  | .purgeDone c _ | .claimLost c _ => some c
  | .purgeResumed | .framingLost | .framingRestored | .overrun .. => none

/-- Whether a record is an OVERRUN. -/
def EventRecord.isOverrun (r : EventRecord) : Bool := decide (eventKind r.event = .overrun)

/-- The OVERRUN record that replaces a record: it names its kind and subject and carries its stamp (R172, R173). It is
routed to the queue that stores it (R158). -/
def overrunOf (r : EventRecord) : EventRecord :=
  { event := .overrun (eventKind r.event) (eventSubject r.event), stamp := r.stamp, both := false }

/-- What a queue holds after a record arrives at it (R173). -/
def storeRecord (r : EventRecord) (entries : List EventRecord) : List EventRecord :=
  if entries.length < 63 then entries ++ [r]
  else if entries.length = 63 ∧ (entries.getLast?.map EventRecord.isOverrun).getD false = false then
    entries ++ [overrunOf r]
  else entries

/-- A record arrives at a queue: it is stored, replaced or dropped (R173), and restarts the quiet timer (R175). -/
def Queue.arrive (q : Queue) (r : EventRecord) : Queue :=
  { q with entries := storeRecord r q.entries, quietTimer := true, quietMark := false }

/-- An event arrives at the queues its routing names, EQA first (R172; the stamp is R18's). -/
def State.raise (s : State) (toA toB : Bool) (e : Event) : State :=
  let r : EventRecord := { event := e, stamp := s.hwi.stamp, both := toA && toB }
  let s := if toA then s.modQueue .a (·.arrive r) else s
  if toB then s.modQueue .b (·.arrive r) else s

/-- An event routed to both queues (R15, R16, R72). -/
def State.raiseBoth (s : State) (e : Event) : State := s.raise true true e

/-- Whether a holder's routing reaches a plane's queue: the holder's own, both for NONE (R158). -/
def routesTo (h : Holder) (p : Plane) : Bool := decide (h = none ∨ h = some p)

/-- An event about a channel, routed by the channel's holder (R158). -/
def State.raiseChannel (s : State) (n : ChannelNo) (e : Event) : State :=
  let h := s.holder (channelCode n)
  s.raise (routesTo h .a) (routesTo h .b) e

end Sys2Proof.Machine
end

