-- ==== Sys2Proof/Machine/Signal.lean ====
section
/-! DEFINITION. Exact arithmetic on the values of the signal path, and the levels of R78.

A `Lin` stands for a sum of rational multiples of powers of 10^(1/200). Every value the spec computes without rounding
is one: an expanded sample is rational (R77), a gain of g dB is 10^(g/20) (R139), a level of L dBm0 is the power
0.5 · 10^((L − 3)/10) (R78). The polynomial x²⁰⁰ − 10 is irreducible (Eisenstein at 2), so a canonical `Lin` is zero
exactly when it is the empty list, and its sign is found by bounding it between two rationals (log entry 6). -/

namespace Sys2Proof.Machine

/-- The largest number below 2^bits on which a falling test holds (0 when it holds nowhere above 0). -/
def searchTop (test : Nat → Bool) : Nat → Nat → Nat
  | 0, low => low
  | bits + 1, low => if test (low + 2 ^ bits) then searchTop test bits (low + 2 ^ bits) else searchTop test bits low

/-- 10 to an integer power. -/
def pow10 : Int → Rat
  | .ofNat n => ((10 ^ n : Nat) : Rat)
  | .negSucc n => 1 / ((10 ^ (n + 1) : Nat) : Rat)

/-- Adds q · 10^(e/200), for e below 200, to a canonical sum. -/
def linInsert (e : Nat) (q : Rat) : Lin → Lin
  | [] => if q = 0 then [] else [(e, q)]
  | (e', q') :: rest =>
    if e < e' then (if q = 0 then (e', q') :: rest else (e, q) :: (e', q') :: rest)
    else if e = e' then (if q + q' = 0 then rest else (e, q + q') :: rest)
    else (e', q') :: linInsert e q rest

/-- The number q · 10^(k/200), for any integer k. -/
def linMono (k : Int) (q : Rat) : Lin := linInsert (k % 200).toNat (q * pow10 (k / 200)) []

/-- A rational number. -/
def linRat (q : Rat) : Lin := linMono 0 q

/-- Sum. -/
def linAdd (a b : Lin) : Lin := a.foldr (fun t acc => linInsert t.1 t.2 acc) b

/-- A rational multiple. -/
def linScale (q : Rat) (a : Lin) : Lin := if q = 0 then [] else a.map fun t => (t.1, q * t.2)

/-- Negation. -/
def linNeg (a : Lin) : Lin := linScale (-1) a

/-- Difference. -/
def linSub (a b : Lin) : Lin := linAdd a (linNeg b)

/-- Product. -/
def linMul (a b : Lin) : Lin :=
  a.foldr (fun t acc => b.foldr (fun u acc => linAdd (linMono (t.1 + u.1) (t.2 * u.2)) acc) acc) []

/-- Square. -/
def linSquare (a : Lin) : Lin := linMul a a

/-- Sum of a list of numbers. -/
def linSum (l : List Lin) : Lin := l.foldr linAdd []

/-- ⌊10^(e/200) · 2^p⌋ for e below 200. -/
def rootFloor (e p : Nat) : Nat := searchTop (fun t => decide (t ^ 200 ≤ 10 ^ e * 2 ^ (200 * p))) (p + 4) 0

/-- A rational below and a rational above 2^p times a number. -/
def linBounds (p : Nat) (a : Lin) : Rat × Rat :=
  a.foldr (fun t acc =>
    let low : Rat := (rootFloor t.1 p : Nat)
    if 0 < t.2 then (acc.1 + t.2 * low, acc.2 + t.2 * (low + 1))
    else (acc.1 + t.2 * (low + 1), acc.2 + t.2 * low)) (0, 0)

/-- The sign found at precision p, or at a doubled one. -/
def signSearch (a : Lin) : Nat → Nat → Int
  | 0, _ => 0
  | fuel + 1, p =>
    let bounds := linBounds p a
    if 0 < bounds.1 then 1 else if bounds.2 < 0 then -1 else signSearch a fuel (2 * p)

/-- Doublings after which the sign of a canonical sum has been found: past the precision of the bound
1 ≤ |N(a)| ≤ |a| · (Σ|qᵢ| · 10)^199 for the sum cleared of its denominators. -/
def signFuel (a : Lin) : Nat :=
  Nat.log2 (200 * (a.foldr (fun t acc => acc + 8 + Nat.log2 (t.2.num.natAbs * t.2.den + 1) + Nat.log2 t.2.den) 8)) + 1

/-- The sign of a number: -1, 0 or 1. -/
def linSign : Lin → Int
  | [] => 0
  | [t] => if 0 < t.2 then 1 else if t.2 < 0 then -1 else 0
  | t :: u :: rest => signSearch (t :: u :: rest) (signFuel (t :: u :: rest)) 64

/-- a ≤ b. -/
def linLe (a b : Lin) : Bool := decide (0 ≤ linSign (linSub b a))

/-- a < b. -/
def linLt (a b : Lin) : Bool := decide (0 < linSign (linSub b a))

/-- The magnitude. -/
def linAbs (a : Lin) : Lin := if linSign a < 0 then linNeg a else a

/-- The larger of two numbers. -/
def linMax (a b : Lin) : Lin := if linLe a b then b else a

/-- "limited to the range −1 to +1: a value beyond either end is replaced by that end" (R139). -/
def linLimit (a : Lin) : Lin :=
  if linLt (linRat 1) a then linRat 1 else if linLt a (linRat (-1)) then linRat (-1) else a

/-- The factor 10^(g/20) of a gain of g dB, given in half decibels (section 8.3). -/
def gainFactor (halfDb : Int) : Lin := linMono (5 * halfDb) 1

/-- The mean power of a level given in 0.1 dBm0: 0.5 · 10^((L − 3)/10) (R78). -/
def levelPower (tenths : Int) : Lin := linMono (2 * tenths - 60) (1 / 2)

/-- Whether a mean power rounds to at least the given level in 0.1 dBm0: it lies above the power half a tenth of a dB
below that level. R78 does not say which way an exact half goes (log entry 7). -/
def reachesLevel (power : Lin) (tenths : Int) : Bool :=
  match linSign (linSub power (linMono (2 * tenths - 61) (1 / 2))) with
  | .ofNat 0 => Config.levelTieUp tenths
  | .ofNat (_ + 1) => true
  | .negSucc _ => false

/-- The level of a mean power in 0.1 dBm0, from −70 to +3 dBm0 (R78). -/
def levelOf (power : Lin) : Int :=
  if power = [] then -700
  else (min (searchTop (fun n => reachesLevel power ((n : Int) - 700)) 10 0) 730 : Nat) - 700

end Sys2Proof.Machine
end

