-- ==== Sys2Proof/Machine/ComfortNoise.lean ====
section
/-! DEFINITION. The comfort noise of R114: the sequence of a channel's generator, a free value that has the flat spectrum and
the power the rule gives, and the noise of a block (log entries 8 and 25). -/

namespace Sys2Proof.Machine

/-- The sum of the products of a periodic sequence, one period given, and itself `lag` samples later. -/
def autocorrelation (sequence : List Rat) (lag : Nat) : Rat :=
  ((List.range sequence.length).map fun i =>
    sequence.getD i 0 * sequence.getD ((i + lag) % sequence.length) 0).sum

/-- "Its spectrum is flat from 0 to 4000 Hz" (R114), of a periodic sequence: every line of its spectrum above 0 Hz has the
same power and the line at 0 Hz no more, which is so exactly when its autocorrelation has one value, not above 0, at every
lag but that of the period. The lines stand at most 250 Hz apart. -/
def flatSpectrum (sequence : List Rat) : Bool :=
  decide (32 ≤ sequence.length) && decide (autocorrelation sequence 1 ≤ 0) &&
    (List.range sequence.length).all fun lag =>
      decide (lag = 0) || decide (autocorrelation sequence lag = autocorrelation sequence 1)

/-- The 32 samples from a place of a periodic sequence on, at a background estimate of some tenths of a dBm0: the sequence
is given at +3 dBm0. -/
def noiseWindow (sequence : List Rat) (start : Nat) (background : Int) : List Lin :=
  (List.range 32).map fun i => linMono (background - 30) (sequence.getD ((start + i) % sequence.length) 0)

/-- The samples of a block have a mean power within 0.5 dB of the background estimate's (R114). -/
def noiseInBound (samples : List Lin) (background : Int) : Bool :=
  let total := linSum (samples.map linSquare)
  linLe (linScale 32 (linMono (2 * background - 70) (1 / 2))) total &&
    linLe total (linScale 32 (linMono (2 * background - 50) (1 / 2)))

/-- A sequence is one R114 allows: its spectrum is flat, and the power of any 32 samples in a row is in bound, at every
background estimate from −70 to +3 dBm0. -/
def allowedNoise (sequence : List Rat) : Bool :=
  flatSpectrum sequence && (List.range sequence.length).all fun start => (List.range 731).all fun k =>
    noiseInBound (noiseWindow sequence start ((k : Int) - 700)) ((k : Int) - 700)

/-- A sequence that R114 allows, for a free value that it does not: the quadratic residues modulo 43 as signs, a
pseudo-random sequence whose power is within 0.1 dB of the estimate's (log entry 8). -/
def residueNoise : List Rat :=
  (List.range 43).map fun i => if (List.range 43).any fun j => decide (j * j % 43 = i) then 7 / 10 else -7 / 10

/-- The sequence of a channel's comfort noise generator (R114): a free value among those the rule allows. -/
def noiseSequence (n : ChannelNo) : List Rat :=
  if allowedNoise (Config.noiseSequence n.val) then Config.noiseSequence n.val else residueNoise

/-- The comfort noise of a channel's block (R114): the next 32 samples of the sequence, at the background estimate. -/
def noiseBlock (n : ChannelNo) (block : Nat) (background : Int) : List Lin :=
  noiseWindow (noiseSequence n) (32 * block) background

end Sys2Proof.Machine
end

