-- ==== Sys2Proof/Machine/Companding.lean ====
section
/-! DEFINITION. The companding laws: expansion of a highway code and the code sent for a linear value (R77). -/

namespace Sys2Proof.Machine

/-- The mask of a law (R77). -/
def lawMask : Law → Byte
  | .aLaw => 0x55
  | .muLaw => 0xFF

/-- Full scale of a law (R77). -/
def lawFullScale : Law → Nat
  | .aLaw => 4032
  | .muLaw => 8031

/-- The magnitude M of segment number e and step number m (R77). -/
def lawMagnitude (law : Law) (e m : Nat) : Nat :=
  match law with
  | .aLaw => if e = 0 then 2 * m + 1 else (2 * m + 33) * 2 ^ (e - 1)
  | .muLaw => if e = 0 then 2 * m else (2 * m + 33) * 2 ^ e - 33

/-- Whether bit 7, after the mask, means a positive value (R77). -/
def lawPositive (law : Law) (bit7 : Bool) : Bool :=
  match law with
  | .aLaw => bit7
  | .muLaw => !bit7

/-- The expanded magnitude of the code whose bits 6 to 0 after the mask are `i`, as a fraction of full scale: "Under
A-law, the two codes of magnitude 1 expand to 0" (R77). -/
def expandedMagnitude (law : Law) (i : Nat) : Rat :=
  let m := lawMagnitude law (i / 16) (i % 16)
  if law = .aLaw ∧ m = 1 then 0 else (m : Rat) / (lawFullScale law : Rat)

/-- The linear value of a code (R77). -/
def expand (law : Law) (code : Byte) : Rat :=
  let masked := code ^^^ lawMask law
  let value := expandedMagnitude law (masked.toNat % 128)
  if lawPositive law (masked.toNat ≥ 128) then value else -value

/-- The code with the given sign whose bits 6 to 0 after the mask are `i`. -/
def codeOf (law : Law) (positive : Bool) (i : Nat) : Byte :=
  BitVec.ofNat 8 (i + if lawPositive law true = positive then 128 else 0) ^^^ lawMask law

/-- The index of the expanded magnitude nearest to a magnitude; of two equally near, the smaller (R77). -/
def nearestIndex (law : Law) (magnitude : Lin) : Nat :=
  searchTop (fun i =>
    linLt (linRat ((expandedMagnitude law (i - 1) + expandedMagnitude law i) / 2)) magnitude) 7 0

/-- The code sent for a linear value already limited to −1 to +1 (R77). -/
def compand (law : Law) (value : Lin) : Byte :=
  let i := nearestIndex law (linAbs value)
  if expandedMagnitude law i = 0 then idleCode law else codeOf law (decide (0 < linSign value)) i

end Sys2Proof.Machine
end

