-- ==== Sys2Proof/Machine/Flags.lean ====
section
/-! DEFINITION. The conditions that follow from the state at all times: the canceller state, a list in purge, the place
of a segment, the server of a timeslot, attention. -/

namespace Sys2Proof.Machine

/-- The list has an unfinished entry in the Purge Batch (R60). -/
def State.unfinished (s : State) (c : ChainCode) : Bool :=
  s.pge.batch.any fun e => decide (e.list = c) && !e.finished

/-- The canceller state of a channel: the first case of R8 that applies. -/
def State.canceller (s : State) (n : ChannelNo) : Canceller :=
  let c := s.channel n
  if c.governing.mode = .off then .off
  else if s.unfinished (channelCode n) ∨ c.owed then .restarting
  else if c.tone = .bypassFull then .bypassed
  else .running

/-- The list is in purge (R45). -/
def State.inPurge (s : State) (c : ChainCode) : Bool :=
  s.unfinished c &&
    match s.pge.engine with
    | .gathering | .running | .suspending => true
    | .idle | .suspended => false

/-- The plane holds the claimable (R152). -/
def State.holds (s : State) (p : Plane) (c : ChainCode) : Bool := decide (s.holder c = some p)

/-- Where a segment stands (R19's list field). -/
inductive Place
  | free
  | chain (c : ChainCode)
  | transit
  deriving DecidableEq, Repr

/-- The place of a segment, read off the lists and the in-transit slot (R19, R24). -/
def State.place (s : State) (g : SegNo) : Place :=
  if s.transit = some g then .transit
  else match (List.finRange Config.chains).find? fun c => decide (g ∈ s.chain c) with
    | some c => .chain c
    | none => .free

/-- The element before `g` in a list. -/
def before (g : SegNo) : List SegNo → Option SegNo
  | x :: y :: rest => if y = g then some x else before g (y :: rest)
  | _ => none

/-- The element after `g` in a list. -/
def after (g : SegNo) : List SegNo → Option SegNo
  | x :: y :: rest => if x = g then some y else after g (y :: rest)
  | _ => none

/-- The list that holds a segment; empty for a segment in transit. -/
def State.listOf (s : State) (g : SegNo) : List SegNo :=
  match s.place g with
  | .free => s.free
  | .chain c => s.chain c
  | .transit => []

/-- The prev field of R19. -/
def State.prev (s : State) (g : SegNo) : Option SegNo := before g (s.listOf g)

/-- The next field of R19. -/
def State.next (s : State) (g : SegNo) : Option SegNo := after g (s.listOf g)

/-- A channel serves a timeslot: its mode is not OFF, its governing record names the timeslot, and it did not take the
timeslot up in this very frame (R2, R11). -/
def State.serves (s : State) (n : ChannelNo) (t : Timeslot) : Bool :=
  let c := s.channel n
  decide (c.governing.mode ≠ .off) && decide (c.governing.timeslot = t) && !(s.mark n).joining

/-- Some channel serves the timeslot (R2). -/
def State.served (s : State) (t : Timeslot) : Bool :=
  (List.finRange Config.channels).any fun n => s.serves n t

/-- A record that asserts attention by its kind (R176, condition 3). -/
def EventRecord.urgent (r : EventRecord) : Bool :=
  match eventKind r.event with
  | .claimLost | .diverged | .framingLost => true
  | .converged | .toneBypass | .levelLimit | .trackMoved | .trackBlocked | .purgeDone | .purgeResumed
  | .framingRestored | .overrun => false

/-- ATTN is asserted (R176). -/
def Queue.attn (q : Queue) : Bool :=
  decide (q.trigger ≤ q.entries.length) || (decide (0 < q.entries.length) && q.quietMark) || q.entries.any (·.urgent)

/-- LC is FREE (R40). -/
def State.lcFree (s : State) : Bool := s.lc.current.isNone

/-- A requester of LC's arbiter is waiting (R42). -/
def State.waiting (s : State) : Requester → Bool
  | .panel p => decide ((s.port p).panel.state = .pending)
  | .relocation => !s.relocation.isEmpty

/-- The fixed rotation of R43, starting with the requester after the one last served. -/
def rotation : Requester → List Requester
  | .panel .a => [.panel .b, .relocation, .panel .a]
  | .panel .b => [.relocation, .panel .a, .panel .b]
  | .relocation => [.panel .a, .panel .b, .relocation]

/-- The arbiter's choice: while LC is FREE, the first waiting requester in the rotation (R43). -/
def State.choice (s : State) : Option Requester :=
  if s.lcFree then (rotation s.lc.arbiter).find? s.waiting else none

end Sys2Proof.Machine
end

