-- ==== Sys2Proof/Machine/Pool.lean ====
section
/-! DEFINITION. The four kinds of structural event of the Tail Segment Pool (R28 to R31), and the segment record's own
updates (R20 to R22). -/

namespace Sys2Proof.Machine

/-- The weight of 64 coefficients in units of 2⁻³⁰ (R21). -/
def weightOf (coeffs : Vector Word 64) : Nat := (coeffs.toList.map fun w => (w.toInt * w.toInt).toNat).sum

/-- Refreshes the weight of a segment (R21). -/
def Segment.refresh (x : Segment) : Segment := { x with weight := weightOf x.coeffs }

/-- Zeroes the coefficients, the weight and the vacancy count of a segment (R29, R30, R65). -/
def Segment.zero (x : Segment) : Segment := { x with coeffs := zeroCoeffs, weight := 0, vacancy := 0 }

/-- A structural event on a list sets the progress of its unfinished batch entry to 0, and marks the clear in progress
on it as disturbed (R68). -/
def State.resetProgress (s : State) (c : ChainCode) : State :=
  { s with pge := { s.pge with
      batch := s.pge.batch.map fun e => if e.list = c ∧ e.finished = false then { e with progress := 0 } else e
      clear := s.pge.clear.map fun k => if k.list = c ∧ s.unfinished c then { k with disturbed := true } else k } }

/-- Unlink of a segment from a channel or work list (R28). -/
def State.unlink (s : State) (c : ChainCode) (g : SegNo) : State :=
  ({ s.setChain c ((s.chain c).erase g) with transit := some g }).resetProgress c

/-- Unlink of F's first segment (R28). -/
def State.unlinkFree (s : State) (g : SegNo) : State := { s with free := s.free.erase g, transit := some g }

/-- Places a segment before the first segment of the list whose start delay is greater, or at the end (R29). -/
def insertByDelay (delayOf : SegNo → Nat) (g : SegNo) (delay : Nat) : List SegNo → List SegNo
  | [] => [g]
  | x :: rest => if delay < delayOf x then g :: x :: rest else x :: insertByDelay delayOf g delay rest

/-- Link of a segment into a channel or work list at a start delay, with or without a zeroing order (R29). -/
def State.link (s : State) (c : ChainCode) (g : SegNo) (delay : Nat) (zeroing : Bool) : State :=
  let linked := { s.setChain c (insertByDelay s.delay g delay (s.chain c)) with transit := none }
  (linked.modSegment g fun x => { (if zeroing then x.zero else x) with startDelay := some delay }).resetProgress c

/-- Link of a segment into the free list, which clears it (R30). -/
def State.linkFree (s : State) (g : SegNo) : State :=
  { s with free := s.free ++ [g], transit := none }.modSegment g fun _ => .free

/-- List exchange of a channel list and a work list (R31). -/
def State.exchange (s : State) (c w : ChainCode) : State :=
  (((s.setChain c (s.chain w)).setChain w (s.chain c)).resetProgress c).resetProgress w

/-- Two start delays overlap (R27). -/
def overlaps (d e : Nat) : Bool := decide (d < e + 64) && decide (e < d + 64)

/-- A start delay is acceptable (R47, check 5). -/
def goodDelay (d : Nat) : Bool := decide (d % 8 = 0) && decide (d ≤ Config.maxDelay)

end Sys2Proof.Machine
end

