-- ==== Sys2Proof/Machine/Estimator.lean ====
section
/-! DEFINITION. The Echo Estimator and Adapter at a sample-pair arrival, and the arrival itself (R10, R79 to R86, R90, R139,
R140). -/

namespace Sys2Proof.Machine

/-- A coefficient as a fraction (R20). -/
def coeffValue (w : Word) : Rat := (w.toInt : Rat) / 32768

/-- The reference samples that the taps of a segment meet: those at delays d to d + 63 (R79). -/
def tapSamples (history : List Lin) (delay : Nat) : List Lin := (history.drop delay).take 64

/-- The products of one segment (R80). -/
def segmentEstimate (coeffs : Vector Word 64) (samples : List Lin) : Lin :=
  linSum (List.zipWith (fun w x => linScale (coeffValue w) x) coeffs.toList samples)

/-- The echo estimate of a channel against a reference history (R80). -/
def State.estimate (s : State) (n : ChannelNo) (history : List Lin) : Lin :=
  linSum ((s.channelChain n).map fun g => segmentEstimate (s.segment g).coeffs (tapSamples history (s.delay g)))

/-- The error of an arrival (R81). -/
def arrivalError (state : Canceller) (sin estimate : Lin) : Lin :=
  linLimit (match state with
    | .running => linSub sin estimate
    | .off | .restarting | .bypassed => sin)

/-- The normaliser (R83): the squares of the reference samples the chain covers, and the floor of a −60 dBm0 signal for
each tap. -/
def State.normaliser (s : State) (n : ChannelNo) (history : List Lin) : Lin :=
  let chain := s.channelChain n
  linAdd (linSum (chain.map fun g => linSum ((tapSamples history (s.delay g)).map linSquare)))
    (linScale ((64 * chain.length : Nat) : Rat) (levelPower (-600)))

/-- The step of R84: the field's, halved in WATCHFUL. -/
def stepValue (step : StepSize) (state : Divergence) : Rat :=
  let field : Rat := match step with
    | .half => 1 / 2
    | .quarter => 1 / 4
    | .eighth => 1 / 8
    | .sixteenth => 1 / 16
  if state = .watchful then field / 2 else field

/-- The whole number of steps of 1/32768 nearest to numerator / denominator, half way going toward zero (R85). The
denominator is above 0. A magnitude past 17 bits gives 131071 steps: the coefficient saturates all the same. -/
def roundSteps (numerator denominator : Lin) : Int :=
  if numerator = [] then 0
  else
    let twice := linScale 65536 (linAbs numerator)
    let steps := searchTop (fun n => linLt (linScale ((2 * n - 1 : Nat) : Rat) denominator) twice) 17 0
    if linSign numerator < 0 then -(steps : Int) else steps

/-- Adds an increment to a coefficient, saturating at the ends of the range (R85). -/
def saturate (w : Word) (steps : Int) : Word :=
  BitVec.ofInt 16 (max (-32768) (min 32767 (w.toInt + steps)))

/-- The update of one segment's taps (R83, R85): `scaledError` is the step times the error. -/
def adaptCoeffs (coeffs : Vector Word 64) (samples : List Lin) (scaledError denominator : Lin) : Vector Word 64 :=
  Vector.ofFn fun k : Fin 64 =>
    saturate coeffs[k.val] (roundSteps (linMul scaledError (samples.getD k.val [])) denominator)

/-- The update of every tap of the chain at an arrival that adapts (R82, R83). -/
def State.adapt (s : State) (n : ChannelNo) (history : List Lin) (error : Lin) : State :=
  let c := s.channel n
  let scaled := linScale (stepValue c.governing.step c.divState) error
  let denominator := s.normaliser n history
  (s.channelChain n).foldl (fun t g => t.modSegment g fun x =>
    { x with coeffs := adaptCoeffs x.coeffs (tapSamples history (s.delay g)) scaled denominator }) s

/-- What reaches the send gain (R10 step 5, R115, R140). -/
def sendPath (c : Channel) (n : ChannelNo) (phase : Nat) (sin error : Lin) : Lin :=
  match c.governing.mode, c.suppressor with
  | .active, .opened => error
  | .active, .closed => (noiseBlock n c.freeBlock c.background).getD phase []
  | .observe, _ | .off, _ => sin

/-- A sample multiplied by a gain and limited (R139, R140). -/
def gained (halfDb : Int) (x : Lin) : Lin := linLimit (linMul (gainFactor halfDb) x)

/-- Adds a sample's square to a direction's block accumulator (R138). -/
def LsuDir.measure (d : LsuDir) (x : Lin) : LsuDir := { d with blockAcc := linAdd d.blockAcc (linSquare x) }

/-- Adds an arrival to the block accumulators (R90). -/
def BlockAcc.add (a : BlockAcc) (ref sin error : Lin) : BlockAcc :=
  { refPower := linAdd a.refPower (linSquare ref), sinPower := linAdd a.sinPower (linSquare sin),
    errorPower := linAdd a.errorPower (linSquare error), sinPeak := linMax a.sinPeak (linAbs sin),
    refPeak := linMax a.refPeak (linAbs ref) }

/-- The reference history with a new sample at delay 0 (R79). -/
def pushHistory (x : Lin) (history : List Lin) : List Lin := (x :: history).take Config.historyLength

/-- Whether a channel takes an arrival: framing FRAMED, mode not OFF, none taken in this frame, and its timeslot not
taken up in this frame (R10, R11, R17). -/
def State.arrivalDue (s : State) (n : ChannelNo) : Bool :=
  decide (s.hwi.framing = .framed) && decide ((s.channel n).governing.mode ≠ .off) && !(s.mark n).arrived &&
    !(s.mark n).joining

/-- The sample-pair arrival of a channel that takes one (R10). -/
def State.arrivalWork (s : State) (n : ChannelNo) (rinCode sinCode : Byte) : State :=
  let c := s.channel n
  let law := s.hwi.law
  let rin := expand law rinCode
  let sin := expand law sinCode
  let reference := gained c.receive.gain (linRat rin)
  let history := pushHistory reference c.history
  let state := s.canceller n
  let error := arrivalError state (linRat sin) (s.estimate n history)
  let path := sendPath c n s.hwi.phase (linRat sin) error
  let adapted := if c.standing = .adapt ∧ state = .running then s.adapt n history error else s
  let stored := adapted.modChannel n fun c =>
    { c with history := history, acc := c.acc.add reference (linRat sin) error,
             toneRin := c.toneRin ++ [rin], toneSin := c.toneSin ++ [sin],
             receive := c.receive.measure (linRat rin), send := c.send.measure path,
             whollyRunning := c.whollyRunning && decide (state = .running) }
  (stored.sendCodes c.governing.timeslot (compand law reference) (compand law (gained c.send.gain path))).modMark n
    ({ · with arrived := true })

/-- SAMPLE_PAIR_ARRIVAL: an arrival the channel does not take does not occur (R11, R17; log entry 2). -/
def State.arrival (s : State) (n : ChannelNo) (rinCode sinCode : Byte) : State :=
  if s.arrivalDue n then s.arrivalWork n rinCode sinCode else s

/-- TRANSPARENT_TIMESLOT: while framing is FRAMED, the codes of a timeslot that no channel serves pass unchanged (R2). -/
def State.transparent (s : State) (t : Timeslot) (rinCode sinCode : Byte) : State :=
  if s.hwi.framing = .framed ∧ s.served t = false then s.sendCodes t rinCode sinCode else s

end Sys2Proof.Machine
end

