-- ==== Sys2Proof/Machine/ToneBand.lean ====
section
/-! DEFINITION. What TBD finds in the samples of one direction of a block: the tone-band level (R103) and the phase
reversals (R104). The spec gives neither a filter nor a way to find a phase in 32 samples: both are taken from the tone
that fits the samples best, and where that leaves them open they are free values (log entries 9 and 10). -/

namespace Sys2Proof.Machine

/-- The level of a block of 32 samples with the given sum of squares (R78). -/
def blockLevel (sumSquares : Lin) : Int := levelOf (linScale (1 / 32) sumSquares)

/-- The sum of the products of two lists of samples. -/
def dot (x y : List Rat) : Rat := (List.zipWith (· * ·) x y).sum

/-- The power of a list of samples as a sum of squares. -/
def sumSquares (samples : List Rat) : Lin := linRat (dot samples samples)

/-! ### Tones

A tone of angular frequency ω satisfies x(i + 1) = 2 cos ω x(i) − x(i − 1). It is given here by its factor cos ω and by its
samples at two successive instants, its pair. -/

/-- `length` samples of the tone with first samples x and y. -/
def resonate (factor : Rat) : Nat → Rat → Rat → List Rat
  | 0, _, _ => []
  | length + 1, x, y => x :: resonate factor length y (2 * factor * y - x)

/-- The pair of a tone some samples later. -/
def goOn (factor : Rat) : Nat → Rat × Rat → Rat × Rat
  | 0, pair => pair
  | length + 1, (x, y) => goOn factor length (y, 2 * factor * y - x)

/-- The tone of a frequency, of any amplitude and phase, that fits some samples best in the sense of least squares, by its
first pair, and its energy over them, which is never above their own. -/
def fitTone (factor : Rat) (samples : List Rat) : (Rat × Rat) × Rat :=
  let u := resonate factor samples.length 1 0
  let v := resonate factor samples.length 0 1
  let uu := dot u u
  let uv := dot u v
  let vv := dot v v
  let xu := dot samples u
  let xv := dot samples v
  let det := uu * vv - uv * uv
  if det = 0 then ((samples.getD 0 0, samples.getD 1 0), dot samples samples)
  else
    let a := (vv * xu - uv * xv) / det
    let b := (uu * xv - uv * xu) / det
    ((a, b), min (dot samples samples) (a * xu + b * xv))

/-- The inner product of two tones of one frequency: the product of their amplitudes and of the cosine of the phase between
them, up to a factor above 0 that only the frequency gives. -/
def alike (factor : Rat) (p q : Rat × Rat) : Rat := p.1 * q.1 - factor * (p.1 * q.2 + p.2 * q.1) + p.2 * q.2

/-- A step of phase in a tone: its frequency, its pair as the tone before would have gone on, and its pair as it is. -/
structure PhaseStep where
  factor : Rat
  undisturbed : Rat × Rat
  actual : Rat × Rat
  deriving DecidableEq, Repr

/-- A step of phase lies within an angle of half a turn; `square` is the square of the angle's cosine. -/
def PhaseStep.within (x : PhaseStep) (square : Rat) : Bool :=
  let product := alike x.factor x.undisturbed x.actual
  decide (product < 0) &&
    decide (square * alike x.factor x.undisturbed x.undisturbed * alike x.factor x.actual x.actual ≤ product * product)

/-- The amplitudes before and after a step differ by no more than a factor of 2. -/
def PhaseStep.isLevel (x : PhaseStep) : Bool :=
  let before := alike x.factor x.undisturbed x.undisturbed
  let after := alike x.factor x.actual x.actual
  decide (before ≤ 4 * after) && decide (after ≤ 4 * before)

/-- "Between 155° and 205°" (R104): within 25° of half a turn, by the square of the cosine to twelve decimals. -/
def reversalAngle : Rat := 821393804843 / 1000000000000

/-- Within 10° and within 40° of half a turn: the steps that are a reversal and that are none whatever a disturbance of the
tone makes of its phase (log entry 10). -/
def sureAngle : Rat := 969846310393 / 1000000000000

def widestAngle : Rat := 586824088833 / 1000000000000

/-! ### The tones of a block (log entry 9) -/

/-- A part of a block with the tone fitted to it: the instant it starts at and its pair there. -/
structure Span where
  start : Nat
  samples : List Rat
  pair : Rat × Rat
  deriving DecidableEq, Repr

/-- A tone fitted to the parts of a block, each with its own amplitude and phase: the spans of at least two samples, which
tell its phase, the length of the block, and the energy of the tone over it. -/
structure ToneFit where
  factor : Rat
  spans : List Span
  length : Nat
  energy : Rat
  deriving DecidableEq, Repr

/-- The spans of the parts of a block from an instant on. -/
def spansOf (factor : Rat) : Nat → List (List Rat) → List Span
  | _, [] => []
  | start, part :: rest =>
    let later := spansOf factor (start + part.length) rest
    if part.length < 2 then later
    else { start := start, samples := part, pair := (fitTone factor part).1 } :: later

/-- The phase of a later span against the tone of an earlier one, as it would have gone on undisturbed. -/
def Span.stepTo (factor : Rat) (first second : Span) : PhaseStep :=
  { factor := factor, undisturbed := goOn factor (second.start - first.start) first.pair, actual := second.pair }

/-- For each span but the last, the phases of all the later ones against its tone: the first of them is the step that ends
the span, and the others say whether it lasts. -/
def departures (factor : Rat) : List Span → List (List PhaseStep)
  | x :: y :: rest => (y :: rest).map (x.stepTo factor) :: departures factor (y :: rest)
  | _ => []

/-- The steps of phase of a fitted tone, each with what becomes of it until the end of the block. -/
def ToneFit.departures (f : ToneFit) : List (List PhaseStep) := Machine.departures f.factor f.spans

/-- A fitted tone is one tone, unbroken or reversed: it has no step of phase, or one that may be a reversal and none at which
its amplitude jumps. -/
def ToneFit.isOneTone (f : ToneFit) : Bool :=
  let steps := f.departures.filterMap List.head?
  f.departures.isEmpty || (steps.any (·.within widestAngle) && steps.all (·.isLevel))

/-- The square of the largest amplitude among the spans of a tone. -/
def reach (factor : Rat) (spans : List Span) : Rat :=
  spans.foldr (fun x most => max most (alike factor x.pair x.pair / (1 - factor * factor))) 0

/-- The energy that a tone of a frequency may have in a part of a block: in a single sample, which any phase may give, no more
than the tone's amplitude allows. -/
def partEnergy (factor most : Rat) (part : List Rat) : Rat :=
  if part.length < 2 then min (dot part part) most else (fitTone factor part).2

/-- The tone of a frequency fitted to the parts of a block. -/
def fitParts (parts : List (List Rat)) (factor : Rat) : ToneFit :=
  let spans := spansOf factor 0 parts
  { factor := factor, spans := spans, length := (parts.map List.length).sum,
    energy := (parts.map (partEnergy factor (reach factor spans))).sum }

/-- The sums that give the factor of some samples: of each inner sample times its two neighbours, and of twice its
square. -/
def recurrence : List Rat → Rat × Rat
  | x :: y :: z :: rest =>
    let later := recurrence (y :: z :: rest)
    (y * (x + z) + later.1, 2 * y * y + later.2)
  | _ => (0, 0)

/-- The factor with which the parts of a block follow the recurrence of a tone best; none where they have no inner sample
other than 0. -/
def ownFactor (parts : List (List Rat)) : Option Rat :=
  let sums := parts.map recurrence
  let squares := (sums.map Prod.snd).sum
  if squares = 0 then none else some ((sums.map Prod.fst).sum / squares)

/-- Tones of the band 2079 Hz to 2121 Hz, 10.5 Hz apart, by the cosine of their phase advance in a sample of 125 µs, to
nine decimals. -/
def bandFactors : List Rat :=
  [-62006652 / 1000000000, -70235262 / 1000000000, -78459096 / 1000000000, -86677594 / 1000000000, -94890197 / 1000000000]

/-- A tone lies between 2079 Hz and 2121 Hz (R103). -/
def inBand (factor : Rat) : Bool :=
  decide (-94890197 / 1000000000 ≤ factor) && decide (factor ≤ -62006652 / 1000000000)

/-- The tones tried on a block for some ways to part it: the block's own tone and those of the band, with any steps of phase
between the parts. -/
def fitsOf (ways : List (List (List Rat))) : List ToneFit :=
  ways.flatMap fun parts =>
    (((ownFactor parts).toList ++ bandFactors).filter fun factor => decide (-1 ≤ factor) && decide (factor ≤ 1)).map
      (fitParts parts)

/-- The ways to part some samples in two. A single sample at an end tells no phase: the step is then told by the block on
that side. -/
def inTwo (samples : List Rat) : List (List (List Rat)) :=
  (List.range (samples.length - 1)).map fun k => [samples.take (k + 1), samples.drop (k + 1)]

/-- The ways to part some samples in three, the middle part of at least two samples. -/
def inThree (samples : List Rat) : List (List (List Rat)) :=
  (inTwo samples).flatMap fun parts =>
    ((inTwo (parts.getD 1 [])).drop 1).map fun later => parts.getD 0 [] :: later

/-- How clear a tone is in a block, by what it leaves of the block's energy: at most a thousandth, about what the companding
of a tone at −31 dBm0 may leave; at most a tenth; or more. -/
inductive Clarity
  | clear
  | disturbed
  | lost
  deriving DecidableEq, Repr

/-- The clarity of a fitted tone in a block of energy `own`. -/
def ToneFit.clarity (f : ToneFit) (own : Rat) : Clarity :=
  if 1000 * (own - f.energy) ≤ own then .clear else if 10 * (own - f.energy) ≤ own then .disturbed else .lost

/-- The less clear of two. -/
def Clarity.worse : Clarity → Clarity → Clarity
  | .clear, x => x
  | x, .clear => x
  | .lost, _ => .lost
  | _, .lost => .lost
  | .disturbed, .disturbed => .disturbed

/-- The tones tried on a block: unbroken ones, those with one step and those with two, and of more steps none where a fit
with fewer leaves nothing of the block. -/
def toneFits (samples : List Rat) : List ToneFit :=
  let own := dot samples samples
  let unbroken := fitsOf [[samples]]
  if unbroken.any fun f => decide (own ≤ f.energy) then unbroken
  else
    let stepped := unbroken ++ fitsOf (inTwo samples)
    if stepped.any fun f => decide (own ≤ f.energy) then stepped else stepped ++ fitsOf (inThree samples)

/-- The first of the fits with the most energy. -/
def bestFit : List ToneFit → Option ToneFit
  | [] => none
  | f :: rest =>
    match bestFit rest with
    | none => some f
    | some g => if f.energy < g.energy then some g else some f

/-- The energy of the best fit; 0 for none. -/
def bestEnergy (fits : List ToneFit) : Rat := ((bestFit fits).map ToneFit.energy).getD 0

/-- How little a fit parts the block: the sum of the squares of the lengths of its spans. -/
def ToneFit.wholeness (f : ToneFit) : Nat := (f.spans.map fun x => x.samples.length ^ 2).sum

/-- What a fit may leave of a block of energy `own` and be taken for its tone: twice what the best fit leaves, and where that
one is clear no more than a clear fit may. -/
def mayLeave (own : Rat) (fits : List ToneFit) : Rat :=
  let least := own - bestEnergy fits
  if 1000 * least ≤ own then min (2 * least) (own / 1000) else 2 * least

/-- Of the fits that take a block nearly as well as the best one does, those that part it least. A part of two samples fits
any pair, so the best fit alone would take a sample before a step and one after it for a part. -/
def plainFits (own : Rat) (fits : List ToneFit) : List ToneFit :=
  let near := fits.filter fun f => decide (own - f.energy ≤ mayLeave own fits)
  let most := near.foldr (fun f most => max f.wholeness most) 0
  near.filter fun f => decide (most ≤ f.wholeness)

/-- The tone of a block among some tones fitted to it: of those that part it least, the one that takes most. -/
def plainest (own : Rat) (fits : List ToneFit) : Option ToneFit := bestFit (plainFits own fits)

/-- The tone of the band that a block holds, if it is one. -/
def bandFit (samples : List Rat) : Option ToneFit :=
  plainest (dot samples samples) ((toneFits samples).filter fun f => inBand f.factor)

/-! ### The tone-band level (R103, log entry 9) -/

/-- The least and the most energy that the part of a block within the band may have. One tone of the band that takes the
energy e of the block's w is in that part, and what it leaves may take no more from it than its own energy: the part has
2 e − w or more. It has no more than the tones of the band take, whatever their steps. A block whose tone is outside the band
has no more in the band than that tone leaves. -/
def bandBounds (samples : List Rat) : Rat × Rat :=
  let fits := toneFits samples
  let own := dot samples samples
  let band := fits.filter fun f => inBand f.factor
  let most := bestEnergy band
  match plainest own fits with
  | none => (0, 0)
  | some f =>
    if inBand f.factor then (max 0 (2 * bestEnergy (band.filter (·.isOneTone)) - own), max 0 most)
    else (0, max 0 (min most (own - f.energy)))

/-- The tone-band level of R103: of the part of the block within the band, whose energy is a free value within the
bounds. -/
def toneBandLevel (n : ChannelNo) (block : Nat) (send : Bool) (samples : List Rat) : Int :=
  if samples.all fun x => decide (x = 0) then -700
  else
    let bounds := bandBounds samples
    blockLevel (linRat (max bounds.1 (min bounds.2 (Config.toneBandEnergy n.val block send samples))))

/-- The level of the whole block's signal in a direction (R103). -/
def directionLevel (samples : List Rat) : Int := blockLevel (sumSquares samples)

/-- A direction carries the tone in a block (R103). -/
def carriesTone (n : ChannelNo) (block : Nat) (send : Bool) (samples : List Rat) : Bool :=
  let band := toneBandLevel n block send samples
  decide (-310 ≤ band) && decide (directionLevel samples - band ≤ 10)

/-! ### Phase reversals (R104, log entry 10) -/

/-- The phases of a block's tone against that of the block before, as it would have gone on undisturbed from its last span,
taken at the frequency of the tone after: what becomes of a step across the boundary until the end of the block. -/
def boundaryDeparture (before after : ToneFit) : List PhaseStep :=
  match before.spans.getLast? with
  | none => []
  | some last =>
    let same := { last with pair := (fitTone after.factor last.samples).1 }
    after.spans.map fun x => same.stepTo after.factor { x with start := before.length + x.start }

/-- A step that lasts until the end of the block: the phase stays within an angle of half a turn from the undisturbed tone
(R104). -/
def lasts (square : Rat) (later : List PhaseStep) : Bool := !later.isEmpty && later.all (·.within square)

/-- Whether a reversal is among some steps of phase: one of 155° to 205° that lasts, where the tone is clear. Where it is
disturbed, one that stays within 10° of half a turn is, one that does not stay within 40° is not, and between them it is a
free value; where it is lost, nothing else tells. -/
def reversalAmong (clarity : Clarity) (free : Bool) (departures : List (List PhaseStep)) : Bool :=
  match clarity with
  | .clear => departures.any (lasts reversalAngle)
  | .disturbed => departures.any (lasts sureAngle) || (free && departures.any (lasts widestAngle))
  | .lost => free

/-- A reversal in the tone of a block, or across the boundary from the tone of the block directly before, if that is given.
How clear the block before is counts for the boundary only. -/
def reversalSeen (free : Bool) (before : Option (Clarity × ToneFit)) (clarity : Clarity) (f : ToneFit) : Bool :=
  reversalAmong clarity free f.departures ||
    match before with
    | none => false
    | some (clarityBefore, g) => reversalAmong (clarity.worse clarityBefore) free [boundaryDeparture g f]

/-- The tone of a block that is of the band, and how clear it is. -/
def clearFit (samples : List Rat) : Option (Clarity × ToneFit) :=
  (bandFit samples).map fun f => (f.clarity (dot samples samples), f)

/-- A reversal is seen in a block of a direction (R104): in the tone of the block, or across the boundary from a block
directly before that carries the tone as well. -/
def toneReversal (n : ChannelNo) (block : Nat) (send : Bool) (before samples : List Rat) : Bool :=
  let previous := if carriesTone n (block - 1) send before then clearFit before else none
  match clearFit samples with
  | none => false
  | some (clarity, f) => reversalSeen (Config.reversalSeen n.val block send before samples) previous clarity f

end Sys2Proof.Machine
end

