-- ==== Sys2Proof/Machine/Detectors.lean ====
section
/-! DEFINITION. What the watchers decide about a channel at a block boundary: block measurements (R91, R94), double
talk (R99 to R101), tone bypass (R103 to R108), divergence count (R119 to R121), convergence (R95), standing (R87),
residual suppression (R111 to R113). Each is a function of the channel and of the block record. -/

namespace Sys2Proof.Machine

/-! ### Block measurements -/

/-- A value limited to a range. -/
def clampInt (low high x : Int) : Int := max low (min high x)

/-- The block record of the closing block (R91, R92, R94). -/
def Channel.measured (c : Channel) : BlockRecord :=
  let rin := blockLevel c.acc.refPower
  let sin := blockLevel c.acc.sinPower
  let error := blockLevel c.acc.errorPower
  { rinLevel := rin, sinLevel := sin, errorLevel := error, erle := clampInt (-100) 600 (sin - error),
    farActive := decide (-400 ≤ rin), sinPeak := c.acc.sinPeak, refPeak := c.acc.refPeak,
    adapt := decide (c.standing = .adapt), whollyRunning := c.whollyRunning }

/-! ### Double talk -/

/-- The scale of a hybrid margin (R101's table; log entry 27). -/
def marginScale : Margin → Rat
  | .db0 => 1
  | .db3 => 7079 / 10000
  | .db6 => 5012 / 10000

/-- The peak history with the reference peak of the closing block as entry 0 (R99). -/
def pushPeak (x : Lin) (peaks : List Lin) : List Lin := (x :: peaks).take Config.peakHistoryLength

/-- The reference peak of R100: the largest entry from f ÷ 32 to (g + 94) ÷ 32, for the smallest and largest start
delays f and g of the chain. -/
def windowPeak (peaks : List Lin) (f g : Nat) : Lin :=
  ((peaks.drop (f / 32)).take ((g + 94) / 32 + 1 - f / 32)).foldl linMax []

/-- The double-talk test and its effects (R101). `delays` are the start delays of the channel list. -/
def Channel.testDoubleTalk (c : Channel) (delays : List Nat) (r : BlockRecord) : Channel :=
  let peaks := pushPeak r.refPeak c.peakHistory
  let c := { c with peakHistory := peaks }
  match delays with
  | [] => { c with doubleTalk := false, hangover := 0 }
  | d :: rest =>
    let peak := windowPeak peaks (rest.foldl min d) (rest.foldl max d)
    if linLt (linScale (marginScale c.governing.margin) peak) r.sinPeak then
      { c with doubleTalk := true, hangover := 8 }
    else if 0 < c.hangover then { c with doubleTalk := true, hangover := c.hangover - 1 }
    else { c with doubleTalk := false }

/-! ### Tone bypass -/

/-- What TBD measures in one direction of a block (R103, R104). -/
structure ToneMeasure where
  /-- The direction level in 0.1 dBm0. -/
  level : Int
  /-- The direction carries the tone. -/
  carries : Bool
  /-- A phase reversal is seen in the direction. -/
  reversal : Bool
  deriving DecidableEq, Repr

/-- The measurement of one direction (R103, R104): a direction that does not carry the tone gives no reversal. `before`
are the samples of the block directly before this one. -/
def toneMeasure (n : ChannelNo) (block : Nat) (send : Bool) (before samples : List Rat) : ToneMeasure :=
  let carries := carriesTone n block send samples
  { level := directionLevel samples, carries := carries, reversal := carries && toneReversal n block send before samples }

/-- What TBD finds in a block, both directions together (R103, R104, R107). -/
structure ToneBlock where
  tonePresent : Bool
  reversal : Bool
  quiet : Bool
  deriving DecidableEq, Repr

/-- The two directions of the closing block. -/
def Channel.toneBlock (c : Channel) (n : ChannelNo) : ToneBlock :=
  let r := toneMeasure n c.freeBlock false c.beforeRin c.toneRin
  let s := toneMeasure n c.freeBlock true c.beforeSin c.toneSin
  { tonePresent := r.carries || s.carries, reversal := r.reversal || s.reversal,
    quiet := decide (r.level < -360) && decide (s.level < -360) }

/-- A channel enters a tone state with counts 0 and the mark clear (R106, R107, R108). -/
def Channel.enterTone (c : Channel) (t : Tone) : Channel :=
  { c with tone := t, toneCount := 0, reversed := false, quietCount := 0 }

/-- The quiet count in a bypass state (R107, 2 and 3). -/
def Channel.quietStep (c : Channel) (quiet : Bool) : Channel :=
  if quiet then
    if 63 ≤ c.quietCount + 1 then { c with tone := .listening, quietCount := 0 }
    else { c with quietCount := c.quietCount + 1 }
  else { c with quietCount := 0 }

/-- The tone state machine with tone bypass enabled (R106, R107). -/
def Channel.toneEnabled (c : Channel) (b : ToneBlock) : Channel :=
  match c.tone with
  | .listening =>
    if b.tonePresent then { c with tone := .tone, toneCount := 1, reversed := b.reversal } else c
  | .tone =>
    if !b.tonePresent then { c with tone := .listening, toneCount := 0, reversed := false }
    else if c.toneCount < 99 then { c with toneCount := c.toneCount + 1, reversed := c.reversed || b.reversal }
    else if c.reversed || b.reversal then c.enterTone .bypassFull
    else c.enterTone .bypassSuppressor
  | .bypassSuppressor =>
    if b.reversal then { c with tone := .bypassFull, quietCount := 0 } else c.quietStep b.quiet
  | .bypassFull => c.quietStep b.quiet

/-- Whether a tone state is a bypass state (R106). -/
def Tone.isBypass : Tone → Bool
  | .bypassSuppressor | .bypassFull => true
  | .listening | .tone => false

/-- TBD's decision at a boundary (R106 to R108). -/
def Channel.decideTone (c : Channel) (n : ChannelNo) : Channel :=
  if c.governing.toneBypass then c.toneEnabled (c.toneBlock n) else c.enterTone .listening

/-- The new tone state to report: TONE_BYPASS is raised at entry to a bypass state, at the change from one to the other,
and at the return from one to LISTENING (R106, R107, R108). -/
def toneReport (old new : Tone) : Option Tone :=
  if old ≠ new ∧ (Tone.isBypass old ∨ Tone.isBypass new) then some new else none

/-! ### Divergence -/

/-- The closing block is counted (R119). -/
def countedBlock (r : BlockRecord) (doubleTalk : Bool) : Bool := r.whollyRunning && r.farActive && !doubleTalk

/-- The count after a counted block (R120). -/
def nextDivCount (count : Nat) (r : BlockRecord) : Nat :=
  if 10 < r.errorLevel - r.sinLevel then count + 8 else if 60 ≤ r.erle then count - 1 else count

/-- The state a count gives (R121). -/
def divStateOf (count : Nat) : Divergence :=
  if count < 96 then .steady else if count < 192 then .watchful else .diverged

/-- DVW's decision at a boundary (R119 to R122): in DIVERGED the count is frozen. -/
def Channel.decideDivergence (c : Channel) (r : BlockRecord) : Channel :=
  if c.divState = .diverged then c
  else
    let count := if countedBlock r c.doubleTalk then nextDivCount c.divCount r else c.divCount
    { c with divCount := count, divState := divStateOf count }

/-! ### Convergence and standing -/

/-- EEA's convergence decision (R95). -/
def Channel.decideConvergence (c : Channel) (r : BlockRecord) : Channel :=
  match c.divState with
  | .watchful | .diverged => { c with runCount := 0, converged := false }
  | .steady =>
    if !r.adapt then c
    else if 150 ≤ r.erle then
      { c with runCount := min 8 (c.runCount + 1), converged := c.converged || decide (8 ≤ c.runCount + 1) }
    else { c with runCount := 0 }

/-- The standing of the block that opens (R87): `state` is the canceller state after this boundary's decisions. -/
def Channel.decideStanding (c : Channel) (r : BlockRecord) (state : Canceller) : Channel :=
  { c with standing := if state = .running ∧ r.whollyRunning ∧ r.farActive ∧ c.doubleTalk = false then .adapt else .hold }

/-! ### Residual suppression -/

/-- Conditions 1 to 5 of R111. -/
def Channel.mayClose (c : Channel) : Bool :=
  c.governing.suppressor && decide (c.governing.mode = .active) && c.converged && !c.doubleTalk && !Tone.isBypass c.tone

/-- RSU's decision at a boundary (R111, R112). -/
def Channel.decideSuppressor (c : Channel) (r : BlockRecord) : Channel :=
  if !c.mayClose then { c with suppressor := .opened, suppHangover := 0 }
  else if r.errorLevel < -450 then { c with suppressor := .closed, suppHangover := 2 }
  else match c.suppressor with
    | .opened => c
    | .closed =>
      if 0 < c.suppHangover then { c with suppHangover := c.suppHangover - 1 } else { c with suppressor := .opened }

/-- The background estimate after a boundary (R113). -/
def Channel.moveBackground (c : Channel) (r : BlockRecord) : Channel :=
  if r.farActive ∨ c.doubleTalk then c
  else
    { c with background :=
        if r.sinLevel < c.background - 5 then c.background - 5
        else if c.background + 5 < r.sinLevel then c.background + 5
        else r.sinLevel }

end Sys2Proof.Machine
end

