-- ==== Sys2Proof/Machine/Levels.lean ====
section
/-! DEFINITION. The Level Setting Unit at a block boundary: windows, counting and stepping (R142 to R147), and the
applying of a changed record (R148). -/

namespace Sys2Proof.Machine

/-- The upper threshold in 0.1 dBm0: the upper level less the gain (R144). -/
def upperThreshold (a : AlcConfig) (gain : Int) : Int := 10 * a.upper - 5 * gain

/-- The lower threshold in 0.1 dBm0 (R144). -/
def lowerThreshold (a : AlcConfig) (gain : Int) : Int := 10 * a.lower - 5 * gain

/-- A step of the gain by `up` half decibels, refused at ±12 dB (R145, R146). The gain of LEVEL_LIMIT is given when the
refusal is to be reported. -/
def LsuDir.step (d : LsuDir) (up : Int) : LsuDir × Option Int :=
  if -24 ≤ d.gain + up ∧ d.gain + up ≤ 24 then ({ d with gain := d.gain + up, limit := false }, none)
  else if d.limit then (d, none)
  else ({ d with limit := true }, some d.gain)

/-- The judgement of a window level in AUTO (R144 to R146). -/
def LsuDir.judgeAuto (d : LsuDir) (a : AlcConfig) (level : Int) : LsuDir × Option Int :=
  if level < -450 then (d, none)
  else if upperThreshold a d.gain < level then
    let counted := { d with low := 0, high := d.high + 1 }
    if 4 ≤ d.high + 1 then LsuDir.step { counted with high := 0 } (-1) else (counted, none)
  else if level < lowerThreshold a d.gain then
    let counted := { d with high := 0, low := d.low + 1 }
    if 16 ≤ d.low + 1 then LsuDir.step { counted with low := 0 } 1 else (counted, none)
  else ({ d with high := 0, low := 0, limit := false }, none)

/-- The window level of a direction: the mean power of its 128 samples (R143). -/
def windowLevel (windowAcc : Lin) : Int := levelOf (linScale (1 / 128) windowAcc)

/-- A direction at a block boundary: the block's power joins the window, and at a window boundary the window is judged
and both accumulators are zeroed (R142, R144). A direction in FIXED keeps both counts at 0 and judges nothing. -/
def LsuDir.boundary (d : LsuDir) (a : AlcConfig) (windowEnds : Bool) : LsuDir × Option Int :=
  let total := linAdd d.windowAcc d.blockAcc
  if !windowEnds then ({ d with windowAcc := total, blockAcc := [] }, none)
  else
    let zeroed := { d with windowAcc := [], blockAcc := [] }
    if a.auto then zeroed.judgeAuto a (windowLevel total) else ({ zeroed with high := 0, low := 0 }, none)

/-- A direction when a record is applied (R148). -/
def LsuDir.applyRecord (d : LsuDir) (old new : AlcConfig) : LsuDir :=
  if !new.auto then { d with gain := new.fixedGain, high := 0, low := 0, limit := false }
  else if !old.auto then { d with high := 0, low := 0, limit := false }
  else d

/-- The level window ends at this boundary (R142). -/
def Channel.windowEnds (c : Channel) : Bool := decide (3 ≤ c.windowPos)

/-- LSU's decisions at a boundary: the receive direction first, then the send direction (R142, R147). -/
def State.levelBoundary (s : State) (n : ChannelNo) : State :=
  let c := s.channel n
  let ends := c.windowEnds
  let receive := c.receive.boundary c.governing.receive ends
  let send := c.send.boundary c.governing.send ends
  let judged := s.modChannel n fun c =>
    { c with receive := receive.1, send := send.1, windowPos := if ends then 0 else c.windowPos + 1 }
  let first := match receive.2 with
    | some gain => judged.raiseChannel n (.levelLimit n false gain)
    | none => judged
  match send.2 with
    | some gain => first.raiseChannel n (.levelLimit n true gain)
    | none => first

end Sys2Proof.Machine
end

