-- ==== Sys2Proof/Machine/Purge.lean ====
section
/-! DEFINITION. The Purge Engine (R59 to R76): requests, selections, clears, finishes and exhausted batches. -/

namespace Sys2Proof.Machine

/-- The requester set of a plane. -/
def Requesters.ofPlane : Plane → Requesters
  | .a => { a := true, b := false, internal := false }
  | .b => { a := false, b := true, internal := false }

/-- The requester Internal. -/
def Requesters.ofInternal : Requesters := { a := false, b := false, internal := true }

/-- The union of two requester sets. -/
def Requesters.union (x y : Requesters) : Requesters :=
  { a := x.a || y.a, b := x.b || y.b, internal := x.internal || y.internal }

/-- What entering RESTARTING does to a channel whose mode is not OFF: the convergence flag and run count are cleared
(R75, R96) and the standing of the block in progress becomes HOLD (R89). `wasRunning` says the channel was RUNNING; while
framing is LOST the first block after it then starts with its mark clear (R89). -/
def Channel.enterRestarting (c : Channel) (wasRunning : Bool) (framing : Framing) : Channel :=
  if c.governing.mode = .off then c
  else { c with converged := false, runCount := 0, standing := .hold,
                whollyRunning := if wasRunning ∧ framing = .lost then false else c.whollyRunning }

/-- Applies `enterRestarting` to the channel of a list; a work list changes no channel (R61). -/
def State.enterRestarting (s : State) (c : ChainCode) : State :=
  match codeChannel c with
  | some n => s.modChannel n (·.enterRestarting (decide (s.canceller n = .running)) s.hwi.framing)
  | none => s

/-- Changes the owed flag of the channel of a list; a work list has none (R62). -/
def State.setOwed (s : State) (c : ChainCode) (owed : Bool) : State :=
  match codeChannel c with
  | some n => s.modChannel n ({ · with owed := owed })
  | none => s

/-- An entry as it joins the batch (R60). -/
def BatchEntry.joining (c : ChainCode) (r : Requesters) : BatchEntry :=
  { list := c, requesters := r, progress := 0, finished := false }

/-- The batch after a list joins or merges: an entry at the end, or the requesters added to the entry it has (R61). -/
def joinBatch (c : ChainCode) (r : Requesters) (batch : List BatchEntry) : List BatchEntry :=
  if batch.any fun e => decide (e.list = c) then
    batch.map fun e => if e.list = c then { e with requesters := e.requesters.union r } else e
  else batch ++ [.joining c r]

/-- A purge of a list starts a batch, joins it or merges into it (R61, R63, R73); the channel's owed flag is cleared
(R62) and the channel enters RESTARTING (R75). -/
def State.joinPurge (s : State) (c : ChainCode) (r : Requesters) : State :=
  let entered := (s.enterRestarting c).setOwed c false
  match s.pge.engine with
  | .idle => { entered with pge := { s.pge with engine := .gathering, batch := [.joining c r], gatherTimer := true } }
  | .gathering | .running | .suspending | .suspended =>
    { entered with pge := { s.pge with batch := joinBatch c r s.pge.batch } }

/-- PURGE, executed by PGE (R61). -/
def State.purgeCommand (s : State) (p : Plane) (list : Option ChainCode) : State × Status :=
  match list with
  | none => (s, .badList)
  | some c =>
    if !s.holds p c then (s, .notHolder)
    else match s.pge.engine with
      | .running | .suspending | .suspended => (s, .purgeBusy)
      | .idle => (s.joinPurge c (.ofPlane p), .ok)
      | .gathering =>
        if Config.maxBatch ≤ s.pge.batch.length then (s, .batchFull) else (s.joinPurge c (.ofPlane p), .ok)

/-- An internal purge request for a channel list (R73): it joins or merges where it can, and otherwise sets the owed
flag. -/
def State.requestPurge (s : State) (n : ChannelNo) (r : Requesters) : State :=
  let c := channelCode n
  let owing := (s.enterRestarting c).setOwed c true
  match s.pge.engine with
  | .idle => s.joinPurge c r
  | .gathering => if Config.maxBatch ≤ s.pge.batch.length then owing else s.joinPurge c r
  | .running | .suspending | .suspended => owing

/-- The queues a finished entry's requesters lead to (R66); Internal reads the holder at the finish. -/
def purgeRoutes (r : Requesters) (h : Holder) (p : Plane) : Bool :=
  (match p with | .a => r.a | .b => r.b) || (r.internal && routesTo h p)

/-- The channel leaves RESTARTING when its list's entry finishes with the owed flag clear: the convergence flag is clear
(R75), the block in progress is not wholly running, since RUNNING is entered part way through it (R88; log entry 20 for
framing LOST), and a DIVERGED channel recovers (R123). -/
def Channel.leaveRestarting (c : Channel) : Channel :=
  if c.owed then c
  else if c.divState = .diverged then
    { c with converged := false, whollyRunning := false, divCount := 0, divState := .steady }
  else { c with converged := false, whollyRunning := false }

/-- An entry finishes: PURGE_DONE is raised and the channel may leave RESTARTING (R66). -/
def State.finishEntry (s : State) (e : BatchEntry) : State :=
  let marked : State := { s with pge := { s.pge with
    batch := s.pge.batch.map fun x => if x.list = e.list then { x with finished := true } else x } }
  let h := s.holder e.list
  let raised := marked.raise (purgeRoutes e.requesters h .a) (purgeRoutes e.requesters h .b)
    (.purgeDone e.list e.requesters)
  match codeChannel e.list with
  | some n => raised.modChannel n (·.leaveRestarting)
  | none => raised

/-- The first unfinished entry of the batch, in joining order (R64). -/
def State.firstUnfinished (s : State) : Option BatchEntry := s.pge.batch.find? fun e => !e.finished

/-- The channels that form the next batch: those with the owed flag set, ascending, up to 16 (R67). -/
def State.owedChannels (s : State) : List ChannelNo :=
  ((List.finRange Config.channels).filter fun n => (s.channel n).owed).take Config.maxBatch

/-- The batch is exhausted (R67): it is emptied, and the owed channels form a new one, or the engine enters IDLE. -/
def State.exhaust (s : State) : State :=
  match s.owedChannels with
  | [] => { s with pge := { s.pge with engine := .idle, batch := [], clear := none } }
  | n :: rest =>
    let cleared := (n :: rest).foldl (fun t m => t.modChannel m ({ · with owed := false })) s
    { cleared with pge := { s.pge with
        engine := .gathering, gatherTimer := true, clear := none
        batch := (n :: rest).map fun m => .joining (channelCode m) .ofInternal } }

/-- A selection (R64): entries with nothing left to clear finish, the next segment's clear begins, or the batch is
exhausted. The fuel is the number of entries and one more. -/
def State.selectNext : Nat → State → State
  | 0, s => s
  | fuel + 1, s =>
    match s.firstUnfinished with
    | none => s.exhaust
    | some e =>
      match (s.chain e.list)[e.progress]? with
      | none => State.selectNext fuel (s.finishEntry e)
      | some g => { s with pge := { s.pge with clear := some { list := e.list, segment := g, disturbed := false } } }

/-- The selection of R64. -/
def State.select (s : State) : State := s.selectNext (s.pge.batch.length + 1)

/-- The engine enters RUNNING and makes a selection (R63, R71, R72). -/
def State.run (s : State) : State :=
  ({ s with pge := { s.pge with engine := .running, gatherTimer := false, suspendTimer := false } }).select

/-- SUSPEND, executed by PGE (R69). -/
def State.suspendCommand (s : State) : State × Status :=
  match s.pge.engine with
  | .running => ({ s with pge := { s.pge with engine := .suspending } }, .ok)
  | .idle | .gathering | .suspending | .suspended => (s, .notRunning)

/-- RESUME, executed by PGE (R71). -/
def State.resumeCommand (s : State) : State × Status :=
  match s.pge.engine with
  | .suspended => (s.run, .ok)
  | .suspending => ({ s with pge := { s.pge with engine := .running } }, .ok)
  | .idle | .gathering | .running => (s, .notSuspended)

/-- The gather timer's expiry (R63). Nothing happens while the timer is stopped (log entry 2). -/
def State.gatherExpiry (s : State) : State :=
  if s.pge.engine = .gathering ∧ s.pge.gatherTimer then s.run else s

/-- The suspend timer's expiry (R72): PURGE_RESUMED goes to both queues before any PURGE_DONE of the selection (R173). -/
def State.suspendExpiry (s : State) : State :=
  if s.pge.engine = .suspended ∧ s.pge.suspendTimer then (s.raiseBoth .purgeResumed).run else s

/-- The end of a clear on its target and its entry (R65): the segment is zeroed if it is still in the entry's list, and
progress rises unless a structural event reset it. -/
def State.endClear (s : State) (k : Clear) : State :=
  let zeroed := if k.segment ∈ s.chain k.list then s.modSegment k.segment (·.zero) else s
  { zeroed with pge := { s.pge with
      clear := none
      batch := if k.disturbed then s.pge.batch
        else s.pge.batch.map fun e =>
          if e.list = k.list ∧ e.finished = false then { e with progress := e.progress + 1 } else e } }

/-- Finishes the entry of the clear when its progress has reached the count of its list (R65). -/
def State.finishIfDone (s : State) (c : ChainCode) : State :=
  match s.pge.batch.find? fun e => decide (e.list = c) && !e.finished with
  | some e => if (s.chain c).length ≤ e.progress then s.finishEntry e else s
  | none => s

/-- What follows the end of a clear: a selection in RUNNING (R65), SUSPENDED or an exhausted batch in SUSPENDING
(R70). -/
def State.afterClear (s : State) : State :=
  match s.pge.engine with
  | .running => s.select
  | .suspending =>
    if s.firstUnfinished.isSome then { s with pge := { s.pge with engine := .suspended, suspendTimer := true } }
    else s.exhaust
  | .idle | .gathering | .suspended => s

/-- The end of a 16 µs segment clear (R65). Nothing happens while no clear is in progress (log entry 2). -/
def State.clearEnd (s : State) : State :=
  match s.pge.clear with
  | none => s
  | some k => ((s.endClear k).finishIfDone k.list).afterClear

end Sys2Proof.Machine
end

