-- ==== Sys2Proof/Machine/Boundary.lean ====
section
/-! DEFINITION. The block boundary (R11, R12): the decisions in their order, the tracking period (R125 to R127), the
applying of a pending record (R4, R6), and the opening of the next block (R88, R90). -/

namespace Sys2Proof.Machine

/-! ### Decisions that reach beyond the channel -/

/-- The weight refresh of R93. -/
def State.refreshWeights (s : State) (n : ChannelNo) : State :=
  s.modSegments (s.channelChain n) (·.refresh)

/-- DTD at a boundary (R99 to R101). -/
def State.doubleTalkBoundary (s : State) (n : ChannelNo) (r : BlockRecord) : State :=
  s.modChannel n (·.testDoubleTalk ((s.channelChain n).map s.delay) r)

/-- TBD at a boundary, with its event (R106 to R108). -/
def State.toneBoundary (s : State) (n : ChannelNo) : State :=
  let c := s.channel n
  let decided := c.decideTone n
  let moved := s.modChannel n fun _ => decided
  match toneReport c.tone decided.tone with
  | some t => moved.raiseChannel n (.toneBypass n t)
  | none => moved

/-- DVW at a boundary: the event and the internal purge request of a channel that enters DIVERGED (R119 to R122). -/
def State.divergenceBoundary (s : State) (n : ChannelNo) (r : BlockRecord) : State :=
  let c := s.channel n
  let decided := c.decideDivergence r
  let moved := s.modChannel n fun _ => decided
  if c.divState ≠ .diverged ∧ decided.divState = .diverged then
    (moved.raiseChannel n (.diverged n decided.divCount r.erle)).requestPurge n .ofInternal
  else moved

/-- EEA's convergence decision, with its event (R95). -/
def State.convergenceBoundary (s : State) (n : ChannelNo) (r : BlockRecord) : State :=
  let c := s.channel n
  let decided := c.decideConvergence r
  let moved := s.modChannel n fun _ => decided
  if c.converged = false ∧ decided.converged then moved.raiseChannel n (.converged n r.erle) else moved

/-- EEA's standing decision (R87). -/
def State.standingBoundary (s : State) (n : ChannelNo) (r : BlockRecord) : State :=
  s.modChannel n (·.decideStanding r (s.canceller n))

/-- RSU at a boundary (R111 to R113). -/
def State.suppressorBoundary (s : State) (n : ChannelNo) (r : BlockRecord) : State :=
  s.modChannel n fun c => (c.decideSuppressor r).moveBackground r

/-! ### The tracking period -/

/-- A segment is weak against the largest weight of its list (R126). -/
def weak (largest weight : Nat) : Bool := decide (weight * 64 < largest) || decide (largest = 0)

/-- The vacancy count after a period end (R126). -/
def nextVacancy (largest : Nat) (x : Segment) : Segment :=
  { x with vacancy := if weak largest x.weight then min 4 (x.vacancy + 1) else 0 }

/-- The largest weight of a list (R126). -/
def State.largestWeight (s : State) (l : List SegNo) : Nat := (l.map fun g => (s.segment g).weight).foldl max 0

/-- A segment offered is placed at the tail of the Relocation Queue, unless the queue holds an entry for it or holds 8
entries (R127). -/
def offer (queue : List RelocEntry) (n : ChannelNo) (g : SegNo) : List RelocEntry :=
  if (queue.any fun e => decide (e.segment = g)) ∨ Config.maxRelocation ≤ queue.length then queue
  else queue ++ [{ segment := g, channel := n }]

/-- The end of a tracking period (R126, R127). -/
def State.periodEnd (s : State) (n : ChannelNo) : State :=
  let chain := s.channelChain n
  let largest := s.largestWeight chain
  let counted := s.modSegments chain (nextVacancy largest)
  let offered := chain.filter fun g => weak largest (s.segment g).weight && decide ((counted.segment g).vacancy = 4)
  { counted with relocation := offered.foldl (fun queue g => offer queue n g) s.relocation }

/-- TTK at a boundary (R125, R134). -/
def State.trackingBoundary (s : State) (n : ChannelNo) (r : BlockRecord) : State :=
  let c := s.channel n
  if !c.governing.tracking then s.modChannel n ({ · with trackCount := 0 })
  else if !r.adapt then s
  else if 64 ≤ c.trackCount + 1 then (s.modChannel n ({ · with trackCount := 0 })).periodEnd n
  else s.modChannel n ({ · with trackCount := c.trackCount + 1 })

/-! ### The record and the next block -/

/-- A pending record is applied to a channel whose mode is not OFF (R4, R148). -/
def Channel.applyRunning (c : Channel) (r : ConfigRecord) : Channel :=
  { c with governing := r, pendingRecord := none,
           receive := c.receive.applyRecord c.governing.receive r.receive,
           send := c.send.applyRecord c.governing.send r.send }

/-- A pending record is applied to a channel that was OFF (R6, R89, R95, R150). -/
def Channel.leaveOff (c : Channel) (r : ConfigRecord) : Channel :=
  { (c.restarted r).dropBlock with governing := r, pendingRecord := none, standing := .hold }

/-- The pending record, if any, is applied (R4): a channel that takes up a new timeslot, or leaves OFF, serves it from
the next frame (R11). -/
def State.applyPending (s : State) (n : ChannelNo) : State :=
  let c := s.channel n
  match c.pendingRecord with
  | none => s
  | some r =>
    let fromOff := decide (c.governing.mode = .off)
    let applied := s.modChannel n fun c => if fromOff then c.leaveOff r else c.applyRunning r
    applied.modMark n fun m =>
      { m with joining := m.joining || fromOff || decide (r.timeslot ≠ c.governing.timeslot) }

/-- The next block of a channel whose mode is not OFF opens: the accumulators are zero (R90) and the mark is set when
the canceller state is RUNNING (R88). TBD keeps the closed block's samples for the steps that fall across the boundary
(R104), and the free-value counter advances (log entry 11). -/
def State.openBlock (s : State) (n : ChannelNo) : State :=
  if (s.channel n).governing.mode = .off then s
  else s.modChannel n fun c =>
    { c with acc := .zero, toneRin := [], toneSin := [], beforeRin := c.toneRin, beforeSin := c.toneSin,
             freeBlock := c.freeBlock + 1, whollyRunning := decide (s.canceller n = .running) }

/-- The decisions of a channel whose mode is not OFF, in the order of R12 and R173, and the block count (R9). -/
def State.decisions (s : State) (n : ChannelNo) : State :=
  let r := (s.channel n).measured
  let s := (s.refreshWeights n).modChannel n ({ · with erle := r.erle, blockRecord := some r })
  let s := s.doubleTalkBoundary n r
  let s := s.toneBoundary n
  let s := s.divergenceBoundary n r
  let s := s.convergenceBoundary n r
  let s := s.standingBoundary n r
  let s := s.suppressorBoundary n r
  let s := s.trackingBoundary n r
  let s := s.levelBoundary n
  s.modChannel n fun c => { c with blockCount := c.blockCount + 1 }

/-- Whether a channel's boundary falls now: the frame of phase 31, not yet had, and for a non-OFF channel after its
arrival (R11, R17). -/
def State.boundaryDue (s : State) (n : ChannelNo) : Bool :=
  decide (s.hwi.framing = .framed) && decide (s.hwi.phase = 31) && !(s.mark n).boundary &&
    (decide ((s.channel n).governing.mode = .off) || (s.mark n).arrived)

/-- A block boundary that falls (R12): an OFF channel's serves only to apply a pending record (R5). -/
def State.boundaryWork (s : State) (n : ChannelNo) : State :=
  let decided := if (s.channel n).governing.mode = .off then s else s.decisions n
  ((decided.applyPending n).openBlock n).modMark n ({ · with boundary := true })

/-- BLOCK_BOUNDARY: a boundary that is not due does not occur (R11, R17; log entry 2). -/
def State.boundary (s : State) (n : ChannelNo) : State := if s.boundaryDue n then s.boundaryWork n else s

end Sys2Proof.Machine
end

