-- ==== Sys2Proof/Machine/Framing.lean ====
section
/-! DEFINITION. Highway framing, the Stamp Counter and power-on reset (R11, R15 to R18, R34). -/

namespace Sys2Proof.Machine

/-- The marks of all channels at a frame start (R11). -/
def clearMarks : Vector FrameMark Config.channels := Vector.replicate _ .clear

/-- A frame starts while framing is FRAMED: the block phase advances (R11). -/
def Hwi.frameStart (h : Hwi) : Hwi := { h with phase := (h.phase + 1) % 32, marks := clearMarks }

/-- A pulse of the hunt that does not end it (R16). -/
def Hwi.hunt (h : Hwi) (position : Fin Config.framePositions) : Hwi :=
  if h.huntCount ≠ 0 ∧ h.candidate = some position then { h with huntCount := h.huntCount + 1 }
  else { h with huntCount := 1, candidate := some position }

/-- Framing becomes FRAMED: the frame that the pulse begins has block phase 0 (R16). -/
def Hwi.recover (h : Hwi) : Hwi := { h with framing := .framed, missCount := 0, phase := 0, marks := clearMarks }

/-- SYNC_PULSE (R15, R16). -/
def State.syncPulse (s : State) (position : Fin Config.framePositions) : State :=
  match s.hwi.framing with
  | .framed =>
    if s.hwi.candidate = some position then { s with hwi := { s.hwi with missCount := 0 }.frameStart } else s
  | .lost =>
    let hunted := s.hwi.hunt position
    if 4 ≤ hunted.huntCount then ({ s with hwi := hunted.recover }).raiseBoth .framingRestored
    else { s with hwi := hunted }

/-- The block in progress of every channel whose mode is not OFF is discarded (R15, R17). The first block after recovery
keeps the standing (log entry 21) and the wholly running mark (DESIGN CHOICE, log entry 20) that the discarded block had at
the loss, unless RUNNING is left (R89) or entered during it. -/
def State.discardBlocks (s : State) : State :=
  { s with channels := s.channels.map fun c => if c.governing.mode = .off then c else c.dropBlock }

/-- Framing becomes LOST: idle code goes out in every timeslot (R15). The candidate of the hunt is gone (log
entry 24). -/
def Hwi.lose (h : Hwi) : Hwi :=
  { h with framing := .lost, huntCount := 0, candidate := none, rout := Vector.replicate _ (idleCode h.law),
           sout := Vector.replicate _ (idleCode h.law) }

/-- MISSED_SYNC (R15, R16). -/
def State.missedSync (s : State) : State :=
  match s.hwi.framing with
  | .framed =>
    let counted : Hwi := { s.hwi with missCount := s.hwi.missCount + 1 }
    if 2 ≤ counted.missCount then ({ s with hwi := counted.lose }).discardBlocks.raiseBoth .framingLost
    else { s with hwi := counted.frameStart }
  | .lost => { s with hwi := { s.hwi with huntCount := 0, candidate := none } }

/-- STAMP_TICK: the Stamp Counter advances and wraps from 65535 to 0 (R18). -/
def State.stampTick (s : State) : State := { s with hwi := { s.hwi with stamp := s.hwi.stamp + 1 } }

/-- POWER_ON_RESET (R34, and the reset values of State.powerOn). The waiting commands and the free-value counters are
the model's own and stay (log entry 32). -/
def State.powerOnReset (s : State) (law : Law) : State :=
  { State.powerOn law with
    pending := s.pending
    channels := Vector.ofFn fun n : ChannelNo => { Channel.reset n with freeBlock := (s.channel n).freeBlock } }

end Sys2Proof.Machine
end

