-- ==== Sys2Proof/Machine/Highway.lean ====
section
/-! DEFINITION. The meanings of the reset, framing, highway and timebase commands. -/

namespace Sys2Proof.Machine

/-- POWER_ON_RESET: R34, and the power-on values of every chapter. -/
def execPowerOnReset (law : Law) (s : State) : Host.Outcome State Fault Refusal :=
  .next (s.powerOnReset law)

/-- SYNC_PULSE: R15, R16. -/
def execSyncPulse (position : Fin Config.framePositions) (s : State) : Host.Outcome State Fault Refusal :=
  .next (s.syncPulse position)

/-- MISSED_SYNC: R15, R16. -/
def execMissedSync (s : State) : Host.Outcome State Fault Refusal :=
  .next (s.missedSync)

/-- SAMPLE_PAIR_ARRIVAL: R10. -/
def execSamplePairArrival (n : ChannelNo) (rin sin : Byte) (s : State) : Host.Outcome State Fault Refusal :=
  .next (s.arrival n rin sin)

/-- BLOCK_BOUNDARY: R12. -/
def execBlockBoundary (n : ChannelNo) (s : State) : Host.Outcome State Fault Refusal :=
  .next (s.boundary n)

/-- STAMP_TICK: R18. -/
def execStampTick (s : State) : Host.Outcome State Fault Refusal :=
  .next (s.stampTick)

/-- TRANSPARENT_TIMESLOT: R2. -/
def execTransparentTimeslot (t : Timeslot) (rin sin : Byte) (s : State) : Host.Outcome State Fault Refusal :=
  .next (s.transparent t rin sin)

end Sys2Proof.Machine
end

