-- ==== Sys2Proof/Machine/Operands.lean ====
section
/-! DEFINITION. The operand forms: the fields a command reads from its command word (R168), the codes of section 10.6,
and the configuration record as it is laid out on a link (R1, R166, R171). -/

namespace Sys2Proof.Machine

/-! ### Fields of a command word (R168) -/

/-- The low byte of argument 1, read as a list, channel or claimable code; the high byte is ignored. -/
def argCode (a : Args) : Nat := a.arg1.toNat % 256

/-- A channel or work list code, or a claimable's code (section 5.1). -/
def chainOfCode (b : Nat) : Option ChainCode := if h : b < Config.chains then some ⟨b, h⟩ else none

/-- A channel number. -/
def channelOfCode (b : Nat) : Option ChannelNo := if h : b < Config.channels then some ⟨b, h⟩ else none

/-- Argument 1 as a channel or work list, or a claimable. -/
def argChain (a : Args) : Option ChainCode := chainOfCode (argCode a)

/-- Argument 1 as a channel. -/
def argChannel (a : Args) : Option ChannelNo := channelOfCode (argCode a)

/-- Argument 1 as a segment number: all 16 bits. -/
def argSegment (a : Args) : Option SegNo :=
  if h : a.arg1.toNat < Config.segments then some ⟨a.arg1.toNat, h⟩ else none

/-- The list field of argument 2 as a channel or work list. -/
def argTarget (a : Args) : Option ChainCode := chainOfCode a.listField.toNat

/-- The list field of argument 2 as a work list (128 to 135). -/
def argWorkList (a : Args) : Option ChainCode :=
  if a.listField.toNat < Config.channels then none else chainOfCode a.listField.toNat

/-- The delay field of argument 2. -/
def argDelay (a : Args) : Nat := a.delayField.toNat

/-! ### Codes of section 10.6 -/

/-- The command of a command code (section 10.6). -/
def commandOfCode (b : Byte) : Option CommandCode :=
  match b.toNat with
  | 0x01 => some .allocate
  | 0x02 => some .release
  | 0x03 => some .move
  | 0x04 => some .swap
  | 0x05 => some .empty
  | 0x10 => some .purge
  | 0x11 => some .suspend
  | 0x12 => some .resume
  | 0x20 => some .claim
  | 0x21 => some .unclaim
  | 0x22 => some .seize
  | 0x30 => some .restart
  | _ => none

/-- The command code of a command (section 10.6). -/
def codeOfCommand : CommandCode → Byte
  | .allocate => 0x01
  | .release => 0x02
  | .move => 0x03
  | .swap => 0x04
  | .empty => 0x05
  | .purge => 0x10
  | .suspend => 0x11
  | .resume => 0x12
  | .claim => 0x20
  | .unclaim => 0x21
  | .seize => 0x22
  | .restart => 0x30

/-- The status codes of section 10.6. -/
def statusCode : Status → Byte
  | .ok => 0x00
  | .badFrame => 0x01
  | .badAddress => 0x02
  | .badCommand => 0x03
  | .badValue => 0x04
  | .badList => 0x05
  | .badSegment => 0x06
  | .badDelay => 0x07
  | .badLevels => 0x08
  | .panelBusy => 0x09
  | .notHolder => 0x0A
  | .claimed => 0x0B
  | .inPurge => 0x0C
  | .purgeBusy => 0x0D
  | .batchFull => 0x0E
  | .notRunning => 0x0F
  | .notSuspended => 0x10
  | .chainFull => 0x11
  | .overlap => 0x12
  | .empty => 0x13
  | .timeslotTaken => 0x14
  | .notWritable => 0x15

/-! ### Bytes and words -/

/-- The most significant byte of a word, which is sent first (R160). -/
def highByte (w : Word) : Byte := BitVec.ofNat 8 (w.toNat / 256)

/-- The least significant byte of a word. -/
def lowByte (w : Word) : Byte := BitVec.ofNat 8 w.toNat

/-- The word of two bytes, most significant first (R160). -/
def wordOf (high low : Byte) : Word := BitVec.ofNat 16 (high.toNat * 256 + low.toNat)

/-- The bytes of some words (R160). -/
def wordsToBytes : List Word → List Byte
  | [] => []
  | w :: rest => highByte w :: lowByte w :: wordsToBytes rest

/-- The words of some bytes; a last odd byte is not part of a word. -/
def bytesToWords : List Byte → List Word
  | x :: y :: rest => wordOf x y :: bytesToWords rest
  | _ => []

/-- A bit field made of flags, bit 0 first. -/
def flagByte : List Bool → Nat
  | [] => 0
  | x :: rest => (if x then 1 else 0) + 2 * flagByte rest

/-! ### Configuration records (section 10.6) -/

/-- The twelve bytes of a configuration item as they arrive, before any field is judged (R3). -/
structure RawRecord where
  mode : Nat
  timeslot : Nat
  step : Nat
  margin : Nat
  enables : Nat
  alcModes : Nat
  receiveGain : Int
  receiveUpper : Int
  receiveLower : Int
  sendGain : Int
  sendUpper : Int
  sendLower : Int
  deriving DecidableEq, Repr

/-- The fields of twelve bytes; gains and levels are signed (R171). -/
def rawRecord (bytes : List Byte) : RawRecord :=
  let u (i : Nat) : Nat := (bytes.getD i 0).toNat
  let v (i : Nat) : Int := (bytes.getD i 0).toInt
  { mode := u 0, timeslot := u 1, step := u 2, margin := u 3, enables := u 4, alcModes := u 5, receiveGain := v 6,
    receiveUpper := v 7, receiveLower := v 8, sendGain := v 9, sendUpper := v 10, sendLower := v 11 }

/-- The mode codes. -/
def modeOfCode : Nat → Option Mode
  | 0 => some .off
  | 1 => some .observe
  | 2 => some .active
  | _ => none

/-- The code of a mode. -/
def codeOfMode : Mode → Nat
  | .off => 0
  | .observe => 1
  | .active => 2

/-- The step codes. -/
def stepOfCode : Nat → Option StepSize
  | 0 => some .half
  | 1 => some .quarter
  | 2 => some .eighth
  | 3 => some .sixteenth
  | _ => none

/-- The code of a step. -/
def codeOfStep : StepSize → Nat
  | .half => 0
  | .quarter => 1
  | .eighth => 2
  | .sixteenth => 3

/-- The hybrid margin codes. -/
def marginOfCode : Nat → Option Margin
  | 0 => some .db0
  | 1 => some .db3
  | 2 => some .db6
  | _ => none

/-- The code of a hybrid margin. -/
def codeOfMargin : Margin → Nat
  | .db0 => 0
  | .db3 => 1
  | .db6 => 2

/-- A gain of R1: −12 to +12 dB in half decibels. -/
def goodGain (g : Int) : Bool := decide (-24 ≤ g) && decide (g ≤ 24)

/-- A level of R1: −40 to 0 dBm0. -/
def goodLevel (l : Int) : Bool := decide (-40 ≤ l) && decide (l ≤ 0)

/-- The ALC fields of a direction, if every field is among its options (R1). -/
def alcOf (auto : Bool) (gain upper lower : Int) : Option AlcConfig :=
  if goodGain gain && goodLevel upper && goodLevel lower then
    some { auto := auto, fixedGain := gain, upper := upper, lower := lower }
  else none

/-- The record of the fields, if every field holds a value of its options (R1, R166). -/
def RawRecord.decode (r : RawRecord) : Option ConfigRecord :=
  match modeOfCode r.mode, channelOfCode r.timeslot, stepOfCode r.step, marginOfCode r.margin,
    alcOf (r.alcModes.testBit 0) r.receiveGain r.receiveUpper r.receiveLower,
    alcOf (r.alcModes.testBit 1) r.sendGain r.sendUpper r.sendLower with
  | some mode, some timeslot, some step, some margin, some receive, some send =>
    if r.enables < 8 ∧ r.alcModes < 4 then
      some { mode := mode, timeslot := timeslot, step := step, margin := margin,
             suppressor := r.enables.testBit 0, toneBypass := r.enables.testBit 1, tracking := r.enables.testBit 2,
             receive := receive, send := send }
    else none
  | _, _, _, _, _, _ => none

/-- The twelve bytes of a record (section 10.6). -/
def recordBytes (r : ConfigRecord) : List Byte :=
  [BitVec.ofNat 8 (codeOfMode r.mode), BitVec.ofNat 8 r.timeslot.val, BitVec.ofNat 8 (codeOfStep r.step),
   BitVec.ofNat 8 (codeOfMargin r.margin), BitVec.ofNat 8 (flagByte [r.suppressor, r.toneBypass, r.tracking]),
   BitVec.ofNat 8 (flagByte [r.receive.auto, r.send.auto]),
   BitVec.ofInt 8 r.receive.fixedGain, BitVec.ofInt 8 r.receive.upper, BitVec.ofInt 8 r.receive.lower,
   BitVec.ofInt 8 r.send.fixedGain, BitVec.ofInt 8 r.send.upper, BitVec.ofInt 8 r.send.lower]

end Sys2Proof.Machine
end

