-- ==== Sys2Proof/Machine/ListController.lean ====
section
/-! DEFINITION. The List Controller: the arbiter, the checks at take, the events of each list command, and the service
of the Relocation Queue (R39 to R58, R129 to R132).

A take or an event that LC is not about to make changes nothing (log entry 2). The arbiter's choice is made in the take
(log entry 3). -/

namespace Sys2Proof.Machine

/-! ### Results and jobs -/

/-- Posts a result in a panel, which returns to IDLE (R38, R39). -/
def Panel.complete (panel : Panel) (st : Status) (count : Option Nat) : Panel :=
  { panel with state := .idle, valid := true, status := some st, count := count }

/-- A command refused at take (R39): the refusal is the result, and LC stays FREE (R40). -/
def State.refuseTake (s : State) (p : Plane) (st : Status) : State := s.modPanel p (·.complete st none)

/-- LC becomes BUSY with a command of a panel, and the panel enters RUNNING (R39, R40). -/
def State.startJob (s : State) (p : Plane) (w : LcWork) : State :=
  ({ s with lc := { s.lc with current := some { work := w, issuer := .panel p } } }).modPanel p
    ({ · with state := .running })

/-- The current command completes: LC becomes FREE, the detached mark is cleared, and the final result is posted unless
the command is detached (R39, R40, R58). -/
def State.completeJob (s : State) (post : Panel → Panel) : State :=
  let freed : State := { s with lc := { s.lc with current := none, detached := false } }
  match s.lc.current.map LcJob.issuer with
  | some (.panel p) => if s.lc.detached then freed else freed.modPanel p post
  | some .relocation | none => freed

/-- LC takes the command of the panel the arbiter chooses, when it is the named one: the arbiter position moves to that
panel (R43) and the command's own checks and first event follow. -/
def State.takeCommand (s : State) (code : CommandCode) (work : State → Plane → Args → State) : State :=
  match s.choice with
  | some (.panel p) =>
    match (s.port p).panel.command with
    | some w =>
      if w.code = code then work { s with lc := { s.lc with arbiter := .panel p } } p w.args else s
    | none => s
  | some .relocation | none => s

/-- A start delay overlaps some segment of a list other than the given one (R47, R50). -/
def State.overlapsChain (s : State) (c : ChainCode) (delay : Nat) (except : Option SegNo) : Bool :=
  (s.chain c).any fun g => decide (some g ≠ except) && overlaps delay (s.delay g)

/-! ### ALLOCATE -/

/-- The checks of R47, in order; the target list and F's first segment when all pass. -/
def State.allocateCheck (s : State) (p : Plane) (a : Args) : Except Status (ChainCode × SegNo) :=
  match argChain a with
  | none => .error .badList
  | some c =>
    if !s.holds p c then .error .notHolder
    else if s.inPurge c then .error .inPurge
    else if Config.maxChain ≤ (s.chain c).length then .error .chainFull
    else if !goodDelay (argDelay a) then .error .badDelay
    else if s.overlapsChain c (argDelay a) none then .error .overlap
    else match s.free with
      | [] => .error .empty
      | g :: _ => .ok (c, g)

/-- The take of ALLOCATE (R47, R48). -/
def State.allocateTakeWork (s : State) (p : Plane) (a : Args) : State :=
  match s.allocateCheck p a with
  | .error st => s.refuseTake p st
  | .ok (c, g) =>
    ((s.unlinkFree g).startJob p (.allocate c (argDelay a))).modPanel p
      ({ · with valid := true, status := some .ok, segment := some g })

/-- The link of ALLOCATE (R48): without a zeroing order; the early result stands. -/
def State.allocateLinkWork (s : State) : State :=
  match s.lc.current.map LcJob.work, s.transit with
  | some (.allocate c d), some g => (s.link c g d false).completeJob ({ · with state := .idle })
  | _, _ => s

/-! ### RELEASE -/

/-- The checks of R49, in order; the segment and its list when all pass. -/
def State.releaseCheck (s : State) (p : Plane) (a : Args) : Except Status (ChainCode × SegNo) :=
  match argSegment a with
  | none => .error .badSegment
  | some g =>
    match s.place g with
    | .free | .transit => .error .badSegment
    | .chain c =>
      if !s.holds p c then .error .notHolder
      else if s.inPurge c then .error .inPurge
      else .ok (c, g)

/-- The take of RELEASE (R49). -/
def State.releaseTakeWork (s : State) (p : Plane) (a : Args) : State :=
  match s.releaseCheck p a with
  | .error st => s.refuseTake p st
  | .ok (c, g) => (s.unlink c g).startJob p .release

/-- The link into F of RELEASE (R30, R49). -/
def State.releaseLinkWork (s : State) : State :=
  match s.lc.current.map LcJob.work, s.transit with
  | some .release, some g => (s.linkFree g).completeJob (·.complete .ok none)
  | _, _ => s

/-! ### MOVE -/

/-- The checks of R50, in order; the segment's list, the segment and the target when all pass. -/
def State.moveCheck (s : State) (p : Plane) (a : Args) : Except Status (ChainCode × SegNo × ChainCode) :=
  match argSegment a with
  | none => .error .badSegment
  | some g =>
    match s.place g with
    | .free | .transit => .error .badSegment
    | .chain c =>
      match argTarget a with
      | none => .error .badList
      | some t =>
        if !(s.holds p c && s.holds p t) then .error .notHolder
        else if s.inPurge c || s.inPurge t then .error .inPurge
        else if t ≠ c ∧ Config.maxChain ≤ (s.chain t).length then .error .chainFull
        else if !goodDelay (argDelay a) then .error .badDelay
        else if s.overlapsChain t (argDelay a) (some g) then .error .overlap
        else .ok (c, g, t)

/-- The take of MOVE (R51). -/
def State.moveTakeWork (s : State) (p : Plane) (a : Args) : State :=
  match s.moveCheck p a with
  | .error st => s.refuseTake p st
  | .ok (c, g, t) => (s.unlink c g).startJob p (.move t (argDelay a))

/-- The link of MOVE (R51): zeroing exactly when the start delay changes; the vacancy count becomes 0 in every case. -/
def State.moveLinkWork (s : State) : State :=
  match s.lc.current.map LcJob.work, s.transit with
  | some (.move t d), some g =>
    ((s.link t g d (decide ((s.segment g).startDelay ≠ some d))).modSegment g ({ · with vacancy := 0 })).completeJob
      (·.complete .ok none)
  | _, _ => s

/-! ### SWAP -/

/-- The checks of R52, in order; the channel and the work list when all pass. -/
def State.swapCheck (s : State) (p : Plane) (a : Args) : Except Status (ChannelNo × ChainCode) :=
  match argChannel a, argWorkList a with
  | some n, some w =>
    if !(s.holds p (channelCode n) && s.holds p w) then .error .notHolder
    else if s.inPurge (channelCode n) || s.inPurge w then .error .inPurge
    else .ok (n, w)
  | _, _ => .error .badList

/-- What SWAP sets in the channel (R52, R96). -/
def Channel.swapped (c : Channel) : Channel :=
  { c with converged := false, runCount := 0, divCount := 0, divState := .steady, trackCount := 0 }

/-- SWAP, whole in its take (R31, R52). -/
def State.swapTakeWork (s : State) (p : Plane) (a : Args) : State :=
  match s.swapCheck p a with
  | .error st => s.refuseTake p st
  | .ok (n, w) => ((s.exchange (channelCode n) w).modChannel n (·.swapped)).modPanel p (·.complete .ok none)

/-! ### EMPTY -/

/-- The checks of R53, in order; the list when all pass. -/
def State.emptyCheck (s : State) (p : Plane) (a : Args) : Except Status ChainCode :=
  match argChain a with
  | none => .error .badList
  | some c =>
    if !s.holds p c then .error .notHolder
    else if s.inPurge c then .error .inPurge
    else .ok c

/-- The take of EMPTY (R53, R54): an empty list completes it at once with count 0. -/
def State.emptyTakeWork (s : State) (p : Plane) (a : Args) : State :=
  match s.emptyCheck p a with
  | .error st => s.refuseTake p st
  | .ok c =>
    match s.chain c with
    | [] => s.modPanel p (·.complete .ok (some 0))
    | g :: rest => (s.unlink c g).startJob p (.empty c (rest.length + 1))

/-- A link into F of EMPTY (R54): the one that leaves the list empty completes the command with its count. -/
def State.emptyLinkWork (s : State) : State :=
  match s.lc.current.map LcJob.work, s.transit with
  | some (.empty c n), some g =>
    let linked := s.linkFree g
    if (s.chain c).isEmpty then linked.completeJob (·.complete .ok (some n)) else linked
  | _, _ => s

/-- A further unlink of EMPTY (R54): the list's present first segment. -/
def State.emptyUnlinkWork (s : State) : State :=
  match s.lc.current.map LcJob.work, s.transit with
  | some (.empty c _), none =>
    match s.chain c with
    | [] => s
    | g :: _ => s.unlink c g
  | _, _ => s

/-! ### Relocation -/

/-- The entry no longer describes a segment worth moving (R129). -/
def State.stale (s : State) (e : RelocEntry) : Bool :=
  !decide (e.segment ∈ s.channelChain e.channel) || !(s.channel e.channel).governing.tracking ||
    !decide (s.canceller e.channel = .running) || s.unfinished (channelCode e.channel) ||
    decide ((s.segment e.segment).vacancy < 4)

/-- The 32 candidates in the order of the search, from the cursor and wrapping from 1984 to 0 (R130). -/
def candidates (cursor : Nat) : List Nat := (List.range 32).map fun i => (cursor + 64 * i) % 2048

/-- The first candidate that fits: 64 or more from every segment of the channel's list, the segment itself among them
(R130). -/
def State.fit (s : State) (n : ChannelNo) : Option Nat :=
  (candidates (s.channel n).cursor).find? fun c => (s.channelChain n).all fun g => !overlaps c (s.delay g)

/-- LC takes the head of the Relocation Queue when the arbiter chooses it (R42, R129 to R132). -/
def State.relocationTakeWork (s : State) : State :=
  match s.choice, s.relocation with
  | some .relocation, e :: rest =>
    let taken : State := { s with relocation := rest, lc := { s.lc with arbiter := .relocation } }
    if s.stale e then taken
    else match s.fit e.channel with
      | none =>
        (taken.raiseChannel e.channel (.trackBlocked e.channel e.segment (s.delay e.segment))).modSegment e.segment
          ({ · with vacancy := 0 })
      | some c =>
        let unlinked := taken.unlink (channelCode e.channel) e.segment
        { unlinked.modChannel e.channel ({ · with cursor := (c + 64) % 2048 }) with
          lc := { taken.lc with current := some { work := .relocation e.channel c, issuer := .relocation } } }
  | _, _ => s

/-- The link of a relocation (R131): zeroing; TRACK_MOVED unless the channel is OFF. -/
def State.relocationLinkWork (s : State) : State :=
  match s.lc.current.map LcJob.work, s.transit with
  | some (.relocation n d), some g =>
    let linked := (s.link (channelCode n) g d true).completeJob id
    if (s.channel n).governing.mode = .off then linked
    else linked.raiseChannel n (.trackMoved n g (s.delay g) d)
  | _, _ => s

/-! ### The commands of the table -/

/-- ALLOCATE_TAKE. -/
def State.allocateTake (s : State) : State := s.takeCommand .allocate State.allocateTakeWork

/-- RELEASE_TAKE. -/
def State.releaseTake (s : State) : State := s.takeCommand .release State.releaseTakeWork

/-- MOVE_TAKE. -/
def State.moveTake (s : State) : State := s.takeCommand .move State.moveTakeWork

/-- SWAP_TAKE. -/
def State.swapTake (s : State) : State := s.takeCommand .swap State.swapTakeWork

/-- EMPTY_TAKE. -/
def State.emptyTake (s : State) : State := s.takeCommand .empty State.emptyTakeWork

end Sys2Proof.Machine
end

