-- ==== Sys2Proof/Machine/ListEvents.lean ====
section
/-! DEFINITION. The meanings of the events of the List Controller. -/

namespace Sys2Proof.Machine

/-- ALLOCATE_TAKE: R47, R48. -/
def execAllocateTake (s : State) : Host.Outcome State Fault Refusal :=
  .next (s.allocateTake)

/-- ALLOCATE_LINK: R48. -/
def execAllocateLink (s : State) : Host.Outcome State Fault Refusal :=
  .next (s.allocateLinkWork)

/-- RELEASE_TAKE: R49. -/
def execReleaseTake (s : State) : Host.Outcome State Fault Refusal :=
  .next (s.releaseTake)

/-- RELEASE_LINK_INTO_F: R30, R49. -/
def execReleaseLinkIntoF (s : State) : Host.Outcome State Fault Refusal :=
  .next (s.releaseLinkWork)

/-- MOVE_TAKE: R50, R51. -/
def execMoveTake (s : State) : Host.Outcome State Fault Refusal :=
  .next (s.moveTake)

/-- MOVE_LINK: R51. -/
def execMoveLink (s : State) : Host.Outcome State Fault Refusal :=
  .next (s.moveLinkWork)

/-- SWAP_TAKE: R52. -/
def execSwapTake (s : State) : Host.Outcome State Fault Refusal :=
  .next (s.swapTake)

/-- EMPTY_TAKE: R53, R54. -/
def execEmptyTake (s : State) : Host.Outcome State Fault Refusal :=
  .next (s.emptyTake)

/-- EMPTY_LINK_INTO_F: R54. -/
def execEmptyLinkIntoF (s : State) : Host.Outcome State Fault Refusal :=
  .next (s.emptyLinkWork)

/-- EMPTY_UNLINK: R54. -/
def execEmptyUnlink (s : State) : Host.Outcome State Fault Refusal :=
  .next (s.emptyUnlinkWork)

/-- RELOCATION_TAKE: R129 to R132. -/
def execRelocationTake (s : State) : Host.Outcome State Fault Refusal :=
  .next (s.relocationTakeWork)

/-- RELOCATION_LINK: R131. -/
def execRelocationLink (s : State) : Host.Outcome State Fault Refusal :=
  .next (s.relocationLinkWork)

end Sys2Proof.Machine
end

