-- ==== Sys2Proof/Machine/ChannelTable.lean ====
section
/-! DEFINITION. The Channel Table's commands: configuration writes (R3 to R5) and RESTART (R13, R14). -/

namespace Sys2Proof.Machine

/-! ### Configuration writes -/

/-- Records accepted so far in one WRITE, each of which "counts as that channel's pending record" (R3). -/
abbrev Overlay := List (ChannelNo × ConfigRecord)

/-- The pending record of a channel during a WRITE. -/
def State.pendingIn (s : State) (o : Overlay) (n : ChannelNo) : Option ConfigRecord :=
  match o.find? fun x => decide (x.1 = n) with
  | some x => some x.2
  | none => (s.channel n).pendingRecord

/-- A record names a timeslot with a mode other than OFF. -/
def ConfigRecord.names (r : ConfigRecord) (timeslot : Nat) : Bool :=
  decide (r.mode ≠ .off) && decide (r.timeslot.val = timeslot)

/-- Check 2 of R3: some other channel names the timeslot in its governing record or its pending record. -/
def State.timeslotTaken (s : State) (o : Overlay) (n : ChannelNo) (timeslot : Nat) : Bool :=
  (List.finRange Config.channels).any fun m =>
    decide (m ≠ n) && ((s.channel m).governing.names timeslot ||
      ((s.pendingIn o m).map (·.names timeslot)).getD false)

/-- The checks of R3 on one record, in order; the record when all pass. The first three read the fields before their
values are judged (log entry 22). -/
def State.checkRecord (s : State) (p : Plane) (o : Overlay) (n : ChannelNo) (r : RawRecord) : Except Status ConfigRecord :=
  if !s.holds p (channelCode n) then .error .notHolder
  else if r.mode ≠ 0 ∧ s.timeslotTaken o n r.timeslot then .error .timeslotTaken
  else if r.receiveUpper < r.receiveLower + 3 ∨ r.sendUpper < r.sendLower + 3 then .error .badLevels
  else match r.decode with
    | none => .error .badValue
    | some record => .ok record

/-- The records of a WRITE, checked in ascending channel index (R3): the first refusal, or all records. -/
def State.checkRecords (s : State) (p : Plane) : Overlay → List (ChannelNo × RawRecord) → Except Status Overlay
  | o, [] => .ok o
  | o, (n, raw) :: rest =>
    match s.checkRecord p o n raw with
    | .error st => .error st
    | .ok record => s.checkRecords p (o ++ [(n, record)]) rest

/-- A channel enters OFF (R5): its block is discarded and its status and hidden state take their defaults. -/
def Channel.enterOff (c : Channel) (r : ConfigRecord) : Channel :=
  { (c.restarted r).dropBlock with governing := r, pendingRecord := none, standing := .hold, whollyRunning := false }

/-- An accepted record takes effect (R4). -/
def Channel.accept (c : Channel) (r : ConfigRecord) : Channel :=
  if r.mode ≠ .off then { c with pendingRecord := some r }
  else if c.governing.mode = .off then { c with governing := r, pendingRecord := none }
  else c.enterOff r

/-- All records of an accepted WRITE take effect together (R3, R4). -/
def State.acceptRecords (s : State) (records : Overlay) : State :=
  records.foldl (fun t x => t.modChannel x.1 (·.accept x.2)) s

/-- The raw records of a WRITE, six words each (R165). -/
def rawRecords (data : List Word) (count : Nat) : List RawRecord :=
  (List.range count).map fun i => rawRecord (wordsToBytes ((data.drop (6 * i)).take 6))

/-- The channels from an index on. -/
def channelsFrom (index count : Nat) : List ChannelNo := (List.range count).filterMap fun i => channelOfCode (index + i)

/-- A WRITE to CHANNEL_CONFIG whose space, count and indices are good (R3, R4, R166). -/
def State.writeConfig (s : State) (p : Plane) (index count : Nat) (data : List Word) : State × Status :=
  match s.checkRecords p [] ((channelsFrom index count).zip (rawRecords data count)) with
  | .error st => (s, st)
  | .ok records => (s.acceptRecords records, .ok)

/-! ### RESTART -/

/-- What RESTART does to the channel itself (R13, R149). Whether LSU's block accumulators are kept is a free value (log
entry 12). -/
def Channel.restart (c : Channel) : Channel :=
  let reset := { c.restarted c.governing with cursor := 0 }
  let kept := fun power : Lin => if Config.restartKeepsLsuBlock then power else []
  { reset with receive := { reset.receive with blockAcc := kept reset.receive.blockAcc }
               send := { reset.send with blockAcc := kept reset.send.blockAcc } }

/-- The wholly running mark of the block in progress at a RESTART: it stays only when the channel, RUNNING before
(`wasRunning`), is RUNNING after it. A RESTARTING channel's is cleared (table of section 5.9), and so is that of a channel
that enters RUNNING at the RESTART (R88). -/
def State.markAtRestart (s : State) (n : ChannelNo) (wasRunning : Bool) : State :=
  if wasRunning ∧ s.canceller n = .running then s else s.modChannel n ({ · with whollyRunning := false })

/-- RESTART of a channel by a plane that holds it (R13, R14). TONE_BYPASS reports a bypass state left (R108); no event
is raised about an OFF channel (R5). -/
def State.restartChannel (s : State) (p : Plane) (n : ChannelNo) : State :=
  let reset := s.modChannel n (·.restart)
  let purged := if (s.channelChain n).isEmpty then reset else reset.requestPurge n (.ofPlane p)
  let marked := purged.markAtRestart n (decide (s.canceller n = .running))
  if (s.channel n).governing.mode = .off then marked
  else match (s.channel n).tone with
    | .bypassSuppressor | .bypassFull => marked.raiseChannel n (.toneBypass n .listening)
    | .listening | .tone => marked

/-- RESTART, executed by CHT (R13). -/
def State.restartCommand (s : State) (p : Plane) (channel : Option ChannelNo) : State × Status :=
  match channel with
  | none => (s, .badValue)
  | some n => if s.holds p (channelCode n) then (s.restartChannel p n, .ok) else (s, .notHolder)

end Sys2Proof.Machine
end

