-- ==== Sys2Proof/Machine/Claims.lean ====
section
/-! DEFINITION. The Claim Table's commands (R153, R154). -/

namespace Sys2Proof.Machine

/-- CLAIM, executed by CLT (R153). -/
def State.claimCommand (s : State) (p : Plane) (claimable : Option ChainCode) : State × Status :=
  match claimable with
  | none => (s, .badList)
  | some c => if s.holder c = some p.other then (s, .claimed) else (s.setHolder c (some p), .ok)

/-- UNCLAIM, executed by CLT (R153). -/
def State.unclaimCommand (s : State) (p : Plane) (claimable : Option ChainCode) : State × Status :=
  match claimable with
  | none => (s, .badList)
  | some c => if s.holder c = some p then (s.setHolder c none, .ok) else (s, .notHolder)

/-- SEIZE, executed by CLT (R153): the other plane is told of its loss (R154). -/
def State.seizeCommand (s : State) (p : Plane) (claimable : Option ChainCode) : State × Status :=
  match claimable with
  | none => (s, .badList)
  | some c =>
    let seized := s.setHolder c (some p)
    if s.holder c = some p.other then
      (seized.raise (decide (p.other = .a)) (decide (p.other = .b)) (.claimLost c p), .ok)
    else (seized, .ok)

end Sys2Proof.Machine
end

