-- ==== Sys2Proof/Machine/Encodings.lean ====
section
/-! DEFINITION. What is sent on the links: the items of the seven spaces, the panel record, the event records and the
check byte (R162, R165, R171, R172, section 10.6). -/

namespace Sys2Proof.Machine

/-! ### The check byte -/

/-- One bit of the CRC-8 with generator x⁸ + x² + x + 1: the register is shifted, most significant bit first (R162). -/
def crcShift (register : Byte) : Byte :=
  if register.msb then (register <<< 1) ^^^ 0x07 else register <<< 1

/-- One byte of the CRC-8. -/
def crcByte (register byte : Byte) : Byte :=
  crcShift (crcShift (crcShift (crcShift (crcShift (crcShift (crcShift (crcShift (register ^^^ byte))))))))

/-- The check byte of some bytes: the register starts at 0 (R162). -/
def checkByte (bytes : List Byte) : Byte := bytes.foldl crcByte 0

/-! ### Absent values (R171) -/

/-- A number that may be absent, in a word. -/
def optWord (x : Option Nat) : Word :=
  match x with
  | some v => BitVec.ofNat 16 v
  | none => 0xFFFF

/-- A segment number that may be absent, in a word. -/
def optSegment (x : Option SegNo) : Word := optWord (x.map Fin.val)

/-! ### Codes of states -/

/-- Canceller state codes. -/
def cancellerCode : Canceller → Nat
  | .off => 0
  | .restarting => 1
  | .running => 2
  | .bypassed => 3

/-- Divergence state codes. -/
def divergenceCode : Divergence → Nat
  | .steady => 0
  | .watchful => 1
  | .diverged => 2

/-- Tone state codes. -/
def toneCode : Tone → Nat
  | .listening => 0
  | .tone => 1
  | .bypassSuppressor => 2
  | .bypassFull => 3

/-- Purge Engine state codes. -/
def engineCode : Engine → Nat
  | .idle => 0
  | .gathering => 1
  | .running => 2
  | .suspending => 3
  | .suspended => 4

/-- Framing state codes. -/
def framingCode : Framing → Nat
  | .lost => 0
  | .framed => 1

/-- Panel state codes. -/
def panelCode : PanelState → Nat
  | .idle => 0
  | .pending => 1
  | .running => 2

/-- Holder codes. -/
def holderCode : Holder → Nat
  | none => 0
  | some .a => 1
  | some .b => 2

/-- Event kind codes. -/
def kindCode : EventKind → Nat
  | .converged => 1
  | .diverged => 2
  | .toneBypass => 3
  | .levelLimit => 4
  | .trackMoved => 5
  | .trackBlocked => 6
  | .purgeDone => 7
  | .purgeResumed => 8
  | .claimLost => 9
  | .framingLost => 10
  | .framingRestored => 11
  | .overrun => 12

/-- A byte of a number. -/
def byteOf (n : Nat) : Byte := BitVec.ofNat 8 n

/-! ### Items of the spaces -/

/-- The CHANNEL_CONFIG item: the governing record (R1). -/
def configItem (c : Channel) : List Word := bytesToWords (recordBytes c.governing)

/-- The CHANNEL_STATUS item (R9). -/
def State.statusItem (s : State) (n : ChannelNo) : List Word :=
  let c := s.channel n
  bytesToWords [byteOf (cancellerCode (s.canceller n)),
    byteOf (flagByte [c.converged, c.doubleTalk, decide (c.suppressor = .closed), c.owed, c.receive.limit, c.send.limit]),
    highByte (BitVec.ofInt 16 c.erle), lowByte (BitVec.ofInt 16 c.erle), byteOf c.divCount,
    byteOf (divergenceCode c.divState), byteOf (toneCode c.tone), BitVec.ofInt 8 c.receive.gain,
    BitVec.ofInt 8 c.send.gain, byteOf (c.cursor / 64), highByte c.blockCount, lowByte c.blockCount]

/-- The list field of a segment as it is sent: 255 for F, 256 in transit (R19, R171). -/
def placeCode : Place → Nat
  | .free => 255
  | .chain c => c.val
  | .transit => 256

/-- The weight as it is reported: in units of 1/1024, rounded down, at most 65534 (R21). -/
def weightReport (weight : Nat) : Nat := min 65534 (weight / 2 ^ 20)

/-- The SEGMENT item (R19, R33). -/
def State.segmentItem (s : State) (g : SegNo) : List Word :=
  let x := s.segment g
  [BitVec.ofNat 16 (placeCode (s.place g)), optSegment (s.prev g), optSegment (s.next g), optWord x.startDelay,
   BitVec.ofNat 16 (weightReport x.weight), BitVec.ofNat 16 x.vacancy]

/-- The LIST item of a list: first, last and count (R23). -/
def headerItem (l : List SegNo) : List Word :=
  [optSegment l.head?, optSegment l.getLast?, BitVec.ofNat 16 l.length]

/-- The DEVICE items (R165); items 6 and 7 answer for the reading link. -/
def State.deviceItem (s : State) (p : Plane) (i : Nat) : Word :=
  match i with
  | 0 => BitVec.ofNat 16 s.free.length
  | 1 => BitVec.ofNat 16 (engineCode s.pge.engine)
  | 2 => BitVec.ofNat 16 s.pge.batch.length
  | 3 => BitVec.ofNat 16 (framingCode s.hwi.framing)
  | 4 => BitVec.ofNat 16 s.relocation.length
  | 5 => s.hwi.stamp
  | 6 => BitVec.ofNat 16 (s.port p).queue.entries.length
  | _ => BitVec.ofNat 16 (s.port p).queue.trigger

/-! ### The panel record and event records -/

/-- The panel record as the body of STATUS (section 10.6): absent fields are sent as all ones. -/
def panelBytes (x : Panel) : List Byte :=
  let word : List Byte := match x.command with
    | some w => [codeOfCommand w.code, highByte w.args.arg1, lowByte w.args.arg1, w.args.listField,
                 highByte w.args.delayField, lowByte w.args.delayField]
    | none => List.replicate 6 0xFF
  [byteOf (panelCode x.state), byteOf (if x.valid then 1 else 0)] ++ word ++
    [(x.status.map statusCode).getD 0xFF, highByte (optSegment x.segment), lowByte (optSegment x.segment),
     (x.count.map byteOf).getD 0xFF]

/-- The subject byte of an event; 0xFF when absent (R172). -/
def subjectByte (c : Option ChainCode) : Byte := (c.map fun c => byteOf c.val).getD 0xFF

/-- A requester set as it is sent in PURGE_DONE (R172). -/
def requesterByte (r : Requesters) : Byte := byteOf (flagByte [r.a, r.b, r.internal])

/-- The detail bytes of an event (R172); absent bytes are 0xFF. -/
def detailBytes : Event → List Byte
  | .converged _ erle => [highByte (BitVec.ofInt 16 erle), lowByte (BitVec.ofInt 16 erle), 0xFF]
  | .diverged _ count erle => [byteOf count, highByte (BitVec.ofInt 16 erle), lowByte (BitVec.ofInt 16 erle)]
  | .toneBypass _ t => [byteOf (toneCode t), 0xFF, 0xFF]
  | .levelLimit _ send gain => [byteOf (if send then 1 else 0), BitVec.ofInt 8 gain, 0xFF]
  | .trackMoved _ g old new =>
    let detail := g.val * 16384 + old / 8 * 64 + new / 64
    [byteOf (detail / 65536), byteOf (detail / 256), byteOf detail]
  | .trackBlocked _ g delay => [byteOf (g.val / 256), byteOf g.val, byteOf (delay / 8)]
  | .purgeDone _ r => [requesterByte r, 0xFF, 0xFF]
  | .claimLost _ p => [byteOf (holderCode (some p)), 0xFF, 0xFF]
  | .overrun kind subject => [byteOf (kindCode kind), subjectByte subject, 0xFF]
  | .purgeResumed | .framingLost | .framingRestored => [0xFF, 0xFF, 0xFF]

/-- An event record as it is sent: 8 bytes (section 10.6). -/
def recordOfEvent (r : EventRecord) : List Byte :=
  [byteOf (kindCode (eventKind r.event)), subjectByte (eventSubject r.event), highByte r.stamp, lowByte r.stamp] ++
    detailBytes r.event ++ [byteOf (if r.both then 1 else 0)]

/-! ### Spaces -/

/-- The seven spaces (R165). -/
inductive Space
  | channelConfig
  | channelStatus
  | segment
  | coeff
  | list
  | claims
  | device
  deriving DecidableEq, Repr

/-- The space of a space code (R165). -/
def spaceOfCode (b : Byte) : Option Space :=
  match b.toNat with
  | 1 => some .channelConfig
  | 2 => some .channelStatus
  | 3 => some .segment
  | 4 => some .coeff
  | 5 => some .list
  | 6 => some .claims
  | 7 => some .device
  | _ => none

/-- An index is valid in a space (R165). -/
def validIndex (space : Space) (i : Nat) : Bool :=
  match space with
  | .channelConfig | .channelStatus => decide (i < 128)
  | .segment => decide (i < 1024)
  | .coeff => decide (i < 65536)
  | .list => decide (i < 136) || decide (i = 255)
  | .claims => decide (i < 136)
  | .device => decide (i < 8)

/-- The item size of a space in words (R165). -/
def itemSize : Space → Nat
  | .channelConfig | .channelStatus | .segment => 6
  | .list => 3
  | .coeff | .claims | .device => 1

/-- The item size used for the length of a WRITE: one word for a code that names no space (R161). -/
def itemSizeOfCode (b : Byte) : Nat := ((spaceOfCode b).map itemSize).getD 1

/-- The segment of a COEFF index (R165). -/
def coeffSegment (i : Nat) : Option SegNo := if h : i / 64 < Config.segments then some ⟨i / 64, h⟩ else none

/-- The item at an index of a space, as it stands (R35, R165). -/
def State.item (s : State) (p : Plane) (space : Space) (i : Nat) : List Word :=
  match space with
  | .channelConfig => ((channelOfCode i).map fun n => configItem (s.channel n)).getD []
  | .channelStatus => ((channelOfCode i).map s.statusItem).getD []
  | .segment => if h : i < Config.segments then s.segmentItem ⟨i, h⟩ else []
  | .coeff => ((coeffSegment i).map fun g => [(s.segment g).coeffs.toList.getD (i % 64) 0]).getD []
  | .list => if i = 255 then headerItem s.free else ((chainOfCode i).map fun c => headerItem (s.chain c)).getD []
  | .claims => ((chainOfCode i).map fun c => [BitVec.ofNat 16 (holderCode (s.holder c))]).getD []
  | .device => [s.deviceItem p i]

end Sys2Proof.Machine
end

