-- ==== Sys2Proof/Machine/Links.lean ====
section
/-! DEFINITION. The management links: the exchange of request and reply frames (R160, R164), the requests (R165 to R170,
R174, R177) and the command panels' taking and routing of commands (R37, R38, R57). -/

namespace Sys2Proof.Machine

/-! ### Request and reply -/

/-- What a request comes to: the state, the status of the reply, and its body. -/
structure Reply where
  state : State
  status : Status
  body : List Byte

/-- A reply with no body. -/
def Reply.plain (x : State × Status) : Reply := { state := x.1, status := x.2, body := [] }

/-- A request refused: "no body, and the request had no effect" (R164). -/
def Reply.refuse (s : State) (st : Status) : Reply := { state := s, status := st, body := [] }

/-- A reply frame: kind, status, body when OK, check byte (R164). -/
def replyBytes (kind : Byte) (st : Status) (body : List Byte) : List Byte :=
  let bytes := kind :: statusCode st :: (if st = .ok then body else [])
  bytes ++ [checkByte bytes]

/-- What data out carries for a number of whole bytes: the held reply, then data out held high (R160). -/
def drivenBytes (reply : List Byte) (bytes : Nat) : List Byte := (reply ++ List.replicate bytes 0xFF).take bytes

/-- The reply frame of R160: the held reply is driven and discarded, and the interface awaits a request. In
AWAIT_REQUEST no reply is held and nothing happens (log entry 2). -/
def State.clockReply (s : State) (p : Plane) (bytes : Nat) : State :=
  match (s.port p).iface with
  | .awaitRequest => s
  | .replyReady reply =>
    s.modPort p fun port => { port with iface := .awaitRequest, sent := drivenBytes reply bytes }

/-- A request frame of a number of bytes. In AWAIT_REQUEST it is executed and its reply held; in REPLY_READY the select
interval is the reply frame of the reply still held, and the request is not executed (R160). -/
def State.request (s : State) (p : Plane) (kind : Byte) (bytes : Nat) (execute : State → Reply) : State :=
  match (s.port p).iface with
  | .replyReady _ => s.clockReply p bytes
  | .awaitRequest =>
    let r := execute s
    r.state.modPort p ({ · with iface := .replyReady (replyBytes kind r.status r.body) })

/-! ### Reads and writes -/

/-- The checks READ and WRITE have in common, in order: the space code, the count, the indices (R165, R166). -/
def checkAccess (space : Byte) (index : Word) (count : Byte) : Except Status Space :=
  match spaceOfCode space with
  | none => .error .badAddress
  | some sp =>
    if count.toNat = 0 ∨ 64 < count.toNat then .error .badValue
    else if (List.range count.toNat).all fun i => validIndex sp (index.toNat + i) then .ok sp
    else .error .badAddress

/-- READ (R165). -/
def State.readRequest (s : State) (p : Plane) (space : Byte) (index : Word) (count : Byte) : Reply :=
  match checkAccess space index count with
  | .error st => .refuse s st
  | .ok sp =>
    { state := s, status := .ok
      body := wordsToBytes ((List.range count.toNat).flatMap fun i => s.item p sp (index.toNat + i)) }

/-- The check of one segment of a COEFF write, in order (R167). -/
def State.checkCoeff (s : State) (p : Plane) (g : SegNo) : Option Status :=
  match s.place g with
  | .free | .transit => some .notWritable
  | .chain c =>
    if c.val < Config.channels then some .notWritable
    else if !s.holds p c then some .notHolder
    else if s.unfinished c then some .notWritable
    else none

/-- The segments a COEFF write touches, ascending (R167). -/
def coeffSegments (index count : Nat) : List SegNo :=
  (List.finRange Config.segments).filter fun g => decide (index / 64 ≤ g.val) && decide (g.val ≤ (index + count - 1) / 64)

/-- Stores a word in a tap (R167). -/
def storeTap (index : Nat) (w : Word) (s : State) : State :=
  match coeffSegment index with
  | none => s
  | some g => s.modSegment g fun x =>
      { x with coeffs := x.coeffs.set (index % 64) w (Nat.mod_lt _ (by decide)) }

/-- Stores the words of a COEFF write, ascending. -/
def storeTaps : Nat → List Word → State → State
  | _, [], s => s
  | index, w :: rest, s => storeTaps (index + 1) rest (storeTap index w s)

/-- A WRITE to COEFF whose space, count and indices are good (R167). -/
def State.writeCoeff (s : State) (p : Plane) (index count : Nat) (data : List Word) : State × Status :=
  let touched := coeffSegments index count
  match touched.findSome? (s.checkCoeff p) with
  | some st => (s, st)
  | none => ((storeTaps index ((data ++ List.replicate count 0).take count) s).modSegments touched (·.refresh), .ok)

/-- WRITE (R166): refused, or carried out by the space's own rule. -/
def State.writeRequest (s : State) (p : Plane) (space : Byte) (index : Word) (count : Byte) (data : List Word) : Reply :=
  match checkAccess space index count with
  | .error st => .refuse s st
  | .ok .channelConfig => .plain (s.writeConfig p index.toNat count.toNat data)
  | .ok .coeff => .plain (s.writeCoeff p index.toNat count.toNat data)
  | .ok .channelStatus | .ok .segment | .ok .list | .ok .claims | .ok .device => .refuse s .notWritable

/-- The length of a WRITE frame (R161). -/
def writeLength (space count : Byte) : Nat := 6 + count.toNat * itemSizeOfCode space * 2

/-! ### Status, events, trigger and reset -/

/-- STATUS (R168). -/
def State.statusRequest (s : State) (p : Plane) : Reply :=
  { state := s, status := .ok, body := panelBytes (s.port p).panel }

/-- A removal of the oldest entries, which restarts the quiet timer and clears the quiet mark (R174). -/
def Queue.remove (q : Queue) (m : Nat) : Queue :=
  { q with entries := q.entries.drop m, quietTimer := true, quietMark := false }

/-- TAKE_EVENTS (R169, R174). -/
def State.takeEventsRequest (s : State) (p : Plane) (n : Byte) : Reply :=
  if n.toNat = 0 ∨ 16 < n.toNat then .refuse s .badValue
  else
    let entries := (s.port p).queue.entries
    let m := min n.toNat entries.length
    { state := s.modQueue p (·.remove m), status := .ok
      body := byteOf m :: (entries.take m).flatMap recordOfEvent }

/-- SET_TRIGGER (R169). -/
def State.setTriggerRequest (s : State) (p : Plane) (level : Byte) : Reply :=
  if level.toNat = 0 ∨ 64 < level.toNat then .refuse s .badValue
  else { state := s.modQueue p ({ · with trigger := level.toNat }), status := .ok, body := [] }

/-- LINK_RESET: the panel (R57) and the event queue (R177); a RUNNING command goes on detached. -/
def State.linkResetRequest (s : State) (p : Plane) : Reply :=
  let issued := decide (s.lc.current.map LcJob.issuer = some (.panel p))
  let running := decide ((s.port p).panel.state = .running)
  let detached := { s with lc := { s.lc with detached := s.lc.detached || (running && issued) } }
  { state := detached.modPort p ({ · with panel := .reset, queue := .reset }), status := .ok, body := [] }

/-- QUIET_TIMER_EXPIRY (R175). Nothing happens while the timer is stopped (log entry 2). -/
def State.quietExpiry (s : State) (p : Plane) : State :=
  s.modQueue p fun q => if q.quietTimer then { q with quietTimer := false, quietMark := true } else q

/-! ### Commands -/

/-- The panel records a command as taken, with no result (R37). -/
def Panel.take (w : CommandWord) (state : PanelState) : Panel :=
  { state := state, command := some w, valid := false, status := none, segment := none, count := none }

/-- A command whose owner executes it at once: the outcome is the result, and the panel is IDLE (R38). -/
def State.takeImmediate (s : State) (p : Plane) (w : CommandWord) (execute : State → State × Status) : State :=
  let x := execute (s.modPanel p fun _ => .take w .running)
  x.1.modPanel p (·.complete x.2 none)

/-- The routing of a command the panel takes (R38). -/
def State.route (s : State) (p : Plane) (w : CommandWord) : State :=
  match w.code with
  | .allocate | .release | .move | .swap | .empty => s.modPanel p fun _ => .take w .pending
  | .purge => s.takeImmediate p w (·.purgeCommand p (argChain w.args))
  | .suspend => s.takeImmediate p w (·.suspendCommand)
  | .resume => s.takeImmediate p w (·.resumeCommand)
  | .claim => s.takeImmediate p w (·.claimCommand p (argChain w.args))
  | .unclaim => s.takeImmediate p w (·.unclaimCommand p (argChain w.args))
  | .seize => s.takeImmediate p w (·.seizeCommand p (argChain w.args))
  | .restart => s.takeImmediate p w (·.restartCommand p (argChannel w.args))

/-- A COMMAND request that names a command (R37, R168): PANEL_BUSY, or taken. -/
def State.commandRequest (s : State) (p : Plane) (w : CommandWord) : Reply :=
  if (s.port p).panel.state = .idle then { state := s.route p w, status := .ok, body := [] }
  else .refuse s .panelBusy

/-- A COMMAND request frame: 8 bytes of kind 0x03 (R161). -/
def State.commandFrame (s : State) (p : Plane) (code : CommandCode) (args : Args) : State :=
  s.request p 0x03 8 (·.commandRequest p { code := code, args := args })

end Sys2Proof.Machine
end

