-- ==== Sys2Proof/Machine/PanelCommands.lean ====
section
/-! DEFINITION. The meanings of the COMMAND requests (R37, R38, R168). -/

namespace Sys2Proof.Machine

/-- ALLOCATE: R37, R38. -/
def execAllocate (p : Plane) (args : Args) (s : State) : Host.Outcome State Fault Refusal :=
  .next (s.commandFrame p .allocate args)

/-- RELEASE: R37, R38. -/
def execRelease (p : Plane) (args : Args) (s : State) : Host.Outcome State Fault Refusal :=
  .next (s.commandFrame p .release args)

/-- MOVE: R37, R38. -/
def execMove (p : Plane) (args : Args) (s : State) : Host.Outcome State Fault Refusal :=
  .next (s.commandFrame p .move args)

/-- SWAP: R37, R38. -/
def execSwap (p : Plane) (args : Args) (s : State) : Host.Outcome State Fault Refusal :=
  .next (s.commandFrame p .swap args)

/-- EMPTY: R37, R38. -/
def execEmpty (p : Plane) (args : Args) (s : State) : Host.Outcome State Fault Refusal :=
  .next (s.commandFrame p .empty args)

/-- PURGE: R61. -/
def execPurge (p : Plane) (args : Args) (s : State) : Host.Outcome State Fault Refusal :=
  .next (s.commandFrame p .purge args)

/-- SUSPEND: R69. -/
def execSuspend (p : Plane) (args : Args) (s : State) : Host.Outcome State Fault Refusal :=
  .next (s.commandFrame p .suspend args)

/-- RESUME: R71. -/
def execResume (p : Plane) (args : Args) (s : State) : Host.Outcome State Fault Refusal :=
  .next (s.commandFrame p .resume args)

/-- CLAIM: R153. -/
def execClaim (p : Plane) (args : Args) (s : State) : Host.Outcome State Fault Refusal :=
  .next (s.commandFrame p .claim args)

/-- UNCLAIM: R153. -/
def execUnclaim (p : Plane) (args : Args) (s : State) : Host.Outcome State Fault Refusal :=
  .next (s.commandFrame p .unclaim args)

/-- SEIZE: R153, R154. -/
def execSeize (p : Plane) (args : Args) (s : State) : Host.Outcome State Fault Refusal :=
  .next (s.commandFrame p .seize args)

/-- RESTART: R13, R14. -/
def execRestart (p : Plane) (args : Args) (s : State) : Host.Outcome State Fault Refusal :=
  .next (s.commandFrame p .restart args)

/-- COMMAND: a code that names no command is answered BAD_COMMAND (R37). -/
def execCommand (p : Plane) (code : Byte) (args : Args) (s : State) : Host.Outcome State Fault Refusal :=
  match commandOfCode code with
    | some c => .next (s.commandFrame p c args)
    | none => .next (s.request p 0x03 8 fun s => .refuse s .badCommand)

end Sys2Proof.Machine
end

