-- ==== Sys2Proof/Machine/PurgeEvents.lean ====
section
/-! DEFINITION. The meanings of the events of the Purge Engine. -/

namespace Sys2Proof.Machine

/-- GATHER_TIMER_EXPIRY: R63. -/
def execGatherTimerExpiry (s : State) : Host.Outcome State Fault Refusal :=
  .next (s.gatherExpiry)

/-- SEGMENT_CLEAR_END: R65, R70. -/
def execSegmentClearEnd (s : State) : Host.Outcome State Fault Refusal :=
  .next (s.clearEnd)

/-- SUSPEND_TIMER_EXPIRY: R72. -/
def execSuspendTimerExpiry (s : State) : Host.Outcome State Fault Refusal :=
  .next (s.suspendExpiry)

end Sys2Proof.Machine
end

