-- ==== Sys2Proof/Machine/Frames.lean ====
section
/-! DEFINITION. Request frames: how the bytes clocked in a select interval in AWAIT_REQUEST are judged (R161, R162), and
the frame of each request. -/

namespace Sys2Proof.Machine

/-- How a request frame is judged (R161, R162). -/
inductive Verdict
  /-- No whole byte received: the select interval is ignored. -/
  | ignored
  /-- Fewer bytes than the length: discarded with no effect and no reply. -/
  | discarded
  /-- Answered BAD_FRAME. -/
  | bad
  /-- Executed. -/
  | request (i : Instr)
  deriving DecidableEq, Repr

/-- The command of a COMMAND request (R37). -/
def commandInstr (p : Plane) (code : Byte) (args : Args) : Instr :=
  match commandOfCode code with
  | some .allocate => .allocate p args
  | some .release => .release p args
  | some .move => .move p args
  | some .swap => .swap p args
  | some .empty => .empty p args
  | some .purge => .purge p args
  | some .suspend => .suspend p args
  | some .resume => .resume p args
  | some .claim => .claim p args
  | some .unclaim => .unclaim p args
  | some .seize => .seize p args
  | some .restart => .restart p args
  | none => .command p code args

/-- The command of a WRITE request (R3, R166, R167). -/
def writeInstr (p : Plane) (space : Byte) (index : Word) (count : Byte) (data : List Word) : Instr :=
  match checkAccess space index count with
  | .ok .channelConfig => .writeChannelConfig p index count data
  | .ok .coeff => .writeCoeff p index count data
  | .ok .channelStatus | .ok .segment | .ok .list | .ok .claims | .ok .device | .error _ =>
    .write p space index count data

/-- The length of a request frame, from its first bytes (R161): none when the kind byte names no request kind. The
length of a WRITE is known once its count has arrived; before that it is over the bytes received. -/
def frameLength : List Byte → Option Nat
  | [] => none
  | kind :: rest =>
    match kind.toNat with
    | 0x01 => some 6
    | 0x02 => some (match rest with
        | space :: _ :: _ :: count :: _ => writeLength space count
        | _ => 6)
    | 0x03 => some 8
    | 0x04 | 0x07 => some 2
    | 0x05 | 0x06 => some 3
    | _ => none

/-- The request of the bytes of a frame before its check byte (R161). -/
def requestOf (p : Plane) : List Byte → Option Instr
  | 0x01 :: [space, i, j, count] => some (.read p space (wordOf i j) count)
  | 0x02 :: space :: i :: j :: count :: data => some (writeInstr p space (wordOf i j) count (bytesToWords data))
  | 0x03 :: [code, a, b, list, d, e] =>
    some (commandInstr p code { arg1 := wordOf a b, listField := list, delayField := wordOf d e })
  | [0x04] => some (.status p)
  | 0x05 :: [n] => some (.takeEvents p n)
  | 0x06 :: [level] => some (.setTrigger p level)
  | [0x07] => some (.linkReset p)
  | _ => none

/-- The judgement of a request frame (R161, R162). -/
def judgeFrame (p : Plane) (frame : List Byte) : Verdict :=
  match frame with
  | [] => .ignored
  | _ :: _ =>
    match frameLength frame with
    | none => .bad
    | some length =>
      if frame.length < length then .discarded
      else
        let body := frame.take (length - 1)
        if (frame.drop (length - 1)).head? = some (checkByte body) then
          match requestOf p body with
          | some i => .request i
          | none => .bad
        else .bad

/-- A frame with its check byte (R162). -/
def withCheck (bytes : List Byte) : List Byte := bytes ++ [checkByte bytes]

/-- The bytes of a WRITE (R161). -/
def writeBytes (space : Byte) (index : Word) (count : Byte) (data : List Word) : List Byte :=
  [0x02, space, highByte index, lowByte index, count] ++ wordsToBytes data

/-- The bytes of a COMMAND (section 10.6). -/
def commandBytes (code : Byte) (a : Args) : List Byte :=
  [0x03, code, highByte a.arg1, lowByte a.arg1, a.listField, highByte a.delayField, lowByte a.delayField]

/-- The request frame of a command that a plane sends on its link; none for a command that is no request. -/
def requestFrame : Instr → Option (List Byte)
  | .read _ space index count => some (withCheck [0x01, space, highByte index, lowByte index, count])
  | .writeChannelConfig _ index count data => some (withCheck (writeBytes 1 index count data))
  | .writeCoeff _ index count data => some (withCheck (writeBytes 4 index count data))
  | .write _ space index count data => some (withCheck (writeBytes space index count data))
  | .status _ => some (withCheck [0x04])
  | .takeEvents _ n => some (withCheck [0x05, n])
  | .setTrigger _ level => some (withCheck [0x06, level])
  | .linkReset _ => some (withCheck [0x07])
  | .allocate _ a => some (withCheck (commandBytes (codeOfCommand .allocate) a))
  | .release _ a => some (withCheck (commandBytes (codeOfCommand .release) a))
  | .move _ a => some (withCheck (commandBytes (codeOfCommand .move) a))
  | .swap _ a => some (withCheck (commandBytes (codeOfCommand .swap) a))
  | .empty _ a => some (withCheck (commandBytes (codeOfCommand .empty) a))
  | .purge _ a => some (withCheck (commandBytes (codeOfCommand .purge) a))
  | .suspend _ a => some (withCheck (commandBytes (codeOfCommand .suspend) a))
  | .resume _ a => some (withCheck (commandBytes (codeOfCommand .resume) a))
  | .claim _ a => some (withCheck (commandBytes (codeOfCommand .claim) a))
  | .unclaim _ a => some (withCheck (commandBytes (codeOfCommand .unclaim) a))
  | .seize _ a => some (withCheck (commandBytes (codeOfCommand .seize) a))
  | .restart _ a => some (withCheck (commandBytes (codeOfCommand .restart) a))
  | .command _ code a => some (withCheck (commandBytes code a))
  | .badFrame _ frame => some frame
  | .powerOnReset _ | .syncPulse _ | .missedSync | .samplePairArrival _ _ _ | .blockBoundary _ | .stampTick
  | .replyFrame _ _ | .allocateTake | .allocateLink | .releaseTake | .releaseLinkIntoF | .moveTake | .moveLink
  | .swapTake | .emptyTake | .emptyLinkIntoF | .emptyUnlink | .relocationTake | .relocationLink | .gatherTimerExpiry
  | .segmentClearEnd | .suspendTimerExpiry | .quietTimerExpiry _ | .transparentTimeslot _ _ _ => none

/-- A bad request frame (R161, R162): the reply is BAD_FRAME with the kind byte as received, and nothing else changes.
An interval with no whole byte is ignored, but in REPLY_READY it discards the held reply (R160). -/
def State.badFrameRequest (s : State) (p : Plane) (frame : List Byte) : State :=
  match frame with
  | [] => s.clockReply p 0
  | kind :: _ => s.request p kind frame.length fun s => .refuse s .badFrame

end Sys2Proof.Machine
end

