-- ==== Sys2Proof/Machine/Requests.lean ====
section
/-! DEFINITION. The meanings of the link requests and of the reply frame. The frame lengths are those of R161. -/

namespace Sys2Proof.Machine

/-- READ: R165. -/
def execRead (p : Plane) (space : Byte) (index : Word) (count : Byte) (s : State) : Host.Outcome State Fault Refusal :=
  .next (s.request p 0x01 6 (·.readRequest p space index count))

/-- WRITE_CHANNEL_CONFIG: R3, R4, R166. -/
def execWriteChannelConfig (p : Plane) (index : Word) (count : Byte) (data : List Word) (s : State) : Host.Outcome State Fault Refusal :=
  .next (s.request p 0x02 (writeLength 1 count) (·.writeRequest p 1 index count data))

/-- WRITE_COEFF: R167. -/
def execWriteCoeff (p : Plane) (index : Word) (count : Byte) (data : List Word) (s : State) : Host.Outcome State Fault Refusal :=
  .next (s.request p 0x02 (writeLength 4 count) (·.writeRequest p 4 index count data))

/-- WRITE: R166. -/
def execWrite (p : Plane) (space : Byte) (index : Word) (count : Byte) (data : List Word) (s : State) : Host.Outcome State Fault Refusal :=
  .next (s.request p 0x02 (writeLength space count) (·.writeRequest p space index count data))

/-- STATUS: R168. -/
def execStatus (p : Plane) (s : State) : Host.Outcome State Fault Refusal :=
  .next (s.request p 0x04 2 (·.statusRequest p))

/-- TAKE_EVENTS: R169, R174. -/
def execTakeEvents (p : Plane) (n : Byte) (s : State) : Host.Outcome State Fault Refusal :=
  .next (s.request p 0x05 3 (·.takeEventsRequest p n))

/-- SET_TRIGGER: R169. -/
def execSetTrigger (p : Plane) (level : Byte) (s : State) : Host.Outcome State Fault Refusal :=
  .next (s.request p 0x06 3 (·.setTriggerRequest p level))

/-- LINK_RESET: R57, R170, R177. -/
def execLinkReset (p : Plane) (s : State) : Host.Outcome State Fault Refusal :=
  .next (s.request p 0x07 2 (·.linkResetRequest p))

/-- REPLY_FRAME: R160. -/
def execReplyFrame (p : Plane) (bytes : Nat) (s : State) : Host.Outcome State Fault Refusal :=
  .next (s.clockReply p bytes)

/-- BAD_FRAME: R161, R162. -/
def execBadFrame (p : Plane) (frame : List Byte) (s : State) : Host.Outcome State Fault Refusal :=
  .next (s.badFrameRequest p frame)

/-- QUIET_TIMER_EXPIRY: R175. -/
def execQuietTimerExpiry (p : Plane) (s : State) : Host.Outcome State Fault Refusal :=
  .next (s.quietExpiry p)

end Sys2Proof.Machine
end

