-- ==== Sys2Proof/Machine/Dispatch.lean ====
section
/-! DEFINITION. The dispatch of a command to its meaning: one arm per row of the opcode table. -/

namespace Sys2Proof.Machine

/-- The effect of a command on everything but the queue of waiting commands. -/
def exec (i : Instr) (s : State) : Host.Outcome State Fault Refusal :=
  match i with
  | .powerOnReset law => Sys2Proof.Machine.execPowerOnReset law s
  | .syncPulse position => Sys2Proof.Machine.execSyncPulse position s
  | .missedSync => Sys2Proof.Machine.execMissedSync s
  | .samplePairArrival n rin sin => Sys2Proof.Machine.execSamplePairArrival n rin sin s
  | .blockBoundary n => Sys2Proof.Machine.execBlockBoundary n s
  | .stampTick => Sys2Proof.Machine.execStampTick s
  | .read p space index count => Sys2Proof.Machine.execRead p space index count s
  | .writeChannelConfig p index count data => Sys2Proof.Machine.execWriteChannelConfig p index count data s
  | .writeCoeff p index count data => Sys2Proof.Machine.execWriteCoeff p index count data s
  | .write p space index count data => Sys2Proof.Machine.execWrite p space index count data s
  | .status p => Sys2Proof.Machine.execStatus p s
  | .takeEvents p n => Sys2Proof.Machine.execTakeEvents p n s
  | .setTrigger p level => Sys2Proof.Machine.execSetTrigger p level s
  | .linkReset p => Sys2Proof.Machine.execLinkReset p s
  | .replyFrame p bytes => Sys2Proof.Machine.execReplyFrame p bytes s
  | .allocate p args => Sys2Proof.Machine.execAllocate p args s
  | .allocateTake => Sys2Proof.Machine.execAllocateTake s
  | .allocateLink => Sys2Proof.Machine.execAllocateLink s
  | .release p args => Sys2Proof.Machine.execRelease p args s
  | .releaseTake => Sys2Proof.Machine.execReleaseTake s
  | .releaseLinkIntoF => Sys2Proof.Machine.execReleaseLinkIntoF s
  | .move p args => Sys2Proof.Machine.execMove p args s
  | .moveTake => Sys2Proof.Machine.execMoveTake s
  | .moveLink => Sys2Proof.Machine.execMoveLink s
  | .swap p args => Sys2Proof.Machine.execSwap p args s
  | .swapTake => Sys2Proof.Machine.execSwapTake s
  | .empty p args => Sys2Proof.Machine.execEmpty p args s
  | .emptyTake => Sys2Proof.Machine.execEmptyTake s
  | .emptyLinkIntoF => Sys2Proof.Machine.execEmptyLinkIntoF s
  | .emptyUnlink => Sys2Proof.Machine.execEmptyUnlink s
  | .relocationTake => Sys2Proof.Machine.execRelocationTake s
  | .relocationLink => Sys2Proof.Machine.execRelocationLink s
  | .purge p args => Sys2Proof.Machine.execPurge p args s
  | .suspend p args => Sys2Proof.Machine.execSuspend p args s
  | .resume p args => Sys2Proof.Machine.execResume p args s
  | .claim p args => Sys2Proof.Machine.execClaim p args s
  | .unclaim p args => Sys2Proof.Machine.execUnclaim p args s
  | .seize p args => Sys2Proof.Machine.execSeize p args s
  | .restart p args => Sys2Proof.Machine.execRestart p args s
  | .gatherTimerExpiry => Sys2Proof.Machine.execGatherTimerExpiry s
  | .segmentClearEnd => Sys2Proof.Machine.execSegmentClearEnd s
  | .suspendTimerExpiry => Sys2Proof.Machine.execSuspendTimerExpiry s
  | .quietTimerExpiry p => Sys2Proof.Machine.execQuietTimerExpiry p s
  | .transparentTimeslot t rin sin => Sys2Proof.Machine.execTransparentTimeslot t rin sin s
  | .badFrame p frame => Sys2Proof.Machine.execBadFrame p frame s
  | .command p code args => Sys2Proof.Machine.execCommand p code args s

end Sys2Proof.Machine
end

