-- ==== Sys2Proof/Safety.lean ====
section
/-! DEFINITION. What the claims are about: the rules the spec states of the whole part at all times, as predicates on a
state. -/

namespace Sys2Proof.Machine

/-! ### The pool (R24, R26, R27) -/

/-- "Every one of the 1024 segments is either in exactly one list or is the one segment in transit" (R24), and while LC
is FREE no segment is in transit (R41). -/
def State.PoolInv (s : State) : Prop :=
  (s.free ++ (List.finRange Config.chains).flatMap s.chain ++ s.transit.toList).Perm (List.finRange Config.segments) ∧
    (s.lc.current = none → s.transit = none)

/-- "Every segment in the free list has all coefficients zero, weight zero, vacancy count zero and no start delay"
(R26). -/
def State.FreeInv (s : State) : Prop := ∀ g ∈ s.free, s.segment g = Segment.free

/-- A list has the form of R27: at most 16 segments, with start delays that are multiples of 8 in 0 to 1984, each at
least 64 above the one before it. -/
def State.ChainForm (s : State) (c : ChainCode) : Prop :=
  (s.chain c).length ≤ Config.maxChain ∧
    (∀ g ∈ s.chain c, ∃ d, (s.segment g).startDelay = some d ∧ goodDelay d = true) ∧
    (s.chain c).Pairwise fun g h => s.delay g + 64 ≤ s.delay h

/-- A segment fits into a list at a start delay: the checks of R47 hold (R41). -/
def State.Fits (s : State) (c : ChainCode) (d : Nat) : Prop :=
  goodDelay d = true ∧ (s.chain c).length < Config.maxChain ∧ ∀ g ∈ s.chain c, overlaps d (s.delay g) = false

/-- "The capacity, delay and overlap checks of ALLOCATE and MOVE therefore still hold at the link" (R41). -/
def State.JobFits (s : State) : Prop :=
  match s.lc.current.map LcJob.work with
  | some (.allocate c d) => s.Fits c d
  | some (.move c d) => s.Fits c d
  | some (.relocation n d) => s.Fits (channelCode n) d
  | some .release | some (.empty _ _) | none => True

/-- Every list has the form of R27, the current command's segment fits its target, and every search cursor is a multiple
of 64 from 0 to 1984 (R124). -/
def State.ChainsInv (s : State) : Prop :=
  (∀ c, s.ChainForm c) ∧ s.JobFits ∧ ∀ n, (s.channel n).cursor % 64 = 0 ∧ (s.channel n).cursor ≤ Config.maxDelay

/-! ### Queues (R127, R173) -/

/-- No two OVERRUN entries are adjacent (R173). -/
def separated : List EventRecord → Bool
  | x :: y :: rest => !(x.isOverrun && y.isOverrun) && separated (y :: rest)
  | _ => true

/-- An event queue "holds at most 64 entries, and no two OVERRUN entries in it are adjacent" (R173); its trigger level
is 1 to 64 (R176). -/
def Queue.Bounded (q : Queue) : Prop :=
  q.entries.length ≤ 64 ∧ separated q.entries = true ∧ 1 ≤ q.trigger ∧ q.trigger ≤ 64

/-- The bounds of the two event queues (R173) and of the Relocation Queue, which "holds at most 8 entries and no segment
twice" (R127). -/
def State.QueuesInv (s : State) : Prop :=
  s.portA.queue.Bounded ∧ s.portB.queue.Bounded ∧ s.relocation.length ≤ Config.maxRelocation ∧
    (s.relocation.map RelocEntry.segment).Nodup

/-! ### The Purge Engine (R59, R60) -/

/-- "The Purge Batch holds at most 16 entries and no list twice" (R60), and the engine state follows the batch (R59). -/
def Pge.Inv (e : Pge) : Prop :=
  e.batch.length ≤ Config.maxBatch ∧ (e.batch.map BatchEntry.list).Nodup ∧
    match e.engine with
    | .idle => e.batch = [] ∧ e.clear = none ∧ e.gatherTimer = false ∧ e.suspendTimer = false
    | .gathering =>
      e.batch ≠ [] ∧ (∀ x ∈ e.batch, x.finished = false) ∧ e.clear = none ∧ e.gatherTimer = true ∧ e.suspendTimer = false
    | .running | .suspending =>
      e.gatherTimer = false ∧ e.suspendTimer = false ∧
        ∃ k, e.clear = some k ∧ ∃ x ∈ e.batch, x.list = k.list ∧ x.finished = false
    | .suspended =>
      e.clear = none ∧ e.gatherTimer = false ∧ e.suspendTimer = true ∧ ∃ x ∈ e.batch, x.finished = false

/-! ### Channels -/

/-- A direction of LSU is in range: the gain and the counts of R138. -/
def LsuDir.InRange (d : LsuDir) : Prop := -24 ≤ d.gain ∧ d.gain ≤ 24 ∧ d.high ≤ 3 ∧ d.low ≤ 15

/-- The fixed gains of a record are options of R1. -/
def ConfigRecord.GainsInRange (r : ConfigRecord) : Prop :=
  (-24 ≤ r.receive.fixedGain ∧ r.receive.fixedGain ≤ 24) ∧ -24 ≤ r.send.fixedGain ∧ r.send.fixedGain ≤ 24

/-- Every count of a channel is in the range its rule gives it (R95, R99, R105, R110, R118, R124, R138), and outside
DIVERGED the divergence count is below 192 (R121, R122). -/
structure Channel.InRange (c : Channel) : Prop where
  governing : c.governing.GainsInRange
  pendingRecord : ∀ r, c.pendingRecord = some r → r.GainsInRange
  receive : c.receive.InRange
  send : c.send.InRange
  divCount : c.divCount ≤ 199
  divBelow : c.divState ≠ .diverged → c.divCount < 192
  runCount : c.runCount ≤ 8
  hangover : c.hangover ≤ 8
  toneCount : c.toneCount ≤ 100
  quietCount : c.quietCount ≤ 63
  suppHangover : c.suppHangover ≤ 2
  background : -700 ≤ c.background ∧ c.background ≤ 30
  trackCount : c.trackCount ≤ 63
  windowPos : c.windowPos ≤ 3

/-- Every channel's counts are in range. -/
def State.CountsInv (s : State) : Prop := ∀ n, (s.channel n).InRange

/-- A channel names a timeslot in a record whose mode is not OFF, governing or pending (R2, R3). -/
def Channel.Names (c : Channel) (t : Timeslot) : Prop :=
  c.governing.names t.val = true ∨ ∃ r, c.pendingRecord = some r ∧ r.names t.val = true

/-- "No two channels whose mode is not OFF have the same timeslot" (R2), now or after the pending records are
applied. -/
def State.TimeslotsInv (s : State) : Prop :=
  ∀ n m t, (s.channel n).Names t → (s.channel m).Names t → n = m

/-- A channel in RESTARTING has its convergence flag clear (R75, R96) and its block in progress is HOLD (R89). -/
def State.RestartingInv (s : State) : Prop :=
  ∀ n, s.canceller n = .restarting → (s.channel n).converged = false ∧ (s.channel n).standing = .hold

/-! ### Highway framing (R2, R11, R15, R16) -/

/-- The counts of HWI are in range; in FRAMED there is a frame position; in LOST there is a candidate exactly while the
hunt count is above 0, and every timeslot of Rout and Sout carries idle code. -/
def Hwi.Inv (h : Hwi) : Prop :=
  h.phase < 32 ∧ h.missCount ≤ 2 ∧ h.huntCount ≤ 4 ∧
    match h.framing with
    | .framed => h.missCount ≤ 1 ∧ h.candidate.isSome = true
    | .lost =>
      h.huntCount ≤ 3 ∧ (h.candidate.isSome = true ↔ 0 < h.huntCount) ∧
        ∀ t : Timeslot, h.rout[t.val] = idleCode h.law ∧ h.sout[t.val] = idleCode h.law

/-! ### What a reader of the claims needs -/

/-- The link awaits a request and its panel is IDLE, so that a COMMAND is executed and taken (R37, R160). -/
def State.Ready (s : State) (p : Plane) : Prop :=
  (s.port p).iface = .awaitRequest ∧ (s.port p).panel.state = .idle

/-- A channel takes a sample-pair arrival now: framing is FRAMED, its mode is not OFF, and it has neither taken one in
this frame nor taken its timeslot up in it (R10, R11). -/
def State.TakesArrival (s : State) (n : ChannelNo) : Prop :=
  s.hwi.framing = .framed ∧ (s.channel n).governing.mode ≠ .off ∧ (s.mark n).arrived = false ∧
    (s.mark n).joining = false

/-- A block of a channel whose mode is not OFF closes now (R11, R12). -/
def State.ClosesBlock (s : State) (n : ChannelNo) : Prop :=
  s.hwi.framing = .framed ∧ s.hwi.phase = 31 ∧ (s.mark n).boundary = false ∧ (s.mark n).arrived = true ∧
    (s.channel n).governing.mode ≠ .off

/-- The state with a reply of the given kind, status and body held at a link (R160, R164). -/
def State.answered (s : State) (p : Plane) (kind : Byte) (st : Status) (body : List Byte) : State :=
  s.modPort p ({ · with iface := .replyReady (replyBytes kind st body) })

/-- The state with a command taken by a panel and completed at once with a result, and the reply OK held (R37, R38). -/
def State.completed (s : State) (p : Plane) (code : CommandCode) (a : Args) (st : Status) : State :=
  (s.modPanel p fun _ =>
    { state := .idle, command := some { code := code, args := a }, valid := true, status := some st, segment := none,
      count := none }).answered p 0x03 .ok []

/-- The record of an event that is raised in a state (R172). -/
def State.stamped (s : State) (both : Bool) (e : Event) : EventRecord :=
  { event := e, stamp := s.hwi.stamp, both := both }

/-- An event about channel n that is raised on the way from s to t stands in every queue the channel's holder routes it
to, the holder's own or both for NONE, and that has room for it (R158, R173). -/
def State.Reported (s t : State) (n : ChannelNo) (e : Event) : Prop :=
  ∀ p, s.holder (channelCode n) = none ∨ s.holder (channelCode n) = some p → (s.port p).queue.entries.length ≤ 57 →
    s.stamped (decide (s.holder (channelCode n) = none)) e ∈ (t.port p).queue.entries

/-- The reference sample of an arrival: the expanded Rin times the receive gain, limited to −1 to +1 (R139). -/
def State.referenceAt (s : State) (n : ChannelNo) (rin : Byte) : Lin :=
  linLimit (linMul (gainFactor (s.channel n).receive.gain) (linRat (expand s.hwi.law rin)))

/-- The reference history of an arrival, its own sample at delay 0 (R79). -/
def State.historyAt (s : State) (n : ChannelNo) (rin : Byte) : List Lin :=
  (s.referenceAt n rin :: (s.channel n).history).take 2048

/-- The echo estimate against a reference history (R80): over the segments of the chain and their taps, the sum of each
coefficient times the reference sample at the segment's start delay plus the tap's number. -/
def State.estimateAt (s : State) (n : ChannelNo) (history : List Lin) : Lin :=
  linSum ((s.channelChain n).map fun g => linSum ((List.finRange 64).map fun k =>
    linScale (((s.segment g).coeffs[k.val].toInt : Rat) / 32768) (history.getD (s.delay g + k.val) [])))

/-- The normaliser against a reference history (R83): the sum of the squares of the reference samples the taps of the chain
meet, and the power of a −60 dBm0 signal for each tap. -/
def State.normaliserAt (s : State) (n : ChannelNo) (history : List Lin) : Lin :=
  linAdd
    (linSum ((s.channelChain n).map fun g => linSum ((List.finRange 64).map fun k =>
      linSquare (history.getD (s.delay g + k.val) []))))
    (linScale ((64 * (s.channelChain n).length : Nat) : Rat) (levelPower (-600)))

/-- The error of an arrival (R81): Sin less the estimate in RUNNING, Sin otherwise, limited to −1 to +1. -/
def State.errorAt (s : State) (n : ChannelNo) (rin sin : Byte) : Lin :=
  linLimit (if s.canceller n = .running then
      linSub (linRat (expand s.hwi.law sin)) (s.estimateAt n (s.historyAt n rin))
    else linRat (expand s.hwi.law sin))

/-- The send-path signal of an arrival before the send gain (R114, R140): in ACTIVE the error with the suppressor OPEN and
with it CLOSED the sample of the block's comfort noise at the block phase; otherwise Sin. -/
def State.pathAt (s : State) (n : ChannelNo) (rin sin : Byte) : Lin :=
  if (s.channel n).governing.mode = .active then
    if (s.channel n).suppressor = .opened then s.errorAt n rin sin
    else (noiseBlock n (s.channel n).freeBlock (s.channel n).background).getD s.hwi.phase []
  else linRat (expand s.hwi.law sin)

/-- The code of a send-path signal after the send gain (R140). -/
def State.sendCode (s : State) (n : ChannelNo) (x : Lin) : Byte :=
  compand s.hwi.law (linLimit (linMul (gainFactor (s.channel n).send.gain) x))

/-- What a block boundary of channel n never changes, decisions and applied record included. -/
def State.BoundaryFrame (s t : State) (n : ChannelNo) : Prop :=
  t.free = s.free ∧ t.chains = s.chains ∧ t.transit = s.transit ∧ t.lc = s.lc ∧ t.claims = s.claims ∧
    t.pending = s.pending ∧ (∀ m, m ≠ n → t.channel m = s.channel m) ∧
    (∀ g, g ∉ s.channelChain n → t.segment g = s.segment g) ∧
    (∀ g, (t.segment g).coeffs = (s.segment g).coeffs ∧ (t.segment g).startDelay = (s.segment g).startDelay) ∧
    t.hwi = { s.hwi with marks := t.hwi.marks } ∧ (∀ m, m ≠ n → t.mark m = s.mark m) ∧
    ∀ p, t.port p = { s.port p with queue := (t.port p).queue }

/-- The judgement of a level window (R144 to R146): d is a direction before it and d' after it, under the fields a, for
a window level of 0.1 dBm0; `limited` says that the refused step is reported. -/
def LsuJudged (a : AlcConfig) (level : Int) (d d' : LsuDir) (limited : Bool) : Prop :=
  d'.blockAcc = [] ∧ d'.windowAcc = [] ∧
    if a.auto = false then
      d'.gain = d.gain ∧ d'.high = 0 ∧ d'.low = 0 ∧ d'.limit = d.limit ∧ limited = false
    else if level < -450 then
      d'.gain = d.gain ∧ d'.high = d.high ∧ d'.low = d.low ∧ d'.limit = d.limit ∧ limited = false
    else if 10 * a.upper - 5 * d.gain < level then
      d'.low = 0 ∧
        if d.high = 3 then
          d'.high = 0 ∧
            if -24 < d.gain then d'.gain = d.gain - 1 ∧ d'.limit = false ∧ limited = false
            else d'.gain = d.gain ∧ d'.limit = true ∧ limited = !d.limit
        else d'.high = d.high + 1 ∧ d'.gain = d.gain ∧ d'.limit = d.limit ∧ limited = false
    else if level < 10 * a.lower - 5 * d.gain then
      d'.high = 0 ∧
        if d.low = 15 then
          d'.low = 0 ∧
            if d.gain < 24 then d'.gain = d.gain + 1 ∧ d'.limit = false ∧ limited = false
            else d'.gain = d.gain ∧ d'.limit = true ∧ limited = !d.limit
        else d'.low = d.low + 1 ∧ d'.gain = d.gain ∧ d'.limit = d.limit ∧ limited = false
    else d'.gain = d.gain ∧ d'.high = 0 ∧ d'.low = 0 ∧ d'.limit = false ∧ limited = false

/-- A plane's queue after the given events about channel n have been raised in s, in their order: nothing where the
channel's holder does not route them to the plane (R158, R172, R173). -/
def State.queueWith (s : State) (n : ChannelNo) (p : Plane) (events : List Event) : Queue :=
  if s.holder (channelCode n) = none ∨ s.holder (channelCode n) = some p then
    events.foldl (fun q e => q.arrive (s.stamped (decide (s.holder (channelCode n) = none)) e)) (s.port p).queue
  else (s.port p).queue

/-- The events of the boundary that leads from s to t, at which a block of channel n closes, in the order of R173:
TONE_BYPASS at entry to a bypass state, at the change from one to the other and at the return to LISTENING (R106 to R108),
DIVERGED at entry to DIVERGED (R122), CONVERGED when the flag becomes set (R95), LEVEL_LIMIT of a refused step for receive
before send (R145, R146). -/
def State.BoundaryEvents (s t : State) (n : ChannelNo) (events : List Event) : Prop :=
  let c := s.channel n
  let d := t.channel n
  ∃ (receive send : LsuDir) (receiveLimited sendLimited : Bool),
    (c.windowPos < 3 → receiveLimited = false ∧ sendLimited = false) ∧
    (c.windowPos = 3 →
      LsuJudged c.governing.receive (levelOf (linScale (1 / 128) (linAdd c.receive.windowAcc c.receive.blockAcc)))
        c.receive receive receiveLimited ∧
      LsuJudged c.governing.send (levelOf (linScale (1 / 128) (linAdd c.send.windowAcc c.send.blockAcc))) c.send send
        sendLimited) ∧
    events =
      (if d.tone ≠ c.tone ∧ (c.tone = .bypassSuppressor ∨ c.tone = .bypassFull ∨ d.tone = .bypassSuppressor ∨
          d.tone = .bypassFull) then [.toneBypass n d.tone] else []) ++
      (if c.divState ≠ .diverged ∧ d.divState = .diverged then [.diverged n d.divCount d.erle] else []) ++
      (if c.converged = false ∧ d.converged = true then [.converged n d.erle] else []) ++
      (if receiveLimited then [.levelLimit n false receive.gain] else []) ++
      if sendLimited then [.levelLimit n true send.gain] else []

/-- What a record applied at a boundary does to a direction (R148's table): d is the direction after the decisions of
the boundary. -/
def LevelsApplied (old : AlcConfig) (new : Option AlcConfig) (d d' : LsuDir) : Prop :=
  match new with
  | none => d' = d
  | some a =>
    (a.auto = false → d' = { d with gain := a.fixedGain, high := 0, low := 0, limit := false }) ∧
      (a.auto = true → old.auto = false → d' = { d with high := 0, low := 0, limit := false }) ∧
      (a.auto = true → old.auto = true → d' = d)

/-- PGE after a structural event on a list: the progress of the list's unfinished entry is 0, and a clear in progress on
that entry ends without raising it (R65, R68). -/
def Pge.disturbed (e : Pge) (c : ChainCode) : Pge :=
  { e with
    batch := e.batch.map fun x => if x.list = c ∧ x.finished = false then { x with progress := 0 } else x
    clear := e.clear.map fun k =>
      if k.list = c ∧ (e.batch.any fun x => decide (x.list = c) && !x.finished) = true then { k with disturbed := true }
      else k }

/-- What an internal purge request of channel n's list with requesters r does to PGE and to the channel's owed flag
(R73): it starts a batch, joins or merges into one, or sets the flag. -/
def State.PurgeRequested (s t : State) (n : ChannelNo) (r : Requesters) : Prop :=
  let entry : BatchEntry := { list := channelCode n, requesters := r, progress := 0, finished := false }
  (s.pge.engine = .idle →
    t.pge = { s.pge with engine := .gathering, gatherTimer := true, batch := [entry] } ∧ (t.channel n).owed = false) ∧
  (s.pge.engine = .gathering → s.pge.batch.length < 16 → (∀ e ∈ s.pge.batch, e.list ≠ channelCode n) →
    t.pge = { s.pge with batch := s.pge.batch ++ [entry] } ∧ (t.channel n).owed = false) ∧
  (s.pge.engine = .gathering → s.pge.batch.length < 16 → (∃ e ∈ s.pge.batch, e.list = channelCode n) →
    t.pge = { s.pge with batch := s.pge.batch.map fun e =>
      if e.list = channelCode n then { e with requesters :=
        { a := e.requesters.a || r.a, b := e.requesters.b || r.b, internal := e.requesters.internal || r.internal } }
      else e } ∧ (t.channel n).owed = false) ∧
  (s.pge.engine = .gathering ∧ 16 ≤ s.pge.batch.length ∨ s.pge.engine = .running ∨ s.pge.engine = .suspending ∨
      s.pge.engine = .suspended →
    t.pge = s.pge ∧ (t.channel n).owed = true)

/-- The PURGE_DONE of a finished entry with requesters r reaches a plane's queue, for the holder h of its list at the
finish (R66). -/
abbrev PurgeDoneReaches (r : Requesters) (h : Holder) (p : Plane) : Prop :=
  p = .a ∧ r.a = true ∨ p = .b ∧ r.b = true ∨ r.internal = true ∧ (h = none ∨ h = some p)

/-- The record of the PURGE_DONE of an entry that finishes in s (R66, R172). -/
def State.purgeDoneOf (s : State) (e : BatchEntry) : EventRecord :=
  s.stamped
    (decide (PurgeDoneReaches e.requesters (s.holder e.list) .a ∧ PurgeDoneReaches e.requesters (s.holder e.list) .b))
    (.purgeDone e.list e.requesters)

/-- A plane's queue after some entries have finished in s, in the order given (R66, R173). -/
def State.queueAfter (s : State) (p : Plane) (done : List BatchEntry) : Queue :=
  done.foldl (fun q e =>
    if PurgeDoneReaches e.requesters (s.holder e.list) p then q.arrive (s.purgeDoneOf e) else q) (s.port p).queue

/-- A channel after some entries have finished in s: the channel of a finished list with nothing owed leaves RESTARTING,
its convergence flag and the wholly running mark clear, and recovers from DIVERGED (R66, R75, R88, R123; log entry 20 for
the mark while framing is LOST). -/
def State.channelAfter (s : State) (n : ChannelNo) (done : List BatchEntry) : Channel :=
  if (∃ e ∈ done, e.list = channelCode n) ∧ (s.channel n).owed = false then
    if (s.channel n).divState = .diverged then
      { s.channel n with converged := false, whollyRunning := false, divCount := 0, divState := .steady }
    else { s.channel n with converged := false, whollyRunning := false }
  else s.channel n

/-- What is no part of PGE and of no channel, after some entries have finished on the way from s to t: each has raised its
PURGE_DONE, in the order given, and nothing else is changed (R66). -/
def State.EntriesFinish (s t : State) (done : List BatchEntry) : Prop :=
  t = { s with channels := t.channels, pge := t.pge, portA := t.portA, portB := t.portB } ∧
    ∀ p, t.port p = { s.port p with queue := s.queueAfter p done }

/-- The batch is exhausted on the way from s to t, in the event in which the entries `done` finish (R67): the channels
with the owed flag set, in ascending order and at most 16 of them, form a new batch and their flags are cleared; with none,
the engine is IDLE. -/
def State.Exhausts (s t : State) (done : List BatchEntry) : Prop :=
  let owed := ((List.finRange 128).filter fun n => (s.channel n).owed).take 16
  (owed = [] → t.pge = { s.pge with engine := .idle, batch := [], clear := none }) ∧
    (owed ≠ [] → t.pge = { s.pge with
      engine := .gathering, gatherTimer := true, clear := none
      batch := owed.map fun n => { list := channelCode n, requesters := { a := false, b := false, internal := true },
                                   progress := 0, finished := false } }) ∧
    ∀ n, t.channel n = { s.channelAfter n done with owed := (s.channel n).owed && decide (n ∉ owed) }

/-- A selection leads from s to t (R64): the unfinished entries that stand before the first one with a segment left to
clear finish, in joining order, and that segment's clear begins; with no such entry, all finish and the batch is
exhausted. -/
def State.Selects (s t : State) : Prop :=
  let nothingLeft := fun x : BatchEntry => x.finished = true ∨ (s.chain x.list).length ≤ x.progress
  (∀ passed e rest g, s.pge.batch = passed ++ e :: rest → (∀ x ∈ passed, nothingLeft x) → e.finished = false →
    (s.chain e.list)[e.progress]? = some g →
    let done := passed.filter fun x => !x.finished
    s.EntriesFinish t done ∧ (∀ n, t.channel n = s.channelAfter n done) ∧
      t.pge = { s.pge with
        batch := (passed.map fun x => { x with finished := true }) ++ e :: rest
        clear := some { list := e.list, segment := g, disturbed := false } }) ∧
  ((∀ x ∈ s.pge.batch, nothingLeft x) →
    let done := s.pge.batch.filter fun x => !x.finished
    s.EntriesFinish t done ∧ s.Exhausts t done)

/-- A direction of LSU at RESTART, entry to OFF and leaving OFF, but for its block accumulator (R149, R150). -/
def LsuDir.Restarted (d : LsuDir) (a : AlcConfig) : Prop :=
  d.gain = (if a.auto then 0 else a.fixedGain) ∧ d.high = 0 ∧ d.low = 0 ∧ d.limit = false ∧ d.windowAcc = []

/-- The status record at the defaults of R9 and the hidden state at its power-on values (R5, R6, R13), under the record
that governs. -/
def Channel.Restarted (c : Channel) : Prop :=
  c.converged = false ∧ c.erle = 0 ∧ c.divCount = 0 ∧ c.divState = .steady ∧ c.doubleTalk = false ∧
    c.suppressor = .opened ∧ c.tone = .listening ∧ c.blockCount = 0 ∧ c.receive.Restarted c.governing.receive ∧
    c.send.Restarted c.governing.send ∧ c.history = List.replicate 2048 [] ∧ c.peakHistory = List.replicate 65 [] ∧
    c.hangover = 0 ∧ c.toneCount = 0 ∧ c.reversed = false ∧ c.quietCount = 0 ∧ c.suppHangover = 0 ∧
    c.background = -700 ∧ c.runCount = 0 ∧ c.trackCount = 0 ∧ c.windowPos = 0

/-- A record of a WRITE names a timeslot: its mode field is not OFF (R3). -/
def RawRecord.Names (r : RawRecord) (timeslot : Nat) : Prop := r.mode ≠ 0 ∧ r.timeslot = timeslot

/-- Some other channel than n names a timeslot in a record whose mode is not OFF, its governing record or its pending
record; a record of it that stands earlier in the same WRITE counts as its pending record (R3, log entry 22). -/
def State.TakenIn (s : State) (earlier : List (ChannelNo × RawRecord)) (n : ChannelNo) (timeslot : Nat) : Prop :=
  ∃ m, m ≠ n ∧
    ((s.channel m).governing.mode ≠ .off ∧ (s.channel m).governing.timeslot.val = timeslot ∨
      (∃ r, (m, r) ∈ earlier ∧ r.Names timeslot) ∨
      (∀ r, (m, r) ∉ earlier) ∧
        ∃ r, (s.channel m).pendingRecord = some r ∧ r.mode ≠ .off ∧ r.timeslot.val = timeslot)

/-- In a WRITE by plane p the record for channel n is refused with a code, given the records of the WRITE for lower
channels: the first of R3's checks that fails. -/
def State.RefusesRecord (s : State) (p : Plane) (earlier : List (ChannelNo × RawRecord)) (n : ChannelNo) (r : RawRecord)
    (st : Status) : Prop :=
  let badLevels := r.receiveUpper < r.receiveLower + 3 ∨ r.sendUpper < r.sendLower + 3
  let taken := r.mode ≠ 0 ∧ s.TakenIn earlier n r.timeslot
  s.holder (channelCode n) ≠ some p ∧ st = .notHolder ∨
    s.holder (channelCode n) = some p ∧
      (taken ∧ st = .timeslotTaken ∨ ¬taken ∧ badLevels ∧ st = .badLevels ∨
        ¬taken ∧ ¬badLevels ∧ r.decode = none ∧ st = .badValue)

/-- What an accepted record does to its channel (R4, R5): c is the channel before the WRITE and d after it. -/
def Channel.Accepts (c : Channel) (r : ConfigRecord) (d : Channel) : Prop :=
  (r.mode ≠ .off → d = { c with pendingRecord := some r }) ∧
  (r.mode = .off → c.governing.mode = .off → d = { c with governing := r, pendingRecord := none }) ∧
  (r.mode = .off → c.governing.mode ≠ .off →
    d.governing = r ∧ d.pendingRecord = none ∧ d.Restarted ∧ d.receive.blockAcc = [] ∧ d.send.blockAcc = [] ∧
      d.toneRin = [] ∧ d.toneSin = [] ∧
      d.acc = { refPower := [], sinPower := [], errorPower := [], sinPeak := [], refPeak := [] } ∧
      d.cursor = c.cursor ∧ d.owed = c.owed)

/-- A command refused when LC takes it: the refusal is posted, the panel returns to IDLE, the arbiter position moves to
it and nothing else changes (R39, R43, R44). -/
def State.refusedAtTake (s : State) (p : Plane) (st : Status) : State :=
  { s with lc := { s.lc with arbiter := .panel p } }.modPanel p
    ({ · with state := .idle, valid := true, status := some st, count := none })

/-- LC after it has taken a panel's command that goes on (R40, R43). -/
def Lc.busy (l : Lc) (p : Plane) (w : LcWork) : Lc :=
  { l with current := some { work := w, issuer := .panel p }, arbiter := .panel p }

/-- LC after the event that completes its command (R40, R58). -/
def Lc.freed (l : Lc) : Lc := { l with current := none, detached := false }

/-- Segment g stands in the target list at start delay d after a link: placed before the first segment whose start delay
is greater, or at the end (R29). -/
def State.LinkedAt (s t : State) (c : ChainCode) (g : SegNo) (d : Nat) : Prop :=
  ∃ before after, s.chain c = before ++ after ∧ t.chain c = before ++ g :: after ∧ (∀ h ∈ before, s.delay h ≤ d) ∧
    (∀ h, after.head? = some h → d < s.delay h) ∧ ∀ e, e ≠ c → t.chain e = s.chain e

/-! ### Layouts of section 10.6 -/

/-- A number in a byte. -/
def inByte (n : Nat) : Byte := BitVec.ofNat 8 n

/-- A signed number in two bytes, most significant first (R160). -/
def inTwoBytes (x : Int) : List Byte := [highByte (BitVec.ofInt 16 x), lowByte (BitVec.ofInt 16 x)]

/-- A flag as the bit of the given weight. -/
def bitIf (flag : Bool) (weight : Nat) : Nat := if flag then weight else 0

/-- The code of an event kind in an event record. -/
def kindNumber : EventKind → Nat
  | .converged => 1
  | .diverged => 2
  | .toneBypass => 3
  | .levelLimit => 4
  | .trackMoved => 5
  | .trackBlocked => 6
  | .purgeDone => 7
  | .purgeResumed => 8
  | .claimLost => 9
  | .framingLost => 10
  | .framingRestored => 11
  | .overrun => 12

/-- The code of a tone state, in the channel status item and in TONE_BYPASS. -/
def toneNumber : Tone → Nat
  | .listening => 0
  | .tone => 1
  | .bypassSuppressor => 2
  | .bypassFull => 3

/-- The eight bytes of an event record: kind, subject, stamp, the detail of R172's table, routing; what is absent reads
0xFF. -/
def eventLayout (r : EventRecord) : List Byte :=
  let record := fun (kind : Nat) (subject : Byte) (detail : List Byte) =>
    [inByte kind, subject, highByte r.stamp, lowByte r.stamp] ++ detail ++ [if r.both then 1 else 0]
  match r.event with
  | .converged n erle => record 1 (inByte n.val) (inTwoBytes erle ++ [0xFF])
  | .diverged n count erle => record 2 (inByte n.val) (inByte count :: inTwoBytes erle)
  | .toneBypass n state => record 3 (inByte n.val) [inByte (toneNumber state), 0xFF, 0xFF]
  | .levelLimit n send gain => record 4 (inByte n.val) [if send then 1 else 0, BitVec.ofInt 8 gain, 0xFF]
  | .trackMoved n g old new =>
    let detail := g.val * 16384 + old / 8 * 64 + new / 64
    record 5 (inByte n.val) [inByte (detail / 65536), inByte (detail / 256), inByte detail]
  | .trackBlocked n g delay => record 6 (inByte n.val) [inByte (g.val / 256), inByte g.val, inByte (delay / 8)]
  | .purgeDone c x =>
    record 7 (inByte c.val) [inByte (bitIf x.a 1 + bitIf x.b 2 + bitIf x.internal 4), 0xFF, 0xFF]
  | .purgeResumed => record 8 0xFF [0xFF, 0xFF, 0xFF]
  | .claimLost c seizer => record 9 (inByte c.val) [match seizer with | .a => 1 | .b => 2, 0xFF, 0xFF]
  | .framingLost => record 10 0xFF [0xFF, 0xFF, 0xFF]
  | .framingRestored => record 11 0xFF [0xFF, 0xFF, 0xFF]
  | .overrun kind subject =>
    record 12 0xFF [inByte (kindNumber kind), match subject with | some c => inByte c.val | none => 0xFF, 0xFF]

/-- The twelve bytes of a panel record: state, result valid, the command word as taken, result status, result segment,
result count; what is absent reads all ones. -/
def panelLayout (x : Panel) : List Byte :=
  [inByte (match x.state with | .idle => 0 | .pending => 1 | .running => 2), inByte (bitIf x.valid 1)] ++
  (match x.command with
    | some w => [codeOfCommand w.code, highByte w.args.arg1, lowByte w.args.arg1, w.args.listField,
                 highByte w.args.delayField, lowByte w.args.delayField]
    | none => [0xFF, 0xFF, 0xFF, 0xFF, 0xFF, 0xFF]) ++
  [match x.status with | some st => statusCode st | none => 0xFF] ++
  (match x.segment with | some g => [inByte (g.val / 256), inByte g.val] | none => [0xFF, 0xFF]) ++
  [match x.count with | some count => inByte count | none => 0xFF]

/-- The twelve bytes of a channel's status item. -/
def State.statusLayout (s : State) (n : ChannelNo) : List Byte :=
  let c := s.channel n
  [inByte (match s.canceller n with | .off => 0 | .restarting => 1 | .running => 2 | .bypassed => 3),
   inByte (bitIf c.converged 1 + bitIf c.doubleTalk 2 + bitIf (decide (c.suppressor = .closed)) 4 + bitIf c.owed 8 +
     bitIf c.receive.limit 16 + bitIf c.send.limit 32)] ++
  inTwoBytes c.erle ++
  [inByte c.divCount, inByte (match c.divState with | .steady => 0 | .watchful => 1 | .diverged => 2),
   inByte (toneNumber c.tone), BitVec.ofInt 8 c.receive.gain, BitVec.ofInt 8 c.send.gain, inByte (c.cursor / 64),
   highByte c.blockCount, lowByte c.blockCount]

/-- The twelve bytes of a channel configuration item. -/
def configLayout (r : ConfigRecord) : List Byte :=
  [inByte (match r.mode with | .off => 0 | .observe => 1 | .active => 2), inByte r.timeslot.val,
   inByte (match r.step with | .half => 0 | .quarter => 1 | .eighth => 2 | .sixteenth => 3),
   inByte (match r.margin with | .db0 => 0 | .db3 => 1 | .db6 => 2),
   inByte (bitIf r.suppressor 1 + bitIf r.toneBypass 2 + bitIf r.tracking 4),
   inByte (bitIf r.receive.auto 1 + bitIf r.send.auto 2),
   BitVec.ofInt 8 r.receive.fixedGain, BitVec.ofInt 8 r.receive.upper, BitVec.ofInt 8 r.receive.lower,
   BitVec.ofInt 8 r.send.fixedGain, BitVec.ofInt 8 r.send.upper, BitVec.ofInt 8 r.send.lower]

/-- The segment number an absent one reads as, or its own (R171). -/
def segmentWord (g : Option SegNo) : Word := match g with | some h => BitVec.ofNat 16 h.val | none => 0xFFFF

/-- The words of a list header: first, last and count (R23). -/
def headerLayout (l : List SegNo) : List Word := [segmentWord l.head?, segmentWord l.getLast?, BitVec.ofNat 16 l.length]

/-- The plane whose link or panel a command reaches; none for the commands that reach the part otherwise. -/
def planeOf : Instr → Option Plane
  | .read p _ _ _ | .writeChannelConfig p _ _ _ | .writeCoeff p _ _ _ | .write p _ _ _ _ | .status p | .takeEvents p _
  | .setTrigger p _ | .linkReset p | .replyFrame p _ | .allocate p _ | .release p _ | .move p _ | .swap p _ | .empty p _
  | .purge p _ | .suspend p _ | .resume p _ | .claim p _ | .unclaim p _ | .seize p _ | .restart p _
  | .quietTimerExpiry p | .badFrame p _ | .command p _ _ => some p
  | .powerOnReset _ | .syncPulse _ | .missedSync | .samplePairArrival _ _ _ | .blockBoundary _ | .stampTick
  | .allocateTake | .allocateLink | .releaseTake | .releaseLinkIntoF | .moveTake | .moveLink | .swapTake | .emptyTake
  | .emptyLinkIntoF | .emptyUnlink | .relocationTake | .relocationLink | .gatherTimerExpiry | .segmentClearEnd
  | .suspendTimerExpiry | .transparentTimeslot _ _ _ => none

/-- A command that only the List Controller or a power-on reset makes the lists change at (R41). -/
def changesLists : Instr → Bool
  | .powerOnReset _ | .allocateTake | .allocateLink | .releaseTake | .releaseLinkIntoF | .moveTake | .moveLink
  | .swapTake | .emptyTake | .emptyLinkIntoF | .emptyUnlink | .relocationTake | .relocationLink => true
  | _ => false

/-- LC takes the panel's command next, and it is the given one (R43). -/
def State.Takes (s : State) (p : Plane) (code : CommandCode) (a : Args) : Prop :=
  s.choice = some (.panel p) ∧ (s.port p).panel.command = some { code := code, args := a }

/-- LC's current command is the given one of a panel, which waits for its result, and carries segment g. -/
def State.Carries (s : State) (p : Plane) (w : LcWork) (g : SegNo) : Prop :=
  s.lc.current = some { work := w, issuer := .panel p } ∧ s.lc.detached = false ∧ s.transit = some g

/-- The stores that are no link's and no channel's are the same in two states. -/
def SamePool (s t : State) : Prop :=
  t.segments = s.segments ∧ t.free = s.free ∧ t.chains = s.chains ∧ t.transit = s.transit

/-- Everything but the two links is the same in two states. -/
def SameButPorts (s t : State) : Prop :=
  SamePool s t ∧ t.hwi = s.hwi ∧ t.channels = s.channels ∧ t.lc = s.lc ∧ t.relocation = s.relocation ∧ t.pge = s.pge ∧
    t.claims = s.claims ∧ t.pending = s.pending

end Sys2Proof.Machine
end

