-- ==== Sys2Proof/WellFormed.lean ====
section
/-! DEFINITION. Which command terms stand for something that can reach the part. -/

namespace Sys2Proof

open Sys2Proof.Machine

/-- The words of a WRITE are its count times the item size of its space (R161). -/
def writeDataFits (space count : Byte) (data : List Word) : Bool :=
  decide (data.length = count.toNat * itemSizeOfCode space)

/-- A WRITE with good arguments for the space (R166, checks 1 to 3). -/
def writeAccepted (space : Space) (code : Byte) (index : Word) (count : Byte) : Bool :=
  match checkAccess code index count with
  | .ok sp => decide (sp = space)
  | .error _ => false

/-- The check of a command term: the data of a WRITE has its length, the three WRITE rows divide the writes between
them, BAD_FRAME carries a frame judged so, and COMMAND a code that names no command. -/
def Instr.wellFormed : Instr → Bool
  | .writeChannelConfig _ index count data => writeDataFits 1 count data && writeAccepted .channelConfig 1 index count
  | .writeCoeff _ index count data => writeDataFits 4 count data && writeAccepted .coeff 4 index count
  | .write _ space index count data =>
    writeDataFits space count data && !writeAccepted .channelConfig space index count &&
      !writeAccepted .coeff space index count
  | .badFrame p frame => decide (judgeFrame p frame = .bad)
  | .command _ code _ => (commandOfCode code).isNone
  | .powerOnReset _ | .syncPulse _ | .missedSync | .samplePairArrival _ _ _ | .blockBoundary _ | .stampTick
  | .read _ _ _ _ | .status _ | .takeEvents _ _ | .setTrigger _ _ | .linkReset _ | .replyFrame _ _ | .allocate _ _
  | .allocateTake | .allocateLink | .release _ _ | .releaseTake | .releaseLinkIntoF | .move _ _ | .moveTake | .moveLink
  | .swap _ _ | .swapTake | .empty _ _ | .emptyTake | .emptyLinkIntoF | .emptyUnlink | .relocationTake
  | .relocationLink | .purge _ _ | .suspend _ _ | .resume _ _ | .claim _ _ | .unclaim _ _ | .seize _ _ | .restart _ _
  | .gatherTimerExpiry | .segmentClearEnd | .suspendTimerExpiry | .quietTimerExpiry _ | .transparentTimeslot _ _ _ => true

end Sys2Proof
end

