-- ==== Sys2Proof/Certificates/Slice0/Obligations.lean ====
section
/-! DEFINITION. The statements for the provers, from the numbered rules of the spec. -/

open Sys2Proof Sys2Proof.Machine

/-! ### The block as a whole -/

/-- A step executes the command at the front of the queue with the rest of the queue (R163). -/
def Obligations.StepExecutesFrontCommand : Prop :=
  ∀ (c : Instr) (rest : List Instr) (s : State), s.pending = c :: rest → step s = exec c { s with pending := rest }

/-- Every command answers a next state, and none touches the queue of waiting commands (the part has no fault; every
wrong request is answered in a reply or a panel result, R39, R164). -/
def Obligations.EveryCommandAnswersAndLeavesTheQueue : Prop :=
  ∀ (c : Instr) (s : State), ∃ t, exec c s = .next t ∧ t.pending = s.pending

/-- The state after reset, and after POWER_ON_RESET with either law, meets every invariant. -/
def Obligations.ResetMeetsInvariants : Prop :=
  ∀ law, (State.powerOn law).PoolInv ∧ (State.powerOn law).FreeInv ∧ (State.powerOn law).ChainsInv ∧
    (State.powerOn law).QueuesInv ∧ (State.powerOn law).pge.Inv ∧ (State.powerOn law).CountsInv ∧
    (State.powerOn law).TimeslotsInv ∧ (State.powerOn law).RestartingInv ∧ (State.powerOn law).hwi.Inv ∧
    State.reset = State.powerOn .aLaw

/-- POWER_ON_RESET, whatever the state before it, leaves the pool as R34 gives it, and every register a rule or a table of
the spec gives a power-on value at that value. The values of log entries 13 and 14 are the model's and are not stated. -/
def Obligations.PowerOnReset : Prop :=
  ∀ (law : Law) (s : State), ∃ t, exec (.powerOnReset law) s = .next t ∧
    t.free = List.finRange 1024 ∧ (∀ c, t.chain c = []) ∧ t.transit = none ∧
    (∀ g, t.segment g = { startDelay := none, coeffs := Vector.replicate 64 0, weight := 0, vacancy := 0 }) ∧
    t.lc = { current := none, detached := false, arbiter := .relocation } ∧ t.relocation = [] ∧
    t.pge = { engine := .idle, batch := [], gatherTimer := false, suspendTimer := false, clear := none } ∧
    (∀ c, t.holder c = none) ∧ t.hwi.law = law ∧ t.hwi.framing = .lost ∧ t.hwi.missCount = 0 ∧ t.hwi.huntCount = 0 ∧
    t.hwi.candidate = none ∧ t.hwi.stamp = 0 ∧
    (∀ p, (t.port p).iface = .awaitRequest ∧
      (t.port p).panel = { state := .idle, command := none, valid := false, status := none, segment := none,
                           count := none } ∧
      (t.port p).queue = { entries := [], trigger := 16, quietTimer := true, quietMark := false }) ∧
    (∀ n, t.canceller n = .off ∧ (t.channel n).pendingRecord = none ∧
      (t.channel n).governing =
        { mode := .off, timeslot := n, step := .quarter, margin := .db6, suppressor := true, toneBypass := true,
          tracking := false, receive := { auto := true, fixedGain := 0, upper := -12, lower := -24 },
          send := { auto := true, fixedGain := 0, upper := -12, lower := -24 } } ∧
      (t.channel n).converged = false ∧ (t.channel n).erle = 0 ∧ (t.channel n).divCount = 0 ∧
      (t.channel n).divState = .steady ∧ (t.channel n).doubleTalk = false ∧ (t.channel n).suppressor = .opened ∧
      (t.channel n).tone = .listening ∧ (t.channel n).cursor = 0 ∧ (t.channel n).owed = false ∧
      (t.channel n).blockCount = 0 ∧ (t.channel n).background = -700 ∧
      (t.channel n).history = List.replicate 2048 [] ∧ (t.channel n).peakHistory = List.replicate 65 [] ∧
      (t.channel n).acc = { refPower := [], sinPower := [], errorPower := [], sinPeak := [], refPeak := [] } ∧
      (t.channel n).hangover = 0 ∧ (t.channel n).toneCount = 0 ∧ (t.channel n).reversed = false ∧
      (t.channel n).quietCount = 0 ∧ (t.channel n).suppHangover = 0 ∧ (t.channel n).runCount = 0 ∧
      (t.channel n).trackCount = 0 ∧ (t.channel n).windowPos = 0 ∧
      (t.channel n).receive = { gain := 0, high := 0, low := 0, limit := false, blockAcc := [], windowAcc := [] } ∧
      (t.channel n).send = { gain := 0, high := 0, low := 0, limit := false, blockAcc := [], windowAcc := [] })

/-! ### Highway framing and the timebase (R2, R11, R15 to R18) -/

/-- SYNC_PULSE. In FRAMED a pulse at the expected position starts a frame and sets the miss count to 0; any other pulse
changes nothing (R11, R15). In LOST a pulse that is not at the candidate restarts the hunt, a pulse at it advances the
count, and the fourth makes framing FRAMED with block phase 0 and raises FRAMING_RESTORED to both queues (R16). -/
def Obligations.SyncPulse : Prop :=
  ∀ (s : State) (position : Fin Config.framePositions),
    (s.hwi.framing = .framed →
      (s.hwi.candidate = some position →
        exec (.syncPulse position) s = .next { s with hwi :=
          { s.hwi with missCount := 0, phase := (s.hwi.phase + 1) % 32, marks := Vector.replicate _ .clear } }) ∧
      (s.hwi.candidate ≠ some position → exec (.syncPulse position) s = .next s)) ∧
    (s.hwi.framing = .lost →
      (s.hwi.huntCount = 0 ∨ s.hwi.candidate ≠ some position →
        exec (.syncPulse position) s =
          .next { s with hwi := { s.hwi with huntCount := 1, candidate := some position } }) ∧
      (0 < s.hwi.huntCount → s.hwi.huntCount < 3 → s.hwi.candidate = some position →
        exec (.syncPulse position) s = .next { s with hwi := { s.hwi with huntCount := s.hwi.huntCount + 1 } }) ∧
      (s.hwi.huntCount = 3 → s.hwi.candidate = some position →
        exec (.syncPulse position) s = .next { s with
          hwi := { s.hwi with framing := .framed, missCount := 0, huntCount := 4, phase := 0,
                              marks := Vector.replicate _ .clear }
          portA := { s.portA with queue := s.portA.queue.arrive (s.stamped true .framingRestored) }
          portB := { s.portB with queue := s.portB.queue.arrive (s.stamped true .framingRestored) } }))

/-- MISSED_SYNC: the first miss in FRAMED counts and the frame goes on; the second makes framing LOST, discards the block
in progress of every channel whose mode is not OFF, sends idle code in every timeslot and raises FRAMING_LOST to both
queues; in LOST the hunt starts again (R15, R16, R17). That the standing and the wholly running
mark stay as the discarded block had them at the loss (log entries 21 and 20), and that no block then stands directly before the next (log entry 10), are the model's
readings. -/
def Obligations.MissedSync : Prop :=
  ∀ s : State,
    (s.hwi.framing = .framed → s.hwi.missCount = 0 →
      exec .missedSync s = .next { s with hwi :=
        { s.hwi with missCount := 1, phase := (s.hwi.phase + 1) % 32, marks := Vector.replicate _ .clear } }) ∧
    (s.hwi.framing = .framed → s.hwi.missCount = 1 →
      ∃ t, exec .missedSync s = .next t ∧
        t = { s with hwi := t.hwi, channels := t.channels, portA := t.portA, portB := t.portB } ∧
        t.hwi = { s.hwi with framing := .lost, missCount := 2, huntCount := 0, candidate := none,
                             rout := Vector.replicate _ (idleCode s.hwi.law),
                             sout := Vector.replicate _ (idleCode s.hwi.law) } ∧
        (∀ n, (s.channel n).governing.mode = .off → t.channel n = s.channel n) ∧
        (∀ n, (s.channel n).governing.mode ≠ .off → t.channel n =
          { s.channel n with
            acc := .zero, toneRin := [], toneSin := [], beforeRin := [], beforeSin := [],
            receive := { (s.channel n).receive with blockAcc := [] },
            send := { (s.channel n).send with blockAcc := [] } }) ∧
        ∀ p, t.port p =
          { s.port p with queue := (s.port p).queue.arrive (s.stamped true .framingLost) }) ∧
    (s.hwi.framing = .lost →
      exec .missedSync s = .next { s with hwi := { s.hwi with huntCount := 0, candidate := none } })

/-- R18: STAMP_TICK adds one and wraps; power-on reset sets the Stamp Counter to 0; no other command, LINK_RESET and
RESTART among them, changes it, whatever the framing; every record a command puts into a queue carries the counter's
value as its stamp; and DEVICE item 5 is the counter. -/
def Obligations.StampCounter : Prop :=
  (∀ s, exec .stampTick s = .next { s with hwi := { s.hwi with stamp := s.hwi.stamp + 1 } }) ∧
  (∀ s : State, s.hwi.stamp = 65535 → s.hwi.stamp + 1 = 0) ∧
  (∀ law s, ∃ t, exec (.powerOnReset law) s = .next t ∧ t.hwi.stamp = 0) ∧
  (∀ c s t, exec c s = .next t → c ≠ .stampTick → (∀ law, c ≠ .powerOnReset law) → t.hwi.stamp = s.hwi.stamp) ∧
  (∀ c s t p r, exec c s = .next t → r ∈ (t.port p).queue.entries →
    r ∈ (s.port p).queue.entries ∨ r.stamp = s.hwi.stamp) ∧
  ∀ (s : State) p, (s.port p).iface = .awaitRequest →
    exec (.read p 7 5 1) s = .next (s.answered p 0x01 .ok [highByte s.hwi.stamp, lowByte s.hwi.stamp])

/-- A timeslot that no channel serves carries the Rin and Sin codes unchanged while framing is FRAMED (R2). While framing
is LOST no arrival, no block boundary and no transparent timeslot changes anything (R15, R17), and in any framing neither
does an arrival of a channel that is OFF, has had its arrival of the frame or takes its timeslot up in it, nor a boundary
in a frame of another phase, a second one, or one before the arrival of its channel, nor a transparent timeslot that a
channel serves (R2, R10, R11; log entry 2). So a channel takes at most one arrival in a frame and one boundary in a frame
of phase 31: what an arrival and a boundary mark stays marked until the next frame starts (R11; the marks are the model's,
log entry 16). -/
def Obligations.TransparentTimeslotsAndLostFraming : Prop :=
  ∀ s : State,
    (∀ (t : Timeslot) (rin sin : Byte), s.hwi.framing = .framed →
      (∀ n, (s.channel n).governing.mode = .off ∨ (s.channel n).governing.timeslot ≠ t ∨
        (s.mark n).joining = true) →
      exec (.transparentTimeslot t rin sin) s =
        .next { s with hwi := { s.hwi with rout := s.hwi.rout.set t.val rin, sout := s.hwi.sout.set t.val sin } }) ∧
    (s.hwi.framing = .lost →
      (∀ n rin sin, exec (.samplePairArrival n rin sin) s = .next s) ∧
      (∀ n, exec (.blockBoundary n) s = .next s) ∧
      ∀ t rin sin, exec (.transparentTimeslot t rin sin) s = .next s) ∧
    (∀ n rin sin,
      (s.channel n).governing.mode = .off ∨ (s.mark n).arrived = true ∨ (s.mark n).joining = true →
      exec (.samplePairArrival n rin sin) s = .next s) ∧
    (∀ n, s.hwi.phase ≠ 31 ∨ (s.mark n).boundary = true ∨
        (s.channel n).governing.mode ≠ .off ∧ (s.mark n).arrived = false →
      exec (.blockBoundary n) s = .next s) ∧
    (∀ t n rin sin, (s.channel n).governing.mode ≠ .off → (s.channel n).governing.timeslot = t →
      (s.mark n).joining = false → exec (.transparentTimeslot t rin sin) s = .next s) ∧
    (∀ n rin sin, s.TakesArrival n →
      ∃ t, exec (.samplePairArrival n rin sin) s = .next t ∧ (t.mark n).arrived = true) ∧
    (∀ n, s.ClosesBlock n → ∃ t, exec (.blockBoundary n) s = .next t ∧ (t.mark n).boundary = true) ∧
    ∀ c t n, (∀ position, c ≠ .syncPulse position) → c ≠ .missedSync → (∀ law, c ≠ .powerOnReset law) →
      exec c s = .next t →
      ((s.mark n).arrived = true → (t.mark n).arrived = true) ∧
      ((s.mark n).boundary = true → (t.mark n).boundary = true) ∧
      ((s.mark n).joining = true → (t.mark n).joining = true)

/-! ### The sample-pair arrival (R10, R77 to R86, R114, R115, R139, R140) -/

/-- An arrival a channel takes: the reference sample goes out companded on Rout in the channel's timeslot and becomes the
newest of the history; the send-path signal (the error or comfort noise in ACTIVE, Sin in OBSERVE) goes out after the send
gain on Sout; the accumulators take the arrival, the receive direction measuring Rin and the send direction the send-path
signal; the wholly running mark falls when the channel is not RUNNING; nothing outside the channel, its timeslot's codes,
its frame mark and its chain's taps changes (R10, R79 to R81, R88, R90, R114, R138 to R140, R143). The comfort noise
samples are free values, read at the channel's block number (log entries 8, 11 and 25). -/
def Obligations.ArrivalReceiveAndSendPath : Prop :=
  ∀ (s : State) (n : ChannelNo) (rin sin : Byte), s.TakesArrival n →
    ∃ t, exec (.samplePairArrival n rin sin) s = .next t ∧
      t.hwi.rout =
        s.hwi.rout.set (s.channel n).governing.timeslot.val (compand s.hwi.law (s.referenceAt n rin)) ∧
      t.hwi.sout =
        s.hwi.sout.set (s.channel n).governing.timeslot.val (s.sendCode n (s.pathAt n rin sin)) ∧
        t.channel n = { s.channel n with
          history := s.historyAt n rin
          acc :=
            { refPower := linAdd (s.channel n).acc.refPower (linSquare (s.referenceAt n rin))
              sinPower := linAdd (s.channel n).acc.sinPower (linSquare (linRat (expand s.hwi.law sin)))
              errorPower := linAdd (s.channel n).acc.errorPower (linSquare (s.errorAt n rin sin))
              sinPeak := linMax (s.channel n).acc.sinPeak (linAbs (linRat (expand s.hwi.law sin)))
              refPeak := linMax (s.channel n).acc.refPeak (linAbs (s.referenceAt n rin)) }
          toneRin := (s.channel n).toneRin ++ [expand s.hwi.law rin]
          toneSin := (s.channel n).toneSin ++ [expand s.hwi.law sin]
          receive := { (s.channel n).receive with
            blockAcc := linAdd (s.channel n).receive.blockAcc (linSquare (linRat (expand s.hwi.law rin))) }
          send := { (s.channel n).send with
            blockAcc := linAdd (s.channel n).send.blockAcc (linSquare (s.pathAt n rin sin)) }
          whollyRunning := (s.channel n).whollyRunning && decide (s.canceller n = .running) } ∧
      t = { s with hwi := t.hwi, channels := t.channels, segments := t.segments } ∧
      t.hwi = { s.hwi with rout := t.hwi.rout, sout := t.hwi.sout, marks := t.hwi.marks } ∧
      (t.mark n) = { s.mark n with arrived := true } ∧ (∀ m, m ≠ n → t.mark m = s.mark m) ∧
      (∀ m, m ≠ n → t.channel m = s.channel m) ∧ ∀ g, g ∉ s.channelChain n → t.segment g = s.segment g

/-- R81: the error of an arrival follows the canceller state and is limited to −1 to +1, and the limited error is the one
used in the coefficient update, in the block accumulators and, in ACTIVE with the suppressor OPEN, on Sout; in OBSERVE it
is formed in the same way and Sout carries Sin. -/
def Obligations.ArrivalError : Prop :=
  ∀ (s : State) (n : ChannelNo) (rin sin : Byte), s.TakesArrival n →
    ∃ t, exec (.samplePairArrival n rin sin) s = .next t ∧
      (t.channel n).acc.errorPower = linAdd (s.channel n).acc.errorPower (linSquare (s.errorAt n rin sin)) ∧
      ((s.channel n).standing = .adapt → s.canceller n = .running → (s.channelChain n).Nodup →
        ∀ g ∈ s.channelChain n, (t.segment g).coeffs =
          adaptCoeffs (s.segment g).coeffs (tapSamples (s.historyAt n rin) (s.delay g))
            (linScale (stepValue (s.channel n).governing.step (s.channel n).divState) (s.errorAt n rin sin))
            (s.normaliserAt n (s.historyAt n rin))) ∧
      ((s.channel n).governing.mode = .active → (s.channel n).suppressor = .opened →
        t.hwi.sout[(s.channel n).governing.timeslot.val] = s.sendCode n (s.errorAt n rin sin)) ∧
      ((s.channel n).governing.mode = .observe →
        t.hwi.sout[(s.channel n).governing.timeslot.val] = s.sendCode n (linRat (expand s.hwi.law sin)))

/-- The taps an arrival changes: none unless the block in progress is ADAPT and the channel RUNNING; then every tap of
every chained segment by its increment, rounded to steps of 1/32768 and saturated, the step halved in WATCHFUL; start
delay, weight and vacancy count stay (R82 to R85). -/
def Obligations.ArrivalAdaptsTheChain : Prop :=
  ∀ (s : State) (n : ChannelNo) (rin sin : Byte), s.TakesArrival n → (s.channelChain n).Nodup →
    ∃ t, exec (.samplePairArrival n rin sin) s = .next t ∧
      (¬((s.channel n).standing = .adapt ∧ s.canceller n = .running) → t.segments = s.segments) ∧
      ((s.channel n).standing = .adapt → s.canceller n = .running → ∀ g ∈ s.channelChain n,
        (t.segment g).startDelay = (s.segment g).startDelay ∧ (t.segment g).weight = (s.segment g).weight ∧
        (t.segment g).vacancy = (s.segment g).vacancy ∧
        ∀ k : Fin 64,
          let field : Rat := match (s.channel n).governing.step with
            | .half => 1 / 2
            | .quarter => 1 / 4
            | .eighth => 1 / 8
            | .sixteenth => 1 / 16
          let stepSize := if (s.channel n).divState = .watchful then field / 2 else field
          let sample := ((s.historyAt n rin).drop (s.delay g + k.val)).headD []
          let steps := roundSteps (linMul (linScale stepSize (s.errorAt n rin sin)) sample)
            (s.normaliserAt n (s.historyAt n rin))
          (t.segment g).coeffs[k.val] =
            BitVec.ofInt 16 (max (-32768) (min 32767 ((s.segment g).coeffs[k.val].toInt + steps))))

/-- A closed suppressor of an ACTIVE channel sends comfort noise in every canceller state: at every phase of a block the
sample of one sequence of 32, whose mean power lies within 0.5 dB of the background estimate, and which is the next stretch
of the channel's one periodic sequence, with a flat spectrum: its autocorrelation has one value, not above 0, at every lag
within the period (R114, R115). The sequence itself is a free value and its periodicity the model's (log entry 8), its
place is that of the block's number (log entry 11), and the estimate is that after the decisions of the boundary (log
entry 25). -/
def Obligations.ComfortNoise : Prop :=
  (∀ (s : State) (n : ChannelNo) (rin sin : Byte), s.TakesArrival n → (s.channel n).governing.mode = .active →
    (s.channel n).suppressor = .closed →
    ∃ t, exec (.samplePairArrival n rin sin) s = .next t ∧
      t.hwi.sout[(s.channel n).governing.timeslot.val] =
        s.sendCode n ((noiseBlock n (s.channel n).freeBlock (s.channel n).background).getD s.hwi.phase [])) ∧
  ∀ n : ChannelNo,
    let sequence := noiseSequence n
    let period := sequence.length
    let correlation := fun lag =>
      ((List.range period).map fun i => sequence.getD i 0 * sequence.getD ((i + lag) % period) 0).sum
    (32 ≤ period ∧ correlation 1 ≤ 0 ∧ ∀ lag, 0 < lag → lag < period → correlation lag = correlation 1) ∧
    ∀ (block : Nat) (background : Int), -700 ≤ background → background ≤ 30 →
      let noise := noiseBlock n block background
      noise.length = 32 ∧
      (∀ phase, phase < 32 →
        noise.getD phase [] = linMono (background - 30) (sequence.getD ((32 * block + phase) % period) 0)) ∧
      linLe (linScale 32 (levelPower (background - 5))) (linSum (noise.map linSquare)) = true ∧
      linLe (linSum (noise.map linSquare)) (linScale 32 (levelPower (background + 5))) = true

/-! ### The block boundary (R11, R12) -/

/-- The frame of a block boundary, of an OFF channel and of any other. Both event queues after it: where no block closes they
are as before; where one closes, each queue that the channel's holder routes to, the holder's own or both for NONE, has
taken exactly the events of the decisions in the order of R173, and the other is as before (R5, R11, R12, R158, R173). -/
def Obligations.BoundaryTouchesItsChannelOnly : Prop :=
  ∀ (s : State) (n : ChannelNo), ∃ t, exec (.blockBoundary n) s = .next t ∧ s.BoundaryFrame t n ∧
    (¬s.ClosesBlock n → ∀ p, t.port p = s.port p) ∧
    (s.ClosesBlock n → (s.channel n).receive.InRange → (s.channel n).send.InRange → (s.channel n).windowPos ≤ 3 →
      ∃ events, s.BoundaryEvents t n events ∧ ∀ p, t.port p = { s.port p with queue := s.queueWith n p events })

/-- The boundary of an OFF channel only applies a pending record, under which the channel starts as R6 gives, HOLD (R89),
and serves its timeslot from the next frame (R5, R6, R11). -/
def Obligations.OffBoundaryAppliesTheRecord : Prop :=
  ∀ (s : State) (n : ChannelNo), s.hwi.framing = .framed → s.hwi.phase = 31 → (s.mark n).boundary = false →
    (s.channel n).governing.mode = .off →
    ((s.channel n).pendingRecord = none →
      exec (.blockBoundary n) s = .next (s.modMark n ({ · with boundary := true }))) ∧
    ∀ r, (s.channel n).pendingRecord = some r → r.mode ≠ .off →
      ∃ t, exec (.blockBoundary n) s = .next t ∧ t = { s with hwi := t.hwi, channels := t.channels } ∧
        (t.mark n).joining = true ∧ (t.mark n).boundary = true ∧
        (t.channel n).governing = r ∧ (t.channel n).pendingRecord = none ∧
        (t.channel n).history = List.replicate 2048 [] ∧ (t.channel n).converged = false ∧ (t.channel n).erle = 0 ∧
        (t.channel n).divCount = 0 ∧ (t.channel n).divState = .steady ∧ (t.channel n).doubleTalk = false ∧
        (t.channel n).suppressor = .opened ∧ (t.channel n).tone = .listening ∧ (t.channel n).blockCount = 0 ∧
        (t.channel n).receive =
          { gain := if r.receive.auto then 0 else r.receive.fixedGain, high := 0, low := 0, limit := false,
            blockAcc := [], windowAcc := [] } ∧
        (t.channel n).send =
          { gain := if r.send.auto then 0 else r.send.fixedGain, high := 0, low := 0, limit := false, blockAcc := [],
            windowAcc := [] } ∧
        (t.channel n).windowPos = 0 ∧ (t.channel n).trackCount = 0 ∧ (t.channel n).runCount = 0 ∧
        (t.channel n).hangover = 0 ∧ (t.channel n).peakHistory = List.replicate 65 [] ∧ (t.channel n).toneCount = 0 ∧
        (t.channel n).reversed = false ∧ (t.channel n).quietCount = 0 ∧ (t.channel n).suppHangover = 0 ∧
        (t.channel n).toneRin = [] ∧ (t.channel n).toneSin = [] ∧
        (t.channel n).background = -700 ∧ (t.channel n).acc = .zero ∧
        (t.channel n).standing = .hold ∧ (t.channel n).cursor = (s.channel n).cursor ∧
        (t.channel n).owed = (s.channel n).owed ∧
        ((t.channel n).whollyRunning = true ↔ t.canceller n = .running) ∧
        (t.canceller n = .restarting ↔ s.unfinished (channelCode n) = true ∨ (s.channel n).owed = true)

/-- The boundary of a channel whose mode is not OFF measures its block (the ERLE is the Sin level less the error level,
limited to −10 to +60 dB), refreshes the weights of its chain, advances the block count, which wraps, opens a block with
zero accumulators and the mark R88 gives, and applies a pending record, under which a new timeslot is served from the
next frame (R4, R9, R11, R12, R21, R88, R90 to R94).
A level (R78) is read from a mean power: the power of every level from −70 to +3 dBm0 in steps of 0.1 dB has that level, one
below or above them, and the power 0, has the level at that end, and a power 1 % (0.04 dB) off a level has it while one 2 %
(0.09 dB) off has the next. -/
def Obligations.BoundaryMeasuresCountsAndApplies : Prop :=
  (∀ level : Int, -700 ≤ level → level ≤ 30 → levelOf (levelPower level) = level) ∧
  levelOf [] = -700 ∧ levelOf (levelPower (-701)) = -700 ∧ levelOf (levelPower 31) = 30 ∧ levelOf (linRat 1) = 30 ∧
  (∀ level ∈ [-690, -451, -400, -310, -100, 0, 20],
    levelOf (linScale (99 / 100) (levelPower level)) = level ∧
    levelOf (linScale (101 / 100) (levelPower level)) = level ∧
    levelOf (linScale (98 / 100) (levelPower level)) = level - 1 ∧
    levelOf (linScale (102 / 100) (levelPower level)) = level + 1) ∧
  ∀ (s : State) (n : ChannelNo), s.ClosesBlock n → ∃ t, exec (.blockBoundary n) s = .next t ∧
    let c := s.channel n
    let d := t.channel n
    let sin := levelOf (linScale (1 / 32) c.acc.sinPower)
    let error := levelOf (linScale (1 / 32) c.acc.errorPower)
    let rin := levelOf (linScale (1 / 32) c.acc.refPower)
    d.erle = max (-100) (min 600 (sin - error)) ∧
    d.blockRecord = some
      { rinLevel := rin, sinLevel := sin, errorLevel := error, erle := max (-100) (min 600 (sin - error)),
        farActive := decide (-400 ≤ rin), sinPeak := c.acc.sinPeak, refPeak := c.acc.refPeak,
        adapt := decide (c.standing = .adapt), whollyRunning := c.whollyRunning } ∧
    (∀ g ∈ s.channelChain n,
      (t.segment g).weight = ((s.segment g).coeffs.toList.map fun w => (w.toInt * w.toInt).toNat).sum) ∧
    d.blockCount = c.blockCount + 1 ∧ d.pendingRecord = none ∧ d.governing = c.pendingRecord.getD c.governing ∧
    (t.mark n).boundary = true ∧ (t.mark n).arrived = true ∧
    ((t.mark n).joining = true ↔ (s.mark n).joining = true ∨ d.governing.timeslot ≠ c.governing.timeslot) ∧
    (d.governing.mode ≠ .off →
      d.acc = { refPower := [], sinPower := [], errorPower := [], sinPeak := [], refPeak := [] } ∧
      d.toneRin = [] ∧ d.toneSin = [] ∧ d.beforeRin = c.toneRin ∧ d.beforeSin = c.toneSin ∧
      (d.whollyRunning = true ↔ t.canceller n = .running)) ∧
    d.receive.blockAcc = [] ∧ d.send.blockAcc = [] ∧ d.history = c.history ∧ d.cursor = c.cursor

/-- The double-talk test at a boundary (R99 to R101): f and g are the smallest and largest start delays of the list. -/
def Obligations.DoubleTalkTest : Prop :=
  ∀ (s : State) (n : ChannelNo), s.ClosesBlock n → ∃ t, exec (.blockBoundary n) s = .next t ∧
    let c := s.channel n
    let peaks := (c.acc.refPeak :: c.peakHistory).take 65
    (t.channel n).peakHistory = peaks ∧
    (s.channelChain n = [] → (t.channel n).doubleTalk = false ∧ (t.channel n).hangover = 0) ∧
    ∀ f g, f ∈ (s.channelChain n).map s.delay → g ∈ (s.channelChain n).map s.delay →
      (∀ d ∈ (s.channelChain n).map s.delay, f ≤ d ∧ d ≤ g) →
      let peak := ((peaks.drop (f / 32)).take ((g + 94) / 32 + 1 - f / 32)).foldl linMax []
      let scale : Rat := match c.governing.margin with
        | .db0 => 1
        | .db3 => 7079 / 10000
        | .db6 => 5012 / 10000
      (linLt (linScale scale peak) c.acc.sinPeak = true →
        (t.channel n).doubleTalk = true ∧ (t.channel n).hangover = 8) ∧
      (linLt (linScale scale peak) c.acc.sinPeak = false → 0 < c.hangover →
        (t.channel n).doubleTalk = true ∧ (t.channel n).hangover = c.hangover - 1) ∧
      (linLt (linScale scale peak) c.acc.sinPeak = false → c.hangover = 0 →
        (t.channel n).doubleTalk = false ∧ (t.channel n).hangover = 0)

/-- What TBD finds in a direction (R103, R104): it carries the tone when its tone-band level is at least −31 dBm0 and at most
1 dB below its direction level, and only then it gives a reversal. A block that is a tone of 2079 Hz to 2121 Hz (each sample
twice the cosine of the tone's phase advance times the one before it, less the one before that) at −31 dBm0 or above
carries the tone, and shows no reversal unless the block directly before carries the tone too. Directly after a block of the
same tone at −31 dBm0 or above it shows none where it goes on with that tone, and shows one where it goes on with that tone
negated, a step of 180° that lasts. What other blocks have in the band is bounded and otherwise free, and the method is the
model's (log entries 9 and 10).
The tone state at a boundary (R106 to R108), and the TONE_BYPASS events. The tone is present, and a reversal seen, where
either direction has it, and a block is quiet when the level of the samples as received is below −36 dBm0 in both
directions (R103, R104, R107). -/
def Obligations.ToneStateAtBoundary : Prop :=
  (∀ (n : ChannelNo) (block : Nat) (send : Bool) (before samples : List Rat),
    let level := fun l : List Rat => levelOf (linScale (1 / 32) (linRat (l.map fun x => x * x).sum))
    let m := toneMeasure n block send before samples
    (m.carries = true ↔
      -310 ≤ toneBandLevel n block send samples ∧ level samples - toneBandLevel n block send samples ≤ 10) ∧
    (m.reversal = true → m.carries = true) ∧
    ∀ cosine : Rat, -94890197 / 1000000000 ≤ cosine → cosine ≤ -62006652 / 1000000000 →
      let isTone := fun l : List Rat =>
        ∀ i, i + 2 < l.length → l.getD (i + 2) 0 = 2 * cosine * l.getD (i + 1) 0 - l.getD i 0
      let sounds := fun l : List Rat => ∃ i, i + 2 < l.length ∧ l.getD (i + 1) 0 ≠ 0
      isTone samples → sounds samples →
      toneBandLevel n block send samples = level samples ∧ (-310 ≤ level samples → m.carries = true) ∧
      (carriesTone n (block - 1) send before = false → m.reversal = false) ∧
      (sounds before → -310 ≤ level before → -310 ≤ level samples →
        (isTone (before ++ samples) → m.reversal = false) ∧
        (isTone (before ++ samples.map fun x => -x) → m.reversal = true))) ∧
  ∀ (s : State) (n : ChannelNo), s.ClosesBlock n → ∃ t, exec (.blockBoundary n) s = .next t ∧
    let c := s.channel n
    let d := t.channel n
    let b := c.toneBlock n
    let receive := toneMeasure n c.freeBlock false c.beforeRin c.toneRin
    let send := toneMeasure n c.freeBlock true c.beforeSin c.toneSin
    (b.tonePresent = true ↔ receive.carries = true ∨ send.carries = true) ∧
    (b.reversal = true ↔ receive.reversal = true ∨ send.reversal = true) ∧
    let counted :=
      if b.quiet = false then d.tone = c.tone ∧ d.quietCount = 0
      else if c.quietCount < 62 then d.tone = c.tone ∧ d.quietCount = c.quietCount + 1
      else d.tone = .listening ∧ d.quietCount = 0
    let quiet := fun samples : List Rat =>
      levelOf (linScale (1 / 32) (linRat (samples.map fun x => x * x).sum)) < -360
    (b.reversal = true → b.tonePresent = true) ∧ (b.quiet = true ↔ quiet c.toneRin ∧ quiet c.toneSin) ∧
    (c.governing.toneBypass = false →
      d.tone = .listening ∧ d.toneCount = 0 ∧ d.reversed = false ∧ d.quietCount = 0) ∧
    (c.governing.toneBypass = true →
      (c.tone = .listening →
        if b.tonePresent = true then d.tone = .tone ∧ d.toneCount = 1 ∧ d.reversed = b.reversal
        else d.tone = .listening ∧ d.toneCount = c.toneCount) ∧
      (c.tone = .tone →
        if b.tonePresent = false then d.tone = .listening ∧ d.toneCount = 0 ∧ d.reversed = false
        else if c.toneCount < 99 then
          d.tone = .tone ∧ d.toneCount = c.toneCount + 1 ∧ d.reversed = (c.reversed || b.reversal)
        else d.tone = (if c.reversed = true ∨ b.reversal = true then .bypassFull else .bypassSuppressor) ∧
          d.toneCount = 0 ∧ d.reversed = false ∧ d.quietCount = 0) ∧
      (c.tone = .bypassSuppressor →
        if b.reversal = true then d.tone = .bypassFull ∧ d.quietCount = 0 else counted) ∧
      (c.tone = .bypassFull → counted)) ∧
    (d.tone ≠ c.tone → Tone.isBypass c.tone = true ∨ Tone.isBypass d.tone = true →
      s.Reported t n (.toneBypass n d.tone))

/-- The divergence count and state at a boundary (R119 to R122): in DIVERGED both are frozen. -/
def Obligations.DivergenceCount : Prop :=
  ∀ (s : State) (n : ChannelNo), s.ClosesBlock n → ∃ t, exec (.blockBoundary n) s = .next t ∧
    let c := s.channel n
    let d := t.channel n
    let sin := levelOf (linScale (1 / 32) c.acc.sinPower)
    let error := levelOf (linScale (1 / 32) c.acc.errorPower)
    let counted :=
      c.whollyRunning = true ∧ -400 ≤ levelOf (linScale (1 / 32) c.acc.refPower) ∧ d.doubleTalk = false
    (c.divState = .diverged → d.divCount = c.divCount ∧ d.divState = .diverged) ∧
    (c.divState ≠ .diverged →
      (¬counted → d.divCount = c.divCount) ∧
      (counted → 10 < error - sin → d.divCount = c.divCount + 8) ∧
      (counted → ¬10 < error - sin → 60 ≤ d.erle → d.divCount = c.divCount - 1) ∧
      (counted → ¬10 < error - sin → ¬60 ≤ d.erle → d.divCount = c.divCount) ∧
      (d.divCount ≤ 95 → d.divState = .steady) ∧
      (96 ≤ d.divCount → d.divCount ≤ 191 → d.divState = .watchful) ∧
      (192 ≤ d.divCount → d.divState = .diverged))

/-- Entering DIVERGED raises DIVERGED and makes an internal purge request with requester Internal, which joins or merges
where R73 lets it and otherwise sets the owed flag; the channel is RESTARTING and its opening block HOLD. A boundary that
does not enter DIVERGED leaves PGE and the owed flag as they are (R73, R75, R87, R122). -/
def Obligations.DivergenceRequestsAPurge : Prop :=
  ∀ (s : State) (n : ChannelNo), s.ClosesBlock n → s.pge.Inv → ∃ t, exec (.blockBoundary n) s = .next t ∧
    let enters := (s.channel n).divState ≠ .diverged ∧ (t.channel n).divState = .diverged
    (¬enters → t.pge = s.pge ∧ (t.channel n).owed = (s.channel n).owed) ∧
    (enters →
      s.Reported t n (.diverged n (t.channel n).divCount (t.channel n).erle) ∧
      (t.channel n).standing = .hold ∧ (t.channel n).converged = false ∧
      ((t.channel n).governing.mode ≠ .off → t.canceller n = .restarting) ∧
      s.PurgeRequested t n { a := false, b := false, internal := true })

/-- The convergence run count and flag at a boundary, in R95's order of cases, and the CONVERGED event. The standing of
the block that opens (R87): ADAPT exactly when the channel is RUNNING after the decisions, the closing block was wholly
running with the far end active, and the double-talk flag is off; the canceller state is that of the closing record (a
record applied at the boundary is applied after the decisions). -/
def Obligations.ConvergenceAndStanding : Prop :=
  (∀ (s : State) (n : ChannelNo), s.ClosesBlock n → ∃ t, exec (.blockBoundary n) s = .next t ∧
    let c := s.channel n
    let d := t.channel n
    (d.divState ≠ .steady → d.runCount = 0 ∧ d.converged = false) ∧
    (d.divState = .steady → c.standing = .adapt → 150 ≤ d.erle →
      d.runCount = min 8 (c.runCount + 1) ∧ (d.converged = true ↔ c.converged = true ∨ 8 ≤ c.runCount + 1)) ∧
    (d.divState = .steady → c.standing = .adapt → d.erle < 150 → d.runCount = 0 ∧ d.converged = c.converged) ∧
    (d.divState = .steady → c.standing = .hold → d.runCount = c.runCount ∧ d.converged = c.converged) ∧
    (c.converged = false → d.converged = true → s.Reported t n (.converged n d.erle))) ∧
  (∀ (s : State) (n : ChannelNo), s.ClosesBlock n → ∃ t, exec (.blockBoundary n) s = .next t ∧
    ((t.channel n).standing = .adapt ↔
      t.unfinished (channelCode n) = false ∧ (t.channel n).owed = false ∧ (t.channel n).tone ≠ .bypassFull ∧
      (s.channel n).whollyRunning = true ∧ -400 ≤ levelOf (linScale (1 / 32) (s.channel n).acc.refPower) ∧
      (t.channel n).doubleTalk = false))

/-- The suppressor at a boundary (R111, R112) and the background estimate (R113). -/
def Obligations.SuppressorAndBackground : Prop :=
  ∀ (s : State) (n : ChannelNo), s.ClosesBlock n → ∃ t, exec (.blockBoundary n) s = .next t ∧
    let c := s.channel n
    let d := t.channel n
    let error := levelOf (linScale (1 / 32) c.acc.errorPower)
    let sin := levelOf (linScale (1 / 32) c.acc.sinPower)
    let may := c.governing.suppressor = true ∧ c.governing.mode = .active ∧ d.converged = true ∧
      d.doubleTalk = false ∧ d.tone ≠ .bypassSuppressor ∧ d.tone ≠ .bypassFull
    (¬may → d.suppressor = .opened ∧ d.suppHangover = 0) ∧
    (may → error < -450 → d.suppressor = .closed ∧ d.suppHangover = 2) ∧
    (may → ¬error < -450 → c.suppressor = .closed → 0 < c.suppHangover →
      d.suppressor = .closed ∧ d.suppHangover = c.suppHangover - 1) ∧
    (may → ¬error < -450 → c.suppressor = .closed → c.suppHangover = 0 → d.suppressor = .opened) ∧
    (may → ¬error < -450 → c.suppressor = .opened → d.suppressor = .opened ∧ d.suppHangover = c.suppHangover) ∧
    let moves := ¬(-400 ≤ levelOf (linScale (1 / 32) c.acc.refPower)) ∧ d.doubleTalk = false
    (¬moves → d.background = c.background) ∧
    (moves → sin < c.background - 5 → d.background = c.background - 5) ∧
    (moves → c.background + 5 < sin → d.background = c.background + 5) ∧
    (moves → c.background - 5 ≤ sin → sin ≤ c.background + 5 → d.background = sin)

/-- The tracking period (R125 to R127, R134): W is the largest weight of the chain after the refresh of R93. -/
def Obligations.TrackingPeriod : Prop :=
  ∀ (s : State) (n : ChannelNo), s.ClosesBlock n → (s.channelChain n).Nodup →
    ∃ t, exec (.blockBoundary n) s = .next t ∧
      let c := s.channel n
      let ends := c.governing.tracking = true ∧ c.standing = .adapt ∧ 63 ≤ c.trackCount
      (c.governing.tracking = false → (t.channel n).trackCount = 0) ∧
      (c.governing.tracking = true → c.standing = .hold → (t.channel n).trackCount = c.trackCount) ∧
      (c.governing.tracking = true → c.standing = .adapt → c.trackCount < 63 →
        (t.channel n).trackCount = c.trackCount + 1) ∧
      (¬ends → t.relocation = s.relocation ∧
        ∀ g ∈ s.channelChain n, (t.segment g).vacancy = (s.segment g).vacancy) ∧
      (ends → (t.channel n).trackCount = 0 ∧
        ∀ W, (∀ g ∈ s.channelChain n, (t.segment g).weight ≤ W) →
          (∃ g ∈ s.channelChain n, (t.segment g).weight = W) →
          let weak := fun g => (t.segment g).weight * 64 < W ∨ W = 0
          (∀ g ∈ s.channelChain n,
            (weak g → (t.segment g).vacancy = min 4 ((s.segment g).vacancy + 1)) ∧
            (¬weak g → (t.segment g).vacancy = 0)) ∧
          ∃ placed : List SegNo, placed.Sublist (s.channelChain n) ∧
            t.relocation = s.relocation ++ placed.map (fun g => { segment := g, channel := n }) ∧
            (∀ g ∈ placed, weak g ∧ (t.segment g).vacancy = 4 ∧ ∀ e ∈ s.relocation, e.segment ≠ g) ∧
            (∀ g ∈ s.channelChain n, weak g → (t.segment g).vacancy = 4 → (∀ e ∈ s.relocation, e.segment ≠ g) →
              g ∈ placed ∨ 8 ≤ t.relocation.length))

/-- The level window at a boundary (R142 to R148): the window position, the window accumulators, at a level window
boundary the judgement of each direction and its LEVEL_LIMIT, and after it what an applied record changes. -/
def Obligations.LevelWindow : Prop :=
  ∀ (s : State) (n : ChannelNo), s.ClosesBlock n → (s.channel n).receive.InRange → (s.channel n).send.InRange →
    (s.channel n).windowPos ≤ 3 →
    ∃ (t : State) (receive send : LsuDir) (receiveLimited sendLimited : Bool),
      exec (.blockBoundary n) s = .next t ∧
      let c := s.channel n
      let d := t.channel n
      (c.windowPos < 3 → d.windowPos = c.windowPos + 1 ∧
        receive = { c.receive with windowAcc := linAdd c.receive.windowAcc c.receive.blockAcc, blockAcc := [] } ∧
        send = { c.send with windowAcc := linAdd c.send.windowAcc c.send.blockAcc, blockAcc := [] }) ∧
      (c.windowPos = 3 → d.windowPos = 0 ∧
        LsuJudged c.governing.receive
          (levelOf (linScale (1 / 128) (linAdd c.receive.windowAcc c.receive.blockAcc))) c.receive receive
          receiveLimited ∧
        LsuJudged c.governing.send (levelOf (linScale (1 / 128) (linAdd c.send.windowAcc c.send.blockAcc))) c.send send
          sendLimited ∧
        (receiveLimited = true → s.Reported t n (.levelLimit n false receive.gain)) ∧
        (sendLimited = true → s.Reported t n (.levelLimit n true send.gain))) ∧
      LevelsApplied c.governing.receive (c.pendingRecord.map ConfigRecord.receive) receive d.receive ∧
      LevelsApplied c.governing.send (c.pendingRecord.map ConfigRecord.send) send d.send

/-! ### The List Controller (R28 to R31, R39 to R58, R129 to R132) -/

/-- The arbiter: with LC FREE the first waiting requester after the arbiter position in the rotation Panel A, Panel B,
Relocation is chosen; with LC BUSY, or nobody waiting, none is (R42, R43). -/
def Obligations.ArbiterRotation : Prop :=
  ∀ s : State,
    let a := s.portA.panel.state = .pending
    let b := s.portB.panel.state = .pending
    let r := s.relocation ≠ []
    (s.lc.current ≠ none → s.choice = none) ∧ (¬a → ¬b → ¬r → s.choice = none) ∧
    (s.lc.current = none →
      (s.lc.arbiter = .relocation →
        (a → s.choice = some (.panel .a)) ∧ (¬a → b → s.choice = some (.panel .b)) ∧
        (¬a → ¬b → r → s.choice = some .relocation)) ∧
      (s.lc.arbiter = .panel .a →
        (b → s.choice = some (.panel .b)) ∧ (¬b → r → s.choice = some .relocation) ∧
        (¬b → ¬r → a → s.choice = some (.panel .a))) ∧
      (s.lc.arbiter = .panel .b →
        (r → s.choice = some .relocation) ∧ (¬r → a → s.choice = some (.panel .a)) ∧
        (¬r → ¬a → b → s.choice = some (.panel .b))))

/-- The refusals of the five list commands at their take, in the order of R47, R49, R50, R52 and R53: the first failing
check gives the result and nothing else changes but the arbiter position (R39, R44, R46). -/
def Obligations.RefusalsAtTake : Prop :=
  (∀ (s : State) (p : Plane) (a : Args),
    (s.Takes p .allocate a →
      let refused := fun st => exec .allocateTake s = .next (s.refusedAtTake p st)
      (argChain a = none → refused .badList) ∧
      ∀ c, argChain a = some c →
        (s.holder c ≠ some p → refused .notHolder) ∧
        (s.holder c = some p →
          (s.inPurge c = true → refused .inPurge) ∧
          (s.inPurge c = false →
            (16 ≤ (s.chain c).length → refused .chainFull) ∧
            ((s.chain c).length < 16 →
              (argDelay a % 8 ≠ 0 ∨ 1984 < argDelay a → refused .badDelay) ∧
              (argDelay a % 8 = 0 → argDelay a ≤ 1984 →
                ((∃ g ∈ s.chain c, s.delay g < argDelay a + 64 ∧ argDelay a < s.delay g + 64) → refused .overlap) ∧
                ((∀ g ∈ s.chain c, s.delay g + 64 ≤ argDelay a ∨ argDelay a + 64 ≤ s.delay g) → s.free = [] →
                  refused .empty)))))) ∧
    (s.Takes p .swap a →
      let refused := fun st => exec .swapTake s = .next (s.refusedAtTake p st)
      (argChannel a = none ∨ argWorkList a = none → refused .badList) ∧
      ∀ n w, argChannel a = some n → argWorkList a = some w →
        (s.holder (channelCode n) ≠ some p ∨ s.holder w ≠ some p → refused .notHolder) ∧
        (s.holder (channelCode n) = some p → s.holder w = some p →
          s.inPurge (channelCode n) = true ∨ s.inPurge w = true → refused .inPurge)) ∧
    (s.Takes p .empty a →
      let refused := fun st => exec .emptyTake s = .next (s.refusedAtTake p st)
      (argChain a = none → refused .badList) ∧
      ∀ c, argChain a = some c →
        (s.holder c ≠ some p → refused .notHolder) ∧
        (s.holder c = some p → s.inPurge c = true → refused .inPurge))) ∧
  (∀ (s : State) (p : Plane) (a : Args), s.PoolInv →
    (s.Takes p .release a →
      let refused := fun st => exec .releaseTake s = .next (s.refusedAtTake p st)
      (argSegment a = none → refused .badSegment) ∧
      ∀ g, argSegment a = some g →
        (g ∈ s.free → refused .badSegment) ∧
        ∀ c, g ∈ s.chain c →
          (s.holder c ≠ some p → refused .notHolder) ∧
          (s.holder c = some p → s.inPurge c = true → refused .inPurge)) ∧
    (s.Takes p .move a →
      let refused := fun st => exec .moveTake s = .next (s.refusedAtTake p st)
      (argSegment a = none → refused .badSegment) ∧
      ∀ g, argSegment a = some g →
        (g ∈ s.free → refused .badSegment) ∧
        ∀ c, g ∈ s.chain c →
          (argTarget a = none → refused .badList) ∧
          ∀ t, argTarget a = some t →
            (s.holder c ≠ some p ∨ s.holder t ≠ some p → refused .notHolder) ∧
            (s.holder c = some p → s.holder t = some p →
              (s.inPurge c = true ∨ s.inPurge t = true → refused .inPurge) ∧
              (s.inPurge c = false → s.inPurge t = false →
                (t ≠ c → 16 ≤ (s.chain t).length → refused .chainFull) ∧
                (t = c ∨ (s.chain t).length < 16 →
                  (argDelay a % 8 ≠ 0 ∨ 1984 < argDelay a → refused .badDelay) ∧
                  (argDelay a % 8 = 0 → argDelay a ≤ 1984 →
                    (∃ h ∈ s.chain t, h ≠ g ∧ s.delay h < argDelay a + 64 ∧ argDelay a < s.delay h + 64) →
                    refused .overlap))))))

/-- ALLOCATE's two events (R28, R29, R39, R48, R58, R68). The take of one that passes its checks: F's first segment goes
into transit and the early result is posted. The link: the segment stands in its list at its start delay with the
coefficients, weight and vacancy count it has; the panel returns to IDLE with its early result, unless the command is
detached. -/
def Obligations.AllocateEvents : Prop :=
  (∀ (s : State) (p : Plane) (a : Args) (c : ChainCode) (g : SegNo) (rest : List SegNo),
    s.Takes p .allocate a → argChain a = some c → s.holder c = some p → s.inPurge c = false → s.Fits c (argDelay a) →
    s.free = g :: rest →
    exec .allocateTake s = .next ({ s with
        lc := s.lc.busy p (.allocate c (argDelay a)), free := rest, transit := some g }.modPanel p
      ({ · with state := .running, valid := true, status := some .ok, segment := some g }))) ∧
  (∀ (s : State) (p : Plane) (c : ChainCode) (d : Nat) (g : SegNo),
    s.lc.current = some { work := .allocate c d, issuer := .panel p } → s.transit = some g →
    ∃ t, exec .allocateLink s = .next t ∧ s.LinkedAt t c g d ∧
      t.segment g = { s.segment g with startDelay := some d } ∧ (∀ h, h ≠ g → t.segment h = s.segment h) ∧
      t = { s with chains := t.chains, segments := t.segments, transit := none, pge := s.pge.disturbed c,
                   lc := s.lc.freed, portA := t.portA, portB := t.portB } ∧
      t.port p.other = s.port p.other ∧
      (s.lc.detached = false →
        t.port p = { s.port p with panel := { (s.port p).panel with state := .idle } }) ∧
      (s.lc.detached = true → t.port p = s.port p))

/-- The take of a RELEASE and of a MOVE that pass their checks: the segment goes from its list into transit with its
record as it is (R28, R33, R49, R51, R68). -/
def Obligations.ReleaseTakeAndMoveTake : Prop :=
  ∀ (s : State) (p : Plane) (a : Args) (c : ChainCode) (g : SegNo), s.PoolInv → argSegment a = some g →
    g ∈ s.chain c → s.holder c = some p → s.inPurge c = false →
    let taken := fun w => ({ s with
        chains := s.chains.set c.val ((s.chain c).erase g), transit := some g, pge := s.pge.disturbed c,
        lc := s.lc.busy p w }.modPanel p ({ · with state := .running }))
    (s.Takes p .release a → exec .releaseTake s = .next (taken .release)) ∧
    ∀ t, s.Takes p .move a → argTarget a = some t → s.holder t = some p → s.inPurge t = false →
      (t = c ∨ (s.chain t).length < 16) → goodDelay (argDelay a) = true →
      (∀ h ∈ s.chain t, h ≠ g → overlaps (argDelay a) (s.delay h) = false) →
      exec .moveTake s = .next (taken (.move t (argDelay a)))

/-- The last events of RELEASE and MOVE (R25, R29, R30, R49, R51, R58, R68). The link into F: the segment joins F's end
cleared. The link of a MOVE: zeroed when the start delay changes and kept when it does not, the vacancy count 0 in every
case. The result OK is posted unless the command is detached, and LC becomes FREE. -/
def Obligations.ReleaseLinkAndMoveLink : Prop :=
  (∀ (s : State) (p : Plane) (g : SegNo),
    s.lc.current = some { work := .release, issuer := .panel p } → s.transit = some g →
    ∃ t, exec .releaseLinkIntoF s = .next t ∧ t.free = s.free ++ [g] ∧
      t.segment g = { startDelay := none, coeffs := Vector.replicate 64 0, weight := 0, vacancy := 0 } ∧
      (∀ h, h ≠ g → t.segment h = s.segment h) ∧
      t = { s with free := t.free, segments := t.segments, transit := none, lc := s.lc.freed, portA := t.portA,
                   portB := t.portB } ∧
      t.port p.other = s.port p.other ∧
      (s.lc.detached = false → t.port p = { s.port p with panel :=
        { (s.port p).panel with state := .idle, valid := true, status := some .ok, count := none } }) ∧
      (s.lc.detached = true → t.port p = s.port p)) ∧
  (∀ (s : State) (p : Plane) (c : ChainCode) (d : Nat) (g : SegNo),
    s.lc.current = some { work := .move c d, issuer := .panel p } → s.transit = some g →
    ∃ t, exec .moveLink s = .next t ∧ s.LinkedAt t c g d ∧
      ((s.segment g).startDelay = some d → t.segment g = { s.segment g with vacancy := 0 }) ∧
      ((s.segment g).startDelay ≠ some d → t.segment g =
        { startDelay := some d, coeffs := Vector.replicate 64 0, weight := 0, vacancy := 0 }) ∧
      (∀ h, h ≠ g → t.segment h = s.segment h) ∧
      t = { s with chains := t.chains, segments := t.segments, transit := none, pge := s.pge.disturbed c,
                   lc := s.lc.freed, portA := t.portA, portB := t.portB } ∧
      t.port p.other = s.port p.other ∧
      (s.lc.detached = false → t.port p = { s.port p with panel :=
        { (s.port p).panel with state := .idle, valid := true, status := some .ok, count := none } }) ∧
      (s.lc.detached = true → t.port p = s.port p))

/-- A SWAP that passes its checks is whole in its take: the two lists exchange their contents, every segment record is
kept, and the channel's convergence flag and run count, divergence count and state and tracking period count are reset
(R31, R52, R68, R96). -/
def Obligations.SwapTake : Prop :=
  ∀ (s : State) (p : Plane) (a : Args) (n : ChannelNo) (w : ChainCode),
    s.Takes p .swap a → argChannel a = some n → argWorkList a = some w →
    s.holder (channelCode n) = some p → s.holder w = some p → s.inPurge (channelCode n) = false →
    s.inPurge w = false →
    ∃ t, exec .swapTake s = .next t ∧ t.chain (channelCode n) = s.chain w ∧ t.chain w = s.chain (channelCode n) ∧
      (∀ e, e ≠ channelCode n → e ≠ w → t.chain e = s.chain e) ∧
      t.channel n = { s.channel n with
        converged := false, runCount := 0, divCount := 0, divState := .steady, trackCount := 0 } ∧
      (∀ m, m ≠ n → t.channel m = s.channel m) ∧
      t = { s with chains := t.chains, channels := t.channels,
                   pge := (s.pge.disturbed (channelCode n)).disturbed w,
                   lc := { s.lc with arbiter := .panel p }, portA := t.portA, portB := t.portB } ∧
      t.port p.other = s.port p.other ∧
      t.port p = { s.port p with panel :=
        { (s.port p).panel with state := .idle, valid := true, status := some .ok, count := none } }

/-- EMPTY, event by event (R53, R54, R58, R68): its take on an empty list and on another, its links into F, the last of
which posts the count, and its further unlinks. -/
def Obligations.EmptyEvents : Prop :=
  (∀ (s : State) (p : Plane) (a : Args) (c : ChainCode), s.Takes p .empty a → argChain a = some c →
    s.holder c = some p → s.inPurge c = false →
    (s.chain c = [] → exec .emptyTake s = .next ({ s with lc := { s.lc with arbiter := .panel p } }.modPanel p
      ({ · with state := .idle, valid := true, status := some .ok, count := some 0 }))) ∧
    ∀ g rest, s.chain c = g :: rest → exec .emptyTake s = .next ({ s with
        chains := s.chains.set c.val rest, transit := some g, pge := s.pge.disturbed c,
        lc := s.lc.busy p (.empty c (rest.length + 1)) }.modPanel p ({ · with state := .running }))) ∧
  (∀ (s : State) (p : Plane) (c : ChainCode) (k : Nat) (g : SegNo),
    s.lc.current = some { work := .empty c k, issuer := .panel p } → s.transit = some g →
    ∃ t, exec .emptyLinkIntoF s = .next t ∧ t.free = s.free ++ [g] ∧
      t.segment g = { startDelay := none, coeffs := Vector.replicate 64 0, weight := 0, vacancy := 0 } ∧
      (∀ h, h ≠ g → t.segment h = s.segment h) ∧
      (s.chain c ≠ [] → t = { s with free := t.free, segments := t.segments, transit := none }) ∧
      (s.chain c = [] →
        t = { s with free := t.free, segments := t.segments, transit := none, lc := s.lc.freed, portA := t.portA,
                     portB := t.portB } ∧
        t.port p.other = s.port p.other ∧
        (s.lc.detached = false → t.port p = { s.port p with panel :=
          { (s.port p).panel with state := .idle, valid := true, status := some .ok, count := some k } }) ∧
        (s.lc.detached = true → t.port p = s.port p))) ∧
  ∀ (s : State) (i : Requester) (c : ChainCode) (k : Nat) (g : SegNo) (rest : List SegNo),
    s.lc.current = some { work := .empty c k, issuer := i } → s.transit = none → s.chain c = g :: rest →
    exec .emptyUnlink s = .next { s with
      chains := s.chains.set c.val rest, transit := some g, pge := s.pge.disturbed c }

/-- A relocation's two events. The take of an entry (R129 to R132): discarded when stale; blocked, with TRACK_BLOCKED and
a vacancy count of 0, when no candidate from the cursor on fits; otherwise the segment goes into transit and the cursor
moves past the first candidate that fits. The link: zeroed at the new delay; TRACK_MOVED with the old and the new delay
to the queues the holder gives, unless the channel is OFF (R29, R131, R158). -/
def Obligations.RelocationEvents : Prop :=
  (∀ (s : State) (e : RelocEntry) (rest : List RelocEntry), s.choice = some .relocation → s.relocation = e :: rest →
    let n := e.channel
    let g := e.segment
    let stale := g ∉ s.channelChain n ∨ (s.channel n).governing.tracking = false ∨ s.canceller n ≠ .running ∨
      s.unfinished (channelCode n) = true ∨ (s.segment g).vacancy < 4
    let candidate := fun i => ((s.channel n).cursor + 64 * i) % 2048
    let fits := fun i => ∀ h ∈ s.channelChain n, candidate i + 64 ≤ s.delay h ∨ s.delay h + 64 ≤ candidate i
    (stale → exec .relocationTake s = .next { s with
      relocation := rest, lc := { s.lc with arbiter := .relocation } }) ∧
    (¬stale → (∀ i, i < 32 → ¬fits i) →
      ∃ t, exec .relocationTake s = .next t ∧
        t = { s with relocation := rest, lc := { s.lc with arbiter := .relocation }, segments := t.segments,
                     portA := t.portA, portB := t.portB } ∧
        t.segment g = { s.segment g with vacancy := 0 } ∧ (∀ h, h ≠ g → t.segment h = s.segment h) ∧
        let record := s.stamped (decide (s.holder (channelCode n) = none)) (.trackBlocked n g (s.delay g))
        ∀ p, t.port p = if s.holder (channelCode n) = none ∨ s.holder (channelCode n) = some p then
            { s.port p with queue := (s.port p).queue.arrive record }
          else s.port p) ∧
    ∀ i, ¬stale → i < 32 → fits i → (∀ j, j < i → ¬fits j) →
      ∃ t, exec .relocationTake s = .next t ∧
        t = { s with
          relocation := rest
          lc := { s.lc with
            current := some { work := .relocation n (candidate i), issuer := .relocation }, arbiter := .relocation }
          chains := s.chains.set (channelCode n).val ((s.channelChain n).erase g)
          transit := some g
          pge := s.pge.disturbed (channelCode n)
          channels := t.channels } ∧
        t.channel n = { s.channel n with cursor := (candidate i + 64) % 2048 } ∧
        ∀ m, m ≠ n → t.channel m = s.channel m) ∧
  (∀ (s : State) (n : ChannelNo) (d : Nat) (g : SegNo),
    s.lc.current = some { work := .relocation n d, issuer := .relocation } → s.transit = some g →
    ∃ t, exec .relocationLink s = .next t ∧ s.LinkedAt t (channelCode n) g d ∧
      t.segment g = { startDelay := some d, coeffs := Vector.replicate 64 0, weight := 0, vacancy := 0 } ∧
      (∀ h, h ≠ g → t.segment h = s.segment h) ∧
      t = { s with chains := t.chains, segments := t.segments, transit := none,
                   pge := s.pge.disturbed (channelCode n), lc := s.lc.freed, portA := t.portA, portB := t.portB } ∧
      let record := s.stamped (decide (s.holder (channelCode n) = none)) (.trackMoved n g (s.delay g) d)
      ∀ p, t.port p =
        if (s.channel n).governing.mode ≠ .off ∧
            (s.holder (channelCode n) = none ∨ s.holder (channelCode n) = some p) then
          { s.port p with queue := (s.port p).queue.arrive record }
        else s.port p)

/-! ### Panels and links: requests (R36 to R39, R57, R160 to R170) -/

/-- A list command that an IDLE panel takes waits PENDING with its arguments unchecked and no result, and changes nothing
else. A COMMAND to a panel that is not IDLE is answered PANEL_BUSY, a command code that names no command BAD_COMMAND and
a bad frame BAD_FRAME with the kind byte as received, and nothing else changes (R37, R38, R161, R162, R164). -/
def Obligations.CommandsAtThePanel : Prop :=
  ∀ (s : State) (p : Plane) (a : Args), (s.port p).iface = .awaitRequest →
    ((s.port p).panel.state = .idle →
      let taken := fun code => (s.modPanel p fun _ =>
        { state := .pending, command := some { code := code, args := a }, valid := false, status := none,
          segment := none, count := none }).answered p 0x03 .ok []
      exec (.allocate p a) s = .next (taken .allocate) ∧ exec (.release p a) s = .next (taken .release) ∧
      exec (.move p a) s = .next (taken .move) ∧ exec (.swap p a) s = .next (taken .swap) ∧
      exec (.empty p a) s = .next (taken .empty)) ∧
    ((s.port p).panel.state ≠ .idle → ∀ c ∈ [Instr.allocate p a, .release p a, .move p a, .swap p a, .empty p a,
        .purge p a, .suspend p a, .resume p a, .claim p a, .unclaim p a, .seize p a, .restart p a],
      exec c s = .next (s.answered p 0x03 .panelBusy [])) ∧
    (∀ code, commandOfCode code = none →
      exec (.command p code a) s = .next (s.answered p 0x03 .badCommand [])) ∧
    ∀ kind rest, exec (.badFrame p (kind :: rest)) s = .next (s.answered p kind .badFrame [])

/-- R153: CLAIM, UNCLAIM and SEIZE by the holder before, in every row of the table, and BAD_LIST for a code that is no
claimable; CLAIM_LOST goes to the other plane's queue alone (R154). -/
def Obligations.ClaimTable : Prop :=
  ∀ (s : State) (p : Plane) (a : Args), s.Ready p →
    (136 ≤ a.arg1.toNat % 256 →
      exec (.claim p a) s = .next (s.completed p .claim a .badList) ∧
      exec (.unclaim p a) s = .next (s.completed p .unclaim a .badList) ∧
      exec (.seize p a) s = .next (s.completed p .seize a .badList)) ∧
    ∀ c : ChainCode, c.val = a.arg1.toNat % 256 →
      (s.holder c = none ∨ s.holder c = some p →
        exec (.claim p a) s = .next ((s.setHolder c (some p)).completed p .claim a .ok) ∧
        exec (.seize p a) s = .next ((s.setHolder c (some p)).completed p .seize a .ok)) ∧
      (s.holder c = some p →
        exec (.unclaim p a) s = .next ((s.setHolder c none).completed p .unclaim a .ok)) ∧
      (s.holder c ≠ some p →
        exec (.unclaim p a) s = .next (s.completed p .unclaim a .notHolder)) ∧
      (s.holder c = some p.other →
        exec (.claim p a) s = .next (s.completed p .claim a .claimed) ∧
        exec (.seize p a) s = .next (((s.setHolder c (some p)).modQueue p.other
          (·.arrive (s.stamped false (.claimLost c p)))).completed p .seize a .ok))

/-- The holders change only at a CLAIM, UNCLAIM or SEIZE, and the list structure only at the structural events of LC;
power-on reset sets both (R23, R41, R55, R152). -/
def Obligations.OnlyTheOwnersChangeClaimsAndLists : Prop :=
  ∀ (c : Instr) (s t : State), c.wellFormed = true → exec c s = .next t →
    ((∀ law, c ≠ .powerOnReset law) → (∀ p a, c ≠ .claim p a) → (∀ p a, c ≠ .unclaim p a) →
      (∀ p a, c ≠ .seize p a) → t.claims = s.claims) ∧
    (changesLists c = false → t.free = s.free ∧ t.chains = s.chains ∧ t.transit = s.transit)

/-- SUSPEND in every engine state, and what SUSPENDING refuses (R69, with R45, R61 and R73 where it names them). -/
def Obligations.SuspendCommand : Prop :=
  ∀ (s : State) (p : Plane) (a : Args),
    (s.Ready p → s.pge.engine = .running →
      exec (.suspend p a) s =
        .next ({ s with pge := { s.pge with engine := .suspending } }.completed p .suspend a .ok)) ∧
    (s.Ready p → s.pge.engine ≠ .running →
      exec (.suspend p a) s = .next (s.completed p .suspend a .notRunning)) ∧
    (s.pge.engine = .suspending → ∀ c, s.unfinished c = true → s.inPurge c = true) ∧
    (s.Ready p → s.pge.engine = .suspending → ∀ c, argChain a = some c → s.holder c = some p →
      exec (.purge p a) s = .next (s.completed p .purge a .purgeBusy)) ∧
    ∀ n r, s.pge.engine = .suspending → ((s.requestPurge n r).channel n).owed = true ∧
      (s.requestPurge n r).pge = s.pge

/-- RESUME: in SUSPENDING it withdraws the suspension; in SUSPENDED it stops the timer and makes a selection, with no
PURGE_RESUMED: entries with nothing left to clear finish, the next clear begins at the position its entry's progress names,
or the batch is exhausted; otherwise NOT_SUSPENDED (R64, R66, R67, R71). A channel whose entry finishes with nothing owed
leaves RESTARTING with its convergence flag and wholly running mark clear; R88 says so of the mark of a block in progress,
and that it is cleared while framing is LOST too is the model's choice (log entry 20). -/
def Obligations.ResumeCommand : Prop :=
  ∀ (s : State) (p : Plane) (a : Args), s.Ready p →
    (s.pge.engine = .suspending →
      exec (.resume p a) s = .next ({ s with pge := { s.pge with engine := .running } }.completed p .resume a .ok)) ∧
    (s.pge.engine = .idle ∨ s.pge.engine = .gathering ∨ s.pge.engine = .running →
      exec (.resume p a) s = .next (s.completed p .resume a .notSuspended)) ∧
    (s.pge.engine = .suspended → ∀ e g, s.pge.batch.find? (fun x => !x.finished) = some e →
      (s.chain e.list)[e.progress]? = some g →
      exec (.resume p a) s = .next ({ s with pge := { s.pge with
        engine := .running, gatherTimer := false, suspendTimer := false
        clear := some { list := e.list, segment := g, disturbed := false } } }.completed p .resume a .ok)) ∧
    (s.pge.engine = .suspended → (s.pge.batch.map BatchEntry.list).Nodup →
      ∃ t, exec (.resume p a) s = .next (t.completed p .resume a .ok) ∧
        State.Selects { s with pge := { s.pge with engine := .running, gatherTimer := false, suspendTimer := false } } t)

/-- PURGE in R61's order of checks, and what a purge that is taken does: a batch starts, is joined or merged into, the
channel's owed flag falls (R62), and a channel whose mode is not OFF is RESTARTING at once with its convergence flag
clear and its block HOLD (R75, R89). -/
def Obligations.PurgeCommand : Prop :=
  ∀ (s : State) (p : Plane) (a : Args), s.Ready p →
    let refused := fun st => exec (.purge p a) s = .next (s.completed p .purge a st)
    let plane : Requesters := { a := decide (p = .a), b := decide (p = .b), internal := false }
    (argChain a = none → refused .badList) ∧
    ∀ c, argChain a = some c →
      (s.holder c ≠ some p → refused .notHolder) ∧
      (s.holder c = some p →
        (s.pge.engine = .running ∨ s.pge.engine = .suspending ∨ s.pge.engine = .suspended → refused .purgeBusy) ∧
        (s.pge.engine = .gathering → 16 ≤ s.pge.batch.length → refused .batchFull) ∧
        (s.pge.engine = .idle ∨ s.pge.engine = .gathering ∧ s.pge.batch.length < 16 →
          ∃ t : State, exec (.purge p a) s = .next (t.completed p .purge a .ok) ∧
            t = { s with pge := t.pge, channels := t.channels } ∧
            (∀ n, channelCode n ≠ c → t.channel n = s.channel n) ∧
            (∀ n, channelCode n = c → (s.channel n).governing.mode ≠ .off →
              (s.hwi.framing = .framed → t.channel n = { s.channel n with
                owed := false, converged := false, runCount := 0, standing := .hold }) ∧
              (s.hwi.framing = .lost → t.channel n = { s.channel n with
                owed := false, converged := false, runCount := 0, standing := .hold,
                whollyRunning := (s.channel n).whollyRunning && decide (s.canceller n ≠ .running) }) ∧
              (s.pge.Inv → t.canceller n = .restarting)) ∧
            (∀ n, channelCode n = c → (s.channel n).governing.mode = .off →
              t.channel n = { s.channel n with owed := false }) ∧
            (s.pge.engine = .idle → t.pge = { s.pge with
              engine := .gathering, gatherTimer := true
              batch := [{ list := c, requesters := plane, progress := 0, finished := false }] }) ∧
            (s.pge.engine = .gathering → (∀ e ∈ s.pge.batch, e.list ≠ c) → t.pge = { s.pge with
              batch := s.pge.batch ++ [{ list := c, requesters := plane, progress := 0, finished := false }] }) ∧
            (s.pge.engine = .gathering → (∃ e ∈ s.pge.batch, e.list = c) → t.pge = { s.pge with
              batch := s.pge.batch.map fun e => if e.list = c then { e with requesters :=
                { a := e.requesters.a || decide (p = .a), b := e.requesters.b || decide (p = .b),
                  internal := e.requesters.internal } } else e })))

/-- RESTART by a plane that holds the channel (R13, R14, R105, R108): the channel's status and hidden state take their
defaults, the cursor 0, the records and the measurements of the block in progress stay, its wholly running mark stays only
where the channel is RUNNING before and after (R88, table of section 5.9), and a purge of a list that is not
empty is requested with the plane as requester; TONE_BYPASS reports a bypass state left. Whether LSU's block accumulators
stay is the free value of log entry 12. -/
def Obligations.RestartCommand : Prop :=
  ∀ (s : State) (p : Plane) (a : Args), s.Ready p →
    (argChannel a = none → exec (.restart p a) s = .next (s.completed p .restart a .badValue)) ∧
    ∀ n, argChannel a = some n →
      (s.holder (channelCode n) ≠ some p → exec (.restart p a) s = .next (s.completed p .restart a .notHolder)) ∧
      (s.holder (channelCode n) = some p →
        ∃ t : State, exec (.restart p a) s = .next (t.completed p .restart a .ok) ∧
          t = { s with pge := t.pge, channels := t.channels, portA := t.portA, portB := t.portB } ∧
          (∀ m, m ≠ n → t.channel m = s.channel m) ∧ (t.channel n).Restarted ∧ (t.channel n).cursor = 0 ∧
          (t.channel n).governing = (s.channel n).governing ∧
          (t.channel n).pendingRecord = (s.channel n).pendingRecord ∧ (t.channel n).acc = (s.channel n).acc ∧
          (t.channel n).toneRin = (s.channel n).toneRin ∧ (t.channel n).toneSin = (s.channel n).toneSin ∧
          (t.channel n).beforeRin = (s.channel n).beforeRin ∧ (t.channel n).beforeSin = (s.channel n).beforeSin ∧
          (s.pge.Inv → (t.channel n).whollyRunning = ((s.channel n).whollyRunning &&
            decide (s.canceller n = .running ∧ t.canceller n = .running))) ∧
          (s.channelChain n = [] → t.pge = s.pge ∧ (t.channel n).owed = (s.channel n).owed ∧
            (t.channel n).standing = (s.channel n).standing) ∧
          (s.channelChain n ≠ [] →
            s.PurgeRequested t n { a := decide (p = .a), b := decide (p = .b), internal := false } ∧
            ((s.channel n).governing.mode ≠ .off → (t.channel n).standing = .hold ∧
              (s.pge.Inv → t.canceller n = .restarting))) ∧
          let reports := (s.channel n).governing.mode ≠ .off ∧ Tone.isBypass (s.channel n).tone = true
          (¬reports → ∀ q, t.port q = s.port q) ∧
          (reports → t.port p =
              { s.port p with queue := (s.port p).queue.arrive (s.stamped false (.toneBypass n .listening)) } ∧
            t.port p.other = s.port p.other))

/-- A WRITE to CHANNEL_CONFIG (R3 to R5). One record: the checks in order, the first failing one refusing it with no
effect, and what an accepted record does. Several records, one for each channel from the index on in ascending order: each
is checked with the records before it counted as their channels' pending records, the first refused one gives the code of
the whole WRITE, which has no effect; otherwise every record is accepted as R4 lays down. That an earlier record of mode OFF
frees the timeslot of its channel's pending record, and that the fields are read raw, are the model's readings (log
entry 22). -/
def Obligations.ConfigWrite : Prop :=
  (∀ (s : State) (p : Plane) (n : ChannelNo) (data : List Word), (s.port p).iface = .awaitRequest → data.length = 6 →
    let command := Instr.writeChannelConfig p (BitVec.ofNat 16 n.val) 1 data
    let raw := rawRecord (wordsToBytes data)
    let refused := fun st => exec command s = .next (s.answered p 0x02 st [])
    let taken := raw.mode ≠ 0 ∧ ∃ m, m ≠ n ∧
      ((s.channel m).governing.mode ≠ .off ∧ (s.channel m).governing.timeslot.val = raw.timeslot ∨
        ∃ r, (s.channel m).pendingRecord = some r ∧ r.mode ≠ .off ∧ r.timeslot.val = raw.timeslot)
    let badLevels := raw.receiveUpper < raw.receiveLower + 3 ∨ raw.sendUpper < raw.sendLower + 3
    (s.holder (channelCode n) ≠ some p → refused .notHolder) ∧
    (s.holder (channelCode n) = some p →
      (taken → refused .timeslotTaken) ∧ (¬taken → badLevels → refused .badLevels) ∧
      (¬taken → ¬badLevels → raw.decode = none → refused .badValue) ∧
      ∀ r, ¬taken → ¬badLevels → raw.decode = some r →
        (r.mode ≠ .off → exec command s =
          .next ((s.modChannel n ({ · with pendingRecord := some r })).answered p 0x02 .ok [])) ∧
        (r.mode = .off → (s.channel n).governing.mode = .off → exec command s =
          .next ((s.modChannel n ({ · with governing := r, pendingRecord := none })).answered p 0x02 .ok [])) ∧
        (r.mode = .off → (s.channel n).governing.mode ≠ .off →
          ∃ c : Channel, exec command s = .next ((s.modChannel n fun _ => c).answered p 0x02 .ok []) ∧
            c.governing = r ∧ c.pendingRecord = none ∧ c.Restarted ∧ c.receive.blockAcc = [] ∧
            c.send.blockAcc = [] ∧ c.toneRin = [] ∧ c.toneSin = [] ∧
            c.acc = { refPower := [], sinPower := [], errorPower := [], sinPeak := [], refPeak := [] } ∧
            c.cursor = (s.channel n).cursor ∧ c.owed = (s.channel n).owed))) ∧
  (∀ (s : State) (p : Plane) (index : Word) (count : Byte) (data : List Word),
    (s.port p).iface = .awaitRequest → (Instr.writeChannelConfig p index count data).wellFormed = true →
    let command := Instr.writeChannelConfig p index count data
    let items := (channelsFrom index.toNat count.toNat).zip (rawRecords data count.toNat)
    let passes := fun (earlier : List (ChannelNo × RawRecord)) (x : ChannelNo × RawRecord) =>
      ∀ st, ¬s.RefusesRecord p earlier x.1 x.2 st
    items.length = count.toNat ∧
    (∀ i x, items[i]? = some x →
      x.1.val = index.toNat + i ∧ x.2 = rawRecord (wordsToBytes ((data.drop (6 * i)).take 6))) ∧
    (∀ earlier x later st, items = earlier ++ x :: later →
      (∀ first y rest, earlier = first ++ y :: rest → passes first y) → s.RefusesRecord p earlier x.1 x.2 st →
      exec command s = .next (s.answered p 0x02 st [])) ∧
    ((∀ first y rest, items = first ++ y :: rest → passes first y) →
      ∃ t : State, exec command s = .next (t.answered p 0x02 .ok []) ∧ t = { s with channels := t.channels } ∧
        (∀ x ∈ items, ∃ r, x.2.decode = some r ∧ (s.channel x.1).Accepts r (t.channel x.1)) ∧
        ∀ m, (∀ x ∈ items, x.1 ≠ m) → t.channel m = s.channel m))

/-- A WRITE to COEFF (R167): the first touched segment that fails refuses the whole write, and nothing changes; otherwise
every word is stored in its tap, every other tap of the part stays, and the touched weights are refreshed. -/
def Obligations.CoeffWrite : Prop :=
  ∀ (s : State) (p : Plane) (index : Word) (count : Byte) (data : List Word), s.PoolInv →
    (s.port p).iface = .awaitRequest → (Instr.writeCoeff p index count data).wellFormed = true →
    let command := Instr.writeCoeff p index count data
    let touched := fun g : SegNo =>
      index.toNat / 64 ≤ g.val ∧ g.val ≤ (index.toNat + count.toNat - 1) / 64
    let inWorkList := fun g : SegNo => ∃ c : ChainCode, 128 ≤ c.val ∧ g ∈ s.chain c ∧ s.holder c = some p
    let good := fun g : SegNo =>
      ∃ c : ChainCode, 128 ≤ c.val ∧ g ∈ s.chain c ∧ s.holder c = some p ∧ s.unfinished c = false
    let notHeld := fun g : SegNo => ∃ c : ChainCode, 128 ≤ c.val ∧ g ∈ s.chain c ∧ s.holder c ≠ some p
    (∀ g, touched g → (∀ h, touched h → h < g → good h) → notHeld g →
      exec command s = .next (s.answered p 0x02 .notHolder [])) ∧
    (∀ g, touched g → (∀ h, touched h → h < g → good h) → ¬notHeld g → (inWorkList g → ¬good g) →
      exec command s = .next (s.answered p 0x02 .notWritable [])) ∧
    ((∀ g, touched g → good g) →
      ∃ t : State, exec command s = .next (t.answered p 0x02 .ok []) ∧ t = { s with segments := t.segments } ∧
        (∀ g, ¬touched g → t.segment g = s.segment g) ∧
        ∀ g, touched g →
          (t.segment g).startDelay = (s.segment g).startDelay ∧ (t.segment g).vacancy = (s.segment g).vacancy ∧
          (t.segment g).weight = weightOf (t.segment g).coeffs ∧
          ∀ k : Fin 64, (t.segment g).coeffs[k.val] =
            (if index.toNat ≤ 64 * g.val + k.val then data[64 * g.val + k.val - index.toNat]? else none).getD
              (s.segment g).coeffs[k.val])

/-- READ, STATUS and the WRITEs no space takes (R33, R35, R165, R166, R168): the space codes 1 to 7 and the indices valid in
each space, the checks in order, an accepted READ's body of the items as they stand, the panel record of the link in the layout of section 10.6 with its status and command codes,
and no change to any state but the held reply. -/
def Obligations.ReadsAndRefusedWrites : Prop :=
  ∀ (s : State) (p : Plane), (s.port p).iface = .awaitRequest →
    exec (.status p) s = .next (s.answered p 0x04 .ok (panelLayout (s.port p).panel)) ∧
    [Status.ok, .badFrame, .badAddress, .badCommand, .badValue, .badList, .badSegment, .badDelay, .badLevels, .panelBusy,
      .notHolder, .claimed, .inPurge, .purgeBusy, .batchFull, .notRunning, .notSuspended, .chainFull, .overlap, .empty,
      .timeslotTaken, .notWritable].map statusCode = (List.range 22).map inByte ∧
    [CommandCode.allocate, .release, .move, .swap, .empty, .purge, .suspend, .resume, .claim, .unclaim, .seize,
      .restart].map codeOfCommand = [0x01, 0x02, 0x03, 0x04, 0x05, 0x10, 0x11, 0x12, 0x20, 0x21, 0x22, 0x30] ∧
    ∀ (space : Byte) (index : Word) (count : Byte) (data : List Word),
      let refused := fun st => exec (.read p space index count) s = .next (s.answered p 0x01 st []) ∧
        ((Instr.write p space index count data).wellFormed = true →
          exec (.write p space index count data) s = .next (s.answered p 0x02 st []))
      let valid := fun (sp : Space) (i : Nat) => match sp with
        | .channelConfig | .channelStatus => i ≤ 127
        | .segment => i ≤ 1023
        | .coeff => i ≤ 65535
        | .list => i ≤ 135 ∨ i = 255
        | .claims => i ≤ 135
        | .device => i ≤ 7
      (space = 0 ∨ 8 ≤ space.toNat → refused .badAddress) ∧
      ∀ sp, (space, sp) ∈ [(0x01, Space.channelConfig), (0x02, .channelStatus), (0x03, .segment), (0x04, .coeff),
          (0x05, .list), (0x06, .claims), (0x07, .device)] →
        (count.toNat = 0 ∨ 64 < count.toNat → refused .badValue) ∧
        (1 ≤ count.toNat → count.toNat ≤ 64 →
          ((∃ i, i < count.toNat ∧ ¬valid sp (index.toNat + i)) → refused .badAddress) ∧
          ((∀ i, i < count.toNat → valid sp (index.toNat + i)) →
            exec (.read p space index count) s = .next (s.answered p 0x01 .ok
              (wordsToBytes ((List.range count.toNat).flatMap fun i => s.item p sp (index.toNat + i)))) ∧
            ((Instr.write p space index count data).wellFormed = true →
              exec (.write p space index count data) s = .next (s.answered p 0x02 .notWritable []))))

/-- What the seven spaces return, in the layouts of section 10.6 (R1, R9, R19 to R21, R23, R24, R33, R152, R165, R171). The
configuration record and the status record of a channel; the coefficients; the holders; the device values. In a pool that
meets its invariant a free segment reads list 255 and no start delay reads as zero, a segment in transit reads list 256 with
prev and next absent, a chained one its list's code; a header, F's at index 255, reads first, last and count. -/
def Obligations.ItemsOfTheSpaces : Prop :=
  (∀ (s : State) (p : Plane),
    (∀ n : ChannelNo, wordsToBytes (s.item p .channelConfig n.val) = configLayout (s.channel n).governing ∧
      wordsToBytes (s.item p .channelStatus n.val) = s.statusLayout n) ∧
    (∀ (g : SegNo) (k : Fin 64), s.item p .coeff (64 * g.val + k.val) = [(s.segment g).coeffs[k.val]]) ∧
    (∀ c : ChainCode, s.item p .list c.val = headerLayout (s.chain c) ∧
      s.item p .claims c.val = [match s.holder c with | none => 0 | some .a => 1 | some .b => 2]) ∧
    s.item p .list 255 = headerLayout s.free ∧
    s.item p .device 0 = [BitVec.ofNat 16 s.free.length] ∧
    s.item p .device 1 = [match s.pge.engine with
      | .idle => 0 | .gathering => 1 | .running => 2 | .suspending => 3 | .suspended => 4] ∧
    s.item p .device 2 = [BitVec.ofNat 16 s.pge.batch.length] ∧
    s.item p .device 3 = [match s.hwi.framing with | .lost => 0 | .framed => 1] ∧
    s.item p .device 4 = [BitVec.ofNat 16 s.relocation.length] ∧ s.item p .device 5 = [s.hwi.stamp] ∧
    s.item p .device 6 = [BitVec.ofNat 16 (s.port p).queue.entries.length] ∧
    s.item p .device 7 = [BitVec.ofNat 16 (s.port p).queue.trigger]) ∧
  ∀ (s : State) (p : Plane), s.PoolInv →
    (∀ g : SegNo,
      let x := s.segment g
      let rest := [(x.startDelay.map fun d => BitVec.ofNat 16 d).getD 0xFFFF,
        BitVec.ofNat 16 (min 65534 (x.weight / 2 ^ 20)), BitVec.ofNat 16 x.vacancy]
      (s.transit = some g → s.item p .segment g.val = [256, 0xFFFF, 0xFFFF] ++ rest) ∧
      (∀ pre post, s.free = pre ++ g :: post → s.item p .segment g.val =
        [255, segmentWord pre.getLast?, segmentWord post.head?] ++ rest) ∧
      ∀ c pre post, s.chain c = pre ++ g :: post → s.item p .segment g.val =
        [BitVec.ofNat 16 c.val, segmentWord pre.getLast?, segmentWord post.head?] ++ rest) ∧
    s.free.length + ((List.finRange 136).map fun c => (s.chain c).length).sum = (if s.transit = none then 1024 else 1023)

/-- R169 and R174: TAKE_EVENTS removes and returns the oldest m entries and restarts the quiet timer, m being the smaller
of n and the count, each record in the layout of section 10.6 and R172's table; SET_TRIGGER sets the trigger level; an n
that is 0 or over 16 and a level that is 0 or over 64 get BAD_VALUE and change nothing. -/
def Obligations.TakeEventsAndSetTrigger : Prop :=
  ∀ (s : State) (p : Plane), (s.port p).iface = .awaitRequest →
    (∀ n : Byte, (n.toNat = 0 ∨ 16 < n.toNat → exec (.takeEvents p n) s = .next (s.answered p 0x05 .badValue [])) ∧
      (1 ≤ n.toNat → n.toNat ≤ 16 →
        let entries := (s.port p).queue.entries
        let m := min n.toNat entries.length
        exec (.takeEvents p n) s =
          .next ((s.modQueue p ({ · with entries := entries.drop m, quietTimer := true, quietMark := false })).answered
            p 0x05 .ok (BitVec.ofNat 8 m :: (entries.take m).flatMap eventLayout)))) ∧
    ∀ level : Byte,
      (level.toNat = 0 ∨ 64 < level.toNat →
        exec (.setTrigger p level) s = .next (s.answered p 0x06 .badValue [])) ∧
      (1 ≤ level.toNat → level.toNat ≤ 64 → exec (.setTrigger p level) s =
        .next ((s.modQueue p ({ · with trigger := level.toNat })).answered p 0x06 .ok []))

/-- What a queue does with an arriving record (R173, R175), and when it asserts ATTN (R176). That the routing field of an
OVERRUN says "this queue only" is the model's reading (log entry 31). -/
def Obligations.QueueArrivalAndAttention : Prop :=
  ∀ (q : Queue) (r : EventRecord),
    ((q.arrive r).quietTimer = true ∧ (q.arrive r).quietMark = false ∧ (q.arrive r).trigger = q.trigger) ∧
    (q.entries.length ≤ 62 → (q.arrive r).entries = q.entries ++ [r]) ∧
    (∀ last, q.entries.length = 63 → q.entries.getLast? = some last →
      (eventKind last.event ≠ .overrun → (q.arrive r).entries = q.entries ++
        [{ event := .overrun (eventKind r.event) (eventSubject r.event), stamp := r.stamp, both := false }]) ∧
      (eventKind last.event = .overrun → (q.arrive r).entries = q.entries)) ∧
    (64 ≤ q.entries.length → (q.arrive r).entries = q.entries) ∧
    (q.attn = true ↔ q.trigger ≤ q.entries.length ∨ (0 < q.entries.length ∧ q.quietMark = true) ∨
      ∃ x ∈ q.entries, eventKind x.event = .claimLost ∨ eventKind x.event = .diverged ∨
        eventKind x.event = .framingLost)

/-- LINK_RESET resets its own panel and queue, and a command of the panel that is RUNNING at LC goes on detached; nothing
else changes (R57, R159, R170, R177). -/
def Obligations.LinkReset : Prop :=
  ∀ (s : State) (p : Plane), (s.port p).iface = .awaitRequest →
    let issued := (s.port p).panel.state = .running ∧ s.lc.current.map LcJob.issuer = some (.panel p)
    let reset := fun detached => ({ s with lc := { s.lc with detached := detached } }.modPort p
      ({ · with
        panel := { state := .idle, command := none, valid := false, status := none, segment := none, count := none }
        queue := { entries := [], trigger := 16, quietTimer := true, quietMark := false } })).answered p 0x07 .ok []
    (issued → exec (.linkReset p) s = .next (reset true)) ∧
    (¬issued → exec (.linkReset p) s = .next (reset s.lc.detached))

/-- A select interval in REPLY_READY, whether a REPLY_FRAME or the frame of any request, drives the held reply, and data
out high after it, discards the reply and executes nothing (R160; log entries 18 and 19). That a REPLY_FRAME in AWAIT_REQUEST changes nothing
is the model's reading (log entry 2). -/
def Obligations.HeldReplyIsDrivenAndDiscarded : Prop :=
  ∀ (s : State) (p : Plane) (reply : List Byte),
    ((s.port p).iface = .replyReady reply →
      let driven := fun bytes => s.modPort p ({ · with
        iface := .awaitRequest, sent := (reply ++ List.replicate bytes 0xFF).take bytes })
      (∀ bytes, exec (.replyFrame p bytes) s = .next (driven bytes)) ∧
      ∀ c frame, planeOf c = some p → c.wellFormed = true → requestFrame c = some frame →
        exec c s = .next (driven frame.length)) ∧
    ((s.port p).iface = .awaitRequest → ∀ bytes, exec (.replyFrame p bytes) s = .next s)

/-! ### The timers and the Purge Engine's events (R63 to R67, R70, R72, R175) -/

/-- The expiries. The gather timer and the suspend timer make the engine enter RUNNING with a selection: entries with
nothing left to clear finish, and the clear of the segment that the next entry's progress names begins or the batch is
exhausted; the suspend timer's raises PURGE_RESUMED to both queues first. The quiet timer's sets the quiet mark. A timer
that is stopped does nothing (R63, R64, R66, R67, R72, R173, R175; log entry 2). A channel whose entry finishes with nothing
owed leaves RESTARTING with its convergence flag and wholly running mark clear; R88 says so of the mark of a block in
progress, and that it is cleared while framing is LOST too is the model's choice (log entry 20). -/
def Obligations.TimerExpiries : Prop :=
  ∀ (s : State),
    (∀ e g, s.pge.batch.find? (fun x => !x.finished) = some e → (s.chain e.list)[e.progress]? = some g →
      let running : Pge := { s.pge with
        engine := .running, gatherTimer := false, suspendTimer := false
        clear := some { list := e.list, segment := g, disturbed := false } }
      (s.pge.engine = .gathering → s.pge.gatherTimer = true →
        exec .gatherTimerExpiry s = .next { s with pge := running }) ∧
      (s.pge.engine = .suspended → s.pge.suspendTimer = true → exec .suspendTimerExpiry s = .next { s with
        pge := running
        portA := { s.portA with queue := s.portA.queue.arrive (s.stamped true .purgeResumed) }
        portB := { s.portB with queue := s.portB.queue.arrive (s.stamped true .purgeResumed) } })) ∧
    ((s.pge.batch.map BatchEntry.list).Nodup →
      let running : Pge := { s.pge with engine := .running, gatherTimer := false, suspendTimer := false }
      (s.pge.engine = .gathering → s.pge.gatherTimer = true →
        ∃ t, exec .gatherTimerExpiry s = .next t ∧ State.Selects { s with pge := running } t) ∧
      (s.pge.engine = .suspended → s.pge.suspendTimer = true →
        ∃ t, exec .suspendTimerExpiry s = .next t ∧ State.Selects { s with
          pge := running
          portA := { s.portA with queue := s.portA.queue.arrive (s.stamped true .purgeResumed) }
          portB := { s.portB with queue := s.portB.queue.arrive (s.stamped true .purgeResumed) } } t)) ∧
    (s.pge.gatherTimer = false → exec .gatherTimerExpiry s = .next s) ∧
    (s.pge.suspendTimer = false → exec .suspendTimerExpiry s = .next s) ∧
    ∀ p, ((s.port p).queue.quietTimer = true → exec (.quietTimerExpiry p) s =
        .next (s.modQueue p ({ · with quietTimer := false, quietMark := true }))) ∧
      ((s.port p).queue.quietTimer = false → exec (.quietTimerExpiry p) s = .next s)

/-- SEGMENT_CLEAR_END with a clear of segment g of the list of entry e: g is zeroed if it is still in the list and is not
touched otherwise, no other segment, no list and no claim changes, and progress rises by 1 unless a structural event reset
it (R65). In RUNNING, where e is the first unfinished entry, a selection follows: it goes on with the segment at that
position, or finishes e and every further entry with nothing left to clear, and begins the next clear or exhausts the batch
(R64, R66, R67). In SUSPENDING only e may finish; with an unfinished entry left the engine is SUSPENDED with its timer
started, and with none the batch is exhausted (R70). When e is done, PURGE_DONE is raised with its requesters and its channel
leaves RESTARTING if nothing is owed, its convergence flag and wholly running mark clear, recovering from DIVERGED (R66,
R75, R123); R88 says so of the mark of a block in progress, and that it is cleared while framing is LOST too, when no block
is in progress (R89), is the model's choice (log entry 20). -/
def Obligations.SegmentClearEnd : Prop :=
  ∀ (s : State) (k : Clear) (e : BatchEntry), s.pge.Inv → s.pge.clear = some k → e ∈ s.pge.batch → e.list = k.list →
    ∃ t, exec .segmentClearEnd s = .next t ∧
      (k.segment ∈ s.chain k.list → t.segment k.segment =
        { s.segment k.segment with coeffs := Vector.replicate 64 0, weight := 0, vacancy := 0 }) ∧
      (k.segment ∉ s.chain k.list → t.segments = s.segments) ∧
      (∀ h, h ≠ k.segment → t.segment h = s.segment h) ∧
      t = { s with segments := t.segments, channels := t.channels, pge := t.pge, portA := t.portA,
                   portB := t.portB } ∧
      let progress := if k.disturbed then e.progress else e.progress + 1
      let batch := s.pge.batch.map fun x => if x.list = k.list then { x with progress := progress } else x
      let ended : State := { s with segments := t.segments, pge := { s.pge with batch := batch, clear := none } }
      (s.pge.engine = .running → s.pge.batch.find? (fun x => !x.finished) = some e → ended.Selects t) ∧
      (s.pge.engine = .suspending →
        (progress < (s.chain k.list).length →
          t.channels = s.channels ∧ t.portA = s.portA ∧ t.portB = s.portB ∧
          t.pge = { s.pge with engine := .suspended, batch := batch, clear := none, suspendTimer := true }) ∧
        ((s.chain k.list).length ≤ progress →
          ended.EntriesFinish t [e] ∧
          ((∃ x ∈ s.pge.batch, x.list ≠ k.list ∧ x.finished = false) →
            (∀ n, t.channel n = ended.channelAfter n [e]) ∧
            t.pge = { s.pge with
              engine := .suspended, clear := none, suspendTimer := true
              batch := batch.map fun x => if x.list = k.list then { x with finished := true } else x }) ∧
          ((∀ x ∈ s.pge.batch, x.list ≠ k.list → x.finished = true) → ended.Exhausts t [e]))) ∧
      ((s.chain k.list).length ≤ progress →
        (∀ p, PurgeDoneReaches e.requesters (s.holder k.list) p → (s.port p).queue.entries.length ≤ 46 →
          s.purgeDoneOf e ∈ (t.port p).queue.entries) ∧
        ∀ n, channelCode n = k.list → (s.channel n).owed = false →
          (t.channel n).converged = false ∧ t.canceller n ≠ .restarting ∧
          ((s.channel n).divState = .diverged → (t.channel n).divCount = 0 ∧ (t.channel n).divState = .steady) ∧
          ((s.channel n).divState ≠ .diverged →
            t.channel n = { s.channel n with converged := false, whollyRunning := false }) ∧
          (t.channel n).whollyRunning = false)

/-! ### Encodings (R77, R160 to R162, R166, R171, section 10.6) -/

/-- The laws of the highways (R77). Expansion: sign, segment number e and step number m of a code after the mask, by the
table of magnitudes over the law's full scale. Sending, for every rational value from −1 to +1: no code's expanded value is
nearer to the value than that of the code sent, one equally near has no smaller magnitude, and a nearest value of 0 is sent
as the idle code. So what an expanded code is sent as is the code itself, but that both codes of value 0 are sent as the
idle code. -/
def Obligations.CompandingRoundTrip : Prop :=
  (∀ (e : Fin 8) (m : Fin 16) (bit7 : Bool),
    let bits := BitVec.ofNat 8 ((if bit7 then 128 else 0) + 16 * e.val + m.val)
    let aMagnitude : Rat := if e.val = 0 then 2 * m.val + 1 else (2 * m.val + 33) * 2 ^ (e.val - 1)
    let muMagnitude : Rat := if e.val = 0 then 2 * m.val else (2 * m.val + 33) * 2 ^ e.val - 33
    expand .aLaw (bits ^^^ 0x55) = (if aMagnitude = 1 then 0 else if bit7 then aMagnitude / 4032 else -aMagnitude / 4032) ∧
    expand .muLaw (bits ^^^ 0xFF) = (if bit7 then -muMagnitude / 8031 else muMagnitude / 8031)) ∧
  ∀ law : Law,
    (∀ (value : Rat) (other : Byte), -1 ≤ value → value ≤ 1 →
      let sent := expand law (compand law (linRat value))
      |value - sent| ≤ |value - expand law other| ∧
      (|value - expand law other| = |value - sent| → |sent| ≤ |expand law other|) ∧
      (sent = 0 → compand law (linRat value) = match law with | .aLaw => 0xD5 | .muLaw => 0xFF)) ∧
    ∀ code : Byte,
      (expand law code ≠ 0 → compand law (linRat (expand law code)) = code) ∧
      (expand law code = 0 → compand law (linRat (expand law code)) = idleCode law)


/-- The frame of every well-formed request on a link is judged to be that request, with every operand as it was sent; a
bad frame is judged bad. -/
def Obligations.RequestFramesRoundTrip : Prop :=
  ∀ (p : Plane) (c : Instr) (frame : List Byte), c.wellFormed = true → planeOf c = some p →
    requestFrame c = some frame →
    ((∀ f, c ≠ .badFrame p f) → judgeFrame p frame = .request c) ∧
    ∀ f, c = .badFrame p f → judgeFrame p frame = .bad

/-- The fields of a configuration record as written (R1, R166, section 10.6): BAD_VALUE is due exactly when one lies outside
its options, a code beyond those of the mode, the step and the hybrid margin, a timeslot above 127, an enable or an ALC mode
bit that does not exist, a gain outside −24 to 24 or a level outside −40 to 0; otherwise they are taken as the record with
those codes and values. A configuration record written with the bytes CHANNEL_CONFIG reads back is that record, for every
record whose fields are options of R1 (R171). -/
def Obligations.ConfigRecordRoundTrip : Prop :=
  (∀ raw : RawRecord,
    let gain := fun x : Int => -24 ≤ x ∧ x ≤ 24
    let level := fun x : Int => -40 ≤ x ∧ x ≤ 0
    (raw.decode = none ↔ 2 < raw.mode ∨ 127 < raw.timeslot ∨ 3 < raw.step ∨ 2 < raw.margin ∨ 7 < raw.enables ∨
      3 < raw.alcModes ∨ ¬gain raw.receiveGain ∨ ¬level raw.receiveUpper ∨ ¬level raw.receiveLower ∨
      ¬gain raw.sendGain ∨ ¬level raw.sendUpper ∨ ¬level raw.sendLower) ∧
    ∀ r, raw.decode = some r →
      raw.mode = (match r.mode with | .off => 0 | .observe => 1 | .active => 2) ∧ raw.timeslot = r.timeslot.val ∧
      raw.step = (match r.step with | .half => 0 | .quarter => 1 | .eighth => 2 | .sixteenth => 3) ∧
      raw.margin = (match r.margin with | .db0 => 0 | .db3 => 1 | .db6 => 2) ∧
      raw.enables = (if r.suppressor then 1 else 0) + (if r.toneBypass then 2 else 0) + (if r.tracking then 4 else 0) ∧
      raw.alcModes = (if r.receive.auto then 1 else 0) + (if r.send.auto then 2 else 0) ∧
      r.receive.fixedGain = raw.receiveGain ∧ r.receive.upper = raw.receiveUpper ∧
      r.receive.lower = raw.receiveLower ∧ r.send.fixedGain = raw.sendGain ∧ r.send.upper = raw.sendUpper ∧
      r.send.lower = raw.sendLower) ∧
  ∀ (c : Channel), c.governing.GainsInRange →
    (-40 ≤ c.governing.receive.upper ∧ c.governing.receive.upper ≤ 0) →
    (-40 ≤ c.governing.receive.lower ∧ c.governing.receive.lower ≤ 0) →
    (-40 ≤ c.governing.send.upper ∧ c.governing.send.upper ≤ 0) →
    (-40 ≤ c.governing.send.lower ∧ c.governing.send.lower ≤ 0) →
    (rawRecord (wordsToBytes (configItem c))).decode = some c.governing

/-! ### Invariants of every step -/

/-- Every segment is in exactly one list or in transit, and none is in transit while LC is FREE (R24, R41). -/
def Obligations.StepKeepsPool : Prop := ∀ s t : State, s.PoolInv → step s = .next t → t.PoolInv

/-- A free segment is clear: coefficients, weight and vacancy count zero, no start delay (R26). -/
def Obligations.StepKeepsFreeSegmentsClear : Prop :=
  ∀ s t : State, s.PoolInv → s.FreeInv → step s = .next t → t.FreeInv

/-- Every channel and work list keeps the form of R27, and LC's current command goes on fitting its target (R27, R41,
R124). -/
def Obligations.StepKeepsChainForm : Prop :=
  ∀ s t : State, s.PoolInv → s.ChainsInv → step s = .next t → t.ChainsInv

/-- The event queues and the Relocation Queue keep their bounds (R127, R173, R176). -/
def Obligations.StepKeepsQueues : Prop := ∀ s t : State, s.QueuesInv → step s = .next t → t.QueuesInv

/-- The engine state goes on following the batch, which holds at most 16 entries and no list twice (R59, R60). -/
def Obligations.StepKeepsPurgeEngine : Prop := ∀ s t : State, s.pge.Inv → step s = .next t → t.pge.Inv

/-- Every per-channel count stays in its range, and outside DIVERGED the divergence count is below 192 (R9, R118, R122,
R138). -/
def Obligations.StepKeepsChannelCounts : Prop := ∀ s t : State, s.CountsInv → step s = .next t → t.CountsInv

/-- No two channels name one timeslot in records whose mode is not OFF, governing or pending (R2, R3). -/
def Obligations.StepKeepsTimeslots : Prop := ∀ s t : State, s.TimeslotsInv → step s = .next t → t.TimeslotsInv

/-- A RESTARTING channel has its convergence flag clear and its block in progress HOLD (R75, R89). -/
def Obligations.StepKeepsRestarting : Prop := ∀ s t : State, s.RestartingInv → step s = .next t → t.RestartingInv

/-- The framing counts keep their ranges, and while framing is LOST every timeslot carries idle code (R2, R15, R16). -/
def Obligations.StepKeepsFraming : Prop := ∀ s t : State, s.hwi.Inv → step s = .next t → t.hwi.Inv
end

