-- ==== Sys2Proof/Laws/State.lean ====
section
/-! SUPPORT. One lemma per field per update of the state, and what each numbered store reads after its own update. -/

namespace Sys2Proof.Machine

variable (s : State)

/-! ### modChannel -/

@[simp] theorem modChannel_hwi (n : ChannelNo) (f : Channel → Channel) : (s.modChannel n f).hwi = s.hwi := rfl
@[simp] theorem modChannel_segments (n : ChannelNo) (f : Channel → Channel) : (s.modChannel n f).segments = s.segments := rfl
@[simp] theorem modChannel_free (n : ChannelNo) (f : Channel → Channel) : (s.modChannel n f).free = s.free := rfl
@[simp] theorem modChannel_chains (n : ChannelNo) (f : Channel → Channel) : (s.modChannel n f).chains = s.chains := rfl
@[simp] theorem modChannel_transit (n : ChannelNo) (f : Channel → Channel) : (s.modChannel n f).transit = s.transit := rfl
@[simp] theorem modChannel_lc (n : ChannelNo) (f : Channel → Channel) : (s.modChannel n f).lc = s.lc := rfl
@[simp] theorem modChannel_relocation (n : ChannelNo) (f : Channel → Channel) : (s.modChannel n f).relocation = s.relocation := rfl
@[simp] theorem modChannel_pge (n : ChannelNo) (f : Channel → Channel) : (s.modChannel n f).pge = s.pge := rfl
@[simp] theorem modChannel_claims (n : ChannelNo) (f : Channel → Channel) : (s.modChannel n f).claims = s.claims := rfl
@[simp] theorem modChannel_portA (n : ChannelNo) (f : Channel → Channel) : (s.modChannel n f).portA = s.portA := rfl
@[simp] theorem modChannel_portB (n : ChannelNo) (f : Channel → Channel) : (s.modChannel n f).portB = s.portB := rfl
@[simp] theorem modChannel_pending (n : ChannelNo) (f : Channel → Channel) : (s.modChannel n f).pending = s.pending := rfl

/-! ### modSegment -/

@[simp] theorem modSegment_hwi (g : SegNo) (f : Segment → Segment) : (s.modSegment g f).hwi = s.hwi := rfl
@[simp] theorem modSegment_channels (g : SegNo) (f : Segment → Segment) : (s.modSegment g f).channels = s.channels := rfl
@[simp] theorem modSegment_free (g : SegNo) (f : Segment → Segment) : (s.modSegment g f).free = s.free := rfl
@[simp] theorem modSegment_chains (g : SegNo) (f : Segment → Segment) : (s.modSegment g f).chains = s.chains := rfl
@[simp] theorem modSegment_transit (g : SegNo) (f : Segment → Segment) : (s.modSegment g f).transit = s.transit := rfl
@[simp] theorem modSegment_lc (g : SegNo) (f : Segment → Segment) : (s.modSegment g f).lc = s.lc := rfl
@[simp] theorem modSegment_relocation (g : SegNo) (f : Segment → Segment) : (s.modSegment g f).relocation = s.relocation := rfl
@[simp] theorem modSegment_pge (g : SegNo) (f : Segment → Segment) : (s.modSegment g f).pge = s.pge := rfl
@[simp] theorem modSegment_claims (g : SegNo) (f : Segment → Segment) : (s.modSegment g f).claims = s.claims := rfl
@[simp] theorem modSegment_portA (g : SegNo) (f : Segment → Segment) : (s.modSegment g f).portA = s.portA := rfl
@[simp] theorem modSegment_portB (g : SegNo) (f : Segment → Segment) : (s.modSegment g f).portB = s.portB := rfl
@[simp] theorem modSegment_pending (g : SegNo) (f : Segment → Segment) : (s.modSegment g f).pending = s.pending := rfl

/-! ### setChain -/

@[simp] theorem setChain_hwi (c : ChainCode) (l : List SegNo) : (s.setChain c l).hwi = s.hwi := rfl
@[simp] theorem setChain_channels (c : ChainCode) (l : List SegNo) : (s.setChain c l).channels = s.channels := rfl
@[simp] theorem setChain_segments (c : ChainCode) (l : List SegNo) : (s.setChain c l).segments = s.segments := rfl
@[simp] theorem setChain_free (c : ChainCode) (l : List SegNo) : (s.setChain c l).free = s.free := rfl
@[simp] theorem setChain_transit (c : ChainCode) (l : List SegNo) : (s.setChain c l).transit = s.transit := rfl
@[simp] theorem setChain_lc (c : ChainCode) (l : List SegNo) : (s.setChain c l).lc = s.lc := rfl
@[simp] theorem setChain_relocation (c : ChainCode) (l : List SegNo) : (s.setChain c l).relocation = s.relocation := rfl
@[simp] theorem setChain_pge (c : ChainCode) (l : List SegNo) : (s.setChain c l).pge = s.pge := rfl
@[simp] theorem setChain_claims (c : ChainCode) (l : List SegNo) : (s.setChain c l).claims = s.claims := rfl
@[simp] theorem setChain_portA (c : ChainCode) (l : List SegNo) : (s.setChain c l).portA = s.portA := rfl
@[simp] theorem setChain_portB (c : ChainCode) (l : List SegNo) : (s.setChain c l).portB = s.portB := rfl
@[simp] theorem setChain_pending (c : ChainCode) (l : List SegNo) : (s.setChain c l).pending = s.pending := rfl

/-! ### setHolder -/

@[simp] theorem setHolder_hwi (c : ChainCode) (h : Holder) : (s.setHolder c h).hwi = s.hwi := rfl
@[simp] theorem setHolder_channels (c : ChainCode) (h : Holder) : (s.setHolder c h).channels = s.channels := rfl
@[simp] theorem setHolder_segments (c : ChainCode) (h : Holder) : (s.setHolder c h).segments = s.segments := rfl
@[simp] theorem setHolder_free (c : ChainCode) (h : Holder) : (s.setHolder c h).free = s.free := rfl
@[simp] theorem setHolder_chains (c : ChainCode) (h : Holder) : (s.setHolder c h).chains = s.chains := rfl
@[simp] theorem setHolder_transit (c : ChainCode) (h : Holder) : (s.setHolder c h).transit = s.transit := rfl
@[simp] theorem setHolder_lc (c : ChainCode) (h : Holder) : (s.setHolder c h).lc = s.lc := rfl
@[simp] theorem setHolder_relocation (c : ChainCode) (h : Holder) : (s.setHolder c h).relocation = s.relocation := rfl
@[simp] theorem setHolder_pge (c : ChainCode) (h : Holder) : (s.setHolder c h).pge = s.pge := rfl
@[simp] theorem setHolder_portA (c : ChainCode) (h : Holder) : (s.setHolder c h).portA = s.portA := rfl
@[simp] theorem setHolder_portB (c : ChainCode) (h : Holder) : (s.setHolder c h).portB = s.portB := rfl
@[simp] theorem setHolder_pending (c : ChainCode) (h : Holder) : (s.setHolder c h).pending = s.pending := rfl

/-! ### modMark -/

@[simp] theorem modMark_channels (n : ChannelNo) (f : FrameMark → FrameMark) : (s.modMark n f).channels = s.channels := rfl
@[simp] theorem modMark_segments (n : ChannelNo) (f : FrameMark → FrameMark) : (s.modMark n f).segments = s.segments := rfl
@[simp] theorem modMark_free (n : ChannelNo) (f : FrameMark → FrameMark) : (s.modMark n f).free = s.free := rfl
@[simp] theorem modMark_chains (n : ChannelNo) (f : FrameMark → FrameMark) : (s.modMark n f).chains = s.chains := rfl
@[simp] theorem modMark_transit (n : ChannelNo) (f : FrameMark → FrameMark) : (s.modMark n f).transit = s.transit := rfl
@[simp] theorem modMark_lc (n : ChannelNo) (f : FrameMark → FrameMark) : (s.modMark n f).lc = s.lc := rfl
@[simp] theorem modMark_relocation (n : ChannelNo) (f : FrameMark → FrameMark) : (s.modMark n f).relocation = s.relocation := rfl
@[simp] theorem modMark_pge (n : ChannelNo) (f : FrameMark → FrameMark) : (s.modMark n f).pge = s.pge := rfl
@[simp] theorem modMark_claims (n : ChannelNo) (f : FrameMark → FrameMark) : (s.modMark n f).claims = s.claims := rfl
@[simp] theorem modMark_portA (n : ChannelNo) (f : FrameMark → FrameMark) : (s.modMark n f).portA = s.portA := rfl
@[simp] theorem modMark_portB (n : ChannelNo) (f : FrameMark → FrameMark) : (s.modMark n f).portB = s.portB := rfl
@[simp] theorem modMark_pending (n : ChannelNo) (f : FrameMark → FrameMark) : (s.modMark n f).pending = s.pending := rfl

/-! ### sendCodes -/

@[simp] theorem sendCodes_channels (t : Timeslot) (x y : Byte) : (s.sendCodes t x y).channels = s.channels := rfl
@[simp] theorem sendCodes_segments (t : Timeslot) (x y : Byte) : (s.sendCodes t x y).segments = s.segments := rfl
@[simp] theorem sendCodes_free (t : Timeslot) (x y : Byte) : (s.sendCodes t x y).free = s.free := rfl
@[simp] theorem sendCodes_chains (t : Timeslot) (x y : Byte) : (s.sendCodes t x y).chains = s.chains := rfl
@[simp] theorem sendCodes_transit (t : Timeslot) (x y : Byte) : (s.sendCodes t x y).transit = s.transit := rfl
@[simp] theorem sendCodes_lc (t : Timeslot) (x y : Byte) : (s.sendCodes t x y).lc = s.lc := rfl
@[simp] theorem sendCodes_relocation (t : Timeslot) (x y : Byte) : (s.sendCodes t x y).relocation = s.relocation := rfl
@[simp] theorem sendCodes_pge (t : Timeslot) (x y : Byte) : (s.sendCodes t x y).pge = s.pge := rfl
@[simp] theorem sendCodes_claims (t : Timeslot) (x y : Byte) : (s.sendCodes t x y).claims = s.claims := rfl
@[simp] theorem sendCodes_portA (t : Timeslot) (x y : Byte) : (s.sendCodes t x y).portA = s.portA := rfl
@[simp] theorem sendCodes_portB (t : Timeslot) (x y : Byte) : (s.sendCodes t x y).portB = s.portB := rfl
@[simp] theorem sendCodes_pending (t : Timeslot) (x y : Byte) : (s.sendCodes t x y).pending = s.pending := rfl

/-! ### modPort -/

@[simp] theorem modPort_hwi (p : Plane) (f : Port → Port) : (s.modPort p f).hwi = s.hwi := by cases p <;> rfl
@[simp] theorem modPort_channels (p : Plane) (f : Port → Port) : (s.modPort p f).channels = s.channels := by cases p <;> rfl
@[simp] theorem modPort_segments (p : Plane) (f : Port → Port) : (s.modPort p f).segments = s.segments := by cases p <;> rfl
@[simp] theorem modPort_free (p : Plane) (f : Port → Port) : (s.modPort p f).free = s.free := by cases p <;> rfl
@[simp] theorem modPort_chains (p : Plane) (f : Port → Port) : (s.modPort p f).chains = s.chains := by cases p <;> rfl
@[simp] theorem modPort_transit (p : Plane) (f : Port → Port) : (s.modPort p f).transit = s.transit := by cases p <;> rfl
@[simp] theorem modPort_lc (p : Plane) (f : Port → Port) : (s.modPort p f).lc = s.lc := by cases p <;> rfl
@[simp] theorem modPort_relocation (p : Plane) (f : Port → Port) : (s.modPort p f).relocation = s.relocation := by cases p <;> rfl
@[simp] theorem modPort_pge (p : Plane) (f : Port → Port) : (s.modPort p f).pge = s.pge := by cases p <;> rfl
@[simp] theorem modPort_claims (p : Plane) (f : Port → Port) : (s.modPort p f).claims = s.claims := by cases p <;> rfl
@[simp] theorem modPort_pending (p : Plane) (f : Port → Port) : (s.modPort p f).pending = s.pending := by cases p <;> rfl

/-! ### modPanel -/

@[simp] theorem modPanel_hwi (p : Plane) (f : Panel → Panel) : (s.modPanel p f).hwi = s.hwi := by cases p <;> rfl
@[simp] theorem modPanel_channels (p : Plane) (f : Panel → Panel) : (s.modPanel p f).channels = s.channels := by cases p <;> rfl
@[simp] theorem modPanel_segments (p : Plane) (f : Panel → Panel) : (s.modPanel p f).segments = s.segments := by cases p <;> rfl
@[simp] theorem modPanel_free (p : Plane) (f : Panel → Panel) : (s.modPanel p f).free = s.free := by cases p <;> rfl
@[simp] theorem modPanel_chains (p : Plane) (f : Panel → Panel) : (s.modPanel p f).chains = s.chains := by cases p <;> rfl
@[simp] theorem modPanel_transit (p : Plane) (f : Panel → Panel) : (s.modPanel p f).transit = s.transit := by cases p <;> rfl
@[simp] theorem modPanel_lc (p : Plane) (f : Panel → Panel) : (s.modPanel p f).lc = s.lc := by cases p <;> rfl
@[simp] theorem modPanel_relocation (p : Plane) (f : Panel → Panel) : (s.modPanel p f).relocation = s.relocation := by cases p <;> rfl
@[simp] theorem modPanel_pge (p : Plane) (f : Panel → Panel) : (s.modPanel p f).pge = s.pge := by cases p <;> rfl
@[simp] theorem modPanel_claims (p : Plane) (f : Panel → Panel) : (s.modPanel p f).claims = s.claims := by cases p <;> rfl
@[simp] theorem modPanel_pending (p : Plane) (f : Panel → Panel) : (s.modPanel p f).pending = s.pending := by cases p <;> rfl

/-! ### modQueue -/

@[simp] theorem modQueue_hwi (p : Plane) (f : Queue → Queue) : (s.modQueue p f).hwi = s.hwi := by cases p <;> rfl
@[simp] theorem modQueue_channels (p : Plane) (f : Queue → Queue) : (s.modQueue p f).channels = s.channels := by cases p <;> rfl
@[simp] theorem modQueue_segments (p : Plane) (f : Queue → Queue) : (s.modQueue p f).segments = s.segments := by cases p <;> rfl
@[simp] theorem modQueue_free (p : Plane) (f : Queue → Queue) : (s.modQueue p f).free = s.free := by cases p <;> rfl
@[simp] theorem modQueue_chains (p : Plane) (f : Queue → Queue) : (s.modQueue p f).chains = s.chains := by cases p <;> rfl
@[simp] theorem modQueue_transit (p : Plane) (f : Queue → Queue) : (s.modQueue p f).transit = s.transit := by cases p <;> rfl
@[simp] theorem modQueue_lc (p : Plane) (f : Queue → Queue) : (s.modQueue p f).lc = s.lc := by cases p <;> rfl
@[simp] theorem modQueue_relocation (p : Plane) (f : Queue → Queue) : (s.modQueue p f).relocation = s.relocation := by cases p <;> rfl
@[simp] theorem modQueue_pge (p : Plane) (f : Queue → Queue) : (s.modQueue p f).pge = s.pge := by cases p <;> rfl
@[simp] theorem modQueue_claims (p : Plane) (f : Queue → Queue) : (s.modQueue p f).claims = s.claims := by cases p <;> rfl
@[simp] theorem modQueue_pending (p : Plane) (f : Queue → Queue) : (s.modQueue p f).pending = s.pending := by cases p <;> rfl

/-! ### Accessors after updates -/

@[simp] theorem channel_modChannel (n : ChannelNo) (f : Channel → Channel) :
    (s.modChannel n f).channel n = f (s.channel n) := by simp [State.channel, State.modChannel]

theorem channel_modChannel_ne {n m : ChannelNo} (h : m ≠ n) (f : Channel → Channel) :
    (s.modChannel n f).channel m = s.channel m := by
  have : n.val ≠ m.val := fun e => h (Fin.ext e.symm)
  simp [State.channel, State.modChannel, this]

theorem channel_modChannel_cases (n m : ChannelNo) (f : Channel → Channel) :
    (s.modChannel n f).channel m = if m = n then f (s.channel n) else s.channel m := by
  split
  · next h => subst h; simp
  · next h => exact channel_modChannel_ne s h f

@[simp] theorem segment_modSegment (g : SegNo) (f : Segment → Segment) :
    (s.modSegment g f).segment g = f (s.segment g) := by simp [State.segment, State.modSegment]

theorem segment_modSegment_ne {g h : SegNo} (ne : h ≠ g) (f : Segment → Segment) :
    (s.modSegment g f).segment h = s.segment h := by
  have : g.val ≠ h.val := fun e => ne (Fin.ext e.symm)
  simp [State.segment, State.modSegment, this]

@[simp] theorem chain_setChain (c : ChainCode) (l : List SegNo) : (s.setChain c l).chain c = l := by
  simp [State.chain, State.setChain]

theorem chain_setChain_ne {c d : ChainCode} (h : d ≠ c) (l : List SegNo) : (s.setChain c l).chain d = s.chain d := by
  have : c.val ≠ d.val := fun e => h (Fin.ext e.symm)
  simp [State.chain, State.setChain, this]

@[simp] theorem holder_setHolder (c : ChainCode) (h : Holder) : (s.setHolder c h).holder c = h := by
  simp [State.holder, State.setHolder]

theorem holder_setHolder_ne {c d : ChainCode} (h : d ≠ c) (x : Holder) : (s.setHolder c x).holder d = s.holder d := by
  have : c.val ≠ d.val := fun e => h (Fin.ext e.symm)
  simp [State.holder, State.setHolder, this]

@[simp] theorem mark_modMark (n : ChannelNo) (f : FrameMark → FrameMark) : (s.modMark n f).mark n = f (s.mark n) := by
  simp [State.mark, State.modMark]

theorem mark_modMark_ne {n m : ChannelNo} (h : m ≠ n) (f : FrameMark → FrameMark) :
    (s.modMark n f).mark m = s.mark m := by
  have : n.val ≠ m.val := fun e => h (Fin.ext e.symm)
  simp [State.mark, State.modMark, this]

@[simp] theorem port_modPort (p : Plane) (f : Port → Port) : (s.modPort p f).port p = f (s.port p) := by
  cases p <;> rfl

theorem port_modPort_ne {p q : Plane} (h : q ≠ p) (f : Port → Port) : (s.modPort p f).port q = s.port q := by
  cases p <;> cases q <;> first | rfl | exact absurd rfl h

@[simp] theorem port_modPanel (p : Plane) (f : Panel → Panel) :
    (s.modPanel p f).port p = { s.port p with panel := f (s.port p).panel } := by cases p <;> rfl

@[simp] theorem port_modQueue (p : Plane) (f : Queue → Queue) :
    (s.modQueue p f).port p = { s.port p with queue := f (s.port p).queue } := by cases p <;> rfl

theorem port_modPanel_ne {p q : Plane} (h : q ≠ p) (f : Panel → Panel) : (s.modPanel p f).port q = s.port q :=
  port_modPort_ne s h _

theorem port_modQueue_ne {p q : Plane} (h : q ≠ p) (f : Queue → Queue) : (s.modQueue p f).port q = s.port q :=
  port_modPort_ne s h _

/-! ### Accessors of stores an update leaves alone -/

@[simp] theorem segment_modChannel (n : ChannelNo) (f : Channel → Channel) (h : SegNo) : (s.modChannel n f).segment h = s.segment h := rfl
@[simp] theorem chain_modChannel (n : ChannelNo) (f : Channel → Channel) (d : ChainCode) : (s.modChannel n f).chain d = s.chain d := rfl
@[simp] theorem holder_modChannel (n : ChannelNo) (f : Channel → Channel) (d : ChainCode) : (s.modChannel n f).holder d = s.holder d := rfl
@[simp] theorem delay_modChannel (n : ChannelNo) (f : Channel → Channel) (h : SegNo) : (s.modChannel n f).delay h = s.delay h := rfl
@[simp] theorem channelChain_modChannel (n : ChannelNo) (f : Channel → Channel) (m : ChannelNo) : (s.modChannel n f).channelChain m = s.channelChain m := rfl
@[simp] theorem mark_modChannel (n : ChannelNo) (f : Channel → Channel) (m : ChannelNo) : (s.modChannel n f).mark m = s.mark m := rfl
@[simp] theorem port_modChannel (n : ChannelNo) (f : Channel → Channel) (p : Plane) : (s.modChannel n f).port p = s.port p := by cases p <;> rfl
@[simp] theorem channel_modSegment (g : SegNo) (f : Segment → Segment) (m : ChannelNo) : (s.modSegment g f).channel m = s.channel m := rfl
@[simp] theorem chain_modSegment (g : SegNo) (f : Segment → Segment) (d : ChainCode) : (s.modSegment g f).chain d = s.chain d := rfl
@[simp] theorem holder_modSegment (g : SegNo) (f : Segment → Segment) (d : ChainCode) : (s.modSegment g f).holder d = s.holder d := rfl
@[simp] theorem channelChain_modSegment (g : SegNo) (f : Segment → Segment) (m : ChannelNo) : (s.modSegment g f).channelChain m = s.channelChain m := rfl
@[simp] theorem mark_modSegment (g : SegNo) (f : Segment → Segment) (m : ChannelNo) : (s.modSegment g f).mark m = s.mark m := rfl
@[simp] theorem port_modSegment (g : SegNo) (f : Segment → Segment) (p : Plane) : (s.modSegment g f).port p = s.port p := by cases p <;> rfl
@[simp] theorem channel_setChain (c : ChainCode) (l : List SegNo) (m : ChannelNo) : (s.setChain c l).channel m = s.channel m := rfl
@[simp] theorem segment_setChain (c : ChainCode) (l : List SegNo) (h : SegNo) : (s.setChain c l).segment h = s.segment h := rfl
@[simp] theorem holder_setChain (c : ChainCode) (l : List SegNo) (d : ChainCode) : (s.setChain c l).holder d = s.holder d := rfl
@[simp] theorem delay_setChain (c : ChainCode) (l : List SegNo) (h : SegNo) : (s.setChain c l).delay h = s.delay h := rfl
@[simp] theorem mark_setChain (c : ChainCode) (l : List SegNo) (m : ChannelNo) : (s.setChain c l).mark m = s.mark m := rfl
@[simp] theorem port_setChain (c : ChainCode) (l : List SegNo) (p : Plane) : (s.setChain c l).port p = s.port p := by cases p <;> rfl
@[simp] theorem channel_setHolder (c : ChainCode) (x : Holder) (m : ChannelNo) : (s.setHolder c x).channel m = s.channel m := rfl
@[simp] theorem segment_setHolder (c : ChainCode) (x : Holder) (h : SegNo) : (s.setHolder c x).segment h = s.segment h := rfl
@[simp] theorem chain_setHolder (c : ChainCode) (x : Holder) (d : ChainCode) : (s.setHolder c x).chain d = s.chain d := rfl
@[simp] theorem delay_setHolder (c : ChainCode) (x : Holder) (h : SegNo) : (s.setHolder c x).delay h = s.delay h := rfl
@[simp] theorem channelChain_setHolder (c : ChainCode) (x : Holder) (m : ChannelNo) : (s.setHolder c x).channelChain m = s.channelChain m := rfl
@[simp] theorem mark_setHolder (c : ChainCode) (x : Holder) (m : ChannelNo) : (s.setHolder c x).mark m = s.mark m := rfl
@[simp] theorem port_setHolder (c : ChainCode) (h : Holder) (p : Plane) : (s.setHolder c h).port p = s.port p := by cases p <;> rfl
@[simp] theorem channel_modMark (n : ChannelNo) (f : FrameMark → FrameMark) (m : ChannelNo) : (s.modMark n f).channel m = s.channel m := rfl
@[simp] theorem segment_modMark (n : ChannelNo) (f : FrameMark → FrameMark) (h : SegNo) : (s.modMark n f).segment h = s.segment h := rfl
@[simp] theorem chain_modMark (n : ChannelNo) (f : FrameMark → FrameMark) (d : ChainCode) : (s.modMark n f).chain d = s.chain d := rfl
@[simp] theorem holder_modMark (n : ChannelNo) (f : FrameMark → FrameMark) (d : ChainCode) : (s.modMark n f).holder d = s.holder d := rfl
@[simp] theorem delay_modMark (n : ChannelNo) (f : FrameMark → FrameMark) (h : SegNo) : (s.modMark n f).delay h = s.delay h := rfl
@[simp] theorem channelChain_modMark (n : ChannelNo) (f : FrameMark → FrameMark) (m : ChannelNo) : (s.modMark n f).channelChain m = s.channelChain m := rfl
@[simp] theorem port_modMark (n : ChannelNo) (f : FrameMark → FrameMark) (p : Plane) : (s.modMark n f).port p = s.port p := by cases p <;> rfl
@[simp] theorem channel_sendCodes (t : Timeslot) (x y : Byte) (m : ChannelNo) : (s.sendCodes t x y).channel m = s.channel m := rfl
@[simp] theorem segment_sendCodes (t : Timeslot) (x y : Byte) (h : SegNo) : (s.sendCodes t x y).segment h = s.segment h := rfl
@[simp] theorem chain_sendCodes (t : Timeslot) (x y : Byte) (d : ChainCode) : (s.sendCodes t x y).chain d = s.chain d := rfl
@[simp] theorem holder_sendCodes (t : Timeslot) (x y : Byte) (d : ChainCode) : (s.sendCodes t x y).holder d = s.holder d := rfl
@[simp] theorem delay_sendCodes (t : Timeslot) (x y : Byte) (h : SegNo) : (s.sendCodes t x y).delay h = s.delay h := rfl
@[simp] theorem channelChain_sendCodes (t : Timeslot) (x y : Byte) (m : ChannelNo) : (s.sendCodes t x y).channelChain m = s.channelChain m := rfl
@[simp] theorem mark_sendCodes (t : Timeslot) (x y : Byte) (m : ChannelNo) : (s.sendCodes t x y).mark m = s.mark m := rfl
@[simp] theorem port_sendCodes (t : Timeslot) (x y : Byte) (p : Plane) : (s.sendCodes t x y).port p = s.port p := by cases p <;> rfl
@[simp] theorem channel_modPort (p : Plane) (f : Port → Port) (m : ChannelNo) : (s.modPort p f).channel m = s.channel m := by cases p <;> rfl
@[simp] theorem segment_modPort (p : Plane) (f : Port → Port) (h : SegNo) : (s.modPort p f).segment h = s.segment h := by cases p <;> rfl
@[simp] theorem chain_modPort (p : Plane) (f : Port → Port) (d : ChainCode) : (s.modPort p f).chain d = s.chain d := by cases p <;> rfl
@[simp] theorem holder_modPort (p : Plane) (f : Port → Port) (d : ChainCode) : (s.modPort p f).holder d = s.holder d := by cases p <;> rfl
@[simp] theorem delay_modPort (p : Plane) (f : Port → Port) (h : SegNo) : (s.modPort p f).delay h = s.delay h := by cases p <;> rfl
@[simp] theorem channelChain_modPort (p : Plane) (f : Port → Port) (m : ChannelNo) : (s.modPort p f).channelChain m = s.channelChain m := by cases p <;> rfl
@[simp] theorem mark_modPort (p : Plane) (f : Port → Port) (m : ChannelNo) : (s.modPort p f).mark m = s.mark m := by cases p <;> rfl
@[simp] theorem channel_modPanel (p : Plane) (f : Panel → Panel) (m : ChannelNo) : (s.modPanel p f).channel m = s.channel m := by cases p <;> rfl
@[simp] theorem segment_modPanel (p : Plane) (f : Panel → Panel) (h : SegNo) : (s.modPanel p f).segment h = s.segment h := by cases p <;> rfl
@[simp] theorem chain_modPanel (p : Plane) (f : Panel → Panel) (d : ChainCode) : (s.modPanel p f).chain d = s.chain d := by cases p <;> rfl
@[simp] theorem holder_modPanel (p : Plane) (f : Panel → Panel) (d : ChainCode) : (s.modPanel p f).holder d = s.holder d := by cases p <;> rfl
@[simp] theorem delay_modPanel (p : Plane) (f : Panel → Panel) (h : SegNo) : (s.modPanel p f).delay h = s.delay h := by cases p <;> rfl
@[simp] theorem channelChain_modPanel (p : Plane) (f : Panel → Panel) (m : ChannelNo) : (s.modPanel p f).channelChain m = s.channelChain m := by cases p <;> rfl
@[simp] theorem mark_modPanel (p : Plane) (f : Panel → Panel) (m : ChannelNo) : (s.modPanel p f).mark m = s.mark m := by cases p <;> rfl
@[simp] theorem channel_modQueue (p : Plane) (f : Queue → Queue) (m : ChannelNo) : (s.modQueue p f).channel m = s.channel m := by cases p <;> rfl
@[simp] theorem segment_modQueue (p : Plane) (f : Queue → Queue) (h : SegNo) : (s.modQueue p f).segment h = s.segment h := by cases p <;> rfl
@[simp] theorem chain_modQueue (p : Plane) (f : Queue → Queue) (d : ChainCode) : (s.modQueue p f).chain d = s.chain d := by cases p <;> rfl
@[simp] theorem holder_modQueue (p : Plane) (f : Queue → Queue) (d : ChainCode) : (s.modQueue p f).holder d = s.holder d := by cases p <;> rfl
@[simp] theorem delay_modQueue (p : Plane) (f : Queue → Queue) (h : SegNo) : (s.modQueue p f).delay h = s.delay h := by cases p <;> rfl
@[simp] theorem channelChain_modQueue (p : Plane) (f : Queue → Queue) (m : ChannelNo) : (s.modQueue p f).channelChain m = s.channelChain m := by cases p <;> rfl
@[simp] theorem mark_modQueue (p : Plane) (f : Queue → Queue) (m : ChannelNo) : (s.modQueue p f).mark m = s.mark m := by cases p <;> rfl

end Sys2Proof.Machine
end

