-- ==== Sys2Proof/Laws/Frames.lean ====
section
/-! SUPPORT. What each shared operation leaves unchanged: one lemma per operation, a conjunction over the stores it never
touches, in the form simp takes apart. -/

namespace Sys2Proof.Machine

/-- A run of channel changes changes the channels only. -/
theorem foldModChannel_channels {α : Type} (l : List α) (n : α → ChannelNo) (f : α → Channel → Channel) (s : State) :
    l.foldl (fun t x => t.modChannel (n x) (f x)) s =
      { s with channels := (l.foldl (fun t x => t.modChannel (n x) (f x)) s).channels } := by
  induction l generalizing s with
  | nil => rfl
  | cons x l ih => rw [List.foldl_cons, ih]; rfl

/-- A run of segment changes changes the segments only. -/
theorem foldModSegment_segments {α : Type} (l : List α) (g : α → SegNo) (f : α → Segment → Segment) (s : State) :
    l.foldl (fun t x => t.modSegment (g x) (f x)) s =
      { s with segments := (l.foldl (fun t x => t.modSegment (g x) (f x)) s).segments } := by
  induction l generalizing s with
  | nil => rfl
  | cons x l ih => rw [List.foldl_cons, ih]; rfl

/-! ### Events, PGE (Ops, Purge) -/

@[simp] theorem raise_frame (s : State) (toA toB : Bool) (e : Event) :
    (s.raise toA toB e).hwi = s.hwi ∧ (s.raise toA toB e).channels = s.channels ∧
    (s.raise toA toB e).segments = s.segments ∧ (s.raise toA toB e).free = s.free ∧
    (s.raise toA toB e).chains = s.chains ∧ (s.raise toA toB e).transit = s.transit ∧ (s.raise toA toB e).lc = s.lc ∧
    (s.raise toA toB e).relocation = s.relocation ∧ (s.raise toA toB e).pge = s.pge ∧
    (s.raise toA toB e).claims = s.claims ∧ (s.raise toA toB e).pending = s.pending := by
  unfold State.raise; cases toA <;> cases toB <;> simp [State.modQueue, State.modPort]

@[simp] theorem raiseBoth_frame (s : State) (e : Event) :
    (s.raiseBoth e).hwi = s.hwi ∧ (s.raiseBoth e).channels = s.channels ∧ (s.raiseBoth e).segments = s.segments ∧
    (s.raiseBoth e).free = s.free ∧ (s.raiseBoth e).chains = s.chains ∧ (s.raiseBoth e).transit = s.transit ∧
    (s.raiseBoth e).lc = s.lc ∧ (s.raiseBoth e).relocation = s.relocation ∧ (s.raiseBoth e).pge = s.pge ∧
    (s.raiseBoth e).claims = s.claims ∧ (s.raiseBoth e).pending = s.pending := by
  unfold State.raiseBoth; simp

@[simp] theorem raiseChannel_frame (s : State) (n : ChannelNo) (e : Event) :
    (s.raiseChannel n e).hwi = s.hwi ∧ (s.raiseChannel n e).channels = s.channels ∧
    (s.raiseChannel n e).segments = s.segments ∧ (s.raiseChannel n e).free = s.free ∧
    (s.raiseChannel n e).chains = s.chains ∧ (s.raiseChannel n e).transit = s.transit ∧
    (s.raiseChannel n e).lc = s.lc ∧ (s.raiseChannel n e).relocation = s.relocation ∧
    (s.raiseChannel n e).pge = s.pge ∧ (s.raiseChannel n e).claims = s.claims ∧
    (s.raiseChannel n e).pending = s.pending := by
  unfold State.raiseChannel; simp

@[simp] theorem modSegments_frame (s : State) (l : List SegNo) (f : Segment → Segment) :
    (s.modSegments l f).hwi = s.hwi ∧ (s.modSegments l f).channels = s.channels ∧ (s.modSegments l f).free = s.free ∧
    (s.modSegments l f).chains = s.chains ∧ (s.modSegments l f).transit = s.transit ∧ (s.modSegments l f).lc = s.lc ∧
    (s.modSegments l f).relocation = s.relocation ∧ (s.modSegments l f).pge = s.pge ∧
    (s.modSegments l f).claims = s.claims ∧ (s.modSegments l f).portA = s.portA ∧
    (s.modSegments l f).portB = s.portB ∧ (s.modSegments l f).pending = s.pending := by
  induction l generalizing s with
  | nil => simp [State.modSegments]
  | cons g l ih => simpa [State.modSegments] using ih (s.modSegment g f)

@[simp] theorem enterRestarting_frame (s : State) (c : ChainCode) :
    (s.enterRestarting c).hwi = s.hwi ∧ (s.enterRestarting c).segments = s.segments ∧
    (s.enterRestarting c).free = s.free ∧ (s.enterRestarting c).chains = s.chains ∧
    (s.enterRestarting c).transit = s.transit ∧ (s.enterRestarting c).lc = s.lc ∧
    (s.enterRestarting c).relocation = s.relocation ∧ (s.enterRestarting c).pge = s.pge ∧
    (s.enterRestarting c).claims = s.claims ∧ (s.enterRestarting c).portA = s.portA ∧
    (s.enterRestarting c).portB = s.portB ∧ (s.enterRestarting c).pending = s.pending := by
  unfold State.enterRestarting; split <;> simp

@[simp] theorem setOwed_frame (s : State) (c : ChainCode) (b : Bool) :
    (s.setOwed c b).hwi = s.hwi ∧ (s.setOwed c b).segments = s.segments ∧ (s.setOwed c b).free = s.free ∧
    (s.setOwed c b).chains = s.chains ∧ (s.setOwed c b).transit = s.transit ∧ (s.setOwed c b).lc = s.lc ∧
    (s.setOwed c b).relocation = s.relocation ∧ (s.setOwed c b).pge = s.pge ∧ (s.setOwed c b).claims = s.claims ∧
    (s.setOwed c b).portA = s.portA ∧ (s.setOwed c b).portB = s.portB ∧ (s.setOwed c b).pending = s.pending := by
  unfold State.setOwed; split <;> simp

@[simp] theorem joinPurge_frame (s : State) (c : ChainCode) (r : Requesters) :
    (s.joinPurge c r).hwi = s.hwi ∧ (s.joinPurge c r).segments = s.segments ∧ (s.joinPurge c r).free = s.free ∧
    (s.joinPurge c r).chains = s.chains ∧ (s.joinPurge c r).transit = s.transit ∧ (s.joinPurge c r).lc = s.lc ∧
    (s.joinPurge c r).relocation = s.relocation ∧ (s.joinPurge c r).claims = s.claims ∧
    (s.joinPurge c r).portA = s.portA ∧ (s.joinPurge c r).portB = s.portB ∧
    (s.joinPurge c r).pending = s.pending := by
  unfold State.joinPurge; (repeat' split) <;> simp

@[simp] theorem requestPurge_frame (s : State) (n : ChannelNo) (r : Requesters) :
    (s.requestPurge n r).hwi = s.hwi ∧ (s.requestPurge n r).segments = s.segments ∧
    (s.requestPurge n r).free = s.free ∧ (s.requestPurge n r).chains = s.chains ∧
    (s.requestPurge n r).transit = s.transit ∧ (s.requestPurge n r).lc = s.lc ∧
    (s.requestPurge n r).relocation = s.relocation ∧ (s.requestPurge n r).claims = s.claims ∧
    (s.requestPurge n r).portA = s.portA ∧ (s.requestPurge n r).portB = s.portB ∧
    (s.requestPurge n r).pending = s.pending := by
  unfold State.requestPurge; (repeat' split) <;> simp

@[simp] theorem finishEntry_frame (s : State) (e : BatchEntry) :
    (s.finishEntry e).hwi = s.hwi ∧ (s.finishEntry e).segments = s.segments ∧ (s.finishEntry e).free = s.free ∧
    (s.finishEntry e).chains = s.chains ∧ (s.finishEntry e).transit = s.transit ∧ (s.finishEntry e).lc = s.lc ∧
    (s.finishEntry e).relocation = s.relocation ∧ (s.finishEntry e).claims = s.claims ∧
    (s.finishEntry e).pending = s.pending := by
  unfold State.finishEntry; split <;> simp

@[simp] theorem exhaust_frame (s : State) :
    (s.exhaust).hwi = s.hwi ∧ (s.exhaust).segments = s.segments ∧ (s.exhaust).free = s.free ∧
    (s.exhaust).chains = s.chains ∧ (s.exhaust).transit = s.transit ∧ (s.exhaust).lc = s.lc ∧
    (s.exhaust).relocation = s.relocation ∧ (s.exhaust).claims = s.claims ∧ (s.exhaust).portA = s.portA ∧
    (s.exhaust).portB = s.portB ∧ (s.exhaust).pending = s.pending := by
  unfold State.exhaust; split
  · simp
  · dsimp only; rename_i l _; rw [foldModChannel_channels]; simp

@[simp] theorem selectNext_frame (s : State) (fuel : Nat) :
    (State.selectNext fuel s).hwi = s.hwi ∧ (State.selectNext fuel s).segments = s.segments ∧
    (State.selectNext fuel s).free = s.free ∧ (State.selectNext fuel s).chains = s.chains ∧
    (State.selectNext fuel s).transit = s.transit ∧ (State.selectNext fuel s).lc = s.lc ∧
    (State.selectNext fuel s).relocation = s.relocation ∧ (State.selectNext fuel s).claims = s.claims ∧
    (State.selectNext fuel s).pending = s.pending := by
  induction fuel generalizing s with
  | zero => simp [State.selectNext]
  | succ fuel ih => unfold State.selectNext; (repeat' split) <;> simp [ih]

@[simp] theorem select_frame (s : State) :
    (s.select).hwi = s.hwi ∧ (s.select).segments = s.segments ∧ (s.select).free = s.free ∧
    (s.select).chains = s.chains ∧ (s.select).transit = s.transit ∧ (s.select).lc = s.lc ∧
    (s.select).relocation = s.relocation ∧ (s.select).claims = s.claims ∧ (s.select).pending = s.pending := by
  unfold State.select; simp

@[simp] theorem run_frame (s : State) :
    (s.run).hwi = s.hwi ∧ (s.run).segments = s.segments ∧ (s.run).free = s.free ∧ (s.run).chains = s.chains ∧
    (s.run).transit = s.transit ∧ (s.run).lc = s.lc ∧ (s.run).relocation = s.relocation ∧ (s.run).claims = s.claims ∧
    (s.run).pending = s.pending := by
  unfold State.run; simp

@[simp] theorem gatherExpiry_frame (s : State) :
    (s.gatherExpiry).hwi = s.hwi ∧ (s.gatherExpiry).segments = s.segments ∧ (s.gatherExpiry).free = s.free ∧
    (s.gatherExpiry).chains = s.chains ∧ (s.gatherExpiry).transit = s.transit ∧ (s.gatherExpiry).lc = s.lc ∧
    (s.gatherExpiry).relocation = s.relocation ∧ (s.gatherExpiry).claims = s.claims ∧
    (s.gatherExpiry).pending = s.pending := by
  unfold State.gatherExpiry; split <;> simp

@[simp] theorem suspendExpiry_frame (s : State) :
    (s.suspendExpiry).hwi = s.hwi ∧ (s.suspendExpiry).segments = s.segments ∧ (s.suspendExpiry).free = s.free ∧
    (s.suspendExpiry).chains = s.chains ∧ (s.suspendExpiry).transit = s.transit ∧ (s.suspendExpiry).lc = s.lc ∧
    (s.suspendExpiry).relocation = s.relocation ∧ (s.suspendExpiry).claims = s.claims ∧
    (s.suspendExpiry).pending = s.pending := by
  unfold State.suspendExpiry; split <;> simp

@[simp] theorem endClear_frame (s : State) (k : Clear) :
    (s.endClear k).hwi = s.hwi ∧ (s.endClear k).channels = s.channels ∧ (s.endClear k).free = s.free ∧
    (s.endClear k).chains = s.chains ∧ (s.endClear k).transit = s.transit ∧ (s.endClear k).lc = s.lc ∧
    (s.endClear k).relocation = s.relocation ∧ (s.endClear k).claims = s.claims ∧ (s.endClear k).portA = s.portA ∧
    (s.endClear k).portB = s.portB ∧ (s.endClear k).pending = s.pending := by
  unfold State.endClear; dsimp only; split <;> simp

@[simp] theorem finishIfDone_frame (s : State) (c : ChainCode) :
    (s.finishIfDone c).hwi = s.hwi ∧ (s.finishIfDone c).segments = s.segments ∧ (s.finishIfDone c).free = s.free ∧
    (s.finishIfDone c).chains = s.chains ∧ (s.finishIfDone c).transit = s.transit ∧ (s.finishIfDone c).lc = s.lc ∧
    (s.finishIfDone c).relocation = s.relocation ∧ (s.finishIfDone c).claims = s.claims ∧
    (s.finishIfDone c).pending = s.pending := by
  unfold State.finishIfDone; (repeat' split) <;> simp

@[simp] theorem afterClear_frame (s : State) :
    (s.afterClear).hwi = s.hwi ∧ (s.afterClear).segments = s.segments ∧ (s.afterClear).free = s.free ∧
    (s.afterClear).chains = s.chains ∧ (s.afterClear).transit = s.transit ∧ (s.afterClear).lc = s.lc ∧
    (s.afterClear).relocation = s.relocation ∧ (s.afterClear).claims = s.claims ∧
    (s.afterClear).pending = s.pending := by
  unfold State.afterClear; (repeat' split) <;> simp

@[simp] theorem clearEnd_frame (s : State) :
    (s.clearEnd).hwi = s.hwi ∧ (s.clearEnd).free = s.free ∧ (s.clearEnd).chains = s.chains ∧
    (s.clearEnd).transit = s.transit ∧ (s.clearEnd).lc = s.lc ∧ (s.clearEnd).relocation = s.relocation ∧
    (s.clearEnd).claims = s.claims ∧ (s.clearEnd).pending = s.pending := by
  unfold State.clearEnd; split <;> simp

/-! ### The pool and LC (Pool, ListController) -/

@[simp] theorem resetProgress_frame (s : State) (c : ChainCode) :
    (s.resetProgress c).hwi = s.hwi ∧ (s.resetProgress c).channels = s.channels ∧
    (s.resetProgress c).segments = s.segments ∧ (s.resetProgress c).free = s.free ∧
    (s.resetProgress c).chains = s.chains ∧ (s.resetProgress c).transit = s.transit ∧ (s.resetProgress c).lc = s.lc ∧
    (s.resetProgress c).relocation = s.relocation ∧ (s.resetProgress c).claims = s.claims ∧
    (s.resetProgress c).portA = s.portA ∧ (s.resetProgress c).portB = s.portB ∧
    (s.resetProgress c).pending = s.pending := by
  simp [State.resetProgress]

@[simp] theorem unlink_frame (s : State) (c : ChainCode) (g : SegNo) :
    (s.unlink c g).hwi = s.hwi ∧ (s.unlink c g).channels = s.channels ∧ (s.unlink c g).segments = s.segments ∧
    (s.unlink c g).free = s.free ∧ (s.unlink c g).lc = s.lc ∧ (s.unlink c g).relocation = s.relocation ∧
    (s.unlink c g).claims = s.claims ∧ (s.unlink c g).portA = s.portA ∧ (s.unlink c g).portB = s.portB ∧
    (s.unlink c g).pending = s.pending := by
  simp [State.unlink]

@[simp] theorem unlinkFree_frame (s : State) (g : SegNo) :
    (s.unlinkFree g).hwi = s.hwi ∧ (s.unlinkFree g).channels = s.channels ∧ (s.unlinkFree g).segments = s.segments ∧
    (s.unlinkFree g).chains = s.chains ∧ (s.unlinkFree g).lc = s.lc ∧ (s.unlinkFree g).relocation = s.relocation ∧
    (s.unlinkFree g).pge = s.pge ∧ (s.unlinkFree g).claims = s.claims ∧ (s.unlinkFree g).portA = s.portA ∧
    (s.unlinkFree g).portB = s.portB ∧ (s.unlinkFree g).pending = s.pending := by
  simp [State.unlinkFree]

@[simp] theorem link_frame (s : State) (c : ChainCode) (g : SegNo) (d : Nat) (z : Bool) :
    (s.link c g d z).hwi = s.hwi ∧ (s.link c g d z).channels = s.channels ∧ (s.link c g d z).free = s.free ∧
    (s.link c g d z).lc = s.lc ∧ (s.link c g d z).relocation = s.relocation ∧ (s.link c g d z).claims = s.claims ∧
    (s.link c g d z).portA = s.portA ∧ (s.link c g d z).portB = s.portB ∧ (s.link c g d z).pending = s.pending := by
  simp [State.link]

@[simp] theorem linkFree_frame (s : State) (g : SegNo) :
    (s.linkFree g).hwi = s.hwi ∧ (s.linkFree g).channels = s.channels ∧ (s.linkFree g).chains = s.chains ∧
    (s.linkFree g).lc = s.lc ∧ (s.linkFree g).relocation = s.relocation ∧ (s.linkFree g).pge = s.pge ∧
    (s.linkFree g).claims = s.claims ∧ (s.linkFree g).portA = s.portA ∧ (s.linkFree g).portB = s.portB ∧
    (s.linkFree g).pending = s.pending := by
  simp [State.linkFree]

@[simp] theorem exchange_frame (s : State) (c w : ChainCode) :
    (s.exchange c w).hwi = s.hwi ∧ (s.exchange c w).channels = s.channels ∧ (s.exchange c w).segments = s.segments ∧
    (s.exchange c w).free = s.free ∧ (s.exchange c w).transit = s.transit ∧ (s.exchange c w).lc = s.lc ∧
    (s.exchange c w).relocation = s.relocation ∧ (s.exchange c w).claims = s.claims ∧
    (s.exchange c w).portA = s.portA ∧ (s.exchange c w).portB = s.portB ∧ (s.exchange c w).pending = s.pending := by
  simp [State.exchange]

@[simp] theorem refuseTake_frame (s : State) (p : Plane) (st : Status) :
    (s.refuseTake p st).hwi = s.hwi ∧ (s.refuseTake p st).channels = s.channels ∧
    (s.refuseTake p st).segments = s.segments ∧ (s.refuseTake p st).free = s.free ∧
    (s.refuseTake p st).chains = s.chains ∧ (s.refuseTake p st).transit = s.transit ∧ (s.refuseTake p st).lc = s.lc ∧
    (s.refuseTake p st).relocation = s.relocation ∧ (s.refuseTake p st).pge = s.pge ∧
    (s.refuseTake p st).claims = s.claims ∧ (s.refuseTake p st).pending = s.pending := by
  simp [State.refuseTake]

@[simp] theorem startJob_frame (s : State) (p : Plane) (w : LcWork) :
    (s.startJob p w).hwi = s.hwi ∧ (s.startJob p w).channels = s.channels ∧ (s.startJob p w).segments = s.segments ∧
    (s.startJob p w).free = s.free ∧ (s.startJob p w).chains = s.chains ∧ (s.startJob p w).transit = s.transit ∧
    (s.startJob p w).relocation = s.relocation ∧ (s.startJob p w).pge = s.pge ∧ (s.startJob p w).claims = s.claims ∧
    (s.startJob p w).pending = s.pending := by
  simp [State.startJob]

@[simp] theorem completeJob_frame (s : State) (post : Panel → Panel) :
    (s.completeJob post).hwi = s.hwi ∧ (s.completeJob post).channels = s.channels ∧
    (s.completeJob post).segments = s.segments ∧ (s.completeJob post).free = s.free ∧
    (s.completeJob post).chains = s.chains ∧ (s.completeJob post).transit = s.transit ∧
    (s.completeJob post).relocation = s.relocation ∧ (s.completeJob post).pge = s.pge ∧
    (s.completeJob post).claims = s.claims ∧ (s.completeJob post).pending = s.pending := by
  unfold State.completeJob; dsimp only; (repeat' split) <;> simp

@[simp] theorem allocateTakeWork_frame (s : State) (p : Plane) (a : Args) :
    (s.allocateTakeWork p a).hwi = s.hwi ∧ (s.allocateTakeWork p a).channels = s.channels ∧
    (s.allocateTakeWork p a).segments = s.segments ∧ (s.allocateTakeWork p a).chains = s.chains ∧
    (s.allocateTakeWork p a).relocation = s.relocation ∧ (s.allocateTakeWork p a).pge = s.pge ∧
    (s.allocateTakeWork p a).claims = s.claims ∧ (s.allocateTakeWork p a).pending = s.pending := by
  unfold State.allocateTakeWork; split <;> simp

@[simp] theorem allocateLinkWork_frame (s : State) :
    (s.allocateLinkWork).hwi = s.hwi ∧ (s.allocateLinkWork).channels = s.channels ∧
    (s.allocateLinkWork).free = s.free ∧ (s.allocateLinkWork).relocation = s.relocation ∧
    (s.allocateLinkWork).claims = s.claims ∧ (s.allocateLinkWork).pending = s.pending := by
  unfold State.allocateLinkWork; split <;> simp

@[simp] theorem releaseTakeWork_frame (s : State) (p : Plane) (a : Args) :
    (s.releaseTakeWork p a).hwi = s.hwi ∧ (s.releaseTakeWork p a).channels = s.channels ∧
    (s.releaseTakeWork p a).segments = s.segments ∧ (s.releaseTakeWork p a).free = s.free ∧
    (s.releaseTakeWork p a).relocation = s.relocation ∧ (s.releaseTakeWork p a).claims = s.claims ∧
    (s.releaseTakeWork p a).pending = s.pending := by
  unfold State.releaseTakeWork; split <;> simp

@[simp] theorem releaseLinkWork_frame (s : State) :
    (s.releaseLinkWork).hwi = s.hwi ∧ (s.releaseLinkWork).channels = s.channels ∧
    (s.releaseLinkWork).chains = s.chains ∧ (s.releaseLinkWork).relocation = s.relocation ∧
    (s.releaseLinkWork).pge = s.pge ∧ (s.releaseLinkWork).claims = s.claims ∧
    (s.releaseLinkWork).pending = s.pending := by
  unfold State.releaseLinkWork; split <;> simp

@[simp] theorem moveTakeWork_frame (s : State) (p : Plane) (a : Args) :
    (s.moveTakeWork p a).hwi = s.hwi ∧ (s.moveTakeWork p a).channels = s.channels ∧
    (s.moveTakeWork p a).segments = s.segments ∧ (s.moveTakeWork p a).free = s.free ∧
    (s.moveTakeWork p a).relocation = s.relocation ∧ (s.moveTakeWork p a).claims = s.claims ∧
    (s.moveTakeWork p a).pending = s.pending := by
  unfold State.moveTakeWork; split <;> simp

@[simp] theorem moveLinkWork_frame (s : State) :
    (s.moveLinkWork).hwi = s.hwi ∧ (s.moveLinkWork).channels = s.channels ∧ (s.moveLinkWork).free = s.free ∧
    (s.moveLinkWork).relocation = s.relocation ∧ (s.moveLinkWork).claims = s.claims ∧
    (s.moveLinkWork).pending = s.pending := by
  unfold State.moveLinkWork; split <;> simp

@[simp] theorem swapTakeWork_frame (s : State) (p : Plane) (a : Args) :
    (s.swapTakeWork p a).hwi = s.hwi ∧ (s.swapTakeWork p a).segments = s.segments ∧
    (s.swapTakeWork p a).free = s.free ∧ (s.swapTakeWork p a).transit = s.transit ∧ (s.swapTakeWork p a).lc = s.lc ∧
    (s.swapTakeWork p a).relocation = s.relocation ∧ (s.swapTakeWork p a).claims = s.claims ∧
    (s.swapTakeWork p a).pending = s.pending := by
  unfold State.swapTakeWork; split <;> simp

@[simp] theorem emptyTakeWork_frame (s : State) (p : Plane) (a : Args) :
    (s.emptyTakeWork p a).hwi = s.hwi ∧ (s.emptyTakeWork p a).channels = s.channels ∧
    (s.emptyTakeWork p a).segments = s.segments ∧ (s.emptyTakeWork p a).free = s.free ∧
    (s.emptyTakeWork p a).relocation = s.relocation ∧ (s.emptyTakeWork p a).claims = s.claims ∧
    (s.emptyTakeWork p a).pending = s.pending := by
  unfold State.emptyTakeWork; (repeat' split) <;> simp

@[simp] theorem emptyLinkWork_frame (s : State) :
    (s.emptyLinkWork).hwi = s.hwi ∧ (s.emptyLinkWork).channels = s.channels ∧ (s.emptyLinkWork).chains = s.chains ∧
    (s.emptyLinkWork).relocation = s.relocation ∧ (s.emptyLinkWork).pge = s.pge ∧
    (s.emptyLinkWork).claims = s.claims ∧ (s.emptyLinkWork).pending = s.pending := by
  unfold State.emptyLinkWork; dsimp only; (repeat' split) <;> simp

@[simp] theorem emptyUnlinkWork_frame (s : State) :
    (s.emptyUnlinkWork).hwi = s.hwi ∧ (s.emptyUnlinkWork).channels = s.channels ∧
    (s.emptyUnlinkWork).segments = s.segments ∧ (s.emptyUnlinkWork).free = s.free ∧ (s.emptyUnlinkWork).lc = s.lc ∧
    (s.emptyUnlinkWork).relocation = s.relocation ∧ (s.emptyUnlinkWork).claims = s.claims ∧
    (s.emptyUnlinkWork).portA = s.portA ∧ (s.emptyUnlinkWork).portB = s.portB ∧
    (s.emptyUnlinkWork).pending = s.pending := by
  unfold State.emptyUnlinkWork; (repeat' split) <;> simp

@[simp] theorem relocationTakeWork_frame (s : State) :
    (s.relocationTakeWork).hwi = s.hwi ∧ (s.relocationTakeWork).free = s.free ∧
    (s.relocationTakeWork).claims = s.claims ∧ (s.relocationTakeWork).pending = s.pending := by
  unfold State.relocationTakeWork; dsimp only; (repeat' split) <;> simp

@[simp] theorem relocationLinkWork_frame (s : State) :
    (s.relocationLinkWork).hwi = s.hwi ∧ (s.relocationLinkWork).channels = s.channels ∧
    (s.relocationLinkWork).free = s.free ∧ (s.relocationLinkWork).relocation = s.relocation ∧
    (s.relocationLinkWork).claims = s.claims ∧ (s.relocationLinkWork).pending = s.pending := by
  unfold State.relocationLinkWork; dsimp only; (repeat' split) <;> simp

@[simp] theorem allocateTake_frame (s : State) :
    (s.allocateTake).hwi = s.hwi ∧ (s.allocateTake).channels = s.channels ∧ (s.allocateTake).segments = s.segments ∧
    (s.allocateTake).chains = s.chains ∧ (s.allocateTake).relocation = s.relocation ∧ (s.allocateTake).pge = s.pge ∧
    (s.allocateTake).claims = s.claims ∧ (s.allocateTake).pending = s.pending := by
  unfold State.allocateTake State.takeCommand; (repeat' split) <;> simp

@[simp] theorem releaseTake_frame (s : State) :
    (s.releaseTake).hwi = s.hwi ∧ (s.releaseTake).channels = s.channels ∧ (s.releaseTake).segments = s.segments ∧
    (s.releaseTake).free = s.free ∧ (s.releaseTake).relocation = s.relocation ∧ (s.releaseTake).claims = s.claims ∧
    (s.releaseTake).pending = s.pending := by
  unfold State.releaseTake State.takeCommand; (repeat' split) <;> simp

@[simp] theorem moveTake_frame (s : State) :
    (s.moveTake).hwi = s.hwi ∧ (s.moveTake).channels = s.channels ∧ (s.moveTake).segments = s.segments ∧
    (s.moveTake).free = s.free ∧ (s.moveTake).relocation = s.relocation ∧ (s.moveTake).claims = s.claims ∧
    (s.moveTake).pending = s.pending := by
  unfold State.moveTake State.takeCommand; (repeat' split) <;> simp

@[simp] theorem swapTake_frame (s : State) :
    (s.swapTake).hwi = s.hwi ∧ (s.swapTake).segments = s.segments ∧ (s.swapTake).free = s.free ∧
    (s.swapTake).transit = s.transit ∧ (s.swapTake).relocation = s.relocation ∧ (s.swapTake).claims = s.claims ∧
    (s.swapTake).pending = s.pending := by
  unfold State.swapTake State.takeCommand; (repeat' split) <;> simp

@[simp] theorem emptyTake_frame (s : State) :
    (s.emptyTake).hwi = s.hwi ∧ (s.emptyTake).channels = s.channels ∧ (s.emptyTake).segments = s.segments ∧
    (s.emptyTake).free = s.free ∧ (s.emptyTake).relocation = s.relocation ∧ (s.emptyTake).claims = s.claims ∧
    (s.emptyTake).pending = s.pending := by
  unfold State.emptyTake State.takeCommand; (repeat' split) <;> simp

/-! ### The line (Framing, Estimator, Boundary) -/

@[simp] theorem syncPulse_frame (s : State) (x : Fin Config.framePositions) :
    (s.syncPulse x).channels = s.channels ∧ (s.syncPulse x).segments = s.segments ∧ (s.syncPulse x).free = s.free ∧
    (s.syncPulse x).chains = s.chains ∧ (s.syncPulse x).transit = s.transit ∧ (s.syncPulse x).lc = s.lc ∧
    (s.syncPulse x).relocation = s.relocation ∧ (s.syncPulse x).pge = s.pge ∧ (s.syncPulse x).claims = s.claims ∧
    (s.syncPulse x).pending = s.pending := by
  unfold State.syncPulse; dsimp only; (repeat' split) <;> simp

@[simp] theorem discardBlocks_frame (s : State) :
    (s.discardBlocks).hwi = s.hwi ∧ (s.discardBlocks).segments = s.segments ∧ (s.discardBlocks).free = s.free ∧
    (s.discardBlocks).chains = s.chains ∧ (s.discardBlocks).transit = s.transit ∧ (s.discardBlocks).lc = s.lc ∧
    (s.discardBlocks).relocation = s.relocation ∧ (s.discardBlocks).pge = s.pge ∧
    (s.discardBlocks).claims = s.claims ∧ (s.discardBlocks).portA = s.portA ∧ (s.discardBlocks).portB = s.portB ∧
    (s.discardBlocks).pending = s.pending := by
  simp [State.discardBlocks]

@[simp] theorem missedSync_frame (s : State) :
    (s.missedSync).segments = s.segments ∧ (s.missedSync).free = s.free ∧ (s.missedSync).chains = s.chains ∧
    (s.missedSync).transit = s.transit ∧ (s.missedSync).lc = s.lc ∧ (s.missedSync).relocation = s.relocation ∧
    (s.missedSync).pge = s.pge ∧ (s.missedSync).claims = s.claims ∧ (s.missedSync).pending = s.pending := by
  unfold State.missedSync; dsimp only; (repeat' split) <;> simp

@[simp] theorem stampTick_frame (s : State) :
    (s.stampTick).channels = s.channels ∧ (s.stampTick).segments = s.segments ∧ (s.stampTick).free = s.free ∧
    (s.stampTick).chains = s.chains ∧ (s.stampTick).transit = s.transit ∧ (s.stampTick).lc = s.lc ∧
    (s.stampTick).relocation = s.relocation ∧ (s.stampTick).pge = s.pge ∧ (s.stampTick).claims = s.claims ∧
    (s.stampTick).portA = s.portA ∧ (s.stampTick).portB = s.portB ∧ (s.stampTick).pending = s.pending := by
  simp [State.stampTick]

@[simp] theorem adapt_frame (s : State) (n : ChannelNo) (h : List Lin) (e : Lin) :
    (s.adapt n h e).hwi = s.hwi ∧ (s.adapt n h e).channels = s.channels ∧ (s.adapt n h e).free = s.free ∧
    (s.adapt n h e).chains = s.chains ∧ (s.adapt n h e).transit = s.transit ∧ (s.adapt n h e).lc = s.lc ∧
    (s.adapt n h e).relocation = s.relocation ∧ (s.adapt n h e).pge = s.pge ∧ (s.adapt n h e).claims = s.claims ∧
    (s.adapt n h e).portA = s.portA ∧ (s.adapt n h e).portB = s.portB ∧ (s.adapt n h e).pending = s.pending := by
  unfold State.adapt; dsimp only; rw [foldModSegment_segments]; simp

@[simp] theorem arrivalWork_frame (s : State) (n : ChannelNo) (x y : Byte) :
    (s.arrivalWork n x y).free = s.free ∧ (s.arrivalWork n x y).chains = s.chains ∧
    (s.arrivalWork n x y).transit = s.transit ∧ (s.arrivalWork n x y).lc = s.lc ∧
    (s.arrivalWork n x y).relocation = s.relocation ∧ (s.arrivalWork n x y).pge = s.pge ∧
    (s.arrivalWork n x y).claims = s.claims ∧ (s.arrivalWork n x y).portA = s.portA ∧
    (s.arrivalWork n x y).portB = s.portB ∧ (s.arrivalWork n x y).pending = s.pending := by
  unfold State.arrivalWork; dsimp only; split <;> simp

@[simp] theorem arrival_frame (s : State) (n : ChannelNo) (x y : Byte) :
    (s.arrival n x y).free = s.free ∧ (s.arrival n x y).chains = s.chains ∧ (s.arrival n x y).transit = s.transit ∧
    (s.arrival n x y).lc = s.lc ∧ (s.arrival n x y).relocation = s.relocation ∧ (s.arrival n x y).pge = s.pge ∧
    (s.arrival n x y).claims = s.claims ∧ (s.arrival n x y).portA = s.portA ∧ (s.arrival n x y).portB = s.portB ∧
    (s.arrival n x y).pending = s.pending := by
  unfold State.arrival; split <;> simp

@[simp] theorem transparent_frame (s : State) (t : Timeslot) (x y : Byte) :
    (s.transparent t x y).channels = s.channels ∧ (s.transparent t x y).segments = s.segments ∧
    (s.transparent t x y).free = s.free ∧ (s.transparent t x y).chains = s.chains ∧
    (s.transparent t x y).transit = s.transit ∧ (s.transparent t x y).lc = s.lc ∧
    (s.transparent t x y).relocation = s.relocation ∧ (s.transparent t x y).pge = s.pge ∧
    (s.transparent t x y).claims = s.claims ∧ (s.transparent t x y).portA = s.portA ∧
    (s.transparent t x y).portB = s.portB ∧ (s.transparent t x y).pending = s.pending := by
  unfold State.transparent; split <;> simp

@[simp] theorem refreshWeights_frame (s : State) (n : ChannelNo) :
    (s.refreshWeights n).hwi = s.hwi ∧ (s.refreshWeights n).channels = s.channels ∧
    (s.refreshWeights n).free = s.free ∧ (s.refreshWeights n).chains = s.chains ∧
    (s.refreshWeights n).transit = s.transit ∧ (s.refreshWeights n).lc = s.lc ∧
    (s.refreshWeights n).relocation = s.relocation ∧ (s.refreshWeights n).pge = s.pge ∧
    (s.refreshWeights n).claims = s.claims ∧ (s.refreshWeights n).portA = s.portA ∧
    (s.refreshWeights n).portB = s.portB ∧ (s.refreshWeights n).pending = s.pending := by
  simp [State.refreshWeights]

@[simp] theorem doubleTalkBoundary_frame (s : State) (n : ChannelNo) (r : BlockRecord) :
    (s.doubleTalkBoundary n r).hwi = s.hwi ∧ (s.doubleTalkBoundary n r).segments = s.segments ∧
    (s.doubleTalkBoundary n r).free = s.free ∧ (s.doubleTalkBoundary n r).chains = s.chains ∧
    (s.doubleTalkBoundary n r).transit = s.transit ∧ (s.doubleTalkBoundary n r).lc = s.lc ∧
    (s.doubleTalkBoundary n r).relocation = s.relocation ∧ (s.doubleTalkBoundary n r).pge = s.pge ∧
    (s.doubleTalkBoundary n r).claims = s.claims ∧ (s.doubleTalkBoundary n r).portA = s.portA ∧
    (s.doubleTalkBoundary n r).portB = s.portB ∧ (s.doubleTalkBoundary n r).pending = s.pending := by
  simp [State.doubleTalkBoundary]

@[simp] theorem toneBoundary_frame (s : State) (n : ChannelNo) :
    (s.toneBoundary n).hwi = s.hwi ∧ (s.toneBoundary n).segments = s.segments ∧ (s.toneBoundary n).free = s.free ∧
    (s.toneBoundary n).chains = s.chains ∧ (s.toneBoundary n).transit = s.transit ∧ (s.toneBoundary n).lc = s.lc ∧
    (s.toneBoundary n).relocation = s.relocation ∧ (s.toneBoundary n).pge = s.pge ∧
    (s.toneBoundary n).claims = s.claims ∧ (s.toneBoundary n).pending = s.pending := by
  unfold State.toneBoundary; dsimp only; split <;> simp

@[simp] theorem divergenceBoundary_frame (s : State) (n : ChannelNo) (r : BlockRecord) :
    (s.divergenceBoundary n r).hwi = s.hwi ∧ (s.divergenceBoundary n r).segments = s.segments ∧
    (s.divergenceBoundary n r).free = s.free ∧ (s.divergenceBoundary n r).chains = s.chains ∧
    (s.divergenceBoundary n r).transit = s.transit ∧ (s.divergenceBoundary n r).lc = s.lc ∧
    (s.divergenceBoundary n r).relocation = s.relocation ∧ (s.divergenceBoundary n r).claims = s.claims ∧
    (s.divergenceBoundary n r).pending = s.pending := by
  unfold State.divergenceBoundary; dsimp only; split <;> simp

@[simp] theorem convergenceBoundary_frame (s : State) (n : ChannelNo) (r : BlockRecord) :
    (s.convergenceBoundary n r).hwi = s.hwi ∧ (s.convergenceBoundary n r).segments = s.segments ∧
    (s.convergenceBoundary n r).free = s.free ∧ (s.convergenceBoundary n r).chains = s.chains ∧
    (s.convergenceBoundary n r).transit = s.transit ∧ (s.convergenceBoundary n r).lc = s.lc ∧
    (s.convergenceBoundary n r).relocation = s.relocation ∧ (s.convergenceBoundary n r).pge = s.pge ∧
    (s.convergenceBoundary n r).claims = s.claims ∧ (s.convergenceBoundary n r).pending = s.pending := by
  unfold State.convergenceBoundary; dsimp only; split <;> simp

@[simp] theorem standingBoundary_frame (s : State) (n : ChannelNo) (r : BlockRecord) :
    (s.standingBoundary n r).hwi = s.hwi ∧ (s.standingBoundary n r).segments = s.segments ∧
    (s.standingBoundary n r).free = s.free ∧ (s.standingBoundary n r).chains = s.chains ∧
    (s.standingBoundary n r).transit = s.transit ∧ (s.standingBoundary n r).lc = s.lc ∧
    (s.standingBoundary n r).relocation = s.relocation ∧ (s.standingBoundary n r).pge = s.pge ∧
    (s.standingBoundary n r).claims = s.claims ∧ (s.standingBoundary n r).portA = s.portA ∧
    (s.standingBoundary n r).portB = s.portB ∧ (s.standingBoundary n r).pending = s.pending := by
  simp [State.standingBoundary]

@[simp] theorem suppressorBoundary_frame (s : State) (n : ChannelNo) (r : BlockRecord) :
    (s.suppressorBoundary n r).hwi = s.hwi ∧ (s.suppressorBoundary n r).segments = s.segments ∧
    (s.suppressorBoundary n r).free = s.free ∧ (s.suppressorBoundary n r).chains = s.chains ∧
    (s.suppressorBoundary n r).transit = s.transit ∧ (s.suppressorBoundary n r).lc = s.lc ∧
    (s.suppressorBoundary n r).relocation = s.relocation ∧ (s.suppressorBoundary n r).pge = s.pge ∧
    (s.suppressorBoundary n r).claims = s.claims ∧ (s.suppressorBoundary n r).portA = s.portA ∧
    (s.suppressorBoundary n r).portB = s.portB ∧ (s.suppressorBoundary n r).pending = s.pending := by
  simp [State.suppressorBoundary]

@[simp] theorem periodEnd_frame (s : State) (n : ChannelNo) :
    (s.periodEnd n).hwi = s.hwi ∧ (s.periodEnd n).channels = s.channels ∧ (s.periodEnd n).free = s.free ∧
    (s.periodEnd n).chains = s.chains ∧ (s.periodEnd n).transit = s.transit ∧ (s.periodEnd n).lc = s.lc ∧
    (s.periodEnd n).pge = s.pge ∧ (s.periodEnd n).claims = s.claims ∧ (s.periodEnd n).portA = s.portA ∧
    (s.periodEnd n).portB = s.portB ∧ (s.periodEnd n).pending = s.pending := by
  simp [State.periodEnd]

@[simp] theorem trackingBoundary_frame (s : State) (n : ChannelNo) (r : BlockRecord) :
    (s.trackingBoundary n r).hwi = s.hwi ∧ (s.trackingBoundary n r).free = s.free ∧
    (s.trackingBoundary n r).chains = s.chains ∧ (s.trackingBoundary n r).transit = s.transit ∧
    (s.trackingBoundary n r).lc = s.lc ∧ (s.trackingBoundary n r).pge = s.pge ∧
    (s.trackingBoundary n r).claims = s.claims ∧ (s.trackingBoundary n r).portA = s.portA ∧
    (s.trackingBoundary n r).portB = s.portB ∧ (s.trackingBoundary n r).pending = s.pending := by
  unfold State.trackingBoundary; dsimp only; (repeat' split) <;> simp

@[simp] theorem levelBoundary_frame (s : State) (n : ChannelNo) :
    (s.levelBoundary n).hwi = s.hwi ∧ (s.levelBoundary n).segments = s.segments ∧ (s.levelBoundary n).free = s.free ∧
    (s.levelBoundary n).chains = s.chains ∧ (s.levelBoundary n).transit = s.transit ∧ (s.levelBoundary n).lc = s.lc ∧
    (s.levelBoundary n).relocation = s.relocation ∧ (s.levelBoundary n).pge = s.pge ∧
    (s.levelBoundary n).claims = s.claims ∧ (s.levelBoundary n).pending = s.pending := by
  unfold State.levelBoundary; dsimp only; (repeat' split) <;> simp

@[simp] theorem applyPending_frame (s : State) (n : ChannelNo) :
    (s.applyPending n).segments = s.segments ∧ (s.applyPending n).free = s.free ∧
    (s.applyPending n).chains = s.chains ∧ (s.applyPending n).transit = s.transit ∧ (s.applyPending n).lc = s.lc ∧
    (s.applyPending n).relocation = s.relocation ∧ (s.applyPending n).pge = s.pge ∧
    (s.applyPending n).claims = s.claims ∧ (s.applyPending n).portA = s.portA ∧ (s.applyPending n).portB = s.portB ∧
    (s.applyPending n).pending = s.pending := by
  unfold State.applyPending; dsimp only; split <;> simp

@[simp] theorem openBlock_frame (s : State) (n : ChannelNo) :
    (s.openBlock n).hwi = s.hwi ∧ (s.openBlock n).segments = s.segments ∧ (s.openBlock n).free = s.free ∧
    (s.openBlock n).chains = s.chains ∧ (s.openBlock n).transit = s.transit ∧ (s.openBlock n).lc = s.lc ∧
    (s.openBlock n).relocation = s.relocation ∧ (s.openBlock n).pge = s.pge ∧ (s.openBlock n).claims = s.claims ∧
    (s.openBlock n).portA = s.portA ∧ (s.openBlock n).portB = s.portB ∧ (s.openBlock n).pending = s.pending := by
  unfold State.openBlock; split <;> simp

@[simp] theorem decisions_frame (s : State) (n : ChannelNo) :
    (s.decisions n).hwi = s.hwi ∧ (s.decisions n).free = s.free ∧ (s.decisions n).chains = s.chains ∧
    (s.decisions n).transit = s.transit ∧ (s.decisions n).lc = s.lc ∧ (s.decisions n).claims = s.claims ∧
    (s.decisions n).pending = s.pending := by
  simp [State.decisions]

@[simp] theorem boundaryWork_frame (s : State) (n : ChannelNo) :
    (s.boundaryWork n).free = s.free ∧ (s.boundaryWork n).chains = s.chains ∧
    (s.boundaryWork n).transit = s.transit ∧ (s.boundaryWork n).lc = s.lc ∧ (s.boundaryWork n).claims = s.claims ∧
    (s.boundaryWork n).pending = s.pending := by
  unfold State.boundaryWork; dsimp only; split <;> simp

@[simp] theorem boundary_frame (s : State) (n : ChannelNo) :
    (s.boundary n).free = s.free ∧ (s.boundary n).chains = s.chains ∧ (s.boundary n).transit = s.transit ∧
    (s.boundary n).lc = s.lc ∧ (s.boundary n).claims = s.claims ∧ (s.boundary n).pending = s.pending := by
  unfold State.boundary; split <;> simp

/-! ### The links (ChannelTable, Claims, Links) -/

@[simp] theorem markAtRestart_frame (s : State) (n : ChannelNo) (w : Bool) :
    (s.markAtRestart n w).hwi = s.hwi ∧ (s.markAtRestart n w).segments = s.segments ∧
    (s.markAtRestart n w).free = s.free ∧ (s.markAtRestart n w).chains = s.chains ∧
    (s.markAtRestart n w).transit = s.transit ∧ (s.markAtRestart n w).lc = s.lc ∧
    (s.markAtRestart n w).relocation = s.relocation ∧ (s.markAtRestart n w).pge = s.pge ∧
    (s.markAtRestart n w).claims = s.claims ∧ (s.markAtRestart n w).portA = s.portA ∧
    (s.markAtRestart n w).portB = s.portB ∧ (s.markAtRestart n w).pending = s.pending := by
  unfold State.markAtRestart; split <;> simp

@[simp] theorem restartChannel_frame (s : State) (p : Plane) (n : ChannelNo) :
    (s.restartChannel p n).hwi = s.hwi ∧ (s.restartChannel p n).segments = s.segments ∧
    (s.restartChannel p n).free = s.free ∧ (s.restartChannel p n).chains = s.chains ∧
    (s.restartChannel p n).transit = s.transit ∧ (s.restartChannel p n).lc = s.lc ∧
    (s.restartChannel p n).relocation = s.relocation ∧ (s.restartChannel p n).claims = s.claims ∧
    (s.restartChannel p n).pending = s.pending := by
  unfold State.restartChannel; dsimp only; (repeat' split) <;> simp

@[simp] theorem acceptRecords_frame (s : State) (o : Overlay) :
    (s.acceptRecords o).hwi = s.hwi ∧ (s.acceptRecords o).segments = s.segments ∧ (s.acceptRecords o).free = s.free ∧
    (s.acceptRecords o).chains = s.chains ∧ (s.acceptRecords o).transit = s.transit ∧ (s.acceptRecords o).lc = s.lc ∧
    (s.acceptRecords o).relocation = s.relocation ∧ (s.acceptRecords o).pge = s.pge ∧
    (s.acceptRecords o).claims = s.claims ∧ (s.acceptRecords o).portA = s.portA ∧
    (s.acceptRecords o).portB = s.portB ∧ (s.acceptRecords o).pending = s.pending := by
  unfold State.acceptRecords; rw [foldModChannel_channels]; simp

@[simp] theorem clockReply_frame (s : State) (p : Plane) (k : Nat) :
    (s.clockReply p k).hwi = s.hwi ∧ (s.clockReply p k).channels = s.channels ∧
    (s.clockReply p k).segments = s.segments ∧ (s.clockReply p k).free = s.free ∧
    (s.clockReply p k).chains = s.chains ∧ (s.clockReply p k).transit = s.transit ∧ (s.clockReply p k).lc = s.lc ∧
    (s.clockReply p k).relocation = s.relocation ∧ (s.clockReply p k).pge = s.pge ∧
    (s.clockReply p k).claims = s.claims ∧ (s.clockReply p k).pending = s.pending := by
  unfold State.clockReply; split <;> simp

@[simp] theorem quietExpiry_frame (s : State) (p : Plane) :
    (s.quietExpiry p).hwi = s.hwi ∧ (s.quietExpiry p).channels = s.channels ∧
    (s.quietExpiry p).segments = s.segments ∧ (s.quietExpiry p).free = s.free ∧ (s.quietExpiry p).chains = s.chains ∧
    (s.quietExpiry p).transit = s.transit ∧ (s.quietExpiry p).lc = s.lc ∧
    (s.quietExpiry p).relocation = s.relocation ∧ (s.quietExpiry p).pge = s.pge ∧
    (s.quietExpiry p).claims = s.claims ∧ (s.quietExpiry p).pending = s.pending := by
  simp [State.quietExpiry]

/-- Storing words in taps changes the segments only (R167). -/
@[simp] theorem storeTaps_frame (i : Nat) (data : List Word) (s : State) :
    (storeTaps i data s).hwi = s.hwi ∧ (storeTaps i data s).channels = s.channels ∧
    (storeTaps i data s).free = s.free ∧ (storeTaps i data s).chains = s.chains ∧
    (storeTaps i data s).transit = s.transit ∧ (storeTaps i data s).lc = s.lc ∧
    (storeTaps i data s).relocation = s.relocation ∧ (storeTaps i data s).pge = s.pge ∧
    (storeTaps i data s).claims = s.claims ∧ (storeTaps i data s).portA = s.portA ∧
    (storeTaps i data s).portB = s.portB ∧ (storeTaps i data s).pending = s.pending := by
  induction data generalizing i s with
  | nil => simp [storeTaps]
  | cons w data ih =>
    rw [storeTaps]
    unfold storeTap
    cases coeffSegment i with
    | none => exact ih (i + 1) s
    | some g => simpa using ih (i + 1) (s.modSegment g _)

@[simp] theorem purgeCommand_frame (s : State) (p : Plane) (l : Option ChainCode) :
    (s.purgeCommand p l).1.hwi = s.hwi ∧ (s.purgeCommand p l).1.segments = s.segments ∧
    (s.purgeCommand p l).1.free = s.free ∧ (s.purgeCommand p l).1.chains = s.chains ∧
    (s.purgeCommand p l).1.transit = s.transit ∧ (s.purgeCommand p l).1.lc = s.lc ∧
    (s.purgeCommand p l).1.relocation = s.relocation ∧ (s.purgeCommand p l).1.claims = s.claims ∧
    (s.purgeCommand p l).1.portA = s.portA ∧ (s.purgeCommand p l).1.portB = s.portB ∧
    (s.purgeCommand p l).1.pending = s.pending := by
  unfold State.purgeCommand; (repeat' split) <;> simp

@[simp] theorem suspendCommand_frame (s : State) :
    (s.suspendCommand).1.hwi = s.hwi ∧ (s.suspendCommand).1.channels = s.channels ∧
    (s.suspendCommand).1.segments = s.segments ∧ (s.suspendCommand).1.free = s.free ∧
    (s.suspendCommand).1.chains = s.chains ∧ (s.suspendCommand).1.transit = s.transit ∧
    (s.suspendCommand).1.lc = s.lc ∧ (s.suspendCommand).1.relocation = s.relocation ∧
    (s.suspendCommand).1.claims = s.claims ∧ (s.suspendCommand).1.portA = s.portA ∧
    (s.suspendCommand).1.portB = s.portB ∧ (s.suspendCommand).1.pending = s.pending := by
  unfold State.suspendCommand; (repeat' split) <;> simp

@[simp] theorem resumeCommand_frame (s : State) :
    (s.resumeCommand).1.hwi = s.hwi ∧ (s.resumeCommand).1.segments = s.segments ∧ (s.resumeCommand).1.free = s.free ∧
    (s.resumeCommand).1.chains = s.chains ∧ (s.resumeCommand).1.transit = s.transit ∧ (s.resumeCommand).1.lc = s.lc ∧
    (s.resumeCommand).1.relocation = s.relocation ∧ (s.resumeCommand).1.claims = s.claims ∧
    (s.resumeCommand).1.pending = s.pending := by
  unfold State.resumeCommand; (repeat' split) <;> simp

@[simp] theorem restartCommand_frame (s : State) (p : Plane) (l : Option ChannelNo) :
    (s.restartCommand p l).1.hwi = s.hwi ∧ (s.restartCommand p l).1.segments = s.segments ∧
    (s.restartCommand p l).1.free = s.free ∧ (s.restartCommand p l).1.chains = s.chains ∧
    (s.restartCommand p l).1.transit = s.transit ∧ (s.restartCommand p l).1.lc = s.lc ∧
    (s.restartCommand p l).1.relocation = s.relocation ∧ (s.restartCommand p l).1.claims = s.claims ∧
    (s.restartCommand p l).1.pending = s.pending := by
  unfold State.restartCommand; (repeat' split) <;> simp

@[simp] theorem claimCommand_frame (s : State) (p : Plane) (l : Option ChainCode) :
    (s.claimCommand p l).1.hwi = s.hwi ∧ (s.claimCommand p l).1.channels = s.channels ∧
    (s.claimCommand p l).1.segments = s.segments ∧ (s.claimCommand p l).1.free = s.free ∧
    (s.claimCommand p l).1.chains = s.chains ∧ (s.claimCommand p l).1.transit = s.transit ∧
    (s.claimCommand p l).1.lc = s.lc ∧ (s.claimCommand p l).1.relocation = s.relocation ∧
    (s.claimCommand p l).1.pge = s.pge ∧ (s.claimCommand p l).1.portA = s.portA ∧
    (s.claimCommand p l).1.portB = s.portB ∧ (s.claimCommand p l).1.pending = s.pending := by
  unfold State.claimCommand; (repeat' split) <;> simp

@[simp] theorem unclaimCommand_frame (s : State) (p : Plane) (l : Option ChainCode) :
    (s.unclaimCommand p l).1.hwi = s.hwi ∧ (s.unclaimCommand p l).1.channels = s.channels ∧
    (s.unclaimCommand p l).1.segments = s.segments ∧ (s.unclaimCommand p l).1.free = s.free ∧
    (s.unclaimCommand p l).1.chains = s.chains ∧ (s.unclaimCommand p l).1.transit = s.transit ∧
    (s.unclaimCommand p l).1.lc = s.lc ∧ (s.unclaimCommand p l).1.relocation = s.relocation ∧
    (s.unclaimCommand p l).1.pge = s.pge ∧ (s.unclaimCommand p l).1.portA = s.portA ∧
    (s.unclaimCommand p l).1.portB = s.portB ∧ (s.unclaimCommand p l).1.pending = s.pending := by
  unfold State.unclaimCommand; (repeat' split) <;> simp

@[simp] theorem seizeCommand_frame (s : State) (p : Plane) (l : Option ChainCode) :
    (s.seizeCommand p l).1.hwi = s.hwi ∧ (s.seizeCommand p l).1.channels = s.channels ∧
    (s.seizeCommand p l).1.segments = s.segments ∧ (s.seizeCommand p l).1.free = s.free ∧
    (s.seizeCommand p l).1.chains = s.chains ∧ (s.seizeCommand p l).1.transit = s.transit ∧
    (s.seizeCommand p l).1.lc = s.lc ∧ (s.seizeCommand p l).1.relocation = s.relocation ∧
    (s.seizeCommand p l).1.pge = s.pge ∧ (s.seizeCommand p l).1.pending = s.pending := by
  unfold State.seizeCommand; (repeat' split) <;> simp

@[simp] theorem writeConfig_frame (s : State) (p : Plane) (i k : Nat) (data : List Word) :
    (s.writeConfig p i k data).1.hwi = s.hwi ∧ (s.writeConfig p i k data).1.segments = s.segments ∧
    (s.writeConfig p i k data).1.free = s.free ∧ (s.writeConfig p i k data).1.chains = s.chains ∧
    (s.writeConfig p i k data).1.transit = s.transit ∧ (s.writeConfig p i k data).1.lc = s.lc ∧
    (s.writeConfig p i k data).1.relocation = s.relocation ∧ (s.writeConfig p i k data).1.pge = s.pge ∧
    (s.writeConfig p i k data).1.claims = s.claims ∧ (s.writeConfig p i k data).1.portA = s.portA ∧
    (s.writeConfig p i k data).1.portB = s.portB ∧ (s.writeConfig p i k data).1.pending = s.pending := by
  unfold State.writeConfig; (repeat' split) <;> simp

@[simp] theorem writeCoeff_frame (s : State) (p : Plane) (i k : Nat) (data : List Word) :
    (s.writeCoeff p i k data).1.hwi = s.hwi ∧ (s.writeCoeff p i k data).1.channels = s.channels ∧
    (s.writeCoeff p i k data).1.free = s.free ∧ (s.writeCoeff p i k data).1.chains = s.chains ∧
    (s.writeCoeff p i k data).1.transit = s.transit ∧ (s.writeCoeff p i k data).1.lc = s.lc ∧
    (s.writeCoeff p i k data).1.relocation = s.relocation ∧ (s.writeCoeff p i k data).1.pge = s.pge ∧
    (s.writeCoeff p i k data).1.claims = s.claims ∧ (s.writeCoeff p i k data).1.portA = s.portA ∧
    (s.writeCoeff p i k data).1.portB = s.portB ∧ (s.writeCoeff p i k data).1.pending = s.pending := by
  unfold State.writeCoeff; dsimp only; split <;> simp

end Sys2Proof.Machine
end

