-- ==== Sys2Proof/Laws/Lists.lean ====
section
/-! SUPPORT. What the List Controller's shared operations do: the take, the structural events in closed form, and where a
segment stands in a pool that meets its invariant. -/

namespace Sys2Proof.Machine

/-- Two states with equal fields are equal. -/
theorem State.eq_of_fields {s t : State} (hwi : s.hwi = t.hwi) (channels : s.channels = t.channels)
    (segments : s.segments = t.segments) (free : s.free = t.free) (chains : s.chains = t.chains)
    (transit : s.transit = t.transit) (lc : s.lc = t.lc) (relocation : s.relocation = t.relocation)
    (pge : s.pge = t.pge) (claims : s.claims = t.claims) (portA : s.portA = t.portA) (portB : s.portB = t.portB)
    (pending : s.pending = t.pending) : s = t := by
  cases s; cases t; simp_all

/-- A segment list with every chained segment's number: a member of a chain is in the flattened lists. -/
theorem mem_flatMap_chain {s : State} {g : SegNo} {c : ChainCode} (h : g ∈ s.chain c) :
    g ∈ (List.finRange Config.chains).flatMap s.chain :=
  List.mem_flatMap.2 ⟨c, List.mem_finRange c, h⟩

/-- The pool's invariant reads the lists, the in-transit slot and LC's current command only. -/
theorem State.PoolInv.congr {s t : State} (h : s.PoolInv) (free : t.free = s.free) (chains : t.chains = s.chains)
    (transit : t.transit = s.transit) (current : t.lc.current = s.lc.current) : t.PoolInv := by
  have hc : t.chain = s.chain := by funext c; simp [State.chain, chains]
  unfold State.PoolInv
  rw [free, hc, transit, current]
  exact h

/-- In a pool that meets its invariant no segment stands twice. -/
theorem State.PoolInv.nodup {s : State} (h : s.PoolInv) :
    (s.free ++ (List.finRange Config.chains).flatMap s.chain ++ s.transit.toList).Nodup :=
  h.1.nodup_iff.2 (List.nodup_finRange _)

/-- A free segment is in no chain and not in transit. -/
theorem State.PoolInv.free_apart {s : State} (h : s.PoolInv) {g : SegNo} (hg : g ∈ s.free) :
    (∀ c, g ∉ s.chain c) ∧ s.transit ≠ some g := by
  have hn := h.nodup
  rw [List.append_assoc, List.nodup_append] at hn
  constructor
  · intro c hc
    exact hn.2.2 g hg g (List.mem_append_left _ (mem_flatMap_chain hc)) rfl
  · intro ht
    exact hn.2.2 g hg g (List.mem_append_right _ (by simp [ht])) rfl

/-- A chained segment is not in transit. -/
theorem State.PoolInv.chain_not_transit {s : State} (h : s.PoolInv) {g : SegNo} {c : ChainCode}
    (hc : g ∈ s.chain c) : s.transit ≠ some g := by
  intro ht
  have hn := h.nodup
  rw [List.nodup_append] at hn
  exact hn.2.2 g (List.mem_append_right _ (mem_flatMap_chain hc)) g (by simp [ht]) rfl

/-- A segment is in one chain at most. -/
theorem State.PoolInv.chain_unique {s : State} (h : s.PoolInv) {g : SegNo} {c d : ChainCode} (hc : g ∈ s.chain c)
    (hd : g ∈ s.chain d) : c = d := by
  have hn := h.nodup
  rw [List.nodup_append, List.nodup_append, List.nodup_flatMap] at hn
  by_contra hne
  have hp := hn.1.2.1.2
  rw [List.pairwise_iff_getElem] at hp
  have key : ∀ x y : ChainCode, x < y → g ∈ s.chain x → g ∈ s.chain y → False := by
    intro x y hxy hx hy
    have := hp x.val y.val (by simp) (by simp) hxy
    simp only [List.getElem_finRange, Function.onFun] at this
    exact this hx hy
  rcases lt_or_gt_of_ne hne with hlt | hlt
  · exact key c d hlt hc hd
  · exact key d c hlt hd hc

/-- No chain holds a segment twice. -/
theorem State.PoolInv.chain_nodup {s : State} (h : s.PoolInv) (c : ChainCode) : (s.chain c).Nodup := by
  have hn := h.nodup
  rw [List.nodup_append, List.nodup_append, List.nodup_flatMap] at hn
  exact hn.1.2.1.1 c (List.mem_finRange c)

/-- The place of a chained segment is its list (R19). -/
theorem State.PoolInv.place_of_mem_chain {s : State} (h : s.PoolInv) {g : SegNo} {c : ChainCode}
    (hc : g ∈ s.chain c) : s.place g = .chain c := by
  unfold State.place
  rw [if_neg (h.chain_not_transit hc)]
  cases hf : (List.finRange Config.chains).find? fun c => decide (g ∈ s.chain c) with
  | none => exact absurd hc (by simpa using (List.find?_eq_none.1 hf) c (List.mem_finRange c))
  | some d =>
    have hd : g ∈ s.chain d := by simpa using List.find?_some hf
    rw [h.chain_unique hc hd]

/-- The place of a free segment is F (R19). -/
theorem State.PoolInv.place_of_mem_free {s : State} (h : s.PoolInv) {g : SegNo} (hg : g ∈ s.free) :
    s.place g = .free := by
  unfold State.place
  rw [if_neg (h.free_apart hg).2]
  cases hf : (List.finRange Config.chains).find? fun c => decide (g ∈ s.chain c) with
  | none => rfl
  | some d => exact absurd (by simpa using List.find?_some hf) ((h.free_apart hg).1 d)

/-- LC takes the named command of the panel the arbiter chose, with the arbiter position moved to it (R43). -/
theorem takeCommand_of_takes {s : State} {p : Plane} {code : CommandCode} {a : Args} (h : s.Takes p code a)
    (work : State → Plane → Args → State) :
    s.takeCommand code work = work { s with lc := { s.lc with arbiter := .panel p } } p a := by
  unfold State.takeCommand
  rw [h.1]
  simp only
  rw [h.2]
  simp

/-- A structural event's effect on PGE in closed form (R68). -/
theorem resetProgress_eq (s : State) (c : ChainCode) : s.resetProgress c = { s with pge := s.pge.disturbed c } := rfl

/-- The unlink in closed form (R28). -/
theorem unlink_eq (s : State) (c : ChainCode) (g : SegNo) :
    s.unlink c g = { s with
      chains := s.chains.set c.val ((s.chain c).erase g), transit := some g, pge := s.pge.disturbed c } := rfl

/-- The link in closed form (R29). -/
theorem link_eq (s : State) (c : ChainCode) (g : SegNo) (d : Nat) (z : Bool) :
    s.link c g d z = { s with
      chains := s.chains.set c.val (insertByDelay s.delay g d (s.chain c)), transit := none
      segments := s.segments.set g.val { (if z then (s.segment g).zero else s.segment g) with startDelay := some d }
      pge := s.pge.disturbed c } := rfl

/-- The place of a linked segment in its list (R29). -/
theorem insertByDelay_split (delayOf : SegNo → Nat) (g : SegNo) (d : Nat) (l : List SegNo) :
    ∃ before after, l = before ++ after ∧ insertByDelay delayOf g d l = before ++ g :: after ∧
      (∀ h ∈ before, delayOf h ≤ d) ∧ ∀ h, after.head? = some h → d < delayOf h := by
  induction l with
  | nil => exact ⟨[], [], rfl, rfl, by simp, by simp⟩
  | cons x l ih =>
    unfold insertByDelay
    split
    · exact ⟨[], x :: l, rfl, rfl, by simp, by
        intro h hh
        obtain rfl : x = h := by simpa using hh
        omega⟩
    · obtain ⟨b, a, h1, h2, h3, h4⟩ := ih
      refine ⟨x :: b, a, by rw [h1]; rfl, by rw [h2]; rfl, ?_, h4⟩
      intro h hh
      rcases List.mem_cons.1 hh with rfl | hh
      · omega
      · exact h3 h hh

/-- The list after a link (R29). -/
theorem linkedAt_link (s : State) (c : ChainCode) (g : SegNo) (d : Nat) (z : Bool) :
    s.LinkedAt (s.link c g d z) c g d := by
  obtain ⟨b, a, h1, h2, h3, h4⟩ := insertByDelay_split s.delay g d (s.chain c)
  refine ⟨b, a, h1, ?_, h3, h4, ?_⟩
  · rw [link_eq, ← h2]; simp [State.chain]
  · intro e he
    rw [link_eq]
    have : c.val ≠ e.val := fun h => he (Fin.ext h.symm)
    simp [State.chain, this]

/-- A linked segment's list holds one more. -/
theorem insertByDelay_perm (delayOf : SegNo → Nat) (g : SegNo) (d : Nat) (l : List SegNo) :
    (insertByDelay delayOf g d l).Perm (g :: l) := by
  obtain ⟨b, a, h1, h2, -, -⟩ := insertByDelay_split delayOf g d l
  rw [h2, h1]
  exact List.perm_middle

/-- A completed panel command frees LC and posts its result unless it is detached (R39, R40, R58). -/
theorem completeJob_panel (s : State) (p : Plane) (w : LcWork) (post : Panel → Panel)
    (h : s.lc.current = some { work := w, issuer := .panel p }) :
    s.completeJob post =
      if s.lc.detached then { s with lc := s.lc.freed } else { s with lc := s.lc.freed }.modPanel p post := by
  unfold State.completeJob
  simp [h, Lc.freed]

end Sys2Proof.Machine
end

