-- ==== Sys2Proof/Laws/Events.lean ====
section
/-! SUPPORT. What the event queues, the links and the Purge Engine's selections do: the bounds a queue keeps, where an
event goes, the two cases of a request, and a selection that finds a segment to clear. -/

namespace Sys2Proof.Machine

/-! ### Event queues (R173 to R175) -/

/-- A list with a record at its end keeps OVERRUN entries apart when its last one and the new one are not both OVERRUN. -/
theorem separated_append (entries : List EventRecord) (r : EventRecord) (h : separated entries = true)
    (hlast : ∀ last, entries.getLast? = some last → ¬(last.isOverrun = true ∧ r.isOverrun = true)) :
    separated (entries ++ [r]) = true := by
  induction entries with
  | nil => rfl
  | cons x rest ih =>
    cases rest with
    | nil =>
      have := hlast x rfl
      simp only [List.cons_append, List.nil_append, separated, Bool.and_true, Bool.not_eq_true']
      exact Bool.eq_false_iff.2 fun hb => this (by simpa using hb)
    | cons y rest =>
      simp only [List.cons_append, separated, Bool.and_eq_true] at h ⊢
      exact ⟨h.1, ih h.2 fun last hl => hlast last (by simpa using hl)⟩

/-- The end of a list whose OVERRUN entries stand apart may be dropped from the front. -/
theorem separated_drop (m : Nat) : ∀ entries : List EventRecord, separated entries = true →
    separated (entries.drop m) = true := by
  induction m with
  | zero => exact fun _ h => h
  | succ m ih =>
    intro entries h
    match entries with
    | [] => rfl
    | [x] => simpa using ih [] rfl
    | x :: y :: rest =>
      simp only [separated, Bool.and_eq_true] at h
      exact ih _ h.2

/-- A queue takes at most the record that arrives (R173). -/
theorem storeRecord_length (r : EventRecord) (entries : List EventRecord) :
    (storeRecord r entries).length ≤ max 64 entries.length := by
  unfold storeRecord
  split
  · simp; omega
  · split
    · simp; omega
    · omega

/-- Storing keeps OVERRUN entries apart, for a record that is no OVERRUN itself (R173). -/
theorem storeRecord_separated (r : EventRecord) (entries : List EventRecord) (hr : r.isOverrun = false)
    (h : separated entries = true) : separated (storeRecord r entries) = true := by
  unfold storeRecord
  split
  · exact separated_append _ _ h fun last _ hb => by rw [hr] at hb; exact absurd hb.2 (by decide)
  · split
    · rename_i hc
      refine separated_append _ _ h fun last hl hb => ?_
      rw [hl] at hc
      have : last.isOverrun = false := hc.2
      rw [this] at hb
      exact absurd hb.1 (by decide)
    · exact h

/-- An arrival keeps a queue's bounds (R173). -/
theorem Queue.Bounded.arrive {q : Queue} (h : q.Bounded) (r : EventRecord) (hr : r.isOverrun = false) :
    (q.arrive r).Bounded :=
  ⟨Nat.le_trans (storeRecord_length r q.entries) (by have := h.1; omega), storeRecord_separated r _ hr h.2.1, h.2.2.1,
    h.2.2.2⟩

/-- A removal keeps a queue's bounds (R174). -/
theorem Queue.Bounded.remove {q : Queue} (h : q.Bounded) (m : Nat) : (q.remove m).Bounded :=
  ⟨Nat.le_trans (by simp [Queue.remove]) h.1, separated_drop m _ h.2.1, h.2.2.1, h.2.2.2⟩

/-- What a raised event does to a link (R158, R172): its queue takes the record when the routing names it. -/
theorem raise_port (s : State) (toA toB : Bool) (e : Event) (p : Plane) :
    (s.raise toA toB e).port p =
      if (match p with | .a => toA | .b => toB) = true then
        { s.port p with queue := (s.port p).queue.arrive (s.stamped (toA && toB) e) }
      else s.port p := by
  cases p <;> cases toA <;> cases toB <;> rfl

/-- What an event about a channel does to a link (R158). -/
theorem raiseChannel_port (s : State) (n : ChannelNo) (e : Event) (p : Plane) :
    (s.raiseChannel n e).port p =
      if routesTo (s.holder (channelCode n)) p = true then
        { s.port p with queue :=
            (s.port p).queue.arrive (s.stamped (decide (s.holder (channelCode n) = none)) e) }
      else s.port p := by
  unfold State.raiseChannel
  rw [raise_port]
  have both : (routesTo (s.holder (channelCode n)) .a && routesTo (s.holder (channelCode n)) .b) =
      decide (s.holder (channelCode n) = none) := by
    cases s.holder (channelCode n) with
    | none => rfl
    | some q => cases q <;> rfl
  rw [both]
  cases p <;> rfl

/-! ### Links (R160) -/

/-- A request that is executed: its reply is held (R160, R164). -/
theorem request_awaiting (s : State) (p : Plane) (kind : Byte) (bytes : Nat) (execute : State → Reply)
    (h : (s.port p).iface = .awaitRequest) :
    s.request p kind bytes execute =
      (execute s).state.answered p kind (execute s).status (execute s).body := by
  unfold State.request
  rw [h]
  rfl

/-- A frame clocked while a reply is held: the reply is driven and discarded, whatever the frame asks (R160). -/
theorem request_ready (s : State) (p : Plane) (kind : Byte) (bytes : Nat) (execute : State → Reply) (reply : List Byte)
    (h : (s.port p).iface = .replyReady reply) :
    s.request p kind bytes execute = s.modPort p ({ · with iface := .awaitRequest, sent := drivenBytes reply bytes }) := by
  unfold State.request
  rw [h]
  simp only [State.clockReply, h]

/-! ### Selections (R64) -/

/-- A selection whose first unfinished entry has a segment left to clear begins that segment's clear. -/
theorem select_found (s : State) (e : BatchEntry) (g : SegNo)
    (he : s.pge.batch.find? (fun x => !x.finished) = some e) (hg : (s.chain e.list)[e.progress]? = some g) :
    s.select = { s with pge := { s.pge with clear := some { list := e.list, segment := g, disturbed := false } } } := by
  unfold State.select State.selectNext State.firstUnfinished
  simp only [he, hg]

/-- Entering RUNNING when the first unfinished entry has a segment left to clear (R63, R71, R72). -/
theorem run_found (s : State) (e : BatchEntry) (g : SegNo)
    (he : s.pge.batch.find? (fun x => !x.finished) = some e) (hg : (s.chain e.list)[e.progress]? = some g) :
    s.run = { s with pge := { s.pge with
      engine := .running, gatherTimer := false, suspendTimer := false
      clear := some { list := e.list, segment := g, disturbed := false } } } :=
  select_found { s with pge := { s.pge with engine := .running, gatherTimer := false, suspendTimer := false } } e g he hg

end Sys2Proof.Machine
end

