-- ==== Sys2Proof/Laws/Boundary.lean ====
section
/-! SUPPORT. The block boundary in closed form: what each decision makes of its channel, and the channel after all of them
as one composition of the decisions, so that a proof about one field need not unfold the others. -/

namespace Sys2Proof.Machine

/-! ### The stores a boundary reads, after one of its stages -/

/-- A raised event changes no channel. -/
@[simp] theorem channel_raiseChannel (s : State) (n m : ChannelNo) (e : Event) :
    (s.raiseChannel n e).channel m = s.channel m := by
  simp only [State.channel, raiseChannel_frame]

/-- The channel of a channel list's code is its channel. -/
@[simp] theorem codeChannel_channelCode (n : ChannelNo) : codeChannel (channelCode n) = some n := by
  simp [codeChannel, channelCode]

/-- A list is in the batch unfinished as long as the batch is the same. -/
theorem unfinished_congr {s t : State} (h : t.pge.batch = s.pge.batch) (c : ChainCode) :
    t.unfinished c = s.unfinished c := by
  simp only [State.unfinished, h]

/-! ### Requests of the Purge Engine -/

/-- Whether an internal request sets the owed flag: it can neither start a batch nor join one (R73). -/
def Pge.owes (e : Pge) : Bool :=
  match e.engine with
  | .idle => false
  | .gathering => decide (Config.maxBatch ≤ e.batch.length)
  | .running | .suspending | .suspended => true

/-- The channel after its list joins the batch (R62, R75, R89). -/
theorem joinPurge_channel (s : State) (n : ChannelNo) (r : Requesters) :
    (s.joinPurge (channelCode n) r).channel n =
      { (s.channel n).enterRestarting (decide (s.canceller n = .running)) s.hwi.framing with owed := false } := by
  have entered : ((s.enterRestarting (channelCode n)).setOwed (channelCode n) false).channel n =
      { (s.channel n).enterRestarting (decide (s.canceller n = .running)) s.hwi.framing with owed := false } := by
    simp [State.setOwed, State.enterRestarting]
  unfold State.joinPurge
  cases s.pge.engine <;> exact entered

/-- The channel after an internal request for its list (R73). -/
theorem requestPurge_channel (s : State) (n : ChannelNo) (r : Requesters) :
    (s.requestPurge n r).channel n =
      { (s.channel n).enterRestarting (decide (s.canceller n = .running)) s.hwi.framing with owed := s.pge.owes } := by
  have owing : ((s.enterRestarting (channelCode n)).setOwed (channelCode n) true).channel n =
      { (s.channel n).enterRestarting (decide (s.canceller n = .running)) s.hwi.framing with owed := true } := by
    simp [State.setOwed, State.enterRestarting]
  unfold State.requestPurge Pge.owes
  cases h : s.pge.engine
  · exact joinPurge_channel s n r
  · by_cases hb : Config.maxBatch ≤ s.pge.batch.length
    · simp only [hb, if_true, decide_true]; exact owing
    · simp only [hb, if_false, decide_false]; exact joinPurge_channel s n r
  all_goals exact owing

/-! ### One lemma for each decision -/

/-- The channel after DTD's decision (R99 to R101). -/
theorem doubleTalkBoundary_channel (s : State) (n : ChannelNo) (r : BlockRecord) :
    (s.doubleTalkBoundary n r).channel n = (s.channel n).testDoubleTalk ((s.channelChain n).map s.delay) r :=
  channel_modChannel _ _ _

/-- The channel after TBD's decision (R106 to R108). -/
theorem toneBoundary_channel (s : State) (n : ChannelNo) :
    (s.toneBoundary n).channel n = (s.channel n).decideTone n := by
  unfold State.toneBoundary
  dsimp only
  split <;> simp

/-- The channel after DVW's decision, with its request to the Purge Engine (R119 to R122). -/
def Channel.watched (c : Channel) (r : BlockRecord) (owes : Bool) (wasRunning : Bool) (framing : Framing) : Channel :=
  let decided := c.decideDivergence r
  if c.divState ≠ .diverged ∧ decided.divState = .diverged then
    { decided.enterRestarting wasRunning framing with owed := owes }
  else decided

/-- The channel after DVW's decision (R119 to R122). -/
theorem divergenceBoundary_channel (s : State) (n : ChannelNo) (r : BlockRecord) :
    ∃ wasRunning, (s.divergenceBoundary n r).channel n =
      (s.channel n).watched r s.pge.owes wasRunning s.hwi.framing := by
  unfold State.divergenceBoundary Channel.watched
  dsimp only
  by_cases h : (s.channel n).divState ≠ .diverged ∧ ((s.channel n).decideDivergence r).divState = .diverged
  · simp only [if_pos h]
    have key := requestPurge_channel ((s.modChannel n fun _ => (s.channel n).decideDivergence r).raiseChannel n
      (.diverged n ((s.channel n).decideDivergence r).divCount r.erle)) n .ofInternal
    rw [channel_raiseChannel, channel_modChannel] at key
    simp only [raiseChannel_frame, modChannel_pge, modChannel_hwi] at key
    exact ⟨_, key⟩
  · exact ⟨false, by simp [if_neg h]⟩

/-- The channel after EEA's convergence decision (R95). -/
theorem convergenceBoundary_channel (s : State) (n : ChannelNo) (r : BlockRecord) :
    (s.convergenceBoundary n r).channel n = (s.channel n).decideConvergence r := by
  unfold State.convergenceBoundary
  dsimp only
  split <;> simp

/-- The channel after EEA's standing decision (R87). -/
theorem standingBoundary_channel (s : State) (n : ChannelNo) (r : BlockRecord) :
    (s.standingBoundary n r).channel n = (s.channel n).decideStanding r (s.canceller n) := channel_modChannel _ _ _

/-- The channel after RSU's decision (R111 to R113). -/
theorem suppressorBoundary_channel (s : State) (n : ChannelNo) (r : BlockRecord) :
    (s.suppressorBoundary n r).channel n = ((s.channel n).decideSuppressor r).moveBackground r :=
  channel_modChannel _ _ _

/-- The tracking period count after TTK's decision (R125, R134). -/
def Channel.nextTrackCount (c : Channel) (r : BlockRecord) : Nat :=
  if c.governing.tracking = false then 0
  else if r.adapt = false then c.trackCount
  else if 63 ≤ c.trackCount then 0 else c.trackCount + 1

/-- The channel after TTK's decision (R125, R134). -/
theorem trackingBoundary_channel (s : State) (n : ChannelNo) (r : BlockRecord) :
    (s.trackingBoundary n r).channel n = { s.channel n with trackCount := (s.channel n).nextTrackCount r } := by
  have period : ∀ t : State, (t.periodEnd n).channel n = t.channel n := fun t => by
    simp only [State.channel, periodEnd_frame]
  unfold State.trackingBoundary Channel.nextTrackCount
  dsimp only
  cases ht : (s.channel n).governing.tracking
  · simp
  · cases ha : r.adapt
    · simp
    · by_cases hc : 63 ≤ (s.channel n).trackCount
      · simp [hc, period]
      · simp [hc]

/-- The channel after LSU's decisions (R142 to R147). -/
theorem levelBoundary_channel (s : State) (n : ChannelNo) :
    (s.levelBoundary n).channel n = { s.channel n with
      receive := ((s.channel n).receive.boundary (s.channel n).governing.receive (s.channel n).windowEnds).1
      send := ((s.channel n).send.boundary (s.channel n).governing.send (s.channel n).windowEnds).1
      windowPos := if (s.channel n).windowEnds then 0 else (s.channel n).windowPos + 1 } := by
  unfold State.levelBoundary
  dsimp only
  split <;> split <;> simp

/-! ### All decisions -/

/-- The channel after the decisions of a boundary: `delays` are the start delays of its list, `owes` says what an internal
request would do, and `state` is the canceller state the standing is decided on. -/
def Channel.afterDecisions (c : Channel) (n : ChannelNo) (delays : List Nat) (owes wasRunning : Bool) (framing : Framing)
    (state : Canceller) : Channel :=
  let r := c.measured
  let c := { c with erle := r.erle, blockRecord := some r }
  let c := c.testDoubleTalk delays r
  let c := c.decideTone n
  let c := c.watched r owes wasRunning framing
  let c := c.decideConvergence r
  let c := c.decideStanding r state
  let c := (c.decideSuppressor r).moveBackground r
  let c := { c with trackCount := c.nextTrackCount r }
  { c with
    receive := (c.receive.boundary c.governing.receive c.windowEnds).1
    send := (c.send.boundary c.governing.send c.windowEnds).1
    windowPos := if c.windowEnds then 0 else c.windowPos + 1
    blockCount := c.blockCount + 1 }

/-- The start delays of the channel's list are those before the boundary. -/
theorem refreshWeights_delays (s : State) (n : ChannelNo) (f : Channel → Channel) :
    ((s.refreshWeights n).modChannel n f).channelChain n = s.channelChain n ∧
      ∀ g, ((s.refreshWeights n).modChannel n f).delay g = s.delay g := by
  constructor
  · simp only [State.channelChain, State.chain, modChannel_chains, refreshWeights_frame]
  · intro g
    simp only [State.delay, State.segment, modChannel_segments, State.refreshWeights, State.modSegments]
    have key : ∀ (l : List SegNo) (t : State),
        (((l.foldl (fun s g => s.modSegment g (·.refresh)) t).segment g).startDelay) = (t.segment g).startDelay := by
      intro l
      induction l with
      | nil => intro t; rfl
      | cons x l ih =>
        intro t
        rw [List.foldl_cons, ih]
        by_cases h : g = x
        · subst h; simp [Segment.refresh]
        · rw [segment_modSegment_ne t h]
    exact congrArg (·.getD 0) (key _ s)

/-- The canceller state reads three fields of the channel and the batch (R8). -/
theorem canceller_congr {s t : State} (n : ChannelNo) (batch : t.pge.batch = s.pge.batch)
    (mode : (t.channel n).governing = (s.channel n).governing) (owed : (t.channel n).owed = (s.channel n).owed)
    (tone : (t.channel n).tone = (s.channel n).tone) : t.canceller n = s.canceller n := by
  simp only [State.canceller, unfinished_congr batch, mode, owed, tone]

/-- The fields the canceller state reads are kept by RSU's decision. -/
theorem suppressor_keeps (c : Channel) (r : BlockRecord) :
    ((c.decideSuppressor r).moveBackground r).governing = c.governing ∧
      ((c.decideSuppressor r).moveBackground r).owed = c.owed ∧
      ((c.decideSuppressor r).moveBackground r).tone = c.tone := by
  unfold Channel.moveBackground Channel.decideSuppressor
  refine ⟨?_, ?_, ?_⟩ <;> split <;> split <;> (try split) <;> (try split) <;> (try split) <;> rfl

/-- The channel after all decisions of a boundary, the standing being decided on the canceller state they leave. -/
theorem decisions_channel (s : State) (n : ChannelNo) :
    ∃ wasRunning, (s.decisions n).channel n =
      (s.channel n).afterDecisions n ((s.channelChain n).map s.delay) s.pge.owes wasRunning s.hwi.framing
        ((s.decisions n).canceller n) := by
  have stages : ∀ (r : BlockRecord) (s1 s2 s3 s4 s5 s6 s7 s8 s9 : State),
      s1 = (s.refreshWeights n).modChannel n ({ · with erle := r.erle, blockRecord := some r }) →
      s2 = s1.doubleTalkBoundary n r → s3 = s2.toneBoundary n → s4 = s3.divergenceBoundary n r →
      s5 = s4.convergenceBoundary n r → s6 = s5.standingBoundary n r → s7 = s6.suppressorBoundary n r →
      s8 = s7.trackingBoundary n r → s9 = s8.levelBoundary n → r = (s.channel n).measured →
      ∃ wasRunning, (s9.modChannel n fun c => { c with blockCount := c.blockCount + 1 }).channel n =
        (s.channel n).afterDecisions n ((s.channelChain n).map s.delay) s.pge.owes wasRunning s.hwi.framing
          ((s9.modChannel n fun c => { c with blockCount := c.blockCount + 1 }).canceller n) := by
    intro r s1 s2 s3 s4 s5 s6 s7 s8 s9 h1 h2 h3 h4 h5 h6 h7 h8 h9 hr
    have c1 : s1.channel n = { s.channel n with erle := r.erle, blockRecord := some r } := by
      rw [h1, channel_modChannel]; simp only [State.channel, refreshWeights_frame]
    have c2 : s2.channel n = (s1.channel n).testDoubleTalk ((s.channelChain n).map s.delay) r := by
      have hd := refreshWeights_delays s n ({ · with erle := r.erle, blockRecord := some r })
      rw [h2, doubleTalkBoundary_channel, h1, hd.1, funext hd.2]
    have c3 : s3.channel n = (s2.channel n).decideTone n := by rw [h3, toneBoundary_channel]
    have p3 : s3.pge = s.pge := by
      simp only [h3, h2, h1, toneBoundary_frame, doubleTalkBoundary_frame, modChannel_pge, refreshWeights_frame]
    have f3 : s3.hwi = s.hwi := by
      simp only [h3, h2, h1, toneBoundary_frame, doubleTalkBoundary_frame, modChannel_hwi, refreshWeights_frame]
    obtain ⟨w, c4⟩ := divergenceBoundary_channel s3 n r
    rw [← h4, p3, f3] at c4
    have c5 : s5.channel n = (s4.channel n).decideConvergence r := by rw [h5, convergenceBoundary_channel]
    have c6 : s6.channel n = (s5.channel n).decideStanding r (s5.canceller n) := by rw [h6, standingBoundary_channel]
    have c7 : s7.channel n = ((s6.channel n).decideSuppressor r).moveBackground r := by
      rw [h7, suppressorBoundary_channel]
    have c8 := trackingBoundary_channel s7 n r
    rw [← h8] at c8
    have c9 := levelBoundary_channel s8 n
    rw [← h9] at c9
    have p9 : s9.pge = s5.pge := by
      simp only [h9, h8, h7, h6, levelBoundary_frame, trackingBoundary_frame, suppressorBoundary_frame,
        standingBoundary_frame]
    clear h1 h2 h3 h4 h5 h6 h7 h8 h9
    have k7 := suppressor_keeps (s6.channel n) r
    have k6 : (s6.channel n).governing = (s5.channel n).governing ∧ (s6.channel n).owed = (s5.channel n).owed ∧
        (s6.channel n).tone = (s5.channel n).tone := by rw [c6]; exact ⟨rfl, rfl, rfl⟩
    have k9 : (s9.channel n).governing = (s7.channel n).governing ∧ (s9.channel n).owed = (s7.channel n).owed ∧
        (s9.channel n).tone = (s7.channel n).tone := by rw [c9, c8]; exact ⟨rfl, rfl, rfl⟩
    rw [← c7] at k7
    have hc : (s9.modChannel n fun c => { c with blockCount := c.blockCount + 1 }).canceller n = s5.canceller n := by
      refine canceller_congr n (congrArg Pge.batch p9) ?_ ?_ ?_ <;> rw [channel_modChannel]
      · exact k9.1.trans (k7.1.trans k6.1)
      · exact k9.2.1.trans (k7.2.1.trans k6.2.1)
      · exact k9.2.2.trans (k7.2.2.trans k6.2.2)
    refine ⟨w, ?_⟩
    rw [hc, channel_modChannel, c9, c8, c7, c6, c5, c4, c3, c2, c1, hr]
    rfl
  exact stages _ _ _ _ _ _ _ _ _ _ rfl rfl rfl rfl rfl rfl rfl rfl rfl rfl

/-! ### Which fields each decision writes -/

/-- DTD writes three fields. -/
theorem testDoubleTalk_writes (c : Channel) (ds : List Nat) (r : BlockRecord) :
    ∃ p d h, c.testDoubleTalk ds r = { c with peakHistory := p, doubleTalk := d, hangover := h } := by
  unfold Channel.testDoubleTalk
  dsimp only
  split
  · exact ⟨_, _, _, rfl⟩
  · split
    · exact ⟨_, _, _, rfl⟩
    · split <;> exact ⟨_, _, _, rfl⟩

/-- TBD writes four fields. -/
theorem decideTone_writes (c : Channel) (n : ChannelNo) :
    ∃ t k x q, c.decideTone n = { c with tone := t, toneCount := k, reversed := x, quietCount := q } := by
  have quiet : ∀ b, ∃ t k x q, c.quietStep b = { c with tone := t, toneCount := k, reversed := x, quietCount := q } := by
    intro b
    unfold Channel.quietStep
    split
    · split <;> exact ⟨_, _, _, _, rfl⟩
    · exact ⟨_, _, _, _, rfl⟩
  unfold Channel.decideTone
  split
  · unfold Channel.toneEnabled
    split
    · split <;> exact ⟨_, _, _, _, rfl⟩
    · split
      · exact ⟨_, _, _, _, rfl⟩
      · split
        · exact ⟨_, _, _, _, rfl⟩
        · split <;> exact ⟨_, _, _, _, rfl⟩
    · split
      · exact ⟨_, _, _, _, rfl⟩
      · exact quiet _
    · exact quiet _
  · exact ⟨_, _, _, _, rfl⟩

/-- Entering RESTARTING writes four fields. -/
theorem enterRestarting_writes (c : Channel) (w : Bool) (f : Framing) :
    ∃ a b x y, c.enterRestarting w f = { c with converged := a, runCount := b, standing := x, whollyRunning := y } := by
  unfold Channel.enterRestarting
  split <;> exact ⟨_, _, _, _, rfl⟩

/-- DVW writes its count and state; its request writes the owed flag and what entering RESTARTING writes. -/
theorem watched_writes (c : Channel) (r : BlockRecord) (o w : Bool) (f : Framing) :
    ∃ a b x y q, c.watched r o w f =
      { c with divCount := (c.decideDivergence r).divCount, divState := (c.decideDivergence r).divState, converged := a,
               runCount := b, standing := x, whollyRunning := y, owed := q } := by
  have decided : ∃ k d, c.decideDivergence r = { c with divCount := k, divState := d } := by
    unfold Channel.decideDivergence
    split <;> exact ⟨_, _, rfl⟩
  obtain ⟨k, d, hk⟩ := decided
  unfold Channel.watched
  dsimp only
  split
  · obtain ⟨a, b, x, y, h⟩ := enterRestarting_writes (c.decideDivergence r) w f
    rw [h, hk]
    exact ⟨_, _, _, _, _, rfl⟩
  · rw [hk]
    exact ⟨_, _, _, _, _, rfl⟩

/-- EEA's convergence decision writes two fields. -/
theorem decideConvergence_writes (c : Channel) (r : BlockRecord) :
    ∃ a b, c.decideConvergence r = { c with runCount := a, converged := b } := by
  unfold Channel.decideConvergence
  split
  · exact ⟨_, _, rfl⟩
  · exact ⟨_, _, rfl⟩
  · split
    · exact ⟨_, _, rfl⟩
    · split <;> exact ⟨_, _, rfl⟩

/-- RSU writes three fields. -/
theorem suppressor_writes (c : Channel) (r : BlockRecord) :
    ∃ a b x, (c.decideSuppressor r).moveBackground r = { c with suppressor := a, suppHangover := b, background := x } := by
  have decided : ∃ a b, c.decideSuppressor r = { c with suppressor := a, suppHangover := b } := by
    unfold Channel.decideSuppressor
    split
    · exact ⟨_, _, rfl⟩
    · split
      · exact ⟨_, _, rfl⟩
      · split
        · exact ⟨_, _, rfl⟩
        · split <;> exact ⟨_, _, rfl⟩
  obtain ⟨a, b, h⟩ := decided
  rw [h]
  unfold Channel.moveBackground
  split <;> exact ⟨_, _, _, rfl⟩

/-- Every field of the channel after the decisions, from the decision that writes it: x2 is the channel after DTD, x3 after
TBD, x4 after DVW, x5 after EEA's convergence decision, x6 after its standing decision, x7 after RSU. -/
theorem afterDecisions_fields {c x2 x3 x4 x5 x6 x7 : Channel} {r : BlockRecord} {n : ChannelNo} {delays : List Nat}
    {owes w : Bool} {f : Framing} {state : Canceller} (hr : c.measured = r)
    (h2 : Channel.testDoubleTalk { c with erle := r.erle, blockRecord := some r } delays r = x2)
    (h3 : x2.decideTone n = x3) (h4 : x3.watched r owes w f = x4) (h5 : x4.decideConvergence r = x5)
    (h6 : x5.decideStanding r state = x6) (h7 : (x6.decideSuppressor r).moveBackground r = x7) :
    let d := c.afterDecisions n delays owes w f state
    (d.governing = c.governing ∧ d.pendingRecord = c.pendingRecord ∧ d.cursor = c.cursor ∧ d.history = c.history ∧
      d.acc = c.acc ∧ d.toneRin = c.toneRin ∧ d.toneSin = c.toneSin ∧ d.beforeRin = c.beforeRin ∧
      d.beforeSin = c.beforeSin ∧ d.freeBlock = c.freeBlock) ∧
    (d.erle = r.erle ∧ d.blockRecord = some r ∧ d.blockCount = c.blockCount + 1) ∧
    (d.peakHistory = x2.peakHistory ∧ d.doubleTalk = x2.doubleTalk ∧ d.hangover = x2.hangover) ∧
    (d.tone = x3.tone ∧ d.toneCount = x3.toneCount ∧ d.reversed = x3.reversed ∧ d.quietCount = x3.quietCount) ∧
    (d.divCount = (x3.decideDivergence r).divCount ∧ d.divState = (x3.decideDivergence r).divState ∧
      d.owed = x4.owed ∧ d.whollyRunning = x4.whollyRunning) ∧
    (d.converged = x5.converged ∧ d.runCount = x5.runCount) ∧ d.standing = x6.standing ∧
    (d.suppressor = x7.suppressor ∧ d.suppHangover = x7.suppHangover ∧ d.background = x7.background) ∧
    d.trackCount = x7.nextTrackCount r ∧
    (d.receive = (c.receive.boundary c.governing.receive c.windowEnds).1 ∧
      d.send = (c.send.boundary c.governing.send c.windowEnds).1 ∧
      d.windowPos = if c.windowEnds then 0 else c.windowPos + 1) := by
  obtain ⟨_, _, _, e2⟩ := testDoubleTalk_writes { c with erle := r.erle, blockRecord := some r } delays r
  obtain ⟨_, _, _, _, e3⟩ := decideTone_writes x2 n
  obtain ⟨_, _, _, _, _, e4⟩ := watched_writes x3 r owes w f
  obtain ⟨_, _, e5⟩ := decideConvergence_writes x4 r
  have e6 : x5.decideStanding r state = { x5 with standing := x6.standing } := by
    rw [← h6]; rfl
  obtain ⟨_, _, _, e7⟩ := suppressor_writes x6 r
  have hd : c.afterDecisions n delays owes w f state = { x7 with
      trackCount := x7.nextTrackCount r
      receive := (x7.receive.boundary x7.governing.receive x7.windowEnds).1
      send := (x7.send.boundary x7.governing.send x7.windowEnds).1
      windowPos := if x7.windowEnds then 0 else x7.windowPos + 1
      blockCount := x7.blockCount + 1 } := by
    unfold Channel.afterDecisions
    dsimp only
    rw [hr, h2, h3, h4, h5, h6, h7]
    rfl
  rw [h2] at e2
  rw [h3] at e3
  rw [h4] at e4
  rw [h5] at e5
  rw [h6] at e6
  rw [h7] at e7
  have governing : x7.governing = c.governing := by rw [e7, e6, e5, e4, e3, e2]
  have windowEnds : x7.windowEnds = c.windowEnds := by
    unfold Channel.windowEnds; rw [e7, e6, e5, e4, e3, e2]
  intro d
  have hd' : d = _ := hd
  rw [hd']
  dsimp only
  rw [governing, windowEnds]
  refine ⟨⟨rfl, ?_, ?_, ?_, ?_, ?_, ?_, ?_, ?_, ?_⟩, ⟨?_, ?_, ?_⟩, ⟨?_, ?_, ?_⟩, ⟨?_, ?_, ?_, ?_⟩, ⟨?_, ?_, ?_, ?_⟩,
    ⟨?_, ?_⟩, ?_, ⟨?_, ?_, ?_⟩, ?_, ?_, ?_, ?_⟩
  all_goals first | trivial | rw [e7, e6, e5, e4, e3, e2]

/-! ### The record and the next block -/

/-- The channel after its pending record, if any, is applied (R4, R6). -/
def Channel.recordApplied (c : Channel) : Channel :=
  match c.pendingRecord with
  | none => c
  | some r => if c.governing.mode = .off then c.leaveOff r else c.applyRunning r

/-- The channel after its pending record, if any, is applied (R4, R6). -/
theorem applyPending_channel (s : State) (n : ChannelNo) :
    (s.applyPending n).channel n = (s.channel n).recordApplied := by
  unfold State.applyPending Channel.recordApplied
  dsimp only
  cases h : (s.channel n).pendingRecord with
  | none => rfl
  | some r => by_cases hm : (s.channel n).governing.mode = .off <;> simp [hm]

/-- The channel after the next block opens, its canceller state given (R88, R90). -/
def Channel.blockOpened (c : Channel) (state : Canceller) : Channel :=
  if c.governing.mode = .off then c
  else { c with acc := .zero, toneRin := [], toneSin := [], beforeRin := c.toneRin, beforeSin := c.toneSin,
                freeBlock := c.freeBlock + 1, whollyRunning := decide (state = .running) }

/-- The channel after the next block opens (R88, R90). -/
theorem openBlock_channel (s : State) (n : ChannelNo) :
    (s.openBlock n).channel n = (s.channel n).blockOpened ((s.openBlock n).canceller n) := by
  have same : (s.openBlock n).canceller n = s.canceller n := by
    refine canceller_congr n (by simp only [openBlock_frame]) ?_ ?_ ?_ <;>
      (unfold State.openBlock; split <;> simp)
  rw [same]
  unfold State.openBlock Channel.blockOpened
  split
  · rfl
  · simp

/-- A frame mark is no part of the canceller state. -/
theorem canceller_modMark (s : State) (n m : ChannelNo) (f : FrameMark → FrameMark) :
    (s.modMark n f).canceller m = s.canceller m := rfl

/-- A boundary at which a block closes: the channel after it is that of the decisions, with the pending record applied and
the next block opened. -/
theorem boundary_channel (s : State) (n : ChannelNo) (h : s.ClosesBlock n) :
    ∃ t wasRunning, exec (.blockBoundary n) s = .next t ∧ t.channel n =
      ((s.channel n).afterDecisions n ((s.channelChain n).map s.delay) s.pge.owes wasRunning s.hwi.framing
        ((s.decisions n).canceller n)).recordApplied.blockOpened (t.canceller n) ∧
      t.pge = (s.decisions n).pge := by
  have due : s.boundaryDue n = true := by
    obtain ⟨h1, h2, h3, h4, h5⟩ := h
    simp [State.boundaryDue, h1, h2, h3, h4]
  obtain ⟨w, hd⟩ := decisions_channel s n
  refine ⟨s.boundaryWork n, w, ?_, ?_, ?_⟩
  · simp only [exec, execBlockBoundary, State.boundary, due, if_true]
  · have hwork : s.boundaryWork n =
        (((s.decisions n).applyPending n).openBlock n).modMark n ({ · with boundary := true }) := by
      unfold State.boundaryWork
      rw [if_neg h.2.2.2.2]
    have key := openBlock_channel ((s.decisions n).applyPending n) n
    rw [applyPending_channel, hd] at key
    rw [hwork, channel_modMark, canceller_modMark]
    exact key
  · unfold State.boundaryWork
    rw [if_neg h.2.2.2.2]
    rw [modMark_pge]
    simp only [openBlock_frame, applyPending_frame]

end Sys2Proof.Machine
end

