-- ==== Sys2Proof/Laws/BoundaryEvents.lean ====
section
/-! SUPPORT. The events of a block boundary: which records each event queue takes, in which order (R158, R173). -/

namespace Sys2Proof.Machine

/-! ### Raising the events of a channel, one after another -/

/-- What leads from s to t raises the given events about channel n, in their order, and does nothing else to a link. -/
def Raises (s t : State) (n : ChannelNo) (events : List Event) : Prop :=
  t.claims = s.claims ∧ t.hwi = s.hwi ∧ ∀ p, t.port p = { s.port p with queue := s.queueWith n p events }

/-- A queue with no events. -/
@[simp] theorem queueWith_nil (s : State) (n : ChannelNo) (p : Plane) : s.queueWith n p [] = (s.port p).queue := by
  unfold State.queueWith; split <;> rfl

theorem Raises.refl {s t : State} (n : ChannelNo) (claims : t.claims = s.claims) (hwi : t.hwi = s.hwi)
    (a : t.portA = s.portA) (b : t.portB = s.portB) : Raises s t n [] := by
  refine ⟨claims, hwi, fun p => ?_⟩
  rw [queueWith_nil]
  cases p
  · exact a
  · exact b

theorem Raises.trans {s u t : State} {n : ChannelNo} {first second : List Event} (h : Raises s u n first)
    (k : Raises u t n second) : Raises s t n (first ++ second) := by
  obtain ⟨hc, hh, hp⟩ := h
  obtain ⟨kc, kh, kp⟩ := k
  refine ⟨kc.trans hc, kh.trans hh, fun p => ?_⟩
  have holder : u.holder (channelCode n) = s.holder (channelCode n) := by simp only [State.holder, hc]
  have stamp : ∀ b e, u.stamped b e = s.stamped b e := by intro b e; simp only [State.stamped, hh]
  have queue : u.queueWith n p second = s.queueWith n p (first ++ second) := by
    unfold State.queueWith
    simp only [holder, stamp, List.foldl_append]
    rw [hp]
    unfold State.queueWith
    split <;> rfl
  rw [kp, queue, hp]

/-- Raising one event. -/
theorem Raises.raiseChannel (s : State) (n : ChannelNo) (e : Event) : Raises s (s.raiseChannel n e) n [e] := by
  refine ⟨by simp only [raiseChannel_frame], by simp only [raiseChannel_frame], fun p => ?_⟩
  rw [raiseChannel_port]
  unfold State.queueWith routesTo
  by_cases h : s.holder (channelCode n) = none ∨ s.holder (channelCode n) = some p
  · rw [if_pos h, if_pos (by simpa using h)]; rfl
  · rw [if_neg h, if_neg (by simpa using h)]

/-- A change of a channel raises nothing. -/
theorem Raises.modChannel (s : State) (n : ChannelNo) (f : Channel → Channel) : Raises s (s.modChannel n f) n [] :=
  Raises.refl n rfl rfl rfl rfl

/-! ### The events of each decision -/

theorem toneBoundary_raises (s : State) (n : ChannelNo) : Raises s (s.toneBoundary n) n
    (match toneReport (s.channel n).tone ((s.channel n).decideTone n).tone with
      | some t => [.toneBypass n t]
      | none => []) := by
  unfold State.toneBoundary
  dsimp only
  have h := Raises.modChannel s n fun _ => (s.channel n).decideTone n
  cases toneReport (s.channel n).tone ((s.channel n).decideTone n).tone with
  | some t => exact h.trans (Raises.raiseChannel _ _ _)
  | none => exact h

theorem divergenceBoundary_raises (s : State) (n : ChannelNo) (r : BlockRecord) :
    Raises s (s.divergenceBoundary n r) n
      (if (s.channel n).divState ≠ .diverged ∧ ((s.channel n).decideDivergence r).divState = .diverged then
        [.diverged n ((s.channel n).decideDivergence r).divCount r.erle] else []) := by
  unfold State.divergenceBoundary
  dsimp only
  have h := Raises.modChannel s n fun _ => (s.channel n).decideDivergence r
  split
  · refine (h.trans (Raises.raiseChannel _ _ _)).trans (second := []) ?_
    exact Raises.refl n (by simp only [requestPurge_frame]) (by simp only [requestPurge_frame])
      (by simp only [requestPurge_frame]) (by simp only [requestPurge_frame])
  · exact h

theorem convergenceBoundary_raises (s : State) (n : ChannelNo) (r : BlockRecord) :
    Raises s (s.convergenceBoundary n r) n
      (if (s.channel n).converged = false ∧ ((s.channel n).decideConvergence r).converged = true then
        [.converged n r.erle] else []) := by
  unfold State.convergenceBoundary
  dsimp only
  have h := Raises.modChannel s n fun _ => (s.channel n).decideConvergence r
  split
  · exact h.trans (Raises.raiseChannel _ _ _)
  · exact h

/-- The LEVEL_LIMIT of a direction. -/
def limitEvents (n : ChannelNo) (send : Bool) (gain : Option Int) : List Event :=
  gain.toList.map fun g => .levelLimit n send g

theorem levelBoundary_raises (s : State) (n : ChannelNo) :
    let c := s.channel n
    Raises s (s.levelBoundary n) n
      (limitEvents n false (c.receive.boundary c.governing.receive c.windowEnds).2 ++
        limitEvents n true (c.send.boundary c.governing.send c.windowEnds).2) := by
  unfold State.levelBoundary
  dsimp only
  generalize (s.channel n).receive.boundary (s.channel n).governing.receive (s.channel n).windowEnds = receive
  generalize (s.channel n).send.boundary (s.channel n).governing.send (s.channel n).windowEnds = send
  generalize hj : (s.modChannel n fun c =>
    { c with receive := receive.1, send := send.1,
             windowPos := if (s.channel n).windowEnds then 0 else c.windowPos + 1 }) = judged
  have h : Raises s judged n [] := hj ▸ Raises.modChannel s n _
  unfold limitEvents
  cases receive.2 <;> cases send.2
  · exact h
  · exact h.trans (Raises.raiseChannel _ _ _)
  · exact h.trans (Raises.raiseChannel _ _ _)
  · exact h.trans ((Raises.raiseChannel _ _ _).trans (Raises.raiseChannel _ _ _))

/-- The report of a change of tone state as the list of its event. -/
theorem toneReport_events (n : ChannelNo) (old new : Tone) :
    (match toneReport old new with
      | some t => [Event.toneBypass n t]
      | none => []) =
    if new ≠ old ∧ (old = .bypassSuppressor ∨ old = .bypassFull ∨ new = .bypassSuppressor ∨ new = .bypassFull) then
      [.toneBypass n new] else [] := by
  cases old <;> cases new <;> rfl

/-- The refused step that a direction in range reports, against R144 to R146 as LsuJudged states them. -/
theorem boundary_judged (d : LsuDir) (a : AlcConfig) (h : d.InRange) :
    LsuJudged a (levelOf (linScale (1 / 128) (linAdd d.windowAcc d.blockAcc))) d (d.boundary a true).1
        (d.boundary a true).2.isSome ∧
      ∀ g, (d.boundary a true).2 = some g → g = (d.boundary a true).1.gain := by
  obtain ⟨h1, h2, h3, h4⟩ := h
  unfold LsuDir.boundary windowLevel
  dsimp only
  generalize levelOf (linScale (1 / 128) (linAdd d.windowAcc d.blockAcc)) = level
  cases ha : a.auto
  · simp [LsuJudged, ha]
  simp only [Bool.not_true, Bool.false_eq_true, if_false, if_true]
  unfold LsuJudged LsuDir.judgeAuto LsuDir.step upperThreshold lowerThreshold
  have auto : ¬a.auto = false := by simp [ha]
  simp only [if_neg auto]
  by_cases q : level < -450
  · simp [q]
  simp only [if_neg q]
  by_cases u : 10 * a.upper - 5 * d.gain < level
  · simp only [if_pos u]
    by_cases k : d.high = 3
    · have k4 : 4 ≤ d.high + 1 := by omega
      simp only [if_pos k, if_pos k4]
      by_cases m : -24 < d.gain
      · have m' : -24 ≤ d.gain + -1 ∧ d.gain + -1 ≤ 24 := by omega
        simp only [if_pos m, if_pos m']
        simp; omega
      · have m' : ¬(-24 ≤ d.gain + -1 ∧ d.gain + -1 ≤ 24) := by omega
        simp only [if_neg m, if_neg m']
        cases d.limit <;> simp
    · have k4 : ¬4 ≤ d.high + 1 := by omega
      simp only [if_neg k, if_neg k4]
      simp
  simp only [if_neg u]
  by_cases v : level < 10 * a.lower - 5 * d.gain
  · simp only [if_pos v]
    by_cases k : d.low = 15
    · have k4 : 16 ≤ d.low + 1 := by omega
      simp only [if_pos k, if_pos k4]
      by_cases m : d.gain < 24
      · have m' : -24 ≤ d.gain + 1 ∧ d.gain + 1 ≤ 24 := by omega
        simp only [if_pos m, if_pos m']
        simp
      · have m' : ¬(-24 ≤ d.gain + 1 ∧ d.gain + 1 ≤ 24) := by omega
        simp only [if_neg m, if_neg m']
        cases d.limit <;> simp
    · have k4 : ¬16 ≤ d.low + 1 := by omega
      simp only [if_neg k, if_neg k4]
      simp
  · simp [if_neg v]

/-- A convergence flag that is set after EEA's decision was not touched by DVW's (R95, R96, R122). -/
theorem watched_converged (c : Channel) (r : BlockRecord) (o w : Bool) (f : Framing)
    (h : ((c.watched r o w f).decideConvergence r).converged = true) :
    (c.watched r o w f).converged = c.converged := by
  have same : (c.decideDivergence r).converged = c.converged := by
    unfold Channel.decideDivergence; split <;> rfl
  obtain ⟨_, _, _, _, _, writes⟩ := watched_writes c r o w f
  by_cases hd : (c.decideDivergence r).divState = .diverged
  · have state : (c.watched r o w f).divState = .diverged := by rw [writes]; exact hd
    unfold Channel.decideConvergence at h
    rw [state] at h
    cases h
  · unfold Channel.watched
    rw [if_neg fun x => hd x.2]
    exact same

/-- What the decisions of a boundary raise, in the order of R173, read off the channel before and after them. -/
theorem decisions_raises (s : State) (n : ChannelNo) :
    let c := s.channel n
    let d := (s.decisions n).channel n
    Raises s (s.decisions n) n
      ((if d.tone ≠ c.tone ∧ (c.tone = .bypassSuppressor ∨ c.tone = .bypassFull ∨ d.tone = .bypassSuppressor ∨
          d.tone = .bypassFull) then [.toneBypass n d.tone] else []) ++
      (if c.divState ≠ .diverged ∧ d.divState = .diverged then [.diverged n d.divCount d.erle] else []) ++
      (if c.converged = false ∧ d.converged = true then [.converged n d.erle] else []) ++
      limitEvents n false (c.receive.boundary c.governing.receive c.windowEnds).2 ++
      limitEvents n true (c.send.boundary c.governing.send c.windowEnds).2) := by
  have stages : ∀ (r : BlockRecord) (s1 s2 s3 s4 s5 s6 s7 s8 s9 t : State),
      s1 = (s.refreshWeights n).modChannel n ({ · with erle := r.erle, blockRecord := some r }) →
      s2 = s1.doubleTalkBoundary n r → s3 = s2.toneBoundary n → s4 = s3.divergenceBoundary n r →
      s5 = s4.convergenceBoundary n r → s6 = s5.standingBoundary n r → s7 = s6.suppressorBoundary n r →
      s8 = s7.trackingBoundary n r → s9 = s8.levelBoundary n →
      t = s9.modChannel n (fun c => { c with blockCount := c.blockCount + 1 }) →
      let c := s.channel n
      let d := t.channel n
      Raises s t n
        ((if d.tone ≠ c.tone ∧ (c.tone = .bypassSuppressor ∨ c.tone = .bypassFull ∨ d.tone = .bypassSuppressor ∨
            d.tone = .bypassFull) then [.toneBypass n d.tone] else []) ++
        (if c.divState ≠ .diverged ∧ d.divState = .diverged then [.diverged n d.divCount d.erle] else []) ++
        (if c.converged = false ∧ d.converged = true then [.converged n d.erle] else []) ++
        limitEvents n false (c.receive.boundary c.governing.receive c.windowEnds).2 ++
        limitEvents n true (c.send.boundary c.governing.send c.windowEnds).2) := by
    intro r s1 s2 s3 s4 s5 s6 s7 s8 s9 t h1 h2 h3 h4 h5 h6 h7 h8 h9 ht
    have c1 : s1.channel n = { s.channel n with erle := r.erle, blockRecord := some r } := by
      rw [h1, channel_modChannel]; simp only [State.channel, refreshWeights_frame]
    have c2 := doubleTalkBoundary_channel s1 n r
    have c3 := toneBoundary_channel s2 n
    obtain ⟨w, c4⟩ := divergenceBoundary_channel s3 n r
    have c5 := convergenceBoundary_channel s4 n r
    have c6 := standingBoundary_channel s5 n r
    have c7 := suppressorBoundary_channel s6 n r
    have c8 := trackingBoundary_channel s7 n r
    have c9 := levelBoundary_channel s8 n
    rw [← h2, c1] at c2
    rw [← h3] at c3
    rw [← h4] at c4
    rw [← h5] at c5
    rw [← h6] at c6
    rw [← h7] at c7
    rw [← h8] at c8
    rw [← h9] at c9
    have r2 : Raises s s2 n [] := by
      refine Raises.refl n ?_ ?_ ?_ ?_ <;>
        simp only [h2, h1, doubleTalkBoundary_frame, modChannel_hwi, modChannel_claims, modChannel_portA, modChannel_portB,
          refreshWeights_frame]
    have r3 := toneBoundary_raises s2 n
    rw [toneReport_events, ← h3, ← c3] at r3
    have r4 := divergenceBoundary_raises s3 n r
    rw [← h4] at r4
    have r5 := convergenceBoundary_raises s4 n r
    rw [← h5, ← c5] at r5
    have r8 : Raises s5 s8 n [] := by
      refine Raises.refl n ?_ ?_ ?_ ?_ <;>
        simp only [h8, h7, h6, trackingBoundary_frame, suppressorBoundary_frame, standingBoundary_frame]
    have r9 := levelBoundary_raises s8 n
    rw [← h9] at r9
    have rl := Raises.modChannel s9 n fun c => { c with blockCount := c.blockCount + 1 }
    rw [← ht] at rl
    have all := r2.trans (r3.trans (r4.trans (r5.trans (r8.trans (r9.trans rl)))))
    obtain ⟨_, _, _, e2⟩ := testDoubleTalk_writes { s.channel n with erle := r.erle, blockRecord := some r }
      ((s1.channelChain n).map s1.delay) r
    obtain ⟨_, _, _, _, e3⟩ := decideTone_writes (s2.channel n) n
    obtain ⟨_, _, _, _, _, e4⟩ := watched_writes (s3.channel n) r s3.pge.owes w s3.hwi.framing
    obtain ⟨_, _, e5⟩ := decideConvergence_writes (s4.channel n) r
    obtain ⟨_, _, _, e7⟩ := suppressor_writes (s6.channel n) r
    have kept := watched_converged (s3.channel n) r s3.pge.owes w s3.hwi.framing
    rw [← c4, ← c5] at kept
    rw [← c2] at e2
    rw [← c3] at e3
    rw [← c4] at e4
    rw [← c5] at e5
    rw [← c7] at e7
    have k2 : (s2.channel n).receive = (s.channel n).receive ∧ (s2.channel n).send = (s.channel n).send ∧
        (s2.channel n).governing = (s.channel n).governing ∧ (s2.channel n).windowPos = (s.channel n).windowPos ∧
        (s2.channel n).tone = (s.channel n).tone ∧ (s2.channel n).divState = (s.channel n).divState ∧
        (s2.channel n).converged = (s.channel n).converged ∧ (s2.channel n).erle = r.erle := by
      rw [e2]; exact ⟨rfl, rfl, rfl, rfl, rfl, rfl, rfl, rfl⟩
    have k3 : (s3.channel n).receive = (s2.channel n).receive ∧ (s3.channel n).send = (s2.channel n).send ∧
        (s3.channel n).governing = (s2.channel n).governing ∧ (s3.channel n).windowPos = (s2.channel n).windowPos ∧
        (s3.channel n).divState = (s2.channel n).divState ∧ (s3.channel n).converged = (s2.channel n).converged ∧
        (s3.channel n).erle = (s2.channel n).erle := by
      rw [e3]; exact ⟨rfl, rfl, rfl, rfl, rfl, rfl, rfl⟩
    have k4 : (s4.channel n).receive = (s3.channel n).receive ∧ (s4.channel n).send = (s3.channel n).send ∧
        (s4.channel n).governing = (s3.channel n).governing ∧ (s4.channel n).windowPos = (s3.channel n).windowPos ∧
        (s4.channel n).tone = (s3.channel n).tone ∧ (s4.channel n).erle = (s3.channel n).erle ∧
        (s4.channel n).divState = ((s3.channel n).decideDivergence r).divState ∧
        (s4.channel n).divCount = ((s3.channel n).decideDivergence r).divCount := by
      rw [e4]; exact ⟨rfl, rfl, rfl, rfl, rfl, rfl, rfl, rfl⟩
    clear c2 c3 c4 c5 e2 e3 e4
    have k5 : (s5.channel n).receive = (s4.channel n).receive ∧ (s5.channel n).send = (s4.channel n).send ∧
        (s5.channel n).governing = (s4.channel n).governing ∧ (s5.channel n).windowPos = (s4.channel n).windowPos ∧
        (s5.channel n).tone = (s4.channel n).tone ∧ (s5.channel n).erle = (s4.channel n).erle ∧
        (s5.channel n).divState = (s4.channel n).divState ∧ (s5.channel n).divCount = (s4.channel n).divCount := by
      rw [e5]; exact ⟨rfl, rfl, rfl, rfl, rfl, rfl, rfl, rfl⟩
    have later : ∀ x y : Channel, (∃ a b u v k, y =
          { x with standing := a, suppressor := b, suppHangover := u, background := v, trackCount := k }) → y.receive = x.receive ∧ y.send = x.send ∧ y.governing = x.governing ∧
        y.windowPos = x.windowPos ∧ y.tone = x.tone ∧ y.erle = x.erle ∧ y.divState = x.divState ∧
        y.divCount = x.divCount ∧ y.converged = x.converged := by
      rintro x y ⟨_, _, _, _, _, rfl⟩; exact ⟨rfl, rfl, rfl, rfl, rfl, rfl, rfl, rfl, rfl⟩
    have k6 := later (s5.channel n) (s6.channel n) ⟨_, _, _, _, _, c6⟩
    have k7 := later (s6.channel n) (s7.channel n) ⟨_, _, _, _, _, e7⟩
    have k8 := later (s7.channel n) (s8.channel n) ⟨_, _, _, _, _, c8⟩
    have k9 : (s9.channel n).tone = (s8.channel n).tone ∧ (s9.channel n).erle = (s8.channel n).erle ∧
        (s9.channel n).divState = (s8.channel n).divState ∧ (s9.channel n).divCount = (s8.channel n).divCount ∧
        (s9.channel n).converged = (s8.channel n).converged := by
      rw [c9]; exact ⟨rfl, rfl, rfl, rfl, rfl⟩
    have kt : (t.channel n).tone = (s9.channel n).tone ∧ (t.channel n).erle = (s9.channel n).erle ∧
        (t.channel n).divState = (s9.channel n).divState ∧ (t.channel n).divCount = (s9.channel n).divCount ∧
        (t.channel n).converged = (s9.channel n).converged := by
      rw [ht, channel_modChannel]; exact ⟨rfl, rfl, rfl, rfl, rfl⟩
    clear c6 c7 c8 c9 e5 e7 h1 h2 h3 h4 h5 h6 h7 h8 h9 ht
    obtain ⟨a2, b2, g2, w2, t2, d2, v2, x2⟩ := k2
    obtain ⟨a3, b3, g3, w3, d3, v3, x3⟩ := k3
    obtain ⟨a4, b4, g4, w4, t4, x4, d4, n4⟩ := k4
    obtain ⟨a5, b5, g5, w5, t5, x5, d5, n5⟩ := k5
    obtain ⟨a6, b6, g6, w6, t6, x6, d6, n6, v6⟩ := k6
    obtain ⟨a7, b7, g7, w7, t7, x7, d7, n7, v7⟩ := k7
    obtain ⟨a8, b8, g8, w8, t8, x8, d8, n8, v8⟩ := k8
    obtain ⟨t9, x9, d9, n9, v9⟩ := k9
    obtain ⟨t10, x10, d10, n10, v10⟩ := kt
    have l1 := a8.trans (a7.trans (a6.trans (a5.trans (a4.trans (a3.trans a2)))))
    have l2 := b8.trans (b7.trans (b6.trans (b5.trans (b4.trans (b3.trans b2)))))
    have l3 := g8.trans (g7.trans (g6.trans (g5.trans (g4.trans (g3.trans g2)))))
    have l4 := w8.trans (w7.trans (w6.trans (w5.trans (w4.trans (w3.trans w2)))))
    have ends : (s8.channel n).windowEnds = (s.channel n).windowEnds := by unfold Channel.windowEnds; rw [l4]
    have tone2 := t2
    have before3 : (s3.channel n).divState = (s.channel n).divState ∧ (s3.channel n).converged = (s.channel n).converged :=
      ⟨d3.trans d2, v3.trans v2⟩
    have toneT := t10.trans (t9.trans (t8.trans (t7.trans (t6.trans (t5.trans t4)))))
    have divT := And.intro (d10.trans (d9.trans (d8.trans (d7.trans (d6.trans (d5.trans d4))))))
      (n10.trans (n9.trans (n8.trans (n7.trans (n6.trans (n5.trans n4))))))
    have convT := v10.trans (v9.trans (v8.trans (v7.trans v6)))
    have erleT := x10.trans (x9.trans (x8.trans (x7.trans (x6.trans (x5.trans (x4.trans (x3.trans x2)))))))
    have conv : ((s4.channel n).converged = false ∧ (s5.channel n).converged = true) ↔
        ((s.channel n).converged = false ∧ (s5.channel n).converged = true) := by
      constructor <;> rintro ⟨x, y⟩ <;> have := kept y <;> rw [before3.2] at this <;> refine ⟨?_, y⟩
      · rw [← this]; exact x
      · rw [this]; exact x
    dsimp only at all ⊢
    rw [toneT, divT.1, divT.2, convT, erleT]
    rw [l1, l2, l3, ends, tone2, before3.1] at all
    simp only [conv] at all
    simpa only [List.nil_append, List.append_nil, List.append_assoc] using all
  exact stages _ _ _ _ _ _ _ _ _ _ _ rfl rfl rfl rfl rfl rfl rfl rfl rfl rfl

/-- The channel's fields that the events of its boundary read, after the record is applied and the next block opened. -/
theorem opened_reads (c : Channel) (hm : c.governing.mode ≠ .off) (state : Canceller) :
    (c.recordApplied.blockOpened state).tone = c.tone ∧ (c.recordApplied.blockOpened state).divState = c.divState ∧
    (c.recordApplied.blockOpened state).divCount = c.divCount ∧ (c.recordApplied.blockOpened state).erle = c.erle ∧
    (c.recordApplied.blockOpened state).converged = c.converged := by
  have opened : ∀ x : Channel, (x.blockOpened state).tone = x.tone ∧ (x.blockOpened state).divState = x.divState ∧
      (x.blockOpened state).divCount = x.divCount ∧ (x.blockOpened state).erle = x.erle ∧
      (x.blockOpened state).converged = x.converged := by
    intro x; unfold Channel.blockOpened; split <;> exact ⟨rfl, rfl, rfl, rfl, rfl⟩
  have applied : c.recordApplied.tone = c.tone ∧ c.recordApplied.divState = c.divState ∧
      c.recordApplied.divCount = c.divCount ∧ c.recordApplied.erle = c.erle ∧
      c.recordApplied.converged = c.converged := by
    unfold Channel.recordApplied
    split
    · exact ⟨rfl, rfl, rfl, rfl, rfl⟩
    · next r _ =>
      have e : (if c.governing.mode = .off then c.leaveOff r else c.applyRunning r) = c.applyRunning r := if_neg hm
      rw [e]
      exact ⟨rfl, rfl, rfl, rfl, rfl⟩
  obtain ⟨o1, o2, o3, o4, o5⟩ := opened c.recordApplied
  obtain ⟨a1, a2, a3, a4, a5⟩ := applied
  exact ⟨o1.trans a1, o2.trans a2, o3.trans a3, o4.trans a4, o5.trans a5⟩

/-- The LEVEL_LIMIT of a direction, from its judgement. -/
theorem limitEvents_judged (n : ChannelNo) (send : Bool) (d : LsuDir) (a : AlcConfig) (h : d.InRange) :
    limitEvents n send (d.boundary a true).2 =
      if (d.boundary a true).2.isSome = true then [.levelLimit n send (d.boundary a true).1.gain] else [] := by
  have gain := (boundary_judged d a h).2
  unfold limitEvents
  cases hg : (d.boundary a true).2 with
  | none => rfl
  | some g => rw [gain g hg]; rfl

/-- What a boundary at which a block closes raises: the events the channel tells, in the order of R173, and nothing
else. -/
theorem boundary_raises (s : State) (n : ChannelNo) (h : s.ClosesBlock n) (receive : (s.channel n).receive.InRange)
    (send : (s.channel n).send.InRange) (window : (s.channel n).windowPos ≤ 3) :
    ∃ t events, exec (.blockBoundary n) s = .next t ∧ s.BoundaryEvents t n events ∧
      ∀ p, t.port p = { s.port p with queue := s.queueWith n p events } := by
  have due : s.boundaryDue n = true := by
    obtain ⟨h1, h2, h3, h4, h5⟩ := h
    simp [State.boundaryDue, h1, h2, h3, h4]
  have work : s.boundaryWork n =
      (((s.decisions n).applyPending n).openBlock n).modMark n ({ · with boundary := true }) := by
    unfold State.boundaryWork
    rw [if_neg h.2.2.2.2]
  have mode : ((s.decisions n).channel n).governing.mode ≠ .off := by
    obtain ⟨w, hd⟩ := decisions_channel s n
    rw [hd, (afterDecisions_fields rfl rfl rfl rfl rfl rfl rfl).1.1]
    exact h.2.2.2.2
  have channel : ∃ state, (s.boundaryWork n).channel n = ((s.decisions n).channel n).recordApplied.blockOpened state := by
    have key := openBlock_channel ((s.decisions n).applyPending n) n
    rw [applyPending_channel] at key
    rw [work, channel_modMark]
    exact ⟨_, key⟩
  obtain ⟨state, hc⟩ := channel
  obtain ⟨o1, o2, o3, o4, o5⟩ := opened_reads ((s.decisions n).channel n) mode state
  rw [← hc] at o1 o2 o3 o4 o5
  have raised := decisions_raises s n
  dsimp only at raised
  rw [← o1, ← o2, ← o3, ← o4, ← o5] at raised
  have ports := raised.2.2
  generalize hevents : (_ ++ _ ++ _ ++ _ ++ _ : List Event) = events at ports
  refine ⟨s.boundaryWork n, events, ?_, ?_, fun p => ?_⟩
  · simp only [exec, execBlockBoundary, State.boundary, due, if_true]
  rotate_left
  · have port : (s.boundaryWork n).port p = (s.decisions n).port p := by
      rw [work]
      cases p <;> simp only [State.port, modMark_portA, modMark_portB, openBlock_frame, applyPending_frame]
    rw [port]
    exact ports p
  subst hevents
  · by_cases hw : (s.channel n).windowPos = 3
    · have ends : (s.channel n).windowEnds = true := by simp [Channel.windowEnds, hw]
      rw [ends, limitEvents_judged n false _ _ receive, limitEvents_judged n true _ _ send]
      exact ⟨_, _, _, _, fun hlt => absurd hlt (by omega),
        fun _ => ⟨(boundary_judged _ _ receive).1, (boundary_judged _ _ send).1⟩, rfl⟩
    · have ends : (s.channel n).windowEnds = false := by simp [Channel.windowEnds]; omega
      rw [ends]
      exact ⟨(s.channel n).receive, (s.channel n).send, false, false, fun _ => ⟨rfl, rfl⟩, fun hx => absurd hx hw, rfl⟩

end Sys2Proof.Machine
end

