-- ==== Sys2Proof/Laws/Highway.lean ====
section
/-! SUPPORT. Which commands change HWI (R2, R10, R11, R15 to R18), and the frame marks that stay until the next frame
starts (R11). -/
namespace Sys2Proof.Machine

/-! ### Which commands change HWI -/

/-- A request changes HWI only where its execution does. -/
theorem request_hwi (s : State) (p : Plane) (kind : Byte) (bytes : Nat) (execute : State → Reply)
    (h : (execute s).state.hwi = s.hwi) : (s.request p kind bytes execute).hwi = s.hwi := by
  unfold State.request State.clockReply
  split
  · split <;> simp
  · simpa using h

/-- A panel's command changes nothing of HWI. -/
theorem commandFrame_hwi (s : State) (p : Plane) (code : CommandCode) (a : Args) :
    (s.commandFrame p code a).hwi = s.hwi := by
  refine request_hwi _ _ _ _ _ ?_
  unfold State.commandRequest
  split
  · unfold State.route State.takeImmediate
    cases code <;> simp
  · rfl

/-- A command other than those of reset, framing, the highway and the Stamp Counter. -/
def offHighway : Instr → Bool
  | .powerOnReset _ | .syncPulse _ | .missedSync | .samplePairArrival _ _ _ | .blockBoundary _ | .transparentTimeslot _ _ _
  | .stampTick => false
  | _ => true

/-- Only the commands of reset, framing, the highway and the Stamp Counter change HWI. -/
theorem exec_hwi (c : Instr) (s t : State) (hc : offHighway c = true) (h : exec c s = .next t) : t.hwi = s.hwi := by
  have write : ∀ p space index count data,
      (s.writeRequest p space index count data).state.hwi = s.hwi := by
    intro p space index count data
    unfold State.writeRequest
    split <;> simp [Reply.plain, Reply.refuse]
  cases c <;> first | (exact Bool.noConfusion hc) | skip
  case command p code a =>
    simp only [exec, execCommand] at h
    split at h <;> cases h
    · exact commandFrame_hwi _ _ _ _
    · exact request_hwi _ _ _ _ _ rfl
  all_goals
    cases h
    first
    | exact commandFrame_hwi _ _ _ _
    | exact request_hwi _ _ _ _ _ (write _ _ _ _ _)
    | simp only [allocateTake_frame, allocateLinkWork_frame, releaseTake_frame, releaseLinkWork_frame, moveTake_frame,
        moveLinkWork_frame, swapTake_frame, emptyTake_frame, emptyLinkWork_frame, emptyUnlinkWork_frame,
        relocationTakeWork_frame, relocationLinkWork_frame, gatherExpiry_frame, clearEnd_frame, suspendExpiry_frame,
        quietExpiry_frame, clockReply_frame]
    | exact request_hwi _ _ _ _ _ rfl
    | skip
  case read => exact request_hwi _ _ _ _ _ (by unfold State.readRequest; split <;> rfl)
  case takeEvents => exact request_hwi _ _ _ _ _ (by unfold State.takeEventsRequest; split <;> simp [Reply.refuse])
  case setTrigger => exact request_hwi _ _ _ _ _ (by unfold State.setTriggerRequest; split <;> simp [Reply.refuse])
  case linkReset => exact request_hwi _ _ _ _ _ (by unfold State.linkResetRequest; simp)
  case badFrame p frame =>
    unfold State.badFrameRequest
    split
    · simp only [clockReply_frame]
    · exact request_hwi _ _ _ _ _ rfl

/-! ### The frame marks (R11) -/

/-- A mark that stands in s stands in t. -/
def MarksStay (s t : State) : Prop :=
  ∀ n, ((s.mark n).arrived = true → (t.mark n).arrived = true) ∧ ((s.mark n).boundary = true → (t.mark n).boundary = true) ∧
    ((s.mark n).joining = true → (t.mark n).joining = true)

/-- Marks stay where HWI does. -/
theorem MarksStay.of_hwi {s t : State} (h : t.hwi = s.hwi) : MarksStay s t := by
  intro n; simp only [State.mark, h]; exact ⟨id, id, id⟩

theorem MarksStay.trans {s u t : State} (h : MarksStay s u) (k : MarksStay u t) : MarksStay s t := fun n =>
  ⟨fun x => (k n).1 ((h n).1 x), fun x => (k n).2.1 ((h n).2.1 x), fun x => (k n).2.2 ((h n).2.2 x)⟩

/-- A change of a mark that clears none of its three bits. -/
theorem MarksStay.modMark (s : State) (n : ChannelNo) (f : FrameMark → FrameMark)
    (h : ∀ m : FrameMark, (m.arrived = true → (f m).arrived = true) ∧ (m.boundary = true → (f m).boundary = true) ∧
      (m.joining = true → (f m).joining = true)) : MarksStay s (s.modMark n f) := by
  intro m
  by_cases hm : m = n
  · subst hm; rw [mark_modMark]; exact h _
  · rw [mark_modMark_ne _ hm]; exact ⟨id, id, id⟩

/-- An arrival clears no mark. -/
theorem arrival_marks (s : State) (n : ChannelNo) (x y : Byte) : MarksStay s (s.arrival n x y) := by
  unfold State.arrival
  split
  · unfold State.arrivalWork
    dsimp only
    refine MarksStay.trans ?_ (MarksStay.modMark _ n _ fun m => ⟨fun _ => rfl, id, id⟩)
    intro m
    rw [mark_sendCodes, mark_modChannel]
    split
    · exact MarksStay.of_hwi (by simp only [adapt_frame]) m
    · exact ⟨id, id, id⟩
  · exact MarksStay.of_hwi rfl

/-- A boundary clears no mark. -/
theorem boundary_marks (s : State) (n : ChannelNo) : MarksStay s (s.boundary n) := by
  unfold State.boundary
  split
  · unfold State.boundaryWork
    dsimp only
    refine MarksStay.trans ?_ (MarksStay.modMark _ n _ fun m => ⟨id, fun _ => rfl, id⟩)
    refine MarksStay.trans (u := State.applyPending _ n) ?_ (MarksStay.of_hwi (openBlock_frame _ n).1)
    refine MarksStay.trans (u := if (s.channel n).governing.mode = .off then s else s.decisions n) ?_ ?_
    · split
      · exact MarksStay.of_hwi rfl
      · exact MarksStay.of_hwi (by simp only [decisions_frame])
    · generalize (if (s.channel n).governing.mode = .off then s else s.decisions n) = u
      unfold State.applyPending
      dsimp only
      split
      · exact MarksStay.of_hwi rfl
      · refine MarksStay.trans ?_ (MarksStay.modMark _ n _ fun m => ⟨id, id, fun h => by simp [h]⟩)
        exact MarksStay.of_hwi rfl
  · exact MarksStay.of_hwi rfl

/-- Only the start of a frame and a reset clear a mark (R11). -/
theorem exec_marks (c : Instr) (s t : State) (h1 : ∀ position, c ≠ .syncPulse position) (h2 : c ≠ .missedSync)
    (h3 : ∀ law, c ≠ .powerOnReset law) (h : exec c s = .next t) : MarksStay s t := by
  by_cases hc : offHighway c = true
  · exact MarksStay.of_hwi (exec_hwi c s t hc h)
  · cases c <;> first | (exact absurd rfl hc) | skip
    all_goals (simp only [exec, execPowerOnReset, execSyncPulse, execMissedSync, execSamplePairArrival, execBlockBoundary,
      execStampTick, execTransparentTimeslot, Host.Outcome.next.injEq] at h; subst h)
    case powerOnReset law => exact absurd rfl (h3 law)
    case syncPulse position => exact absurd rfl (h1 position)
    case missedSync => exact absurd rfl h2
    case samplePairArrival => exact arrival_marks _ _ _ _
    case blockBoundary => exact boundary_marks _ _
    case stampTick => exact fun _ => ⟨id, id, id⟩
    case transparentTimeslot =>
      intro n
      unfold State.transparent
      split
      · rw [mark_sendCodes]; exact ⟨id, id, id⟩
      · exact ⟨id, id, id⟩

end Sys2Proof.Machine
end

