-- ==== Sys2Proof/Laws/Selection.lean ====
section
/-! SUPPORT. What an entry that finishes, a selection and an exhausted batch do (R64, R66, R67), in closed form. -/

namespace Sys2Proof.Machine

/-! ### What is marked finished -/

/-- The batch with the entry of a list marked finished. -/
def finishList (c : ChainCode) (batch : List BatchEntry) : List BatchEntry :=
  batch.map fun x => if x.list = c then { x with finished := true } else x

/-- A list whose lists are others is left as it is. -/
theorem finishList_of_ne {c : ChainCode} {l : List BatchEntry} (h : ∀ x ∈ l, x.list ≠ c) : finishList c l = l := by
  unfold finishList
  conv_rhs => rw [← List.map_id l]
  exact List.map_congr_left fun x hx => if_neg (h x hx)

/-- In a batch that holds no list twice, marking one list finished marks one entry. -/
theorem finishList_split {x : BatchEntry} {pre post : List BatchEntry}
    (h : ((pre ++ x :: post).map BatchEntry.list).Nodup) :
    finishList x.list (pre ++ x :: post) = pre ++ { x with finished := true } :: post := by
  rw [List.map_append, List.map_cons, List.nodup_append, List.nodup_cons] at h
  obtain ⟨_, ⟨hx, _⟩, hp⟩ := h
  have h1 : finishList x.list pre = pre := finishList_of_ne fun y hy e =>
    hp y.list (List.mem_map_of_mem hy) x.list (List.mem_cons_self ..) e
  have h2 : finishList x.list post = post := finishList_of_ne fun y hy e => hx (e ▸ List.mem_map_of_mem hy)
  have : finishList x.list (pre ++ x :: post) = finishList x.list pre ++ finishList x.list (x :: post) :=
    List.map_append
  rw [this, h1]
  have : finishList x.list (x :: post) = { x with finished := true } :: finishList x.list post := by
    simp [finishList]
  rw [this, h2]

/-! ### One entry finishes -/

/-- What the finishing of one entry does (R66). -/
theorem finishEntry_finishes (s : State) (e : BatchEntry) :
    s.EntriesFinish (s.finishEntry e) [e] ∧ (∀ n, (s.finishEntry e).channel n = s.channelAfter n [e]) ∧
      (s.finishEntry e).pge = { s.pge with batch := finishList e.list s.pge.batch } := by
  have routes : ∀ p, purgeRoutes e.requesters (s.holder e.list) p = true ↔
      PurgeDoneReaches e.requesters (s.holder e.list) p := by
    intro p; cases p <;> simp [purgeRoutes, PurgeDoneReaches, routesTo]
  have both : (purgeRoutes e.requesters (s.holder e.list) .a && purgeRoutes e.requesters (s.holder e.list) .b) =
      decide (PurgeDoneReaches e.requesters (s.holder e.list) .a ∧
        PurgeDoneReaches e.requesters (s.holder e.list) .b) := by
    rw [Bool.eq_iff_iff, Bool.and_eq_true, routes, routes, decide_eq_true_iff]
  let marked : State := { s with pge := { s.pge with batch := finishList e.list s.pge.batch } }
  let raised := marked.raise (purgeRoutes e.requesters (s.holder e.list) .a)
    (purgeRoutes e.requesters (s.holder e.list) .b) (.purgeDone e.list e.requesters)
  have hf := raise_frame marked (purgeRoutes e.requesters (s.holder e.list) .a)
    (purgeRoutes e.requesters (s.holder e.list) .b) (.purgeDone e.list e.requesters)
  have ports : ∀ p, raised.port p = { s.port p with queue := s.queueAfter p [e] } := by
    intro p
    have cond : ((match p with
        | .a => purgeRoutes e.requesters (s.holder e.list) .a
        | .b => purgeRoutes e.requesters (s.holder e.list) .b) = true) ↔
        PurgeDoneReaches e.requesters (s.holder e.list) p := by
      cases p
      · exact routes .a
      · exact routes .b
    have key := raise_port marked (purgeRoutes e.requesters (s.holder e.list) .a)
      (purgeRoutes e.requesters (s.holder e.list) .b) (.purgeDone e.list e.requesters) p
    rw [both] at key
    refine key.trans ?_
    unfold State.queueAfter
    rw [List.foldl_cons, List.foldl_nil]
    by_cases h : PurgeDoneReaches e.requesters (s.holder e.list) p
    · rw [if_pos h]; exact if_pos (cond.2 h)
    · rw [if_neg h]; exact if_neg fun x => h (cond.1 x)
  have hchan : ∀ n, raised.channel n = s.channel n := by
    intro n; simp only [raised, State.channel, hf]; rfl
  have hpge : raised.pge = { s.pge with batch := finishList e.list s.pge.batch } := by
    simp only [raised, hf]; rfl
  have hraised : raised = { s with pge := raised.pge, portA := raised.portA, portB := raised.portB } := by
    apply State.eq_of_fields <;> first | rfl | (simp only [raised, hf]; rfl)
  have hfin : s.finishEntry e = match codeChannel e.list with
      | some n => raised.modChannel n (·.leaveRestarting)
      | none => raised := rfl
  cases hc : codeChannel e.list with
  | none =>
    rw [hc] at hfin
    rw [hfin]
    refine ⟨⟨?_, ports⟩, ?_, hpge⟩
    · apply State.eq_of_fields <;> first | rfl | (simp only [raised, hf]; rfl)
    · intro n
      rw [hchan]
      unfold State.channelAfter
      rw [if_neg]
      rintro ⟨⟨x, hx, hl⟩, _⟩
      obtain rfl := List.mem_singleton.1 hx
      rw [hl, codeChannel_channelCode] at hc
      cases hc
  | some n =>
    rw [hc] at hfin
    have hcode : e.list = channelCode n := by
      unfold codeChannel at hc
      split at hc
      · cases hc; rfl
      · cases hc
    rw [hfin]
    refine ⟨⟨?_, fun p => ?_⟩, ?_, ?_⟩
    · apply State.eq_of_fields <;> first | rfl | (simp only [raised, modChannel_hwi, modChannel_segments, modChannel_free, modChannel_chains, modChannel_transit, modChannel_lc, modChannel_relocation, modChannel_claims, modChannel_pending, hf]; rfl)
    · rw [port_modChannel]; exact ports p
    · intro m
      by_cases hm : m = n
      · subst hm
        rw [channel_modChannel, hchan]
        unfold State.channelAfter Channel.leaveRestarting
        by_cases ho : (s.channel m).owed = true
        · simp [ho]
        · simp [ho, hcode]
      · rw [channel_modChannel_ne _ hm, hchan]
        unfold State.channelAfter
        rw [if_neg]
        rintro ⟨⟨x, hx, hl⟩, _⟩
        obtain rfl := List.mem_singleton.1 hx
        rw [hcode] at hl
        exact hm (by
          have := congrArg Fin.val hl
          exact Fin.ext this.symm)
    · rw [modChannel_pge]; exact hpge

/-! ### Several entries finish -/

/-- Entries that finish one after another. -/
theorem State.EntriesFinish.trans {s u t : State} {first second : List BatchEntry}
    (h1 : s.EntriesFinish u first) (h2 : u.EntriesFinish t second) : s.EntriesFinish t (first ++ second) := by
  obtain ⟨e1, p1⟩ := h1
  obtain ⟨e2, p2⟩ := h2
  refine ⟨?_, fun p => ?_⟩
  · rw [e2, e1]
  · have hq : u.queueAfter p second = s.queueAfter p (first ++ second) := by
      have holder : ∀ c, u.holder c = s.holder c := by intro c; rw [e1]; rfl
      have stamp : ∀ b e, u.stamped b e = s.stamped b e := by intro b e; rw [e1]; rfl
      unfold State.queueAfter State.purgeDoneOf
      rw [List.foldl_append]
      simp only [holder, stamp]
      rw [p1]
      rfl
    rw [p2, hq, p1]

/-- No entry finishes. -/
theorem State.EntriesFinish.refl (s : State) : s.EntriesFinish s [] := ⟨rfl, fun _ => rfl⟩

/-- The channels after entries that finish one after another. -/
theorem channelAfter_append {s u : State} {n : ChannelNo} {first second : List BatchEntry}
    (h : u.channel n = s.channelAfter n first) : u.channelAfter n second = s.channelAfter n (first ++ second) := by
  have split : (∃ e ∈ first ++ second, e.list = channelCode n) ↔
      (∃ e ∈ first, e.list = channelCode n) ∨ ∃ e ∈ second, e.list = channelCode n := by
    simp [or_and_right, exists_or]
  by_cases ho : (s.channel n).owed = false
  · by_cases h1 : ∃ e ∈ first, e.list = channelCode n
    · have hs : s.channelAfter n (first ++ second) = s.channelAfter n first := by
        have c1 : (∃ e ∈ first, e.list = channelCode n) ∧ (s.channel n).owed = false := ⟨h1, ho⟩
        have c2 : (∃ e ∈ first ++ second, e.list = channelCode n) ∧ (s.channel n).owed = false := ⟨split.2 (.inl h1), ho⟩
        unfold State.channelAfter
        rw [if_pos c1, if_pos c2]
      rw [hs, ← h]
      unfold State.channelAfter at h
      rw [if_pos ⟨h1, ho⟩] at h
      have clear : (u.channel n).converged = false ∧ (u.channel n).whollyRunning = false ∧ (u.channel n).divState ≠ .diverged := by
        rw [h]; split
        · exact ⟨rfl, rfl, by simp⟩
        · next hd => exact ⟨rfl, rfl, hd⟩
      unfold State.channelAfter
      split
      · rw [if_neg clear.2.2]
        generalize u.channel n = c at clear
        cases c
        simp_all
      · rfl
    · have hu : u.channel n = s.channel n := by
        rw [h]; unfold State.channelAfter; rw [if_neg fun x => h1 x.1]
      unfold State.channelAfter
      rw [hu]
      by_cases h2 : ∃ e ∈ second, e.list = channelCode n
      · have c1 : (∃ e ∈ second, e.list = channelCode n) ∧ (s.channel n).owed = false := ⟨h2, ho⟩
        have c2 : (∃ e ∈ first ++ second, e.list = channelCode n) ∧ (s.channel n).owed = false := ⟨split.2 (.inr h2), ho⟩
        rw [if_pos c1, if_pos c2]
      · rw [if_neg fun x => h2 x.1, if_neg fun x => (split.1 x.1).elim h1 h2]
  · have hu : u.channel n = s.channel n := by
      rw [h]; unfold State.channelAfter; rw [if_neg fun x => ho x.2]
    unfold State.channelAfter
    rw [hu, if_neg fun x => ho x.2, if_neg fun x => ho x.2]

/-! ### Selections (R64, R67) -/

/-- An entry has nothing left to clear in a state. -/
def State.NothingLeft (s : State) (x : BatchEntry) : Prop := x.finished = true ∨ (s.chain x.list).length ≤ x.progress

/-- Finished entries are passed over. -/
theorem find?_prefix {pre post : List BatchEntry} (h : ∀ x ∈ pre, x.finished = true) :
    (pre ++ post).find? (fun e => !e.finished) = post.find? (fun e => !e.finished) := by
  rw [List.find?_append, List.find?_eq_none.2 (fun x hx => by simp [h x hx]), Option.none_or]

/-- A selection that comes to an entry with a segment left to clear: the induction over the entries it passes. -/
theorem selectNext_begins (e : BatchEntry) (rest : List BatchEntry) (g : SegNo) (passed : List BatchEntry) :
    ∀ (pre : List BatchEntry) (fuel : Nat) (s : State), s.pge.batch = pre ++ passed ++ e :: rest →
      ((pre ++ passed ++ e :: rest).map BatchEntry.list).Nodup → (∀ x ∈ pre, x.finished = true) →
      (∀ x ∈ passed, s.NothingLeft x) → e.finished = false → (s.chain e.list)[e.progress]? = some g →
      passed.length < fuel →
      s.EntriesFinish (State.selectNext fuel s) (passed.filter fun x => !x.finished) ∧
        (∀ n, (State.selectNext fuel s).channel n = s.channelAfter n (passed.filter fun x => !x.finished)) ∧
        (State.selectNext fuel s).pge = { s.pge with
          batch := pre ++ (passed.map fun x => { x with finished := true }) ++ e :: rest
          clear := some { list := e.list, segment := g, disturbed := false } } := by
  induction passed with
  | nil =>
    intro pre fuel s hb _ hpre _ he hg hfuel
    obtain ⟨fuel, rfl⟩ : ∃ f, fuel = f + 1 := ⟨fuel - 1, by simp at hfuel; omega⟩
    have hfirst : s.firstUnfinished = some e := by
      unfold State.firstUnfinished
      rw [hb, List.append_nil, find?_prefix hpre, List.find?_cons, he]
      rfl
    have hrun : State.selectNext (fuel + 1) s =
        { s with pge := { s.pge with clear := some { list := e.list, segment := g, disturbed := false } } } := by
      rw [State.selectNext, hfirst]; dsimp only; rw [hg]
    rw [hrun]
    refine ⟨⟨rfl, fun p => ?_⟩, fun n => ?_, ?_⟩
    · cases p <;> rfl
    · unfold State.channelAfter; rw [if_neg (by simp)]; rfl
    · dsimp only
      rw [List.map_nil, ← hb]
  | cons x passed ih =>
    intro pre fuel s hb nodup hpre hpassed he hg hfuel
    have assoc : pre ++ x :: passed ++ e :: rest = pre ++ x :: (passed ++ e :: rest) := by simp
    by_cases hx : x.finished = true
    · have h := ih (pre ++ [x]) fuel s (by rw [hb]; simp) (by simpa using nodup)
        (fun y hy => by
          rcases List.mem_append.1 hy with h | h
          · exact hpre y h
          · rw [List.mem_singleton.1 h]; exact hx)
        (fun y hy => hpassed y (List.mem_cons_of_mem _ hy)) he hg (by simp at hfuel; omega)
      have hxe : { x with finished := true } = x := by rw [← hx]
      rw [List.filter_cons, if_neg (by simp [hx]), List.map_cons, hxe]
      simpa using h
    · obtain ⟨fuel, rfl⟩ : ∃ f, fuel = f + 1 := ⟨fuel - 1, by simp at hfuel; omega⟩
      have hx' : x.finished = false := by simpa using hx
      have hfirst : s.firstUnfinished = some x := by
        unfold State.firstUnfinished
        rw [hb, assoc, find?_prefix hpre, List.find?_cons, hx']
        rfl
      have hnone : (s.chain x.list)[x.progress]? = none :=
        List.getElem?_eq_none ((hpassed x (List.mem_cons_self ..)).resolve_left hx)
      have hrun : State.selectNext (fuel + 1) s = State.selectNext fuel (s.finishEntry x) := by
        rw [State.selectNext, hfirst]; dsimp only; rw [hnone]
      obtain ⟨f1, f2, f3⟩ := finishEntry_finishes s x
      have hchain : ∀ c, (s.finishEntry x).chain c = s.chain c := by
        intro c; simp only [State.chain, finishEntry_frame]
      have hbatch : (s.finishEntry x).pge.batch = pre ++ [{ x with finished := true }] ++ passed ++ e :: rest := by
        rw [f3]; dsimp only
        rw [hb, assoc, finishList_split (assoc ▸ nodup)]
        simp
      have h := ih (pre ++ [{ x with finished := true }]) fuel (s.finishEntry x) hbatch (by simpa using nodup)
        (fun y hy => by
          rcases List.mem_append.1 hy with h | h
          · exact hpre y h
          · rw [List.mem_singleton.1 h])
        (fun y hy => by
          unfold State.NothingLeft; rw [hchain]; exact hpassed y (List.mem_cons_of_mem _ hy))
        he (by rw [hchain]; exact hg) (by simp at hfuel; omega)
      rw [hrun, List.filter_cons, if_pos (by simp [hx'])]
      obtain ⟨h1, h2, h3⟩ := h
      refine ⟨f1.trans h1, fun n => ?_, ?_⟩
      · rw [h2, channelAfter_append (f2 n)]; rfl
      · rw [h3, f3]; simp

/-- The channels after a run of owed flags falls. -/
theorem clearOwed_channel (l : List ChannelNo) (s : State) (n : ChannelNo) :
    (l.foldl (fun t m => t.modChannel m ({ · with owed := false })) s).channel n =
      { s.channel n with owed := (s.channel n).owed && decide (n ∉ l) } := by
  induction l generalizing s with
  | nil => simp
  | cons m l ih =>
    rw [List.foldl_cons, ih]
    by_cases h : n = m
    · subst h; rw [channel_modChannel]; simp
    · rw [channel_modChannel_ne _ h]; simp [h]

/-- No entry finishes. -/
theorem channelAfter_nil (s : State) (n : ChannelNo) : s.channelAfter n [] = s.channel n := by
  unfold State.channelAfter; rw [if_neg (by simp)]

/-- The finishing of an entry leaves the owed flag as it is. -/
theorem channelAfter_owed (s : State) (n : ChannelNo) (done : List BatchEntry) :
    (s.channelAfter n done).owed = (s.channel n).owed := by
  unfold State.channelAfter; (repeat' split) <;> rfl

/-- The exhausted batch (R67). -/
theorem exhaust_exhausts (s : State) : s.EntriesFinish s.exhaust [] ∧ s.Exhausts s.exhaust [] := by
  have hf := exhaust_frame s
  refine ⟨⟨?_, fun p => ?_⟩, ?_⟩
  · apply State.eq_of_fields <;> first | rfl | (simp only [hf])
  · have : s.exhaust.port p = s.port p := by cases p <;> simp only [State.port, hf]
    rw [this]; rfl
  · have howed : s.owedChannels = ((List.finRange 128).filter fun n => (s.channel n).owed).take 16 := rfl
    unfold State.Exhausts
    dsimp only
    rw [← howed]
    cases hl : s.owedChannels with
    | nil =>
      have : s.exhaust = { s with pge := { s.pge with engine := .idle, batch := [], clear := none } } := by
        unfold State.exhaust; rw [hl]
      rw [this]
      refine ⟨fun _ => rfl, fun h => absurd rfl h, fun n => ?_⟩
      rw [channelAfter_nil]
      show s.channel n = _
      simp
    | cons m rest =>
      have : s.exhaust = { ((m :: rest).foldl (fun t m => t.modChannel m ({ · with owed := false })) s) with
          pge := { s.pge with
            engine := .gathering, gatherTimer := true, clear := none
            batch := (m :: rest).map fun m => .joining (channelCode m) .ofInternal } } := by
        unfold State.exhaust; rw [hl]
      rw [this]
      refine ⟨fun h => absurd h (List.cons_ne_nil _ _), fun _ => rfl, fun n => ?_⟩
      rw [channelAfter_nil]
      exact clearOwed_channel (m :: rest) s n

/-- A batch that is exhausted after one more entry has finished. -/
theorem Exhausts_cons {s u t : State} {first second : List BatchEntry} {batch : List BatchEntry}
    (hp : u.pge = { s.pge with batch := batch }) (hc : ∀ n, u.channel n = s.channelAfter n first)
    (h : u.Exhausts t second) : s.Exhausts t (first ++ second) := by
  unfold State.Exhausts at h ⊢
  have ho : ∀ n, (u.channel n).owed = (s.channel n).owed := fun n => by rw [hc, channelAfter_owed]
  simp only [ho] at h
  dsimp only at h ⊢
  obtain ⟨h1, h2, h3⟩ := h
  refine ⟨fun e => by rw [h1 e, hp], fun e => by rw [h2 e, hp], fun n => ?_⟩
  rw [h3, channelAfter_append (hc n)]

/-- A selection that finds nothing left to clear: the induction over the entries it passes. -/
theorem selectNext_exhausts (passed : List BatchEntry) :
    ∀ (pre : List BatchEntry) (fuel : Nat) (s : State), s.pge.batch = pre ++ passed →
      ((pre ++ passed).map BatchEntry.list).Nodup → (∀ x ∈ pre, x.finished = true) →
      (∀ x ∈ passed, s.NothingLeft x) → passed.length < fuel →
      s.EntriesFinish (State.selectNext fuel s) (passed.filter fun x => !x.finished) ∧
        s.Exhausts (State.selectNext fuel s) (passed.filter fun x => !x.finished) := by
  induction passed with
  | nil =>
    intro pre fuel s hb _ hpre _ hfuel
    obtain ⟨fuel, rfl⟩ : ∃ f, fuel = f + 1 := ⟨fuel - 1, by simp at hfuel; omega⟩
    have hfirst : s.firstUnfinished = none := by
      unfold State.firstUnfinished
      rw [hb, find?_prefix hpre]
      rfl
    have hrun : State.selectNext (fuel + 1) s = s.exhaust := by
      rw [State.selectNext, hfirst]
    rw [hrun]
    exact exhaust_exhausts s
  | cons x passed ih =>
    intro pre fuel s hb nodup hpre hpassed hfuel
    by_cases hx : x.finished = true
    · have h := ih (pre ++ [x]) fuel s (by rw [hb]; simp) (by simpa using nodup)
        (fun y hy => by
          rcases List.mem_append.1 hy with h | h
          · exact hpre y h
          · rw [List.mem_singleton.1 h]; exact hx)
        (fun y hy => hpassed y (List.mem_cons_of_mem _ hy)) (by simp at hfuel; omega)
      rw [List.filter_cons, if_neg (by simp [hx])]
      exact h
    · obtain ⟨fuel, rfl⟩ : ∃ f, fuel = f + 1 := ⟨fuel - 1, by simp at hfuel; omega⟩
      have hx' : x.finished = false := by simpa using hx
      have hfirst : s.firstUnfinished = some x := by
        unfold State.firstUnfinished
        rw [hb, find?_prefix hpre, List.find?_cons, hx']
        rfl
      have hnone : (s.chain x.list)[x.progress]? = none :=
        List.getElem?_eq_none ((hpassed x (List.mem_cons_self ..)).resolve_left hx)
      have hrun : State.selectNext (fuel + 1) s = State.selectNext fuel (s.finishEntry x) := by
        rw [State.selectNext, hfirst]; dsimp only; rw [hnone]
      obtain ⟨f1, f2, f3⟩ := finishEntry_finishes s x
      have hchain : ∀ c, (s.finishEntry x).chain c = s.chain c := by
        intro c; simp only [State.chain, finishEntry_frame]
      have hbatch : (s.finishEntry x).pge.batch = pre ++ [{ x with finished := true }] ++ passed := by
        rw [f3]; dsimp only
        rw [hb, finishList_split nodup]
        simp
      obtain ⟨h1, h2⟩ := ih (pre ++ [{ x with finished := true }]) fuel (s.finishEntry x) hbatch (by simpa using nodup)
        (fun y hy => by
          rcases List.mem_append.1 hy with h | h
          · exact hpre y h
          · rw [List.mem_singleton.1 h])
        (fun y hy => by
          unfold State.NothingLeft; rw [hchain]; exact hpassed y (List.mem_cons_of_mem _ hy))
        (by simp at hfuel; omega)
      rw [hrun, List.filter_cons, if_pos (by simp [hx'])]
      exact ⟨f1.trans h1, Exhausts_cons f3 f2 h2⟩

/-- What a selection does in a batch that holds no list twice, with fuel to spare (R64, R66, R67). -/
theorem selectNext_selects (s : State) (fuel : Nat) (hf : s.pge.batch.length < fuel)
    (nodup : (s.pge.batch.map BatchEntry.list).Nodup) : s.Selects (State.selectNext fuel s) := by
  refine ⟨fun passed e rest g hb hpassed he hg => ?_, fun hall => ?_⟩
  · exact selectNext_begins e rest g passed [] _ s hb (by simpa [hb] using nodup) (by simp) hpassed he hg
      (by rw [hb] at hf; simp at hf; omega)
  · exact selectNext_exhausts s.pge.batch [] _ s rfl nodup (by simp) hall hf

/-- What a selection does in a batch that holds no list twice (R64, R66, R67). -/
theorem select_selects (s : State) (nodup : (s.pge.batch.map BatchEntry.list).Nodup) : s.Selects s.select :=
  selectNext_selects s _ (Nat.lt_succ_self _) nodup

end Sys2Proof.Machine
end

