-- ==== Sys2Proof/Laws/Signal.lean ====
section
/-! SUPPORT. The estimate and the normaliser as sums over the taps (R80, R83), and the comfort noise sequence that stands for
a free value R114 does not allow. -/

namespace Sys2Proof.Machine

/-! ### Estimate and normaliser -/

/-- Nothing is added. -/
theorem linAdd_nil_left (b : Lin) : linAdd [] b = b := rfl
/-- A multiple of nothing. -/
theorem linScale_nil (q : Rat) : linScale q [] = [] := by unfold linScale; split <;> rfl

/-- A sum over paired lists, the second read as [] past its end. -/
theorem linSum_zipWith {α : Type} (z : α) (f : α → Lin → Lin) (hf : ∀ w, f w [] = []) :
    ∀ (ws : List α) (xs : List Lin),
      linSum (List.zipWith f ws xs) = linSum ((List.range ws.length).map fun i => f (ws.getD i z) (xs.getD i []))
  | [], xs => by simp [linSum]
  | w :: ws, [] => by
    have : ∀ l : List Nat, linSum (l.map fun i => f ((w :: ws).getD i z) (([] : List Lin).getD i [])) = [] := by
      intro l
      induction l with
      | nil => rfl
      | cons i l ih =>
        have : linSum ((i :: l).map fun i => f ((w :: ws).getD i z) (([] : List Lin).getD i [])) =
          linAdd (f ((w :: ws).getD i z) (([] : List Lin).getD i [])) (linSum (l.map fun i => f ((w :: ws).getD i z) (([] : List Lin).getD i []))) := rfl
        rw [this, ih]
        simp [hf, linAdd_nil_left]
    rw [this]; rfl
  | w :: ws, x :: xs => by
    have ih := linSum_zipWith z f hf ws xs
    rw [List.length_cons, List.range_succ_eq_map]
    simp only [List.zipWith_cons_cons, List.map_cons, List.map_map]
    show linAdd _ _ = linAdd _ _
    congr 1

/-- The sample that a tap meets (R79). -/
theorem tapSamples_getD (history : List Lin) (d i : Nat) (h : i < 64) :
    (tapSamples history d).getD i [] = history.getD (d + i) [] := by
  simp [tapSamples, List.getD_eq_getElem?_getD, h]

/-- The products of one segment, tap by tap (R80). -/
theorem segmentEstimate_eq (coeffs : Vector Word 64) (history : List Lin) (d : Nat) :
    segmentEstimate coeffs (tapSamples history d) =
      linSum ((List.finRange 64).map fun k => linScale ((coeffs[k.val].toInt : Rat) / 32768) (history.getD (d + k.val) [])) := by
  unfold segmentEstimate
  rw [linSum_zipWith 0 _ (fun w => linScale_nil _)]
  congr 1
  rw [Vector.length_toList]
  apply List.ext_getElem
  · simp
  · intro i h1 h2
    have hi : i < 64 := by simpa using h1
    simp only [List.getElem_map, List.getElem_range, List.getElem_finRange, Fin.val_cast]
    rw [tapSamples_getD history d i hi]
    simp [List.getD_eq_getElem?_getD, coeffValue, hi]

/-- The estimate as a sum over the taps of the chain (R80). -/
theorem estimate_eq (s : State) (n : ChannelNo) (history : List Lin) : s.estimate n history = s.estimateAt n history := by
  unfold State.estimate State.estimateAt
  simp only [segmentEstimate_eq]

/-- The squares of the samples one segment covers, tap by tap (R83). -/
theorem segmentSquares_eq (history : List Lin) (d : Nat) :
    linSum ((tapSamples history d).map linSquare) =
      linSum ((List.finRange 64).map fun k => linSquare (history.getD (d + k.val) [])) := by
  have h := linSum_zipWith () (fun _ x => linSquare x) (fun _ => rfl) (List.replicate 64 ()) (tapSamples history d)
  have hz : ∀ (m : Nat) (xs : List Lin), xs.length ≤ m →
      List.zipWith (fun (_ : Unit) x => linSquare x) (List.replicate m ()) xs = xs.map linSquare := by
    intro m
    induction m with
    | zero => intro xs hx; cases xs <;> simp_all
    | succ m ih => intro xs hx; cases xs with
      | nil => simp
      | cons x xs => simp [List.replicate_succ, ih xs (by simpa using hx)]
  rw [hz 64 _ (by simp [tapSamples])] at h
  rw [h, List.length_replicate]
  congr 1
  apply List.ext_getElem
  · simp
  · intro i h1 h2
    have hi : i < 64 := by simpa using h1
    simp only [List.getElem_map, List.getElem_range, List.getElem_finRange, Fin.val_cast]
    rw [tapSamples_getD history d i hi]

/-- The normaliser as a sum over the taps of the chain (R83). -/
theorem normaliser_eq (s : State) (n : ChannelNo) (history : List Lin) : s.normaliser n history = s.normaliserAt n history := by
  unfold State.normaliser State.normaliserAt
  simp only [segmentSquares_eq]
/-! ### The residue sequence -/

set_option maxRecDepth 100000 in
/-- The residue sequence has a flat spectrum. -/
theorem residueNoise_flat : flatSpectrum residueNoise = true := by decide +kernel

/-- Every sample of the residue sequence is 7/10 or −7/10. -/
theorem residueNoise_signs : ∀ x ∈ residueNoise, x = 7 / 10 ∨ x = -7 / 10 := by
  unfold residueNoise
  intro x hx
  obtain ⟨i, _, h⟩ := List.mem_map.mp hx
  rw [← h]
  split
  · exact Or.inl rfl
  · exact Or.inr rfl

/-- A sample and its negation have one square. -/
theorem linMono_square_neg (k : Int) : linSquare (linMono k (-7 / 10)) = linSquare (linMono k (7 / 10)) := by
  unfold linMono linInsert
  have h1 : ∀ q : Rat, q ≠ 0 → q * pow10 (k / 200) ≠ 0 := by
    intro q hq
    refine mul_ne_zero hq ?_
    unfold pow10
    split <;> simp
  rw [if_neg (h1 _ (by norm_num)), if_neg (h1 _ (by norm_num))]
  simp only [linSquare, linMul, List.foldr]
  have : (-7 / 10 * pow10 (k / 200)) * (-7 / 10 * pow10 (k / 200)) = (7 / 10 * pow10 (k / 200)) * (7 / 10 * pow10 (k / 200)) := by ring
  rw [this]

/-- The squares of the noise of `residueNoise` are the same from every place on. -/
theorem residueNoise_squares (start : Nat) (background : Int) :
    (noiseWindow residueNoise start background).map linSquare =
      List.replicate 32 (linSquare (linMono (background - 30) (7 / 10))) := by
  apply List.ext_getElem
  · simp [noiseWindow]
  · intro i h1 h2
    have hlen : residueNoise.length = 43 := by simp [residueNoise]
    simp only [noiseWindow, List.getElem_map, List.getElem_range, List.getElem_replicate, hlen]
    have hlt : (start + i) % 43 < residueNoise.length := by rw [hlen]; exact Nat.mod_lt _ (by decide)
    have hg : residueNoise.getD ((start + i) % 43) 0 = residueNoise[(start + i) % 43] := by
      simp [List.getD_eq_getElem?_getD, hlt]
    rw [hg]
    rcases residueNoise_signs _ (List.getElem_mem hlt) with h | h
    · rw [h]
    · rw [h, linMono_square_neg]

/-- The sequence of every channel's generator has a flat spectrum (R114). -/
theorem noiseSequence_flat (n : ChannelNo) : flatSpectrum (noiseSequence n) = true := by
  unfold noiseSequence
  split
  · next h => exact (Bool.and_eq_true_iff.1 h).1
  · exact residueNoise_flat

/-- The period of every channel's generator is a block's length or more (R114). -/
theorem noiseSequence_length (n : ChannelNo) : 32 ≤ (noiseSequence n).length := by
  have h := noiseSequence_flat n
  unfold flatSpectrum at h
  simp only [Bool.and_eq_true, decide_eq_true_eq] at h
  exact h.1.1

/-- The 32 samples of a stretch of noise, one by one. -/
theorem noiseWindow_getD (sequence : List Rat) (start : Nat) (background : Int) (phase : Nat) (h : phase < 32) :
    (noiseWindow sequence start background).getD phase [] =
      linMono (background - 30) (sequence.getD ((start + phase) % sequence.length) 0) := by
  simp [noiseWindow, List.getD_eq_getElem?_getD, h]

end Sys2Proof.Machine
end

