-- ==== Sys2Proof/Laws/Tone.lean ====
section
/-! SUPPORT. What TBD finds in a block that is a tone (R103, R104): the tone fits itself, and leaves nothing free. -/

namespace Sys2Proof.Machine

/-! ### Sums of products -/

theorem dot_cons (x y : Rat) (l m : List Rat) : dot (x :: l) (y :: m) = x * y + dot l m := by
  simp [dot]

@[simp] theorem dot_nil (l : List Rat) : dot [] l = 0 := by simp [dot]

theorem dot_nonneg (l : List Rat) : 0 ≤ dot l l := by
  induction l with
  | nil => simp
  | cons x l ih => rw [dot_cons]; have := mul_self_nonneg x; linarith

theorem dot_comm (l m : List Rat) : dot l m = dot m l := by
  unfold dot
  rw [List.zipWith_comm]
  congr 1
  congr 1
  funext a b
  exact mul_comm _ _

/-- A tone is the sum of the two tones whose first samples are 1 and 0, and 0 and 1, each times its own first samples. -/
theorem dot_resonate (factor : Rat) (n : Nat) : ∀ (z : List Rat) (x y p q r s a b : Rat), x = a * p + b * r → y = a * q + b * s →
    dot (resonate factor n x y) z = a * dot (resonate factor n p q) z + b * dot (resonate factor n r s) z := by
  induction n with
  | zero => intros; simp [resonate]
  | succ n ih =>
    intro z x y p q r s a b hx hy
    cases z with
    | nil => simp [dot]
    | cons w z =>
      simp only [resonate, dot_cons]
      rw [ih z y _ q (2 * factor * q - p) s (2 * factor * s - r) a b hy (by rw [hx, hy]; ring), hx]
      ring

/-! ### A tone's own fit -/

/-- Samples that follow the recurrence of a tone. -/
def IsTone (factor : Rat) (samples : List Rat) : Prop :=
  ∀ i, i + 2 < samples.length → samples.getD (i + 2) 0 = 2 * factor * samples.getD (i + 1) 0 - samples.getD i 0

theorem IsTone.tail {factor x : Rat} {l : List Rat} (h : IsTone factor (x :: l)) : IsTone factor l := by
  intro i hi
  have := h (i + 1) (by simp; omega)
  simpa using this

/-- Samples that follow the recurrence are the tone with their first pair. -/
theorem IsTone.eq_resonate {factor : Rat} : ∀ {l : List Rat} {x y : Rat}, IsTone factor (x :: y :: l) →
    x :: y :: l = resonate factor (l.length + 2) x y := by
  intro l
  induction l with
  | nil => intro x y _; rfl
  | cons z l ih =>
    intro x y h
    have hz : z = 2 * factor * y - x := by simpa using h 0 (by simp)
    have := ih h.tail
    rw [this, hz]
    rfl

/-- The sums of the recurrence give a tone's factor. -/
theorem IsTone.recurrence {factor : Rat} : ∀ {l : List Rat}, IsTone factor l →
    (recurrence l).1 = factor * (recurrence l).2
  | [], _ => by simp [Machine.recurrence]
  | [_], _ => by simp [Machine.recurrence]
  | [_, _], _ => by simp [Machine.recurrence]
  | x :: y :: z :: l, h => by
    have hz : z = 2 * factor * y - x := by simpa using h 0 (by simp)
    have ih := IsTone.recurrence h.tail
    simp only [Machine.recurrence]
    rw [ih, hz]
    ring

/-- The divisor of the recurrence is above 0 when an inner sample is not 0. -/
theorem recurrence_pos : ∀ {l : List Rat} (i : Nat), i + 2 < l.length → l.getD (i + 1) 0 ≠ 0 → 0 < (recurrence l).2
  | [], i, h, _ => by simp at h
  | [_], i, h, _ => by simp at h
  | [_, _], i, h, _ => by simp at h
  | x :: y :: z :: l, i, h, hx => by
    have nonneg : ∀ m : List Rat, 0 ≤ (recurrence m).2 := by
      intro m
      induction m with
      | nil => simp [recurrence]
      | cons a m ih =>
        match m, ih with
        | [], _ => simp [recurrence]
        | [_], _ => simp [recurrence]
        | b :: c :: m, ih =>
          simp only [recurrence] at ih ⊢
          have := mul_self_nonneg b
          nlinarith
    simp only [recurrence]
    cases i with
    | zero =>
      have hy : y ≠ 0 := by simpa using hx
      have := mul_self_pos.2 hy
      have := nonneg (y :: z :: l)
      nlinarith
    | succ i =>
      have := recurrence_pos (l := y :: z :: l) i (by simpa using h) (by simpa using hx)
      have := mul_self_nonneg y
      nlinarith

/-- A tone's own factor is found. -/
theorem IsTone.ownFactor {factor : Rat} {l : List Rat} (h : IsTone factor l) (i : Nat) (hi : i + 2 < l.length)
    (hx : l.getD (i + 1) 0 ≠ 0) : ownFactor [l] = some factor := by
  have pos := recurrence_pos i hi hx
  have sums := h.recurrence
  simp only [Machine.ownFactor, List.map_cons, List.map_nil, List.sum_cons, List.sum_nil, add_zero]
  rw [if_neg pos.ne', sums, mul_div_assoc, div_self pos.ne', mul_one]

/-- A fit takes no more than the samples have. -/
theorem fitTone_le (factor : Rat) (l : List Rat) : (fitTone factor l).2 ≤ dot l l := by
  unfold fitTone
  dsimp only
  split
  · exact le_rfl
  · exact min_le_left _ _

/-- The least squares of a tone of the factor tried give its own first samples. -/
theorem IsTone.coefficients {factor x y : Rat} {l : List Rat} (h : IsTone factor (x :: y :: l)) :
    let z := x :: y :: l
    let u := resonate factor z.length 1 0
    let v := resonate factor z.length 0 1
    let det := dot u u * dot v v - dot u v * dot u v
    det ≠ 0 → (dot v v * dot z u - dot u v * dot z v) / det = x ∧ (dot u u * dot z v - dot u v * dot z u) / det = y := by
  intro z u v det hdet
  have key := fun w => dot_resonate factor (l.length + 2) w x y 1 0 0 1 x y (by ring) (by ring)
  rw [← h.eq_resonate] at key
  have hu : dot z u = x * dot u u + y * dot v u := key u
  have hv : dot z v = x * dot u v + y * dot v v := key v
  rw [dot_comm v u] at hu
  constructor
  · rw [div_eq_iff hdet, hu, hv]; ring
  · rw [div_eq_iff hdet, hu, hv]; ring

/-- A tone of the factor tried is taken whole. -/
theorem IsTone.fitTone {factor : Rat} {l : List Rat} (h : IsTone factor l) : (fitTone factor l).2 = dot l l := by
  unfold Machine.fitTone
  dsimp only
  split
  · rfl
  · next hdet =>
    match l, h, hdet with
    | [], _, hdet => simp [resonate] at hdet
    | [x], _, hdet => simp [resonate, dot] at hdet
    | x :: y :: l, h, hdet =>
      obtain ⟨ha, hb⟩ := h.coefficients hdet
      have key := dot_resonate factor (l.length + 2) (x :: y :: l) x y 1 0 0 1 x y (by ring) (by ring)
      rw [← h.eq_resonate] at key
      rw [ha, hb]
      apply min_eq_left
      rw [key, dot_comm (x :: y :: l), dot_comm (x :: y :: l)]
      exact le_rfl

/-! ### The best fit -/

/-- The best fit is one of the fits, and none has more energy. -/
theorem bestFit_spec : ∀ {l : List ToneFit} {f : ToneFit}, bestFit l = some f → f ∈ l ∧ ∀ g ∈ l, g.energy ≤ f.energy
  | [], _, h => by cases h
  | x :: l, f, h => by
    unfold bestFit at h
    cases hb : bestFit l with
    | none =>
      rw [hb] at h
      cases h
      refine ⟨List.mem_cons_self, fun g hg => ?_⟩
      cases l with
      | nil => simp at hg; rw [hg]
      | cons y l =>
        exfalso
        unfold bestFit at hb
        revert hb
        split
        · intro hb; cases hb
        · intro hb; split at hb <;> cases hb
    | some y =>
      have ⟨hm, hmax⟩ := bestFit_spec hb
      rw [hb] at h
      simp only at h
      split at h
      · next hlt =>
        cases h
        refine ⟨List.mem_cons_of_mem _ hm, fun g hg => ?_⟩
        rcases List.mem_cons.1 hg with rfl | hg
        · exact hlt.le
        · exact hmax g hg
      · next hlt =>
        cases h
        refine ⟨List.mem_cons_self, fun g hg => ?_⟩
        rcases List.mem_cons.1 hg with rfl | hg
        · exact le_rfl
        · exact (hmax g hg).trans (not_lt.1 hlt)

/-- Fits of which none has more energy than w have no better one; with one that has w, that is the best energy. -/
theorem bestEnergy_le {l : List ToneFit} {w : Rat} (hw : 0 ≤ w) (h : ∀ f ∈ l, f.energy ≤ w) : bestEnergy l ≤ w := by
  unfold bestEnergy
  cases hb : bestFit l with
  | none => simpa using hw
  | some f => simpa using h f (bestFit_spec hb).1

theorem bestEnergy_eq {l : List ToneFit} {w : Rat} (h : ∀ f ∈ l, f.energy ≤ w) (f : ToneFit) (hf : f ∈ l)
    (he : f.energy = w) : bestEnergy l = w := by
  unfold bestEnergy
  cases hb : bestFit l with
  | none =>
    cases l with
    | nil => cases hf
    | cons y l =>
      exfalso
      unfold bestFit at hb
      revert hb
      split
      · intro hb; cases hb
      · intro hb; split at hb <;> cases hb
  | some g =>
    have ⟨hm, hmax⟩ := bestFit_spec hb
    simpa using le_antisymm (h g hm) (he ▸ hmax f hf)

/-! ### A block that is a tone of the band -/

/-- A block in one part has no step of phase. -/
theorem departures_unbroken (factor : Rat) (l : List Rat) : (fitParts [l] factor).departures = [] := by
  unfold ToneFit.departures fitParts spansOf
  dsimp only
  split <;> rfl

/-- An unbroken fit has the energy of its one part. -/
theorem fitParts_unbroken {factor : Rat} {l : List Rat} (h : 2 ≤ l.length) :
    (fitParts [l] factor).energy = (fitTone factor l).2 := by
  simp [fitParts, partEnergy, not_lt.2 h]

/-- The unbroken fits: no more energy than the block, no step of phase, and the same wholeness. -/
theorem mem_fitsOf_unbroken {l : List Rat} {f : ToneFit} (hl : 2 ≤ l.length) (h : f ∈ fitsOf [[l]]) :
    f.energy ≤ dot l l ∧ f.departures = [] ∧ f.wholeness = l.length ^ 2 := by
  simp only [fitsOf, List.flatMap_cons, List.flatMap_nil, List.append_nil, List.mem_map] at h
  obtain ⟨c, _, rfl⟩ := h
  refine ⟨fitParts_unbroken hl ▸ fitTone_le c l, departures_unbroken c l, ?_⟩
  simp [ToneFit.wholeness, fitParts, spansOf, not_lt.2 hl]

/-- The unbroken fits of a tone start with the tone itself. -/
theorem IsTone.fitsOf {factor : Rat} {l : List Rat} (h : IsTone factor l) (lower : -1 < factor) (upper : factor < 1)
    (i : Nat) (hi : i + 2 < l.length) (hx : l.getD (i + 1) 0 ≠ 0) :
    ∃ rest, fitsOf [[l]] = fitParts [l] factor :: rest := by
  refine ⟨(bandFactors.filter fun c => decide (-1 ≤ c) && decide (c ≤ 1)).map (fitParts [l]), ?_⟩
  simp [Machine.fitsOf, h.ownFactor i hi hx, lower.le, upper.le]

/-- A tone leaves nothing of itself. -/
theorem IsTone.energy {factor : Rat} {l : List Rat} (h : IsTone factor l) (hl : 2 ≤ l.length) :
    (fitParts [l] factor).energy = dot l l := (fitParts_unbroken hl).trans h.fitTone

/-- The fits of a tone are unbroken. -/
theorem IsTone.toneFits {factor : Rat} {l : List Rat} (h : IsTone factor l) (lower : -1 < factor) (upper : factor < 1)
    (i : Nat) (hi : i + 2 < l.length) (hx : l.getD (i + 1) 0 ≠ 0) : toneFits l = Machine.fitsOf [[l]] := by
  unfold Machine.toneFits
  dsimp only
  obtain ⟨rest, fits⟩ := h.fitsOf lower upper i hi hx
  rw [if_pos]
  rw [fits, List.any_cons, h.energy (by omega)]
  simp

/-- A factor of the band is a cosine below 1. -/
theorem inBand_range {factor : Rat} (band : inBand factor = true) : -1 < factor ∧ factor < 1 := by
  simp only [inBand, Bool.and_eq_true, decide_eq_true_eq] at band
  constructor <;> [refine lt_of_lt_of_le ?_ band.1; refine lt_of_le_of_lt band.2 ?_] <;> norm_num

/-- The first fit is the best where no other has more energy. -/
theorem bestFit_head {f : ToneFit} {l : List ToneFit} (h : ∀ g ∈ l, g.energy ≤ f.energy) : bestFit (f :: l) = some f := by
  unfold bestFit
  cases hb : bestFit l with
  | none => rfl
  | some g => exact if_neg (not_lt.2 (h g (bestFit_spec hb).1))

/-- What fits may leave is nothing where one of them leaves nothing. -/
theorem mayLeave_zero {own : Rat} {fits : List ToneFit} (hw : 0 ≤ own) (h : bestEnergy fits = own) :
    mayLeave own fits = 0 := by
  unfold mayLeave
  dsimp only
  rw [h, sub_self, mul_zero, if_pos hw, mul_zero, min_eq_left (by positivity)]

/-- Of fits that part a block alike, the first is plain where it leaves nothing. -/
theorem plainFits_head {own : Rat} {f : ToneFit} {l : List ToneFit} (hw : 0 ≤ own) (he : f.energy = own)
    (h : ∀ g ∈ l, g.energy ≤ own ∧ g.wholeness = f.wholeness) :
    ∃ rest, plainFits own (f :: l) = f :: rest ∧ ∀ g ∈ rest, g ∈ l := by
  have best : bestEnergy (f :: l) = own := by
    refine bestEnergy_eq (fun g hg => ?_) f List.mem_cons_self he
    rcases List.mem_cons.1 hg with rfl | hg
    · exact he.le
    · exact (h g hg).1
  refine ⟨(l.filter fun g => decide (own - g.energy ≤ 0)), ?_, fun g hg => (List.mem_filter.1 hg).1⟩
  unfold plainFits
  dsimp only
  rw [mayLeave_zero hw best, List.filter_cons_of_pos (by simp [he])]
  have same : ∀ x ∈ f :: l.filter fun g => decide (own - g.energy ≤ 0), x.wholeness = f.wholeness := by
    intro x hx
    rcases List.mem_cons.1 hx with rfl | hx
    · rfl
    · exact (h x (List.mem_filter.1 hx).1).2
  have most : ∀ near : List ToneFit, (∀ x ∈ near, x.wholeness = f.wholeness) →
      near.foldr (fun x most => max x.wholeness most) 0 ≤ f.wholeness := by
    intro near hn
    induction near with
    | nil => simp
    | cons x near ih =>
      exact max_le (hn x List.mem_cons_self).le (ih fun y hy => hn y (List.mem_cons_of_mem _ hy))
  refine List.filter_eq_self.2 fun g hg => decide_eq_true ?_
  rw [same g hg]
  exact most _ same

/-- A tone is the plainest of its fits, and of those of its band. -/
theorem IsTone.plainest {factor : Rat} {l : List Rat} (h : IsTone factor l) (lower : -1 < factor) (upper : factor < 1)
    (i : Nat) (hi : i + 2 < l.length) (hx : l.getD (i + 1) 0 ≠ 0) (keep : ToneFit → Bool)
    (hk : keep (fitParts [l] factor) = true) :
    plainest (dot l l) ((Machine.toneFits l).filter keep) = some (fitParts [l] factor) := by
  have hl : 2 ≤ l.length := by omega
  have mem := fun f => mem_fitsOf_unbroken (f := f) hl
  rw [h.toneFits lower upper i hi hx]
  obtain ⟨rest, fits⟩ := h.fitsOf lower upper i hi hx
  have head := mem _ (fits ▸ List.mem_cons_self)
  rw [fits, List.filter_cons_of_pos hk]
  have less : ∀ g ∈ rest.filter keep, g.energy ≤ dot l l ∧ g.wholeness = (fitParts [l] factor).wholeness := by
    intro g hg
    have := mem g (fits ▸ List.mem_cons_of_mem _ (List.mem_filter.1 hg).1)
    exact ⟨this.1, this.2.2.trans head.2.2.symm⟩
  obtain ⟨others, plain, sub⟩ := plainFits_head (dot_nonneg l) (h.energy hl) less
  unfold Machine.plainest
  rw [plain]
  exact bestFit_head fun g hg => h.energy hl ▸ (less g (sub g hg)).1

/-- The best energy among those of a tone's fits that are kept is its own. -/
theorem IsTone.bestEnergy {factor : Rat} {l : List Rat} (h : IsTone factor l) (lower : -1 < factor) (upper : factor < 1)
    (i : Nat) (hi : i + 2 < l.length) (hx : l.getD (i + 1) 0 ≠ 0) (keep : ToneFit → Bool)
    (hk : keep (fitParts [l] factor) = true) : bestEnergy ((Machine.toneFits l).filter keep) = dot l l := by
  have hl : 2 ≤ l.length := by omega
  rw [h.toneFits lower upper i hi hx]
  obtain ⟨rest, fits⟩ := h.fitsOf lower upper i hi hx
  refine bestEnergy_eq (fun f hf => (mem_fitsOf_unbroken hl (List.mem_filter.1 hf).1).1) (fitParts [l] factor) ?_
    (h.energy hl)
  exact List.mem_filter.2 ⟨fits ▸ List.mem_cons_self, hk⟩

/-- In a block that is a tone of the band all the energy is in the band (R103). -/
theorem IsTone.bandBounds {factor : Rat} {l : List Rat} (h : IsTone factor l) (band : inBand factor = true)
    (i : Nat) (hi : i + 2 < l.length) (hx : l.getD (i + 1) 0 ≠ 0) : bandBounds l = (dot l l, dot l l) := by
  have range := inBand_range band
  have own := dot_nonneg l
  have kept : inBand (fitParts [l] factor).factor = true := band
  have one : (fitParts [l] factor).isOneTone = true := by unfold ToneFit.isOneTone; rw [departures_unbroken]; rfl
  have most := h.bestEnergy range.1 range.2 i hi hx (fun f => inBand f.factor) band
  have least := h.bestEnergy range.1 range.2 i hi hx (fun f => f.isOneTone && inBand f.factor) (by simp [one, kept])
  have plain := h.plainest range.1 range.2 i hi hx (fun _ => true) rfl
  rw [List.filter_true] at plain
  unfold Machine.bandBounds
  simp only [plain, kept, if_true, List.filter_filter, most, least]
  have two : 2 * dot l l - dot l l = dot l l := by ring
  rw [two, max_eq_right own]

/-- A band level is that of an energy within the bounds. -/
theorem toneBandLevel_of_bounds {l : List Rat} {e : Rat} (n : ChannelNo) (block : Nat) (send : Bool)
    (h : bandBounds l = (e, e)) (hx : ∃ x ∈ l, x ≠ 0) : toneBandLevel n block send l = blockLevel (linRat e) := by
  unfold toneBandLevel
  rw [if_neg]
  · dsimp only
    rw [h]
    congr 2
    exact max_eq_left (min_le_left _ _)
  · intro hall
    obtain ⟨x, hm, hne⟩ := hx
    exact hne (by simpa using List.all_eq_true.1 hall x hm)

/-- A block that is a tone of the band has the direction level as its tone-band level (R103). -/
theorem IsTone.toneBandLevel {factor : Rat} {l : List Rat} (h : IsTone factor l) (band : inBand factor = true)
    (i : Nat) (hi : i + 2 < l.length) (hx : l.getD (i + 1) 0 ≠ 0) (n : ChannelNo) (block : Nat) (send : Bool) :
    toneBandLevel n block send l = directionLevel l := by
  refine toneBandLevel_of_bounds n block send (h.bandBounds band i hi hx) ⟨l.getD (i + 1) 0, ?_, hx⟩
  rw [List.getD_eq_getElem _ _ (by omega)]
  exact List.getElem_mem _

/-! ### Reversals of a tone of the band (R104) -/

/-- A tone of the band is its own fit, and clear. -/
theorem IsTone.clearFit {factor : Rat} {l : List Rat} (h : IsTone factor l) (band : inBand factor = true)
    (i : Nat) (hi : i + 2 < l.length) (hx : l.getD (i + 1) 0 ≠ 0) :
    clearFit l = some (.clear, fitParts [l] factor) := by
  have range := inBand_range band
  have fit : bandFit l = some (fitParts [l] factor) :=
    h.plainest range.1 range.2 i hi hx (fun f => inBand f.factor) band
  have own := dot_nonneg l
  simp [Machine.clearFit, fit, ToneFit.clarity, h.energy (by omega : 2 ≤ l.length), own]

/-- A tone fitted to itself has its own first samples. -/
theorem IsTone.fitPair {factor x y : Rat} {l : List Rat} (h : IsTone factor (x :: y :: l)) :
    (Machine.fitTone factor (x :: y :: l)).1 = (x, y) := by
  unfold Machine.fitTone
  dsimp only
  split
  · rfl
  · next hdet =>
    obtain ⟨ha, hb⟩ := h.coefficients hdet
    rw [ha, hb]

/-- Some samples later a tone has the pair that stands there. -/
theorem goOn_eq {factor : Rat} : ∀ {l : List Rat} {x y u v : Rat} {m : List Rat},
    IsTone factor (x :: y :: l ++ u :: v :: m) → goOn factor (l.length + 2) (x, y) = (u, v)
  | [], x, y, u, v, m, h => by
    have h0 := h 0 (by simp)
    have h1 := h 1 (by simp)
    simp at h0 h1
    simp [goOn, h0, h1]
  | z :: l, x, y, u, v, m, h => by
    have h0 := h 0 (by simp)
    simp at h0
    have := goOn_eq (l := l) (x := y) (y := z) (u := u) (v := v) (m := m) (by simpa using h.tail)
    rw [h0] at this
    exact this

/-- The inner product of a tone with itself is above 0. -/
theorem alike_pos {factor u v : Rat} (lower : -1 < factor) (upper : factor < 1) (h : u ≠ 0 ∨ v ≠ 0) :
    0 < alike factor (u, v) (u, v) := by
  simp only [alike]
  have : u * u - factor * (u * v + u * v) + v * v
      = (1 + factor) / 2 * ((u - v) * (u - v)) + (1 - factor) / 2 * ((u + v) * (u + v)) := by ring
  have h1 := mul_self_nonneg (u - v)
  have h2 := mul_self_nonneg (u + v)
  have : v * u = u * v := mul_comm _ _
  rcases eq_or_ne u v with rfl | hne
  · have hu : u ≠ 0 := by tauto
    have := mul_self_pos.2 hu
    nlinarith
  · have := mul_self_pos.2 (sub_ne_zero.2 hne)
    nlinarith

/-- A block that is a tone of the band shows no reversal where no block that carries the tone stands before it (R104). -/
theorem IsTone.toneReversal {factor : Rat} {l : List Rat} (h : IsTone factor l) (band : inBand factor = true)
    (i : Nat) (hi : i + 2 < l.length) (hx : l.getD (i + 1) 0 ≠ 0) (n : ChannelNo) (block : Nat) (send : Bool)
    (before : List Rat) (none : carriesTone n (block - 1) send before = false) :
    toneReversal n block send before l = false := by
  unfold Machine.toneReversal
  dsimp only
  rw [none, h.clearFit band i hi hx]
  simp [reversalSeen, reversalAmong, departures_unbroken]

/-- The samples of a tone are not two zeros in a row, unless all are. -/
theorem IsTone.pair_ne {factor x y : Rat} : ∀ {l : List Rat}, IsTone factor (x :: y :: l) → (∃ z ∈ x :: y :: l, z ≠ 0) →
    x ≠ 0 ∨ y ≠ 0 := by
  intro l h hz
  by_contra hc
  obtain ⟨rfl, rfl⟩ := not_or.1 hc |>.imp not_not.1 not_not.1
  rw [h.eq_resonate] at hz
  have zero : ∀ k, ∀ z ∈ resonate factor k 0 0, z = 0 := by
    intro k
    induction k with
    | zero => intro z hz; simp [resonate] at hz
    | succ k ih =>
      intro z hz
      simp only [resonate, List.mem_cons] at hz
      rcases hz with rfl | hz
      · rfl
      · exact ih z (by simpa using hz)
  obtain ⟨z, hm, hne⟩ := hz
  exact hne (zero _ z hm)

/-- Across the boundary from a tone block, a block that goes on with it shows no reversal, and one that goes on with it
negated shows one (R104). -/
theorem IsTone.toneReversal_across {factor sign : Rat} (hs : sign = 1 ∨ sign = -1) {m l : List Rat}
    (h : IsTone factor (m ++ l.map (sign * ·))) (hl : IsTone factor l) (band : inBand factor = true)
    (i : Nat) (hi : i + 2 < l.length) (hx : l.getD (i + 1) 0 ≠ 0)
    (hm : IsTone factor m) (j : Nat) (hj : j + 2 < m.length) (hy : m.getD (j + 1) 0 ≠ 0)
    (n : ChannelNo) (block : Nat) (send : Bool) (carries : carriesTone n (block - 1) send m = true) :
    Machine.toneReversal n block send m l = decide (sign = -1) := by
  have range := inBand_range band
  unfold Machine.toneReversal
  dsimp only
  rw [carries, hl.clearFit band i hi hx, hm.clearFit band j hj hy]
  match m, l, hi, hx, hj, h, hl, hm with
  | x :: y :: m, u :: v :: l, hi, hx, hj, h, hl, hm =>
    have ne := hl.pair_ne ⟨_, by rw [List.getD_eq_getElem _ _ (by omega)]; exact List.getElem_mem _, hx⟩
    have pos := alike_pos range.1 range.2 ne
    have go : goOn factor (m.length + 2) (x, y) = (sign * u, sign * v) := goOn_eq (by simpa using h)
    have departs : boundaryDeparture (fitParts [x :: y :: m] factor) (fitParts [u :: v :: l] factor) =
        [{ factor := factor, undisturbed := (sign * u, sign * v), actual := (u, v) }] := by
      simp [boundaryDeparture, fitParts, spansOf, hm.fitPair, hl.fitPair, Span.stepTo, go]
    have seen : ∀ free, reversalSeen free (some (.clear, fitParts [x :: y :: m] factor)) .clear (fitParts [u :: v :: l] factor) =
        PhaseStep.within { factor := factor, undisturbed := (sign * u, sign * v), actual := (u, v) } reversalAngle := by
      intro free
      simp [reversalSeen, reversalAmong, Clarity.worse, departures_unbroken, departs, lasts]
    refine (seen _).trans ?_
    simp only [PhaseStep.within]
    rcases hs with rfl | rfl
    · have same : alike factor (1 * u, 1 * v) (u, v) = alike factor (u, v) (u, v) := by simp
      simp only [same, not_lt.2 pos.le]
      norm_num
    · have e1 : alike factor (-1 * u, -1 * v) (u, v) = -alike factor (u, v) (u, v) := by simp only [alike]; ring
      have e2 : alike factor (-1 * u, -1 * v) (-1 * u, -1 * v) = alike factor (u, v) (u, v) := by simp only [alike]; ring
      have angle : reversalAngle ≤ 1 := by norm_num [reversalAngle]
      have le : reversalAngle * alike factor (u, v) (u, v) * alike factor (u, v) (u, v) ≤
          -alike factor (u, v) (u, v) * -alike factor (u, v) (u, v) := by nlinarith [mul_pos pos pos]
      simp only [e1, e2, Left.neg_neg_iff, pos, le]
      rfl

end Sys2Proof.Machine
end

