-- ==== Sys2Proof/Laws/Writes.lean ====
section
/-! SUPPORT. The checks of a WRITE to CHANNEL_CONFIG (R3): what the records of one WRITE come to, one after another. -/

namespace Sys2Proof.Machine

/-- The records of a WRITE as sent, and the records they are. -/
def OverlayOf (earlier : List (ChannelNo × RawRecord)) (o : Overlay) : Prop :=
  List.Forall₂ (fun x y => y.1 = x.1 ∧ x.2.decode = some y.2) earlier o

/-- A record names a timeslot when its fields do. -/
theorem decode_names {r : RawRecord} {c : ConfigRecord} (h : r.decode = some c) (t : Nat) :
    c.names t = true ↔ r.Names t := by
  unfold RawRecord.decode at h
  split at h
  · rename_i mode timeslot _ _ _ _ hm ht _ _ _ _
    split at h
    · cases h
      have hm' : mode ≠ .off ↔ r.mode ≠ 0 := by
        generalize r.mode = k at hm ⊢
        unfold modeOfCode at hm
        split at hm <;> cases hm <;> simp
      have ht' : timeslot.val = r.timeslot := by
        unfold channelOfCode at ht
        split at ht <;> cases ht
        rfl
      simp only [ConfigRecord.names, RawRecord.Names, Bool.and_eq_true, decide_eq_true_eq]
      rw [hm', ht']
    · cases h
  · cases h

/-- Check 2 of R3, over the records as sent. -/
theorem takenIn_iff (s : State) {earlier : List (ChannelNo × RawRecord)} {o : Overlay} (h : OverlayOf earlier o)
    (distinct : (earlier.map Prod.fst).Nodup) (n : ChannelNo) (t : Nat) :
    s.timeslotTaken o n t = true ↔ s.TakenIn earlier n t := by
  have find : ∀ m, (∃ r, (m, r) ∈ earlier ∧ ∃ c, s.pendingIn o m = some c ∧ r.decode = some c) ∨
      (∀ r, (m, r) ∉ earlier) ∧ s.pendingIn o m = (s.channel m).pendingRecord := by
    intro m
    unfold State.pendingIn
    clear distinct
    induction h with
    | nil => right; exact ⟨by simp, rfl⟩
    | @cons x y l l' hxy _ ih =>
      rw [List.find?_cons]
      by_cases hm : y.1 = m
      · left
        refine ⟨x.2, ?_, y.2, by simp [hm], hxy.2⟩
        rw [← hm, hxy.1]; exact List.mem_cons_self
      · simp only [hm, decide_false]
        rcases ih with ⟨r, hr, rest⟩ | ⟨hn, rest⟩
        · left; exact ⟨r, List.mem_cons_of_mem _ hr, rest⟩
        · right
          refine ⟨fun r hr => ?_, rest⟩
          rcases List.mem_cons.1 hr with e | e
          · apply hm; rw [hxy.1, ← e]
          · exact hn r e
  have uniq : ∀ m r r', (m, r) ∈ earlier → (m, r') ∈ earlier → r = r' := by
    intro m r r' h1 h2
    have := List.inj_on_of_nodup_map distinct h1 h2 rfl
    exact (Prod.mk.inj this).2
  unfold State.timeslotTaken State.TakenIn
  rw [List.any_eq_true]
  constructor
  · rintro ⟨m, _, h⟩
    simp only [Bool.and_eq_true, Bool.or_eq_true, decide_eq_true_eq] at h
    refine ⟨m, h.1, ?_⟩
    rcases h.2 with h | h
    · left; simpa [ConfigRecord.names] using h
    · rcases find m with ⟨r, hr, c, hc, hd⟩ | ⟨hn, hp⟩
      · right; left
        rw [hc] at h
        exact ⟨r, hr, (decode_names hd t).1 (by simpa using h)⟩
      · right; right
        refine ⟨hn, ?_⟩
        rw [hp] at h
        cases hq : (s.channel m).pendingRecord with
        | none => rw [hq] at h; simp at h
        | some c => rw [hq] at h; exact ⟨c, rfl, by simpa [ConfigRecord.names] using h⟩
  · rintro ⟨m, hm, h⟩
    refine ⟨m, List.mem_finRange m, ?_⟩
    simp only [Bool.and_eq_true, Bool.or_eq_true, decide_eq_true_eq]
    refine ⟨hm, ?_⟩
    rcases h with h | ⟨r, hr, h⟩ | ⟨hn, c, hc, h⟩
    · left; simpa [ConfigRecord.names] using h
    · right
      rcases find m with ⟨r', hr', c, hc, hd⟩ | ⟨hn, hp⟩
      · rw [hc]
        rw [uniq m r r' hr hr'] at h
        simpa using (decode_names hd t).2 h
      · exact absurd hr (hn r)
    · right
      rcases find m with ⟨r', hr', _⟩ | ⟨_, hp⟩
      · exact absurd hr' (hn r')
      · rw [hp, hc]; simpa [ConfigRecord.names] using h

/-- The checks of R3 on one record. -/
theorem checkRecord_iff (s : State) (p : Plane) {earlier : List (ChannelNo × RawRecord)} {o : Overlay}
    (h : OverlayOf earlier o) (distinct : (earlier.map Prod.fst).Nodup) (n : ChannelNo) (r : RawRecord) :
    (∀ st, s.checkRecord p o n r = .error st ↔ s.RefusesRecord p earlier n r st) ∧
    (∀ c, s.checkRecord p o n r = .ok c → r.decode = some c) ∧
    ((∀ st, ¬s.RefusesRecord p earlier n r st) → ∃ c, s.checkRecord p o n r = .ok c) := by
  have taken := takenIn_iff s h distinct n r.timeslot
  have holds : s.holds p (channelCode n) = true ↔ s.holder (channelCode n) = some p := by
    unfold State.holds; simp
  have first : ∀ st, s.checkRecord p o n r = .error st ↔ s.RefusesRecord p earlier n r st := by
    intro st
    unfold State.checkRecord State.RefusesRecord
    dsimp only
    rw [← taken]
    by_cases h1 : s.holder (channelCode n) = some p
    · have h1' := holds.2 h1
      simp only [h1', h1, ne_eq, not_true_eq_false, false_and, false_or, true_and, Bool.not_true, Bool.false_eq_true, if_false]
      by_cases h2 : r.mode ≠ 0 ∧ s.timeslotTaken o n r.timeslot = true
      · rw [if_pos h2]
        simp only [h2, not_false_eq_true, and_self, true_and, not_true_eq_false, false_and, or_false, Except.error.injEq]
        exact eq_comm
      · rw [if_neg h2]
        simp only [h2, false_and, not_false_eq_true, true_and, false_or]
        by_cases h3 : r.receiveUpper < r.receiveLower + 3 ∨ r.sendUpper < r.sendLower + 3
        · rw [if_pos h3]
          simp only [h3, not_true_eq_false, false_and, or_false, true_and, Except.error.injEq]
          exact eq_comm
        · rw [if_neg h3]
          simp only [h3, false_and, not_false_eq_true, true_and, false_or]
          cases r.decode with
          | none => simp only [true_and, Except.error.injEq]; exact eq_comm
          | some c => simp
    · have h1' : ¬s.holds p (channelCode n) = true := fun x => h1 (holds.1 x)
      have h1'' : (!s.holds p (channelCode n)) = true := by simpa using h1'
      rw [if_pos h1'']
      simp only [h1, ne_eq, not_false_eq_true, true_and, false_and, or_false, Except.error.injEq]
      exact eq_comm
  refine ⟨first, ?_, fun hn => ?_⟩
  · intro c hc
    unfold State.checkRecord at hc
    repeat' split at hc
    all_goals first | (cases hc; assumption) | (cases hc)
  · cases hc : s.checkRecord p o n r with
    | ok c => exact ⟨c, rfl⟩
    | error st => exact absurd ((first st).1 hc) (hn st)

/-- The records of a WRITE: refused with the code of the first refused record, or all accepted (R3). -/
theorem checkRecords_spec (s : State) (p : Plane) : ∀ (items : List (ChannelNo × RawRecord)) (done : List (ChannelNo × RawRecord))
    (o : Overlay), OverlayOf done o → ((done ++ items).map Prod.fst).Nodup →
    (∀ earlier x later st, items = earlier ++ x :: later →
      (∀ first y rest, earlier = first ++ y :: rest → ∀ st, ¬s.RefusesRecord p (done ++ first) y.1 y.2 st) →
      s.RefusesRecord p (done ++ earlier) x.1 x.2 st → s.checkRecords p o items = .error st) ∧
    ((∀ first y rest, items = first ++ y :: rest → ∀ st, ¬s.RefusesRecord p (done ++ first) y.1 y.2 st) →
      ∃ o', s.checkRecords p o items = .ok o' ∧ OverlayOf (done ++ items) o')
  | [], done, o, h, _ => by
    refine ⟨fun earlier x later st e => ?_, fun _ => ⟨o, rfl, by simpa using h⟩⟩
    cases earlier <;> cases e
  | (n, r) :: items, done, o, h, distinct => by
    have dn : (done.map Prod.fst).Nodup := by
      rw [List.map_append] at distinct; exact distinct.of_append_left
    obtain ⟨refused, decoded, passed⟩ := checkRecord_iff s p h dn n r
    have next : ∀ c, s.checkRecord p o n r = .ok c → OverlayOf (done ++ [(n, r)]) (o ++ [(n, c)]) := by
      intro c hc
      unfold OverlayOf
      exact List.rel_append h (.cons ⟨rfl, decoded c hc⟩ .nil)
    have ih := fun c (hc : s.checkRecord p o n r = .ok c) =>
      checkRecords_spec s p items (done ++ [(n, r)]) (o ++ [(n, c)]) (next c hc) (by simpa using distinct)
    have none : (∀ st, ¬s.RefusesRecord p done n r st) →
        ∃ c, s.checkRecord p o n r = .ok c ∧ s.checkRecords p o ((n, r) :: items) = s.checkRecords p (o ++ [(n, c)]) items := by
      intro hn
      obtain ⟨c, hc⟩ := passed hn
      refine ⟨c, hc, ?_⟩
      conv_lhs => unfold State.checkRecords
      rw [hc]
    constructor
    · intro earlier x later st e hfirst hx
      cases earlier with
      | nil =>
        simp only [List.nil_append, List.cons.injEq] at e
        obtain ⟨rfl, rfl⟩ := e
        have := (refused st).2 (by simpa using hx)
        unfold State.checkRecords
        rw [this]
      | cons y earlier =>
        simp only [List.cons_append, List.cons.injEq] at e
        obtain ⟨rfl, rfl⟩ := e
        obtain ⟨c, hc, step⟩ := none (by simpa using hfirst [] (n, r) earlier rfl)
        rw [step]
        refine (ih c hc).1 earlier x later st rfl ?_ (by simpa using hx)
        intro first z rest e
        have := hfirst ((n, r) :: first) z rest (by rw [e]; rfl)
        simpa using this
    · intro hall
      obtain ⟨c, hc, step⟩ := none (by simpa using hall [] (n, r) items rfl)
      rw [step]
      obtain ⟨o', h1, h2⟩ := (ih c hc).2 (by
        intro first z rest e
        have := hall ((n, r) :: first) z rest (by rw [e]; rfl)
        simpa using this)
      exact ⟨o', h1, by simpa using h2⟩

end Sys2Proof.Machine
end

