-- ==== Sys2Proof/Tests/Slice0.lean ====
section
/-! SUPPORT. Tests: the checks of WellFormed, worked examples of the spec, and for each statement of
Certificates/Slice0/Obligations.lean states and operands that meet its hypotheses together. -/

namespace Sys2Proof.Tests

set_option Elab.async false

open Sys2Proof Sys2Proof.Machine

/-! ### Small states -/

/-- Arguments: an argument 1, the list W0 and a start delay. -/
def args (arg1 : Word) (delay : Word := 320) : Args := { arg1 := arg1, listField := 128, delayField := delay }

/-- The list of channel 5, and W0. -/
def c5 : ChainCode := 5
def w0 : ChainCode := 128

/-- The part after reset, framed, in a frame of the given block phase. -/
def framed (phase : Nat) : State :=
  { State.reset with hwi := { State.reset.hwi with framing := .framed, candidate := some 7, phase := phase } }

/-- A list filled with segments of F at start delays. -/
def filled (s : State) (c : ChainCode) (l : List (SegNo × Nat)) : State :=
  { s with
    free := s.free.filter fun g => !l.any fun x => decide (x.1 = g)
    chains := s.chains.set c.val (l.map Prod.fst)
    segments := l.foldl (fun v x => v.set x.1.val { Segment.free with startDelay := some x.2 }) s.segments }

/-- Sixteen segments at start delays 0, 64 and so on from a first delay. -/
def sixteen (first step : Nat) : List (SegNo × Nat) :=
  (List.finRange 16).map fun i => (⟨i.val, Nat.lt_trans i.isLt (by decide)⟩, first + step * i.val)

/-- A command waiting in a panel. -/
def waiting (s : State) (p : Plane) (code : CommandCode) (a : Args) : State :=
  s.modPanel p fun _ => .take { code := code, args := a } .pending

/-- LC in the middle of a panel's command, with F's first segment in transit. -/
def working (s : State) (p : Plane) (w : LcWork) : State :=
  { s with lc := { s.lc with current := some { work := w, issuer := .panel p } }, transit := some 0,
           free := s.free.erase 0 }

/-- The Purge Engine in a state, with channel 5's list in the batch. -/
def purging (s : State) (engine : Engine) : State :=
  { s with pge := { s.pge with
      engine := engine, batch := [.joining c5 .ofInternal]
      gatherTimer := decide (engine = .gathering), suspendTimer := decide (engine = .suspended)
      clear := if engine = .running ∨ engine = .suspending then some { list := c5, segment := 0, disturbed := false }
        else none } }

/-- Channel 5 in ACTIVE, then changed. -/
def active (s : State) (f : Channel → Channel := id) : State :=
  s.modChannel 5 fun c => f { c with governing := { c.governing with mode := .active } }

/-- Channel 5 in ACTIVE at its block boundary, its list holding segment 0 at start delay 320. -/
def closing (f : Channel → Channel := id) : State :=
  (active (filled (framed 31) c5 [(0, 320)]) f).modMark 5 ({ · with arrived := true })

/-- A sum of squares of 32 samples whose level is the given one in 0.1 dBm0. -/
def power (tenths : Int) : Lin := linScale 32 (levelPower tenths)

/-- A counted block in progress: Rin at −10 dBm0, the given Sin and error levels, no Sin peak. -/
def heard (sin error : Int) (c : Channel) : Channel :=
  { c with whollyRunning := true, standing := .adapt
           acc := { BlockAcc.zero with refPower := power (-100), sinPower := power sin, errorPower := power error } }

/-- The state a command leaves. -/
def after (i : Instr) (s : State) : State :=
  match exec i s with
  | .next t => t
  | .fault _ | .refused _ => s

/-- Channel 5 after its block boundary. -/
def decided (s : State) : Channel := (after (.blockBoundary 5) s).channel 5

/-! ### WellFormed: an ill-formed term for each check -/

theorem test_wellFormed_data_length :
    (Instr.write .a 2 0 1 []).wellFormed = false ∧ (Instr.write .a 2 0 1 (List.replicate 6 0)).wellFormed = true ∧
    (Instr.writeChannelConfig .a 0 1 (List.replicate 5 0)).wellFormed = false ∧
    (Instr.writeCoeff .b 0 2 [0]).wellFormed = false := by decide +kernel

theorem test_wellFormed_write_row :
    (Instr.writeChannelConfig .a 128 1 (List.replicate 6 0)).wellFormed = false ∧
    (Instr.writeChannelConfig .a 127 1 (List.replicate 6 0)).wellFormed = true ∧
    (Instr.writeCoeff .a 0 0 []).wellFormed = false ∧ (Instr.writeCoeff .a 65535 1 [1]).wellFormed = true ∧
    (Instr.write .a 1 0 1 (List.replicate 6 0)).wellFormed = false ∧
    (Instr.write .a 4 0 1 [0]).wellFormed = false ∧ (Instr.write .a 4 0 65 (List.replicate 65 0)).wellFormed = true := by
  decide +kernel

theorem test_wellFormed_badFrame :
    (Instr.badFrame .a (withCheck [0x04])).wellFormed = false ∧ (Instr.badFrame .a []).wellFormed = false ∧
    (Instr.badFrame .a [0x04]).wellFormed = false ∧ (Instr.badFrame .a [0x04, 0x00]).wellFormed = true ∧
    (Instr.badFrame .a [0x09]).wellFormed = true := by decide +kernel

theorem test_wellFormed_command :
    (Instr.command .a 0x01 (args 5)).wellFormed = false ∧ (Instr.command .a 0x06 (args 5)).wellFormed = true := by
  decide +kernel

/-! ### Worked examples and tables of the spec -/

/-- Section 5.11, one tap update: 13 steps, 6 in WATCHFUL, and the saturation of R85. -/
theorem test_tap_update :
    roundSteps (linMul (linScale (1 / 4) (linRat (1 / 100))) (linRat (5 / 100))) (linRat (32083 / 100000)) = 13 ∧
    roundSteps (linMul (linScale (1 / 8) (linRat (1 / 100))) (linRat (5 / 100))) (linRat (32083 / 100000)) = 6 ∧
    saturate 32760 13 = 32767 ∧ saturate 3277 13 = 3290 ∧ saturate 0x8000 (-1) = 0x8000 := by decide +kernel

/-- A value exactly half way is rounded toward zero (R85). -/
theorem test_tap_half_way :
    roundSteps (linRat 3) (linRat 65536) = 1 ∧ roundSteps (linRat (-3)) (linRat 65536) = -1 ∧
    roundSteps (linRat 1) (linRat 65536) = 0 ∧ roundSteps (linRat 4) (linRat 65536) = 2 := by decide +kernel

/-- R77: the ends and the idle codes of both laws. -/
theorem test_companding :
    expand .aLaw 0xD5 = 0 ∧ expand .aLaw 0x55 = 0 ∧ expand .muLaw 0xFF = 0 ∧ expand .aLaw 0xAA = 1 ∧
    expand .aLaw 0x2A = -1 ∧ expand .muLaw 0x80 = 1 ∧ expand .muLaw 0x00 = -1 ∧
    compand .aLaw [] = 0xD5 ∧ compand .muLaw [] = 0xFF ∧ compand .aLaw (linRat 1) = 0xAA ∧
    compand .muLaw (linRat (-1)) = 0x00 := by decide +kernel

/-- R78: a level and its ends. −20 dBm0 is a mean power of about 0.002506 (section 5.11). -/
theorem test_levels :
    levelOf (linRat (2506 / 1000000)) = -200 ∧ levelOf [] = -700 ∧ levelOf (linRat 1) = 30 ∧
    levelOf (levelPower (-451)) = -451 := by decide +kernel

/-- R100's table: the oldest and newest entries of the reference window. -/
theorem test_reference_window :
    windowPeak ((List.range 65).map fun i => linRat i) 320 896 = linRat 30 ∧
    windowPeak ((List.range 65).map fun i => linRat i) 1984 1984 = linRat 64 ∧
    windowPeak ((List.range 65).map fun i => linRat (100 - (i : Rat))) 320 896 = linRat 90 := by decide +kernel

/-- The start of the tone whose phase advances, from sample to sample, by the angle of the given cosine. -/
def tone (cosine : Rat) (length : Nat) : List Rat := resonate cosine length (1 / 4) 0

/-- A tone of about 2102 Hz whose phase is turned by half a turn from a sample on. -/
def reversedFrom (k length : Nat) : List Rat :=
  (tone (-2 / 25) length).take k ++ ((tone (-2 / 25) length).drop k).map (- ·)

/-- Samples of that tone from its first two on, given in millionths. -/
def toneFrom (length : Nat) (x y : Int) : List Rat := resonate (-2 / 25) length (x / 1000000) (y / 1000000)

/-- Whether a reversal is seen in some samples, directly after others that carry the tone, where nothing is free. -/
def sees (before samples : List Rat) : Bool :=
  match clearFit samples with
  | none => false
  | some (clarity, f) => reversalSeen false (clearFit before) clarity f

/-- R104: none in a steady tone; one in a tone that is reversed. -/
theorem test_phase_reversal :
    sees [] (tone (-2 / 25) 12) = false ∧ sees [] (reversedFrom 6 12) = true ∧ sees [] (reversedFrom 3 12) = true := by
  decide +kernel

/-- That tone over three samples, its negation over three, and four samples with a pair of their own. -/
def movedOn (x y : Int) : List Rat := toneFrom 3 216506 (-141920) ++ toneFrom 3 (-172928) (-166131) ++ toneFrom 4 x y

/-- R104: a reversal and a second step after it. A step of half a turn back counts, since it lasts; one of 145° or of 90° does
not, and what it makes of the first does not either. -/
theorem test_phase_reversal_lasts :
    sees [] (movedOn (-134209) 220982) = true ∧ sees [] (movedOn (-230917) 113964) = false ∧
    sees [] (movedOn (-210921) (-116905)) = false := by decide +kernel

/-- A tone with three samples disturbed. -/
def disturbed : List Rat := (((tone (-2 / 25) 10).set 2 (-1 / 5)).set 6 (-1 / 5)).set 8 (1 / 5)

/-- R104: what the block before is like does not count for a step within the block: one of 160° in a clear tone is seen after
a disturbed block. -/
theorem test_phase_reversal_after_disturbed :
    (clearFit disturbed).map Prod.fst = some .disturbed ∧
    sees disturbed (toneFrom 4 216506 (-141920) ++ toneFrom 4 (-220007) 135950) = true := by decide +kernel

/-- R104: across a boundary none in a steady tone, and one where the phase is turned at it or at the last sample before
it; not a second time in the block after that in which the step occurs. -/
theorem test_phase_reversal_across :
    let split := fun k => sees ((reversedFrom k 24).take 12) ((reversedFrom k 24).drop 12)
    split 24 = false ∧ split 12 = true ∧ split 11 = true ∧ split 6 = false := by decide +kernel

/-- That tone, with samples 0.06 and 0.2 before the turn and at it. -/
def lateTone : List Rat :=
  (resonate (-2 / 25) 8 (1 / 5) (3 / 50)).reverse ++ (resonate (-2 / 25) 10 (3 / 50) (1 / 5)).drop 2

/-- R104: half a turn at the last sample of a block is told by the next block, though that sample and the one before it have
a phase of their own that is near both; half a turn at the last sample but one is told by the block itself. -/
theorem test_phase_reversal_last_sample :
    let before := lateTone.take 7 ++ [-1 / 5]
    sees [] before = false ∧ sees before ((lateTone.drop 8).map (- ·)) = true ∧
    sees [] (lateTone.take 6 ++ [-3 / 50, -1 / 5]) = true := by decide +kernel

/-- R104: half a turn at a boundary that moves on at the last two samples of the block, by 60° or by 30°, does not last; by 20°
it does. -/
theorem test_phase_reversal_across_lasts :
    let split := fun x y => sees (toneFrom 8 250000 (-20000)) (toneFrom 6 (-200422) (164991) ++ toneFrom 2 x y)
    split (-140665) (-194757) = false ∧ split (-18483) (-247038) = false ∧ split (25091) (-249948) = true := by decide +kernel

/-- R104: the ends of the range, for a tone of 2000 Hz (the cosine 0, whose pair is its phase): 155° and 205° are within
25° of half a turn, 154° and 206° are not. The pairs are sine and cosine to six decimals. -/
theorem test_reversal_angle :
    let step := fun x y : Rat =>
      PhaseStep.within { factor := 0, undisturbed := (1, 0), actual := (x / 1000000, y / 1000000) } reversalAngle
    step (-906308) 422618 = true ∧ step (-906308) (-422618) = true ∧ step (-898794) 438371 = false ∧
    step (-898794) (-438371) = false ∧ step (-1000000) 0 = true ∧ step 1000000 0 = false := by decide +kernel

/-- R103: a tone of the band has all its energy in it, reversed or not; a tone of 1612 Hz, and those of 2076 Hz and 2121.2 Hz
just outside, have none; eight samples of 4000 Hz have none. -/
theorem test_tone_band :
    let whole := fun samples => decide (bandBounds samples = (dot samples samples, dot samples samples))
    whole (tone (-2 / 25) 12) = true ∧ whole (reversedFrom 6 12) = true ∧ bandBounds (tone (3 / 10) 12) = (0, 0) ∧
    bandBounds (tone (-6 / 100) 12) = (0, 0) ∧ bandBounds (tone (-95 / 1000) 12) = (0, 0) ∧
    bandBounds [1, -1, 1, -1, 1, -1, 1, -1] = (0, 0) := by decide +kernel

/-- R88: a purge that is taken and ends between two arrivals of a block leaves its mark clear, and the block that opens is
HOLD, as it is not for a block that was RUNNING throughout. -/
theorem test_mark_after_purge :
    let s := (closing (heard (-200) (-450))).setHolder c5 (some .a)
    let purged := after .segmentClearEnd (after .gatherTimerExpiry (after (.purge .a (args 5)) s))
    s.canceller 5 = .running ∧ purged.canceller 5 = .running ∧ (s.channel 5).whollyRunning = true ∧
    (purged.channel 5).whollyRunning = false ∧ (decided purged).standing = .hold ∧ (decided s).standing = .adapt := by
  decide +kernel

/-- R162: the CRC-8 of the nine digits is 0xF4 for the generator x⁸ + x² + x + 1 started at 0. -/
theorem test_check_byte : checkByte [0x31, 0x32, 0x33, 0x34, 0x35, 0x36, 0x37, 0x38, 0x39] = 0xF4 := by decide +kernel

/-- Section 2.7: the second link places segment 1 at start delay 0 before segment 0 at 320. -/
theorem test_pool_link :
    (after .allocateLink { filled State.reset c5 [(0, 320)] with
      free := (List.finRange 1024).drop 2, transit := some 1
      lc := { State.reset.lc with current := some { work := .allocate c5 0, issuer := .panel .a } } }).chain c5 = [1, 0] := by
  decide +kernel

/-- Section 2.7: the release puts segment 0 behind segment 1023. -/
theorem test_pool_release :
    (after .releaseLinkIntoF (working State.reset .a .release)).free = (List.finRange 1024).drop 1 ++ [0] := by
  decide +kernel

/-- Section 2.7: the exchange. -/
theorem test_pool_exchange :
    let t := after .swapTake (((waiting (filled (filled State.reset c5 [(1, 0)]) w0 [(2, 640)]) .a .swap
      (args 5)).setHolder c5 (some .a)).setHolder w0 (some .a))
    t.chain c5 = [2] ∧ t.chain w0 = [1] ∧ t.portA.panel.status = some .ok := by decide +kernel

/-- R172 and section 10.6: TRACK_MOVED of segment 700 from start delay 328 to 1984, raised at 258 ms to both queues. -/
theorem test_event_record :
    recordOfEvent { event := .trackMoved 5 700 328 1984, stamp := 258, both := true } =
      [5, 5, 1, 2, 0xAF, 0x0A, 0x5F, 1] := by decide +kernel

/-- R88 and R87: the boundary after a block that was wholly running with the far end active opens an ADAPT block. -/
theorem test_standing : (decided (closing (heard (-200) (-450)))).standing = .adapt := by decide +kernel

/-! ### Witnesses: the block as a whole, framing and the timebase -/

theorem test_hyp_StepExecutesFrontCommand :
    ({ State.reset with pending := [.stampTick, .missedSync] } : State).pending = .stampTick :: [.missedSync] := rfl

/-- Each clause: the expected position, another one, and the hunt at counts 0, 1, 2 and 3. -/
theorem test_hyp_SyncPulse :
    let lost := fun count candidate => { State.reset.hwi with huntCount := count, candidate := candidate }
    (framed 31).hwi.framing = .framed ∧ (framed 31).hwi.candidate = some 7 ∧ (framed 31).hwi.candidate ≠ some 8 ∧
    ((framed 31).hwi.phase + 1) % 32 = 0 ∧
    (lost 0 none).framing = .lost ∧ (lost 0 none).huntCount = 0 ∧ (lost 1 (some 7)).candidate ≠ some 8 ∧
    (0 < (lost 1 (some 7)).huntCount ∧ (lost 2 (some 7)).huntCount < 3) ∧
    (lost 3 (some 7)).huntCount = 3 ∧ (lost 3 (some 7)).candidate = some 7 := by decide +kernel

theorem test_hyp_MissedSync :
    (framed 0).hwi.framing = .framed ∧ (framed 0).hwi.missCount = 0 ∧
    ({ (framed 0).hwi with missCount := 1 } : Hwi).missCount = 1 ∧ State.reset.hwi.framing = .lost := by decide +kernel

/-- A command that raises an event, the counter at its end, and a link that awaits a request. -/
theorem test_hyp_StampCounter :
    let s := { framed 0 with hwi := { (framed 0).hwi with missCount := 1, stamp := 65535 } }
    s.hwi.stamp = 65535 ∧ (after .missedSync s).hwi.stamp = 65535 ∧
    (after .missedSync s).portA.queue.entries = [{ event := .framingLost, stamp := 65535, both := true }] ∧
    (s.port .a).iface = .awaitRequest ∧ (after .stampTick s).hwi.stamp = 0 := by decide +kernel

/-- A timeslot free by mode, by number and by joining; and framing LOST. -/
theorem test_hyp_TransparentTimeslots :
    (framed 0).hwi.framing = .framed ∧ (∀ n, ((framed 0).channel n).governing.mode = .off) ∧
    (∀ n, ((active (framed 0)).channel n).governing.mode = .off ∨
      ((active (framed 0)).channel n).governing.timeslot ≠ (6 : Timeslot)) ∧
    ((active (framed 0)).modMark 5 ({ · with joining := true })).served 5 = false ∧ (active (framed 0)).served 5 = true ∧
    State.reset.hwi.framing = .lost := by decide +kernel

/-- Each command out of its occasion: an arrival, a boundary, a served timeslot; and what keeps the marks. -/
theorem test_hyp_OutOfOccasion :
    let arrived := (active (framed 31)).modMark 5 ({ · with arrived := true })
    (framed 31).hwi.framing = .framed ∧ ((framed 31).channel 5).governing.mode = .off ∧ (arrived.mark 5).arrived = true ∧
    (((active (framed 31)).modMark 5 ({ · with joining := true })).mark 5).joining = true ∧
    (framed 30).hwi.phase ≠ 31 ∧ ((closing.modMark 5 ({ · with boundary := true })).mark 5).boundary = true ∧
    (((active (framed 31)).channel 5).governing.mode ≠ .off ∧ ((active (framed 31)).mark 5).arrived = false) ∧
    (arrived.channel 5).governing.timeslot = 5 ∧ (arrived.mark 5).joining = false ∧
    (active (framed 0)).TakesArrival 5 ∧ closing.ClosesBlock 5 ∧ ((after .stampTick arrived).mark 5).arrived = true := by
  unfold State.TakesArrival State.ClosesBlock; decide +kernel

/-! ### Witnesses: the arrival -/

/-- A channel takes an arrival: ADAPT in RUNNING with the suppressor OPEN, and every other case of the statements. -/
theorem test_hyp_arrivals :
    let s := filled (active (framed 0) ({ · with standing := .adapt, whollyRunning := true })) c5 [(0, 320)]
    s.TakesArrival 5 ∧ (s.channel 5).standing = .adapt ∧ s.canceller 5 = .running ∧ s.channelChain 5 = [0] ∧
    (s.channelChain 5).Nodup ∧ (s.channel 5).governing.mode = .active ∧ (s.channel 5).suppressor = .opened := by
  unfold State.TakesArrival; decide +kernel

theorem test_hyp_arrivals_holding :
    let s := filled (active (framed 0) ({ · with standing := .hold })) c5 [(0, 320)]
    let o := (framed 0).modChannel 5 fun c => { c with governing := { c.governing with mode := .observe } }
    s.TakesArrival 5 ∧ ¬((s.channel 5).standing = .adapt ∧ s.canceller 5 = .running) ∧
    o.TakesArrival 5 ∧ (o.channel 5).governing.mode = .observe := by
  unfold State.TakesArrival; decide +kernel

/-- Comfort noise at both ends of the phase and of the background estimate. -/
theorem test_hyp_ComfortNoise :
    let s := fun phase level => active (framed phase) ({ · with suppressor := .closed, background := level })
    ((s 0 (-700)).TakesArrival 5 ∧ ((s 0 (-700)).channel 5).suppressor = .closed ∧
      ((s 0 (-700)).channel 5).background = -700) ∧
    (s 31 30).TakesArrival 5 ∧ ((s 31 30).channel 5).governing.mode = .active ∧ (s 31 30).hwi.phase < 32 ∧
      ((s 31 30).channel 5).background = 30 := by
  unfold State.TakesArrival; decide +kernel

/-- Two lags within the period of the noise. -/
theorem test_hyp_ComfortNoise_lags : (0 < 1 ∧ 1 < (noiseSequence 5).length) ∧ 0 < 31 ∧ 31 < (noiseSequence 5).length := by
  have := noiseSequence_length 5; omega

/-! ### Witnesses: the block boundary -/

/-- The boundary of an OFF channel, with and without a record waiting. -/
theorem test_hyp_OffBoundary :
    let r := { ConfigRecord.default 5 with mode := .active }
    let s := (framed 31).modChannel 5 ({ · with pendingRecord := some r })
    (framed 31).hwi.framing = .framed ∧ (framed 31).hwi.phase = 31 ∧ ((framed 31).mark 5).boundary = false ∧
    ((framed 31).channel 5).governing.mode = .off ∧ ((framed 31).channel 5).pendingRecord = none ∧
    (s.channel 5).governing.mode = .off ∧ (s.channel 5).pendingRecord = some r ∧ r.mode ≠ .off := by decide +kernel

/-- A block closes, with and without a record that takes the channel to another timeslot. -/
theorem test_hyp_BoundaryMeasures :
    let r := { ConfigRecord.default 5 with mode := .observe, timeslot := 9 }
    let s := closing ({ · with pendingRecord := some r })
    closing.ClosesBlock 5 ∧ s.ClosesBlock 5 ∧ closing.channelChain 5 = [0] ∧ (decided closing).governing.mode ≠ .off ∧
    (decided s).governing = r ∧ (decided s).blockCount = 1 := by
  unfold State.ClosesBlock; decide +kernel

/-- Where a block closes within a level window and at its end, with counts in range, and where none closes. A boundary
raises DIVERGED before LEVEL_LIMIT; the holder's queue alone takes them. -/
theorem test_hyp_BoundaryEvents :
    let loud := fun pos => (closing fun c => heard (-200) (-189) { c with
      divCount := 184, divState := .watchful, windowPos := pos
      receive := { c.receive with gain := -24, high := 3, windowAcc := linScale 128 (levelPower 20) } }).setHolder c5
        (some .b)
    let out := fun p s => ((after (.blockBoundary 5) s).port p).queue.entries.map fun r => eventKind r.event
    (loud 3).ClosesBlock 5 ∧ ((loud 3).channel 5).receive.InRange ∧ ((loud 3).channel 5).send.InRange ∧
    ¬(framed 31).ClosesBlock 5 ∧ ((loud 3).channel 5).windowPos = 3 ∧ ((loud 2).channel 5).windowPos < 3 ∧
    out .b (loud 3) = [.diverged, .levelLimit] ∧ out .a (loud 3) = [] ∧ out .b (loud 2) = [.diverged] := by
  unfold State.ClosesBlock LsuDir.InRange; decide +kernel

/-- A block that is a tone of the band, at both ends of the range of its cosine, with no block before it. -/
theorem test_hyp_ToneOfTheBand :
    let samples := tone (-2 / 25) 12
    (-94890197 / 1000000000 : Rat) ≤ -2 / 25 ∧ (-2 / 25 : Rat) ≤ -62006652 / 1000000000 ∧
    (∀ i < 10, samples.getD (i + 2) 0 = 2 * (-2 / 25) * samples.getD (i + 1) 0 - samples.getD i 0) ∧
    samples.length = 12 ∧ samples.getD 2 0 ≠ 0 ∧
    -310 ≤ levelOf (linScale (1 / 32) (linRat (samples.map fun x => x * x).sum)) ∧
    carriesTone 5 0 true [] = false := by decide +kernel

/-- A tone over two blocks, and one that is negated in the second. -/
theorem test_hyp_ToneOfTheBand_across :
    let isTone := fun l : List Rat => ∀ i < 22, l.getD (i + 2) 0 = 2 * (-2 / 25) * l.getD (i + 1) 0 - l.getD i 0
    let before := (tone (-2 / 25) 24).take 12
    let samples := (tone (-2 / 25) 24).drop 12
    let negated := (reversedFrom 12 24).drop 12
    isTone (before ++ samples) ∧ isTone (before ++ negated.map fun x => -x) ∧ samples.getD 2 0 ≠ 0 ∧
    negated.getD 2 0 ≠ 0 ∧ before.getD 2 0 ≠ 0 ∧
    -310 ≤ levelOf (linScale (1 / 32) (linRat (before.map fun x => x * x).sum)) ∧
    -310 ≤ levelOf (linScale (1 / 32) (linRat (samples.map fun x => x * x).sum)) ∧
    -310 ≤ levelOf (linScale (1 / 32) (linRat (negated.map fun x => x * x).sum)) := by decide +kernel

/-- The double-talk test: the empty list, a block that meets it, hangovers of 8, 1 and 0 that do not. -/
theorem test_hyp_DoubleTalkTest :
    let s := fun hangover peak => closing fun c => { c with hangover := hangover, acc := { c.acc with sinPeak := peak } }
    let met := fun s : State => linLt (linScale (5012 / 10000) []) (s.channel 5).acc.sinPeak
    (s 0 []).ClosesBlock 5 ∧ (s 0 []).channelChain 5 = [0] ∧ (s 0 []).delay 0 = 320 ∧
    ({ s 0 [] with chains := State.reset.chains } : State).channelChain 5 = [] ∧
    met (s 0 (linRat 1)) = true ∧ (decided (s 0 (linRat 1))).hangover = 8 ∧
    met (s 8 []) = false ∧ (decided (s 8 [])).hangover = 7 ∧ (decided (s 1 [])).doubleTalk = true ∧
    (decided (s 0 [])).doubleTalk = false := by
  unfold State.ClosesBlock; decide +kernel

/-- Every tone state, and both ends of its counts, with tone bypass enabled and disabled. -/
theorem test_hyp_ToneState :
    let s := fun state count quiet enabled => closing fun c =>
      { c with tone := state, toneCount := count, quietCount := quiet
               governing := { c.governing with toneBypass := enabled } }
    (s .bypassFull 0 0 false).ClosesBlock 5 ∧ (decided (s .bypassFull 0 0 false)).tone = .listening ∧
    (s .listening 0 0 true).ClosesBlock 5 ∧ ((s .tone 98 0 true).channel 5).toneCount < 99 ∧
    ((s .tone 99 0 true).channel 5).tone = .tone ∧ ((s .bypassSuppressor 0 61 true).channel 5).quietCount < 62 ∧
    (decided (s .bypassFull 0 61 true)).quietCount = 62 ∧ (decided (s .bypassFull 0 62 true)).tone = .listening := by
  unfold State.ClosesBlock; decide +kernel

/-- The divergence count: not counted, each case of a counted block at the ends of its range, each state, frozen. -/
theorem test_hyp_DivergenceCount :
    let s := fun count state sin error => closing fun c =>
      heard sin error { c with divCount := count, divState := state }
    (s 0 .steady (-200) (-200)).ClosesBlock 5 ∧
    (decided (closing ({ · with divCount := 95 }))).divCount = 95 ∧
    (decided (s 88 .steady (-200) (-190))).divCount = 88 ∧ (decided (s 88 .steady (-200) (-189))).divState = .watchful ∧
    (decided (s 96 .watchful (-200) (-260))).divState = .steady ∧
    (decided (s 96 .watchful (-200) (-259))).divCount = 96 ∧
    (decided (s 0 .steady (-200) (-260))).divCount = 0 ∧
    (decided (s 183 .watchful (-200) (-189))).divCount = 191 ∧
    (decided (s 184 .watchful (-200) (-189))).divState = .diverged ∧
    (decided (s 199 .diverged (-200) (-189))).divCount = 199 := by
  unfold State.ClosesBlock; decide +kernel

/-- A boundary that enters DIVERGED with every engine state, and one that does not. -/
theorem test_hyp_DivergenceRequests :
    let s := closing fun c => heard (-200) (-189) { c with divCount := 184, divState := .watchful }
    let out := fun s : State => after (.blockBoundary 5) s
    s.ClosesBlock 5 ∧ s.pge.Inv ∧ (decided s).divState = .diverged ∧ (out s).pge.engine = .gathering ∧
    (out s).canceller 5 = .restarting ∧ (decided closing).divState = .steady ∧
    (out s).portA.queue.entries.map (fun r => eventKind r.event) = [.diverged] ∧
    (out { s with pge := { s.pge with engine := .running } }).pge.batch = [] ∧
    (decided { s with pge := { s.pge with engine := .running } }).owed = true := by
  refine ⟨by unfold State.ClosesBlock; decide +kernel, ⟨by decide +kernel, by decide +kernel, rfl, rfl, rfl, rfl⟩, ?_⟩
  decide +kernel

/-- Convergence: WATCHFUL, an ADAPT block at 15.0 dB and below it, a HOLD block, the eighth block of a run. -/
theorem test_hyp_Convergence :
    let s := fun run erle => closing fun c => heard (-200) (-200 - erle) { c with runCount := run }
    (s 7 150).ClosesBlock 5 ∧ (decided (s 7 150)).erle = 150 ∧ (decided (s 7 150)).converged = true ∧
    (decided (s 6 150)).runCount = 7 ∧ (decided (s 7 149)).runCount = 0 ∧
    (decided (closing ({ · with runCount := 7 }))).runCount = 7 ∧
    (decided (closing ({ · with runCount := 7, divState := .watchful, divCount := 96 }))).runCount = 0 := by
  unfold State.ClosesBlock; decide +kernel

/-- The suppressor: every clause, at −45.0 dBm0 and below it; the background estimate at the ends of its step. -/
theorem test_hyp_Suppressor :
    let s := fun state hangover error => closing fun c =>
      heard (-200) error { c with converged := true, suppressor := state, suppHangover := hangover }
    let b := fun sin => decided (closing fun c => { c with acc := { c.acc with sinPower := power sin }, background := -600 })
    (s .opened 0 (-451)).ClosesBlock 5 ∧ (decided (s .opened 0 (-451))).suppHangover = 2 ∧
    (decided (s .opened 0 (-450))).suppressor = .opened ∧ (decided (s .closed 1 (-450))).suppHangover = 0 ∧
    (decided (s .closed 0 (-450))).suppressor = .opened ∧
    (decided (closing ({ · with suppressor := .closed, suppHangover := 2 }))).suppHangover = 0 ∧
    (b (-606)).background = -605 ∧ (b (-605)).background = -605 ∧ (b (-595)).background = -595 ∧
    (b (-594)).background = -595 ∧ (decided (s .opened 0 (-450))).background = -700 := by
  unfold State.ClosesBlock; decide +kernel

/-- The tracking period: disabled, HOLD, ADAPT below its end, and its end with a weak segment that is offered. -/
theorem test_hyp_Tracking :
    let s := fun enabled standing count => closing fun c =>
      { c with standing := standing, trackCount := count, governing := { c.governing with tracking := enabled } }
    let ends := (s true .adapt 63).modSegment 0 ({ · with vacancy := 3 })
    ends.ClosesBlock 5 ∧ (ends.channelChain 5).Nodup ∧ (decided (s false .adapt 63)).trackCount = 0 ∧
    (decided (s true .hold 63)).trackCount = 63 ∧ (decided (s true .adapt 62)).trackCount = 63 ∧
    (decided ends).trackCount = 0 ∧ ((after (.blockBoundary 5) ends).segment 0).weight = 0 ∧
    (after (.blockBoundary 5) ends).relocation = [{ segment := 0, channel := 5 }] := by
  unfold State.ClosesBlock; decide +kernel

/-- The level window: inside it, and at its end every judgement at the end of its range. -/
theorem test_hyp_LevelWindow :
    let s := fun pos gain high low limit level => closing fun c =>
      { c with windowPos := pos, receive := { c.receive with
          gain := gain, high := high, low := low, limit := limit, windowAcc := linScale 128 (levelPower level) } }
    let d := fun s => (decided s).receive
    (s 3 0 3 0 false (-119)).ClosesBlock 5 ∧ ((s 3 0 3 0 false (-119)).channel 5).receive.InRange ∧
    (d (s 3 0 3 0 false (-119))).gain = -1 ∧ (d (s 3 0 2 0 false (-119))).high = 3 ∧
    (d (s 3 0 3 0 false (-120))).high = 0 ∧ (d (s 3 0 0 15 false (-241))).gain = 1 ∧
    (d (s 3 0 0 15 false (-451))).low = 15 ∧ (d (s 3 0 0 15 false (-450))).gain = 1 ∧
    (d (s 3 24 0 15 false (-450))).limit = true ∧ (d (s 3 (-24) 3 0 false 30)).gain = -24 ∧
    (decided (s 2 0 3 0 false 0)).windowPos = 3 ∧ (decided (s 3 0 3 0 false 0)).windowPos = 0 := by
  refine ⟨?_, ?_, ?_⟩
  · unfold State.ClosesBlock; decide +kernel
  · unfold LsuDir.InRange; decide +kernel
  · decide +kernel

/-! ### Witnesses: the List Controller -/

/-- Each position of the arbiter with each requester waiting alone and together, LC BUSY, and nobody waiting. -/
theorem test_hyp_Arbiter :
    let s := fun position => { State.reset with lc := { State.reset.lc with arbiter := position } }
    let a := fun s => waiting s .a .empty (args 5)
    let b := fun s => waiting s .b .empty (args 5)
    let r := fun s : State => { s with relocation := [{ segment := 0, channel := 5 }] }
    (a (b (r (s .relocation)))).choice = some (.panel .a) ∧ (b (r (s .relocation))).choice = some (.panel .b) ∧
    (r (s .relocation)).choice = some .relocation ∧ (a (b (r (s (.panel .a))))).choice = some (.panel .b) ∧
    (a (r (s (.panel .a)))).choice = some .relocation ∧ (a (s (.panel .a))).choice = some (.panel .a) ∧
    (a (b (r (s (.panel .b))))).choice = some .relocation ∧ (a (b (s (.panel .b)))).choice = some (.panel .a) ∧
    (b (s (.panel .b))).choice = some (.panel .b) ∧ State.reset.choice = none ∧
    (working (b State.reset) .a .release).choice = none := by decide +kernel

/-- The result of a list command that LC takes for Plane A. -/
def taken (s : State) (code : CommandCode) (a : Args) (i : Instr) : Option Status :=
  (after i (waiting s .a code a)).portA.panel.status

/-- Channel 5's list held by Plane A, with segment 0 at start delay 320. -/
def mine : State := (filled State.reset c5 [(0, 320)]).setHolder c5 (some .a)

theorem test_hyp_Takes : (waiting mine .a .allocate (args 5)).Takes .a .allocate (args 5) := by
  unfold State.Takes; decide +kernel

/-- ALLOCATE: every refusal, at the ends of its range, and the acceptance at the neighbouring values. -/
theorem test_hyp_RefusalsAllocate :
    let t := fun s arg1 delay => taken s .allocate (args arg1 delay) .allocateTake
    argChain (args 136) = none ∧ argChain (args 135) = some 135 ∧ t mine 136 0 = some .badList ∧
    t (mine.setHolder c5 none) 5 0 = some .notHolder ∧ t (purging mine .running) 5 0 = some .inPurge ∧
    t (purging mine .suspended) 5 0 = some .ok ∧
    t ((filled State.reset c5 (sixteen 0 64)).setHolder c5 (some .a)) 5 1984 = some .chainFull ∧
    t mine 5 4 = some .badDelay ∧ t mine 5 1992 = some .badDelay ∧ t mine 5 1984 = some .ok ∧
    t mine 5 264 = some .overlap ∧ t mine 5 376 = some .overlap ∧ t mine 5 256 = some .ok ∧ t mine 5 384 = some .ok ∧
    t { mine with free := [] } 5 0 = some .empty := by decide +kernel

/-- SWAP and EMPTY: every refusal. -/
theorem test_hyp_RefusalsSwapEmpty :
    let both := mine.setHolder w0 (some .a)
    let t := fun s arg1 => taken s .swap (args arg1) .swapTake
    let e := fun s arg1 => taken s .empty (args arg1) .emptyTake
    argChannel (args 128) = none ∧ argWorkList (args 5) = some w0 ∧ t both 128 = some .badList ∧
    t mine 5 = some .notHolder ∧ t (purging both .gathering) 5 = some .inPurge ∧ t both 5 = some .ok ∧
    e mine 136 = some .badList ∧ e both 127 = some .notHolder ∧ e (purging mine .suspending) 5 = some .inPurge := by
  decide +kernel

/-- RELEASE and MOVE: every refusal, at the ends of its range, in a pool that meets its invariant. -/
theorem test_hyp_RefusalsReleaseMove :
    let both := mine.setHolder w0 (some .a)
    let full := filled both w0 ((sixteen 16 64).map fun x => (x.1 + 1, x.2))
    let r := fun s arg1 => taken s .release (args arg1) .releaseTake
    let m := fun s arg1 delay => taken s .move (args arg1 delay) .moveTake
    argSegment (args 1024) = none ∧ (1023 : SegNo) ∈ mine.free ∧ r mine 1024 = some .badSegment ∧
    r mine 1023 = some .badSegment ∧ r (mine.setHolder c5 (some .b)) 0 = some .notHolder ∧
    r (purging mine .running) 0 = some .inPurge ∧
    m both 1024 0 = some .badSegment ∧ m both 1 0 = some .badSegment ∧
    taken both .move { args 0 with listField := 136 } .moveTake = some .badList ∧ m mine 0 0 = some .notHolder ∧
    m (purging both .running) 0 0 = some .inPurge ∧ m full 0 1984 = some .chainFull ∧ m both 0 1992 = some .badDelay ∧
    taken (filled both w0 [(1, 0)]) .move (args 0 56) .moveTake = some .overlap := by decide +kernel

theorem test_hyp_PoolInv : mine.PoolInv := by unfold State.PoolInv; decide +kernel

/-- The pool's invariant does not see claims and panels. -/
theorem test_hyp_PoolInv_waiting : (waiting mine .a .release (args 0)).PoolInv ∧
    (waiting (mine.setHolder w0 (some .a)) .a .move (args 0 0)).PoolInv :=
  ⟨State.PoolInv.congr test_hyp_PoolInv (by simp [waiting]) (by simp [waiting]) (by simp [waiting]) (by simp [waiting]),
    State.PoolInv.congr test_hyp_PoolInv (by simp [waiting]) (by simp [waiting]) (by simp [waiting]) (by simp [waiting])⟩

/-- ALLOCATE's events: a take that passes, the link, and the link of a detached command. -/
theorem test_hyp_AllocateEvents :
    let s := waiting mine .a .allocate (args 5 384)
    let l := working (mine) .a (.allocate c5 384)
    s.Takes .a .allocate (args 5 384) ∧ argChain (args 5 384) = some c5 ∧ s.holder c5 = some .a ∧ s.inPurge c5 = false ∧
    s.Fits c5 (argDelay (args 5 384)) ∧ s.free = 1 :: (List.finRange 1024).drop 2 ∧
    l.lc.current = some { work := .allocate c5 384, issuer := .panel .a } ∧ l.transit = some 0 ∧
    l.lc.detached = false ∧ ({ l.lc with detached := true } : Lc).detached = true := by
  unfold State.Takes State.Fits; decide +kernel

/-- The takes of RELEASE and MOVE, into another list and within the list. -/
theorem test_hyp_ReleaseMoveTakes :
    let both := mine.setHolder w0 (some .a)
    let r := waiting mine .a .release (args 0)
    let m := waiting both .a .move (args 0 0)
    let within := waiting mine .a .move { args 0 328 with listField := 5 }
    r.Takes .a .release (args 0) ∧ argSegment (args 0) = some 0 ∧ 0 ∈ r.chain c5 ∧ r.holder c5 = some .a ∧
    r.inPurge c5 = false ∧ m.Takes .a .move (args 0 0) ∧ argTarget (args 0 0) = some w0 ∧ m.holder w0 = some .a ∧
    m.inPurge w0 = false ∧ (m.chain w0).length < 16 ∧ goodDelay (argDelay (args 0 0)) = true ∧
    argTarget { args 0 328 with listField := 5 } = some c5 ∧
    (∀ h ∈ within.chain c5, h ≠ 0 → overlaps 328 (within.delay h) = false) := by
  unfold State.Takes; decide +kernel

/-- The last events of RELEASE and MOVE, waited for and detached, with the start delay kept and changed. -/
theorem test_hyp_ReleaseMoveLinks :
    let r := working State.reset .a .release
    let m := (working State.reset .a (.move c5 320)).modSegment 0 ({ · with startDelay := some 320 })
    r.lc.current = some { work := .release, issuer := .panel .a } ∧ r.transit = some 0 ∧ r.lc.detached = false ∧
    m.lc.current = some { work := .move c5 320, issuer := .panel .a } ∧ (m.segment 0).startDelay = some 320 ∧
    (r.segment 0).startDelay ≠ some 320 ∧ ({ r.lc with detached := true } : Lc).detached = true := by decide +kernel

theorem test_hyp_SwapTake :
    let s := waiting (mine.setHolder w0 (some .a)) .a .swap (args 5)
    s.Takes .a .swap (args 5) ∧ argChannel (args 5) = some 5 ∧ argWorkList (args 5) = some w0 ∧
    s.holder (channelCode 5) = some .a ∧ s.holder w0 = some .a ∧ s.inPurge (channelCode 5) = false ∧
    s.inPurge w0 = false := by unfold State.Takes; decide +kernel

/-- EMPTY's events: its take on an empty and on another list, a last link, another link and a further unlink. -/
theorem test_hyp_EmptyEvents :
    let s := waiting mine .a .empty (args 5)
    let bare := waiting { mine with chains := State.reset.chains } .a .empty (args 5)
    let last := working State.reset .b (.empty c5 2)
    let more := working (filled State.reset c5 [(1, 0)]) .b (.empty c5 2)
    s.Takes .a .empty (args 5) ∧ s.chain c5 = [0] ∧ s.holder c5 = some .a ∧ s.inPurge c5 = false ∧
    bare.Takes .a .empty (args 5) ∧ bare.chain c5 = [] ∧ last.transit = some 0 ∧ last.chain c5 = [] ∧
    last.lc.current = some { work := .empty c5 2, issuer := .panel .b } ∧ more.chain c5 = [1] ∧
    ({ more with transit := none } : State).transit = none := by unfold State.Takes; decide +kernel

/-- A relocation entry of channel 5's first segment at the head of the queue. -/
def relocating (vacancy : Nat) (l : List (SegNo × Nat)) (cursor : Nat := 0) : State :=
  { (active (filled (framed 0) c5 l) fun c =>
      { c with cursor := cursor, governing := { c.governing with tracking := true } }).modSegment 0
      ({ · with vacancy := vacancy }) with
    relocation := [{ segment := 0, channel := 5 }] }

/-- The take of an entry: stale, blocked, and with the first, a later and the last candidate free; and the link. -/
theorem test_hyp_Relocation :
    let blocked := relocating 4 (sixteen 32 128)
    let fits := fun (s : State) i =>
      (s.channelChain 5).all fun h => !overlaps (((s.channel 5).cursor + 64 * i) % 2048) (s.delay h)
    let free := relocating 4 [(0, 0)]
    let wraps := relocating 4 [(0, 960)] 1984
    let l := { working State.reset .a .release with
      lc := { State.reset.lc with current := some { work := .relocation 5 64, issuer := .relocation } } }
    blocked.choice = some .relocation ∧ (relocating 3 [(0, 0)]).stale { segment := 0, channel := 5 } = true ∧
    blocked.stale { segment := 0, channel := 5 } = false ∧ (List.range 32).all (fun i => !fits blocked i) = true ∧
    (after .relocationTake blocked).portA.queue.entries.map (fun r => r.event) = [.trackBlocked 5 0 32] ∧
    fits free 0 = false ∧ fits free 1 = true ∧ ((after .relocationTake free).channel 5).cursor = 128 ∧
    fits wraps 0 = true ∧ ((after .relocationTake wraps).channel 5).cursor = 0 ∧
    l.lc.current = some { work := .relocation 5 64, issuer := .relocation } ∧ l.transit = some 0 ∧
    (l.channel 5).governing.mode = .off := by decide +kernel

/-! ### Witnesses: panels and links -/

theorem test_hyp_CommandsAtThePanel :
    let b := waiting State.reset .a .empty (args 5)
    State.reset.Ready .a ∧ (b.port .a).iface = .awaitRequest ∧ (b.port .a).panel.state ≠ .idle ∧
    commandOfCode 0x06 = none ∧ commandOfCode 0x31 = none := by unfold State.Ready; decide +kernel

/-- Every row of R153's table. -/
theorem test_hyp_ClaimTable :
    let s := fun h => State.reset.setHolder 135 h
    (s (some .b)).Ready .a ∧ 136 ≤ (args 136).arg1.toNat % 256 ∧ (135 : ChainCode).val = (args 135).arg1.toNat % 256 ∧
    (s none).holder 135 = none ∧ (s (some .a)).holder 135 = some .a ∧
    (s (some .b)).holder 135 = some (Plane.other .a) := by unfold State.Ready; decide +kernel

/-- A well-formed command that is no event of LC and no claim command answers a next state. -/
theorem test_hyp_OnlyTheOwners :
    exec .stampTick State.reset = .next (after .stampTick State.reset) ∧ changesLists .stampTick = false ∧
    Instr.stampTick.wellFormed = true := ⟨rfl, rfl, rfl⟩

/-- SUSPEND and PURGE in RUNNING, in SUSPENDING, and in the other engine states. -/
theorem test_hyp_SuspendCommand :
    (purging mine .running).Ready .a ∧ (purging mine .running).pge.engine = .running ∧
    (purging mine .suspending).Ready .a ∧ (purging mine .suspending).pge.engine ≠ .running ∧
    (purging mine .suspending).unfinished c5 = true ∧ argChain (args 5) = some c5 ∧ mine.holder c5 = some .a := by
  unfold State.Ready; decide +kernel

theorem test_hyp_ResumeCommand :
    let s := purging mine .suspended
    s.Ready .a ∧ s.pge.engine = .suspended ∧
    s.pge.batch.find? (fun x => !x.finished) = some (.joining c5 .ofInternal) ∧ (s.chain c5)[0]? = some 0 ∧
    (purging mine .suspending).pge.engine = .suspending ∧ State.reset.pge.engine = .idle ∧
    (s.pge.batch.map BatchEntry.list).Nodup ∧
    State.reset.Ready .a := by unfold State.Ready; decide +kernel

/-- A batch of the lists of the first channels after channel 5. -/
def batchOf (n : Nat) : State :=
  { purging mine .gathering with pge := { (purging mine .gathering).pge with
      batch := (List.finRange 16).take n |>.map fun i => .joining (⟨6 + i.val, show 6 + i.val < 136 by have := i.isLt; omega⟩ : ChainCode) .ofInternal } }

/-- PURGE: every refusal and every way in. -/
theorem test_hyp_PurgeCommand :
    argChain (args 136) = none ∧ mine.Ready .a ∧ mine.holder 6 ≠ some .a ∧ mine.pge.engine = .idle ∧ mine.pge.Inv ∧
    (purging mine .suspended).pge.engine = .suspended ∧ (batchOf 16).pge.batch.length = 16 ∧
    (batchOf 15).pge.batch.length < 16 ∧ (batchOf 15).pge.engine = .gathering ∧ (batchOf 15).Ready .a ∧
    ((batchOf 15).pge.batch.all fun e => decide (e.list ≠ c5)) = true ∧
    ((purging mine .gathering).pge.batch.any fun e => decide (e.list = c5)) = true ∧
    ((active mine).channel 5).governing.mode ≠ .off ∧ (active mine).hwi.framing = .lost ∧
    (framed 0).hwi.framing = .framed ∧ channelCode 5 = c5 := by
  refine ⟨by decide +kernel, by unfold State.Ready; decide +kernel, by decide +kernel, by decide +kernel,
    ⟨by decide +kernel, by decide +kernel, rfl, rfl, rfl, rfl⟩, ?_⟩
  unfold State.Ready; decide +kernel

/-- RESTART: refused, of an empty list, and of an ACTIVE channel in a bypass state with a list that is not empty. -/
theorem test_hyp_RestartCommand :
    let s := active mine ({ · with tone := .bypassFull })
    argChannel (args 128) = none ∧ argChannel (args 127) = some 127 ∧ s.Ready .a ∧
    s.holder (channelCode 127) ≠ some .a ∧ s.holder (channelCode 5) = some .a ∧ s.channelChain 5 ≠ [] ∧
    (s.channel 5).governing.mode ≠ .off ∧ Tone.isBypass (s.channel 5).tone = true ∧
    ({ s with chains := State.reset.chains } : State).channelChain 5 = [] ∧
    Tone.isBypass (State.reset.channel 5).tone = false := by unfold State.Ready; decide +kernel

/-- The mark at a RESTART: kept for a channel that is RUNNING throughout, cleared for one that enters RUNNING and for one
that is RESTARTING after it. -/
theorem test_hyp_RestartCommand_mark :
    let s := fun l held => active ((filled State.reset c5 l).setHolder c5 (some .a)) ({ · with
      whollyRunning := true, tone := held })
    let out := fun s => ((after (.restart .a (args 5)) s).channel 5).whollyRunning
    out (s [] .listening) = true ∧ out (s [] .bypassFull) = false ∧ out (s [(0, 320)] .listening) = false := by
  decide +kernel

theorem test_hyp_RestartCommand_purge : (active mine).pge.Inv :=
  ⟨by decide, by decide, rfl, rfl, rfl, rfl⟩

/-- The default record of channel 5 in ACTIVE with a timeslot, and changed bytes. -/
def record (timeslot : Nat) (f : List Byte → List Byte := id) : List Word :=
  bytesToWords (f ([2, BitVec.ofNat 8 timeslot, 1, 2, 3, 3, 0, 0xF4, 0xE8, 0, 0xF4, 0xE8]))

/-- The code of a configuration write of channels from 5 on, by Plane A. -/
def written (s : State) (count : Byte) (data : List Word) : Status :=
  (s.writeRequest .a 1 5 count data).status

/-- CHANNEL_CONFIG: every refusal at the end of its range, and the acceptance beside it; several records. -/
theorem test_hyp_ConfigWrite :
    let s := active mine
    let off := record 5 (·.set 0 0)
    (s.port .a).iface = .awaitRequest ∧ (record 5).length = 6 ∧ written State.reset 1 (record 5) = .notHolder ∧
    written ((s.modChannel 6 ({ · with pendingRecord := some { ConfigRecord.default 7 with mode := .active } }))) 1
      (record 7) = .timeslotTaken ∧
    written s 1 (record 5 (·.set 8 0xF2)) = .badLevels ∧ written s 1 (record 5 (·.set 8 0xF1)) = .ok ∧
    written s 1 (record 128) = .badValue ∧ written s 1 (record 127) = .ok ∧
    (rawRecord (wordsToBytes (record 5))).mode = 2 ∧ (rawRecord (wordsToBytes off)).mode = 0 ∧
    (s.channel 5).governing.mode ≠ .off ∧ (mine.channel 5).governing.mode = .off ∧
    (Instr.writeChannelConfig .a 5 2 (record 5 ++ record 6)).wellFormed = true ∧
    written s 2 (record 5 ++ record 6) = .notHolder ∧
    written (s.setHolder 6 (some .a)) 2 (record 5 ++ record 6) = .ok ∧
    written (s.setHolder 6 (some .a)) 2 (record 5 ++ record 5) = .timeslotTaken := by decide +kernel

/-- Two records: the second refused for the timeslot that the first takes up, though no record held it, and accepted for
the timeslot that a first record of mode OFF gives up as its channel's pending record. -/
theorem test_hyp_ConfigWrite_earlier :
    let s := (active mine).setHolder 6 (some .a)
    let p := s.modChannel 5 fun c => { c with
      pendingRecord := some { c.governing with timeslot := 9 }, governing := { c.governing with mode := .off } }
    written s 2 (record 9 ++ record 9) = .timeslotTaken ∧ written s 2 (record 9 ++ record 10) = .ok ∧
    written p 2 (record 5 ++ record 9) = .ok ∧ written p 2 (record 5 (·.set 0 0) ++ record 9) = .ok ∧
    written (p.setHolder c5 none) 2 (record 5 ++ record 9) = .notHolder := by decide +kernel

/-- COEFF: a segment in F, in a channel list, in a work list that is not held, held, and in purge. -/
theorem test_hyp_CoeffWrite :
    let s := filled State.reset w0 [(0, 0), (1, 64)]
    let held := s.setHolder w0 (some .a)
    let w := fun s : State => (s.writeRequest .a 4 63 2 [1, 2]).status
    s.PoolInv ∧ (s.port .a).iface = .awaitRequest ∧ (Instr.writeCoeff .a 63 2 [1, 2]).wellFormed = true ∧
    coeffSegments 63 2 = [0, 1] ∧ w s = .notHolder ∧ w held = .ok ∧ w mine = .notWritable ∧
    w State.reset = .notWritable ∧ held.unfinished w0 = false ∧
    w { held with pge := { held.pge with batch := [.joining w0 .ofInternal] } } = .notWritable := by
  unfold State.PoolInv; decide +kernel

/-- READ and the refused WRITEs: each check at the ends of its range, and writes of every space no write is made to. -/
theorem test_hyp_ReadsAndRefusedWrites :
    let write := fun (space index : Nat) (size : Nat) =>
      (Instr.write .a (BitVec.ofNat 8 space) (BitVec.ofNat 16 index) 1 (List.replicate size 0)).wellFormed
    State.reset.portA.iface = .awaitRequest ∧ 8 ≤ (8 : Byte).toNat ∧
    spaceOfCode 0 = none ∧ spaceOfCode 8 = none ∧ spaceOfCode 5 = some .list ∧
    validIndex .list 135 = true ∧ validIndex .list 136 = false ∧
    validIndex .list 255 = true ∧ validIndex .coeff 65535 = true ∧ validIndex .device 8 = false ∧
    write 0 0 1 = true ∧ write 2 127 6 = true ∧ write 3 1024 6 = true ∧ write 5 255 3 = true ∧ write 6 136 1 = true ∧
    write 7 7 1 = true ∧ write 255 0 1 = true ∧ (64 : Byte).toNat ≤ 64 := by decide +kernel

/-- The pool's items: a free, a chained and a carried segment. -/
theorem test_hyp_ItemsOfTheSpaces :
    mine.free = [] ++ 1 :: (List.finRange 1024).drop 2 ∧ mine.chain c5 = [] ++ 0 :: [] ∧
    (working State.reset .a .release).transit = some 0 ∧ mine.item .a .segment 0 = [5, 0xFFFF, 0xFFFF, 320, 0, 0] ∧
    mine.item .a .segment 1 = [255, 0xFFFF, 2, 0xFFFF, 0, 0] := by decide +kernel

theorem test_hyp_TakeEventsAndSetTrigger :
    State.reset.portB.iface = .awaitRequest ∧ 16 < (17 : Byte).toNat ∧ (16 : Byte).toNat ≤ 16 ∧ 1 ≤ (1 : Byte).toNat ∧
    (0 : Byte).toNat = 0 ∧ 64 < (65 : Byte).toNat ∧ (64 : Byte).toNat ≤ 64 := by decide +kernel

/-- Queues of 62, 63 and 64 entries, the last of them an OVERRUN or not. -/
theorem test_hyp_QueueArrival :
    let r : EventRecord := { event := .framingRestored, stamp := 0, both := true }
    let q := fun n last => { Queue.reset with entries := List.replicate n r ++ [last] }
    (q 61 r).entries.length = 62 ∧ ((q 61 r).arrive r).entries.length = 63 ∧ (q 62 r).entries.getLast? = some r ∧
    eventKind r.event ≠ .overrun ∧ (((q 62 r).arrive r).entries.getLast?.map (·.event)) = some (.overrun .framingRestored none) ∧
    (q 62 (overrunOf r)).entries.length = 63 ∧ ((q 62 (overrunOf r)).arrive r).entries.length = 63 ∧
    ((q 63 r).arrive r).entries.length = 64 := by decide +kernel

theorem test_hyp_LinkReset :
    let running := (working State.reset .a .release).modPanel .a ({ · with state := .running })
    running.portA.iface = .awaitRequest ∧ (running.port .a).panel.state = .running ∧
    running.lc.current.map LcJob.issuer = some (.panel .a) ∧ State.reset.lc.current = none := by decide +kernel

theorem test_hyp_HeldReply :
    let s := after (.status .a) State.reset
    (s.port .a).iface = .replyReady (replyBytes 0x04 .ok (panelBytes .reset)) ∧ planeOf (.status .a) = some .a ∧
    requestFrame (.status .a) = some [0x04, checkByte [0x04]] ∧ (Instr.status .a).wellFormed = true ∧
    (State.reset.port .a).iface = .awaitRequest := by decide +kernel

/-! ### Witnesses: the timers and the Purge Engine's events -/

theorem test_hyp_TimerExpiries :
    let g := purging mine .gathering
    let s := purging mine .suspended
    g.pge.batch.find? (fun x => !x.finished) = some (.joining c5 .ofInternal) ∧ (g.chain c5)[0]? = some 0 ∧
    g.pge.engine = .gathering ∧ g.pge.gatherTimer = true ∧ s.pge.engine = .suspended ∧ s.pge.suspendTimer = true ∧
    (s.chain c5)[0]? = some 0 ∧ g.pge.suspendTimer = false ∧ s.pge.gatherTimer = false ∧
    (State.reset.port .a).queue.quietTimer = true ∧
    ((after (.quietTimerExpiry .a) State.reset).port .a).queue.quietTimer = false := by decide +kernel

/-- Selections: one that passes a finished list and one with nothing left and begins a clear, and two that exhaust the batch,
with nothing owed and with channel 9 owed. -/
theorem test_hyp_Selections :
    let entry := fun c : ChainCode => BatchEntry.joining c .ofInternal
    let batch := [{ entry 3 with finished := true }, entry 4, entry c5]
    let s := { purging mine .suspended with pge := { (purging mine .suspended).pge with batch := batch } }
    let e := { s with pge := { s.pge with batch := [entry 4] } }
    let o := e.modChannel 9 ({ · with owed := true })
    (batch.map BatchEntry.list).Nodup ∧ s.chain 4 = [] ∧ (s.chain c5)[0]? = some 0 ∧
    (after .suspendTimerExpiry s).pge.clear = some { list := c5, segment := 0, disturbed := false } ∧
    ((after .suspendTimerExpiry s).portA.queue.entries.map fun r => r.event) =
      [.purgeResumed, .purgeDone 4 .ofInternal] ∧
    (after .suspendTimerExpiry e).pge.engine = .idle ∧ (after .suspendTimerExpiry o).pge.engine = .gathering ∧
    (after .suspendTimerExpiry o).pge.batch = [entry 9] ∧ ((after .suspendTimerExpiry o).channel 9).owed = false := by
  decide +kernel

/-- A clear that ends in SUSPENDING and finishes its entry, with another entry left and with none. -/
theorem test_hyp_SegmentClearEnd_suspending :
    let s := purging mine .suspending
    let t := { s with pge := { s.pge with batch := s.pge.batch ++ [.joining 6 .ofInternal] } }
    s.pge.engine = .suspending ∧ (s.chain c5).length ≤ 1 ∧ (∀ x ∈ s.pge.batch, x.list ≠ c5 → x.finished = true) ∧
    (after .segmentClearEnd s).pge.engine = .idle ∧ (∃ x ∈ t.pge.batch, x.list ≠ c5 ∧ x.finished = false) ∧
    (after .segmentClearEnd t).pge.engine = .suspended := by decide +kernel

/-- A clear that ends: with more to clear, in RUNNING and SUSPENDING, at the end of the list, and disturbed. -/
theorem test_hyp_SegmentClearEnd :
    let two := filled State.reset c5 [(0, 0), (1, 64)]
    let k : Clear := { list := c5, segment := 0, disturbed := false }
    (purging two .running).pge.Inv ∧ (purging two .suspending).pge.Inv ∧ (purging two .running).pge.clear = some k ∧
    BatchEntry.joining c5 .ofInternal ∈ (purging two .running).pge.batch ∧ (two.chain c5)[1]? = some 1 ∧
    (mine.chain c5).length ≤ 1 ∧ 0 ∉ (filled State.reset c5 [(1, 64)]).chain c5 ∧
    (after .segmentClearEnd (purging two .running)).pge.clear = some { k with segment := 1 } ∧
    (after .segmentClearEnd (purging two .suspending)).pge.engine = .suspended ∧
    ((after .segmentClearEnd (purging (active mine ({ · with divState := .diverged, divCount := 195 })) .running)).channel
      5).divCount = 0 ∧
    ((after .segmentClearEnd (purging mine .running)).portA.queue.entries.map fun r => r.event) =
      [.purgeDone c5 .ofInternal] := by
  refine ⟨⟨by decide +kernel, by decide +kernel, rfl, rfl, _, rfl, _, List.mem_singleton_self _, rfl, rfl⟩,
    ⟨by decide +kernel, by decide +kernel, rfl, rfl, _, rfl, _, List.mem_singleton_self _, rfl, rfl⟩, ?_⟩
  decide +kernel

/-! ### Witnesses: encodings and invariants -/

/-- Codes of either kind, both ends of the range of values, and a value half way between 0 and the next expanded one. -/
theorem test_hyp_Companding :
    expand .aLaw 0xAA ≠ 0 ∧ expand .muLaw 0x7F = 0 ∧ compand .aLaw (linRat 1) = 0xAA ∧
    compand .muLaw (linRat (-1)) = 0x00 ∧ compand .aLaw (linRat (3 / 8064)) = 0xD5 ∧
    compand .aLaw (linRat (4 / 8064)) = 0xD4 := by decide +kernel

theorem test_hyp_RequestFrames :
    let w := Instr.writeChannelConfig .b 5 1 (record 5)
    w.wellFormed = true ∧ planeOf w = some .b ∧ (requestFrame w).map (judgeFrame .b) = some (.request w) ∧
    (Instr.badFrame .a [0x04, 0x00]).wellFormed = true ∧ judgeFrame .a [0x04, 0x00] = .bad := by decide +kernel

theorem test_hyp_ConfigRecord :
    (Channel.reset 5).governing.GainsInRange ∧ -40 ≤ (Channel.reset 5).governing.receive.upper ∧
    (Channel.reset 5).governing.receive.upper ≤ 0 ∧
    wordsToBytes (configItem (Channel.reset 5)) = [0, 5, 1, 2, 3, 3, 0, 0xF4, 0xE8, 0, 0xF4, 0xE8] := by
  unfold ConfigRecord.GainsInRange; decide +kernel

/-- The fields at both ends of their options, and one beyond. -/
theorem test_hyp_ConfigRecord_options :
    let raw : RawRecord := { mode := 2, timeslot := 127, step := 3, margin := 2, enables := 7, alcModes := 3
                             receiveGain := -24, receiveUpper := 0, receiveLower := -40
                             sendGain := 24, sendUpper := -40, sendLower := 0 }
    raw.decode ≠ none ∧ ({ raw with mode := 3 } : RawRecord).decode = none ∧
    ({ raw with timeslot := 128 } : RawRecord).decode = none ∧ ({ raw with step := 4 } : RawRecord).decode = none ∧
    ({ raw with enables := 8 } : RawRecord).decode = none ∧ ({ raw with alcModes := 4 } : RawRecord).decode = none ∧
    ({ raw with sendGain := 25 } : RawRecord).decode = none ∧
    ({ raw with receiveLower := -41 } : RawRecord).decode = none := by decide +kernel

/-- A state that is not the reset state meets every invariant, and a step from it answers a next state. -/
def stepping : State := { active (filled (framed 0) c5 [(0, 320)]) with pending := [.stampTick] }

theorem test_hyp_StepKeeps_answers : step stepping = .next (after .stampTick { stepping with pending := [] }) := rfl

theorem test_hyp_StepKeeps_pool : stepping.PoolInv := by unfold State.PoolInv; decide +kernel

/-- A vector of one value with its first entry changed. -/
theorem replicate_set_zero {n i : Nat} (x y : Segment) (h : 0 < n) (hi : i < n) (hne : 0 ≠ i) :
    ((Vector.replicate n y).set 0 x h)[i] = y := by
  rw [Vector.getElem_set, if_neg hne, Vector.getElem_replicate]

theorem test_hyp_StepKeeps_free : stepping.FreeInv := by
  intro g hg
  have hne : g ≠ 0 := by rintro rfl; exact absurd hg (by decide +kernel)
  have hval : (0 : SegNo).val ≠ g.val := fun h => hne (Fin.ext h.symm)
  exact replicate_set_zero _ _ (by decide) g.isLt hval

theorem test_hyp_StepKeeps_chains : stepping.ChainsInv := by
  have forms : ∀ c, (stepping.chain c).length ≤ 16 ∧ ((stepping.chain c).all fun g =>
      decide ((stepping.segment g).startDelay = some 320)) = true ∧ (stepping.chain c).Pairwise fun g h =>
        stepping.delay g + 64 ≤ stepping.delay h := by decide +kernel
  refine ⟨fun c => ⟨(forms c).1, fun g hg => ⟨320, ?_, by decide⟩, (forms c).2.2⟩, trivial, by decide +kernel⟩
  simpa using List.all_eq_true.1 (forms c).2.1 g hg

theorem test_hyp_StepKeeps_queues : stepping.QueuesInv := by
  unfold State.QueuesInv Queue.Bounded; decide +kernel

theorem test_hyp_StepKeeps_purge : stepping.pge.Inv := ⟨by decide, by decide, rfl, rfl, rfl, rfl⟩

theorem test_hyp_StepKeeps_counts : stepping.CountsInv := by
  have none : ∀ n, (stepping.channel n).pendingRecord = none := by decide +kernel
  have ranges : ∀ n, let c := stepping.channel n
      c.governing.GainsInRange ∧ c.receive.InRange ∧ c.send.InRange ∧ c.divCount = 0 ∧ c.runCount = 0 ∧ c.hangover = 0 ∧
      c.toneCount = 0 ∧ c.quietCount = 0 ∧ c.suppHangover = 0 ∧ c.background = -700 ∧ c.trackCount = 0 ∧
      c.windowPos = 0 := by
    unfold ConfigRecord.GainsInRange LsuDir.InRange; decide +kernel
  intro n
  obtain ⟨h1, h2, h3, h4, h5, h6, h7, h8, h9, h10, h11, h12⟩ := ranges n
  exact ⟨h1, fun r hr => absurd (none n ▸ hr) (by simp), h2, h3, by omega, by omega, by omega, by omega, by omega, by omega,
    by omega, by omega, by omega, by omega⟩

theorem test_hyp_StepKeeps_timeslots : stepping.TimeslotsInv := by
  have named : ∀ n, (stepping.channel n).pendingRecord = none ∧
      ((stepping.channel n).governing.mode ≠ .off → n = 5) := by decide +kernel
  have only : ∀ n t, (stepping.channel n).Names t → n = 5 := by
    rintro n t (h | ⟨r, hr, -⟩)
    · exact (named n).2 (by simpa using (Bool.and_eq_true_iff.1 h).1)
    · exact absurd ((named n).1 ▸ hr) (by simp)
  intro n m t hn hm
  rw [only n t hn, only m t hm]

theorem test_hyp_StepKeeps_restarting :
    stepping.RestartingInv ∧ ∃ s : State, s.RestartingInv ∧ s.canceller 5 = .restarting := by
  unfold State.RestartingInv
  exact ⟨by decide +kernel, purging stepping .gathering, by decide +kernel, by decide +kernel⟩

theorem test_hyp_StepKeeps_framing : stepping.hwi.Inv ∧ State.reset.hwi.framing = .lost :=
  ⟨⟨by decide, by decide, by decide, by decide, rfl⟩, rfl⟩

end Sys2Proof.Tests
end

section
/-! SUPPORT. The queue frames: the shared operations that change a link without touching its event queue, in the form simp
takes apart. -/

namespace Sys2Proof.Machine

@[simp] theorem modPanel_queues (s : State) (p : Plane) (f : Panel → Panel) :
    (s.modPanel p f).portA.queue = s.portA.queue ∧ (s.modPanel p f).portB.queue = s.portB.queue := by
  cases p <;> exact ⟨rfl, rfl⟩

@[simp] theorem clockReply_queues (s : State) (p : Plane) (bytes : Nat) :
    (s.clockReply p bytes).portA.queue = s.portA.queue ∧ (s.clockReply p bytes).portB.queue = s.portB.queue := by
  unfold State.clockReply
  split
  · exact ⟨rfl, rfl⟩
  · cases p <;> exact ⟨rfl, rfl⟩

/-! ### The List Controller -/

@[simp] theorem refuseTake_queues (s : State) (p : Plane) (st : Status) :
    (s.refuseTake p st).portA.queue = s.portA.queue ∧ (s.refuseTake p st).portB.queue = s.portB.queue :=
  modPanel_queues ..

@[simp] theorem startJob_queues (s : State) (p : Plane) (w : LcWork) :
    (s.startJob p w).portA.queue = s.portA.queue ∧ (s.startJob p w).portB.queue = s.portB.queue :=
  modPanel_queues ..

@[simp] theorem completeJob_queues (s : State) (post : Panel → Panel) :
    (s.completeJob post).portA.queue = s.portA.queue ∧ (s.completeJob post).portB.queue = s.portB.queue := by
  unfold State.completeJob; dsimp only; (repeat' split) <;> simp

/-- A take touches the queues no more than the work of the command that is taken. -/
theorem takeCommand_queues (s : State) (code : CommandCode) {work : State → Plane → Args → State}
    (hwork : ∀ t p a, (work t p a).portA.queue = t.portA.queue ∧ (work t p a).portB.queue = t.portB.queue) :
    (s.takeCommand code work).portA.queue = s.portA.queue ∧
    (s.takeCommand code work).portB.queue = s.portB.queue := by
  unfold State.takeCommand; (repeat' split) <;> simp [hwork]

@[simp] theorem allocateTake_queues (s : State) :
    (s.allocateTake).portA.queue = s.portA.queue ∧ (s.allocateTake).portB.queue = s.portB.queue :=
  takeCommand_queues s _ fun t p a => by unfold State.allocateTakeWork; split <;> simp

@[simp] theorem releaseTake_queues (s : State) :
    (s.releaseTake).portA.queue = s.portA.queue ∧ (s.releaseTake).portB.queue = s.portB.queue :=
  takeCommand_queues s _ fun t p a => by unfold State.releaseTakeWork; split <;> simp

@[simp] theorem moveTake_queues (s : State) :
    (s.moveTake).portA.queue = s.portA.queue ∧ (s.moveTake).portB.queue = s.portB.queue :=
  takeCommand_queues s _ fun t p a => by unfold State.moveTakeWork; split <;> simp

@[simp] theorem swapTake_queues (s : State) :
    (s.swapTake).portA.queue = s.portA.queue ∧ (s.swapTake).portB.queue = s.portB.queue :=
  takeCommand_queues s _ fun t p a => by unfold State.swapTakeWork; split <;> simp

@[simp] theorem emptyTake_queues (s : State) :
    (s.emptyTake).portA.queue = s.portA.queue ∧ (s.emptyTake).portB.queue = s.portB.queue :=
  takeCommand_queues s _ fun t p a => by unfold State.emptyTakeWork; (repeat' split) <;> simp

@[simp] theorem allocateLinkWork_queues (s : State) :
    (s.allocateLinkWork).portA.queue = s.portA.queue ∧ (s.allocateLinkWork).portB.queue = s.portB.queue := by
  unfold State.allocateLinkWork; split <;> simp

@[simp] theorem releaseLinkWork_queues (s : State) :
    (s.releaseLinkWork).portA.queue = s.portA.queue ∧ (s.releaseLinkWork).portB.queue = s.portB.queue := by
  unfold State.releaseLinkWork; split <;> simp

@[simp] theorem moveLinkWork_queues (s : State) :
    (s.moveLinkWork).portA.queue = s.portA.queue ∧ (s.moveLinkWork).portB.queue = s.portB.queue := by
  unfold State.moveLinkWork; split <;> simp

@[simp] theorem emptyLinkWork_queues (s : State) :
    (s.emptyLinkWork).portA.queue = s.portA.queue ∧ (s.emptyLinkWork).portB.queue = s.portB.queue := by
  unfold State.emptyLinkWork; dsimp only; (repeat' split) <;> simp

end Sys2Proof.Machine
end

section
/-! PROOF. The Stamp Counter (R18): no command but STAMP_TICK and POWER_ON_RESET moves it, and what a command puts into a
queue carries its value. Both are one relation of the state before and the state after, which composes; it is shown once of
each shared operation, and of a command by putting its operations together. -/

namespace Sys2Proof.Machine

/-- On the way from s to t the Stamp Counter stood still, and every record that came into a queue carries its value. -/
structure State.Stamps (s t : State) : Prop where
  counter : t.hwi.stamp = s.hwi.stamp
  records : ∀ p, ∀ r ∈ (t.port p).queue.entries, r ∈ (s.port p).queue.entries ∨ r.stamp = s.hwi.stamp

variable {s t u : State}

/-! ### The relation -/

theorem State.Stamps.refl (s : State) : s.Stamps s := ⟨rfl, fun _ _ hr => .inl hr⟩

theorem State.Stamps.trans (first : s.Stamps t) (second : t.Stamps u) : s.Stamps u where
  counter := second.counter.trans first.counter
  records p r hr := (second.records p r hr).elim (first.records p r) fun e => .inr (e.trans first.counter)

/-- An operation that leaves the counter and the queues alone. -/
theorem State.Stamps.of_queues (counter : t.hwi.stamp = s.hwi.stamp)
    (queues : t.portA.queue = s.portA.queue ∧ t.portB.queue = s.portB.queue) : s.Stamps t where
  counter := counter
  records p r hr := by
    have same : (t.port p).queue = (s.port p).queue := by
      cases p
      · exact queues.1
      · exact queues.2
    exact .inl (same ▸ hr)

theorem modChannel_stamps (s : State) (n : ChannelNo) (f : Channel → Channel) : s.Stamps (s.modChannel n f) :=
  .of_queues rfl ⟨rfl, rfl⟩

/-- A change of one link whose queue afterwards holds only what it held and records with the counter's value. -/
theorem modPort_stamps (s : State) (p : Plane) {f : Port → Port}
    (hf : ∀ r ∈ (f (s.port p)).queue.entries, r ∈ (s.port p).queue.entries ∨ r.stamp = s.hwi.stamp) :
    s.Stamps (s.modPort p f) where
  counter := by rw [modPort_hwi]
  records q r hr := by
    by_cases same : q = p
    · subst same
      rw [port_modPort] at hr
      exact hf r hr
    · rw [port_modPort_ne s same] at hr
      exact .inl hr

/-- A change of one queue whose entries afterwards are among those it held. -/
theorem modQueue_stamps (s : State) (p : Plane) {f : Queue → Queue}
    (hf : ∀ r ∈ (f (s.port p).queue).entries, r ∈ (s.port p).queue.entries) : s.Stamps (s.modQueue p f) :=
  modPort_stamps s p fun r hr => .inl (hf r hr)

/-! ### Raised events (R172, R173) -/

/-- What an arrival leaves in a queue was there or has the stamp of the record that arrives: the OVERRUN record that may
stand in its place carries its stamp. -/
theorem mem_arrive {q : Queue} {e r : EventRecord} (hr : r ∈ (q.arrive e).entries) :
    r ∈ q.entries ∨ r.stamp = e.stamp := by
  have stored : r ∈ storeRecord e q.entries := hr
  unfold storeRecord at stored
  split at stored
  · rcases List.mem_append.1 stored with h | h
    · exact .inl h
    · exact .inr (by rw [List.mem_singleton.1 h])
  · split at stored
    · rcases List.mem_append.1 stored with h | h
      · exact .inl h
      · exact .inr (by rw [List.mem_singleton.1 h]; rfl)
    · exact .inl stored

theorem raise_stamps (s : State) (toA toB : Bool) (e : Event) : s.Stamps (s.raise toA toB e) where
  counter := by simp only [raise_frame]
  records p r hr := by
    rw [raise_port] at hr
    split_ifs at hr
    · exact mem_arrive hr
    · exact .inl hr

theorem raiseChannel_stamps (s : State) (n : ChannelNo) (e : Event) : s.Stamps (s.raiseChannel n e) := raise_stamps ..

theorem raiseBoth_stamps (s : State) (e : Event) : s.Stamps (s.raiseBoth e) := raise_stamps ..

/-! ### The Purge Engine (R64 to R72) -/

/-- A change of the Purge Engine alone. -/
theorem withPge_stamps (s : State) (e : Pge) : s.Stamps { s with pge := e } := .of_queues rfl ⟨rfl, rfl⟩

theorem finishEntry_stamps (s : State) (e : BatchEntry) : s.Stamps (s.finishEntry e) := by
  have raised := fun marked => (withPge_stamps s marked).trans
    (raise_stamps _ (purgeRoutes e.requesters (s.holder e.list) .a) (purgeRoutes e.requesters (s.holder e.list) .b)
      (.purgeDone e.list e.requesters))
  unfold State.finishEntry
  split
  · exact (raised _).trans (modChannel_stamps _ _ _)
  · exact raised _

theorem exhaust_stamps (s : State) : s.Stamps s.exhaust := .of_queues (by simp) (by simp)

theorem selectNext_stamps (fuel : Nat) (s : State) : s.Stamps (State.selectNext fuel s) := by
  induction fuel generalizing s with
  | zero => exact .refl s
  | succ fuel ih =>
    rw [State.selectNext]
    split
    · exact exhaust_stamps s
    · split
      · exact (finishEntry_stamps s _).trans (ih _)
      · exact withPge_stamps s _

theorem run_stamps (s : State) : s.Stamps s.run := (withPge_stamps s _).trans (selectNext_stamps ..)

theorem requestPurge_stamps (s : State) (n : ChannelNo) (r : Requesters) : s.Stamps (s.requestPurge n r) :=
  .of_queues (by simp) (by simp)

theorem gatherExpiry_stamps (s : State) : s.Stamps s.gatherExpiry := by
  unfold State.gatherExpiry
  split
  · exact run_stamps s
  · exact .refl s

theorem suspendExpiry_stamps (s : State) : s.Stamps s.suspendExpiry := by
  unfold State.suspendExpiry
  split
  · exact (raiseBoth_stamps s _).trans (run_stamps _)
  · exact .refl s

theorem endClear_stamps (s : State) (k : Clear) : s.Stamps (s.endClear k) := .of_queues (by simp) (by simp)

theorem finishIfDone_stamps (s : State) (c : ChainCode) : s.Stamps (s.finishIfDone c) := by
  unfold State.finishIfDone
  split
  · split
    · exact finishEntry_stamps s _
    · exact .refl s
  · exact .refl s

theorem afterClear_stamps (s : State) : s.Stamps s.afterClear := by
  unfold State.afterClear
  split
  · exact selectNext_stamps ..
  · split
    · exact withPge_stamps s _
    · exact exhaust_stamps s
  all_goals exact .refl s

theorem clearEnd_stamps (s : State) : s.Stamps s.clearEnd := by
  unfold State.clearEnd
  split
  · exact .refl s
  · exact (endClear_stamps s _).trans (finishIfDone_stamps _ _) |>.trans (afterClear_stamps _)

/-! ### Framing and the highway (R2, R10, R15, R16) -/

/-- A change of the Highway Interface that leaves its counter alone. -/
theorem withHwi_stamps (s : State) (h : Hwi) (counter : h.stamp = s.hwi.stamp) : s.Stamps { s with hwi := h } :=
  .of_queues counter ⟨rfl, rfl⟩

theorem hunt_stamp (h : Hwi) (position : Fin Config.framePositions) : (h.hunt position).stamp = h.stamp := by
  unfold Hwi.hunt; split <;> rfl

theorem syncPulse_stamps (s : State) (position : Fin Config.framePositions) : s.Stamps (s.syncPulse position) := by
  unfold State.syncPulse
  split
  · split
    · exact withHwi_stamps s _ rfl
    · exact .refl s
  · dsimp only
    split
    · have recovered : s.Stamps { s with hwi := (s.hwi.hunt position).recover } :=
        withHwi_stamps s _ (hunt_stamp s.hwi position)
      exact recovered.trans (raiseBoth_stamps _ _)
    · exact withHwi_stamps s _ (hunt_stamp s.hwi position)

theorem missedSync_stamps (s : State) : s.Stamps s.missedSync := by
  unfold State.missedSync
  split
  · dsimp only
    split
    · have lost : s.Stamps
          ({ s with hwi := { s.hwi with missCount := s.hwi.missCount + 1 }.lose } : State).discardBlocks :=
        .of_queues rfl ⟨rfl, rfl⟩
      exact lost.trans (raiseBoth_stamps _ _)
    · exact withHwi_stamps s _ rfl
  · exact withHwi_stamps s _ rfl

theorem arrival_stamps (s : State) (n : ChannelNo) (rin sin : Byte) : s.Stamps (s.arrival n rin sin) := by
  have counter : (s.arrivalWork n rin sin).hwi.stamp = s.hwi.stamp := by
    unfold State.arrivalWork
    dsimp only [State.modMark, State.sendCodes, State.modChannel]
    split <;> simp
  unfold State.arrival
  split
  · exact .of_queues counter (by simp)
  · exact .refl s

theorem transparent_stamps (s : State) (slot : Timeslot) (rin sin : Byte) : s.Stamps (s.transparent slot rin sin) := by
  unfold State.transparent
  split
  · exact withHwi_stamps s _ rfl
  · exact .refl s

/-! ### The block boundary (R12) -/

theorem toneBoundary_stamps (s : State) (n : ChannelNo) : s.Stamps (s.toneBoundary n) := by
  unfold State.toneBoundary
  dsimp only
  split
  · exact (modChannel_stamps s n _).trans (raiseChannel_stamps _ _ _)
  · exact modChannel_stamps s n _

theorem divergenceBoundary_stamps (s : State) (n : ChannelNo) (r : BlockRecord) :
    s.Stamps (s.divergenceBoundary n r) := by
  unfold State.divergenceBoundary
  dsimp only
  split
  · exact (modChannel_stamps s n _).trans (raiseChannel_stamps _ _ _)
      |>.trans (requestPurge_stamps _ n _)
  · exact modChannel_stamps s n _

theorem convergenceBoundary_stamps (s : State) (n : ChannelNo) (r : BlockRecord) :
    s.Stamps (s.convergenceBoundary n r) := by
  unfold State.convergenceBoundary
  dsimp only
  split
  · exact (modChannel_stamps s n _).trans (raiseChannel_stamps _ _ _)
  · exact modChannel_stamps s n _

theorem levelBoundary_stamps (s : State) (n : ChannelNo) : s.Stamps (s.levelBoundary n) := by
  unfold State.levelBoundary
  dsimp only
  split <;> split
  · exact (modChannel_stamps s n _).trans (raiseChannel_stamps _ n _) |>.trans (raiseChannel_stamps _ n _)
  · exact (modChannel_stamps s n _).trans (raiseChannel_stamps _ n _)
  · exact (modChannel_stamps s n _).trans (raiseChannel_stamps _ n _)
  · exact modChannel_stamps s n _

/-- The decisions that raise no event, between those of EEA's convergence and LSU. -/
theorem silentDecisions_stamps (s : State) (n : ChannelNo) (r : BlockRecord) :
    s.Stamps (((s.standingBoundary n r).suppressorBoundary n r).trackingBoundary n r) :=
  .of_queues (by simp) (by simp)

theorem decisions_stamps (s : State) (n : ChannelNo) : s.Stamps (s.decisions n) := by
  have tested : ∀ f r, s.Stamps (((s.refreshWeights n).modChannel n f).doubleTalkBoundary n r) :=
    fun f r => .of_queues (by simp) (by simp)
  unfold State.decisions
  dsimp only
  exact (tested _ _).trans (toneBoundary_stamps _ n)
    |>.trans (divergenceBoundary_stamps _ n _)
    |>.trans (convergenceBoundary_stamps _ n _)
    |>.trans (silentDecisions_stamps _ n _)
    |>.trans (levelBoundary_stamps _ n)
    |>.trans (modChannel_stamps _ n _)

theorem boundary_stamps (s : State) (n : ChannelNo) : s.Stamps (s.boundary n) := by
  have applied : ∀ t : State, t.Stamps (((t.applyPending n).openBlock n).modMark n ({ · with boundary := true })) := by
    intro t
    refine .of_queues ?_ (by simp)
    have pending : (t.applyPending n).hwi.stamp = t.hwi.stamp := by
      unfold State.applyPending; dsimp only; split <;> rfl
    simpa [State.modMark] using pending
  unfold State.boundary State.boundaryWork
  dsimp only
  split
  · split
    · exact applied s
    · exact (decisions_stamps s n).trans (applied _)
  · exact .refl s

/-! ### Relocation (R129 to R132) -/

theorem relocationTakeWork_stamps (s : State) : s.Stamps s.relocationTakeWork := by
  unfold State.relocationTakeWork
  split
  · dsimp only
    have taken : ∀ rest l, s.Stamps { s with relocation := rest, lc := l } := fun _ _ => .of_queues rfl ⟨rfl, rfl⟩
    split
    · exact taken _ _
    · split
      · exact (taken _ _).trans (raiseChannel_stamps _ _ _) |>.trans (.of_queues rfl ⟨rfl, rfl⟩)
      · exact .of_queues (by simp) (by simp)
  · exact .refl s

theorem relocationLinkWork_stamps (s : State) : s.Stamps s.relocationLinkWork := by
  unfold State.relocationLinkWork
  split
  · dsimp only
    split
    · exact .of_queues (by simp) (by simp)
    · exact State.Stamps.trans (.of_queues (by simp) (by simp)) (raiseChannel_stamps _ _ _)
  · exact .refl s

/-! ### The commands a panel's owner executes at once (R38) -/

theorem purgeCommand_stamps (s : State) (p : Plane) (list : Option ChainCode) : s.Stamps (s.purgeCommand p list).1 :=
  .of_queues (by simp) (by simp)

theorem suspendCommand_stamps (s : State) : s.Stamps s.suspendCommand.1 := .of_queues (by simp) (by simp)

theorem claimCommand_stamps (s : State) (p : Plane) (claimable : Option ChainCode) :
    s.Stamps (s.claimCommand p claimable).1 :=
  .of_queues (by simp) (by simp)

theorem unclaimCommand_stamps (s : State) (p : Plane) (claimable : Option ChainCode) :
    s.Stamps (s.unclaimCommand p claimable).1 :=
  .of_queues (by simp) (by simp)

theorem resumeCommand_stamps (s : State) : s.Stamps s.resumeCommand.1 := by
  unfold State.resumeCommand
  split
  · exact run_stamps s
  · exact withPge_stamps s _
  all_goals exact .refl s

theorem seizeCommand_stamps (s : State) (p : Plane) (claimable : Option ChainCode) :
    s.Stamps (s.seizeCommand p claimable).1 := by
  cases claimable with
  | none => exact .refl s
  | some c =>
    have seized : s.Stamps (s.setHolder c (some p)) := .of_queues rfl ⟨rfl, rfl⟩
    unfold State.seizeCommand
    dsimp only
    split
    · exact seized.trans (raise_stamps _ _ _ _)
    · exact seized

theorem restartChannel_stamps (s : State) (p : Plane) (n : ChannelNo) : s.Stamps (s.restartChannel p n) := by
  have marked : ∀ f r w, s.Stamps
      ((if (s.channelChain n).isEmpty then s.modChannel n f else (s.modChannel n f).requestPurge n r).markAtRestart n w) :=
    fun f r w => by split <;> exact .of_queues (by simp) (by simp)
  unfold State.restartChannel
  dsimp only
  split
  · exact marked _ _ _
  · split
    · exact (marked _ _ _).trans (raiseChannel_stamps _ _ _)
    · exact (marked _ _ _).trans (raiseChannel_stamps _ _ _)
    all_goals exact marked _ _ _

theorem restartCommand_stamps (s : State) (p : Plane) (channel : Option ChannelNo) :
    s.Stamps (s.restartCommand p channel).1 := by
  unfold State.restartCommand
  split
  · exact .refl s
  · split
    · exact restartChannel_stamps s p _
    · exact .refl s

/-- A change of a panel alone. -/
theorem modPanel_stamps (s : State) (p : Plane) (f : Panel → Panel) : s.Stamps (s.modPanel p f) :=
  .of_queues (by simp) (by simp)

theorem takeImmediate_stamps (s : State) (p : Plane) (w : CommandWord) {execute : State → State × Status}
    (hx : ∀ t : State, t.Stamps (execute t).1) : s.Stamps (s.takeImmediate p w execute) := by
  unfold State.takeImmediate
  exact (modPanel_stamps s p _).trans (hx _) |>.trans (modPanel_stamps _ p _)

theorem route_stamps (s : State) (p : Plane) (w : CommandWord) : s.Stamps (s.route p w) := by
  unfold State.route
  cases w.code with
  | allocate | release | move | swap | empty => exact modPanel_stamps s p _
  | purge => exact takeImmediate_stamps s p _ fun t => purgeCommand_stamps t p _
  | suspend => exact takeImmediate_stamps s p _ suspendCommand_stamps
  | resume => exact takeImmediate_stamps s p _ resumeCommand_stamps
  | claim => exact takeImmediate_stamps s p _ fun t => claimCommand_stamps t p _
  | unclaim => exact takeImmediate_stamps s p _ fun t => unclaimCommand_stamps t p _
  | seize => exact takeImmediate_stamps s p _ fun t => seizeCommand_stamps t p _
  | restart => exact takeImmediate_stamps s p _ fun t => restartCommand_stamps t p _

/-! ### The link requests (R160 to R170) -/

/-- A request stamps as what it executes does: to hold a reply, or to drive one, touches no queue. -/
theorem request_stamps (s : State) (p : Plane) (kind : Byte) (bytes : Nat) {execute : State → Reply}
    (hx : s.Stamps (execute s).state) : s.Stamps (s.request p kind bytes execute) := by
  cases iface : (s.port p).iface with
  | awaitRequest =>
    rw [request_awaiting s p kind bytes execute iface]
    exact hx.trans (modPort_stamps _ p fun _ hr => .inl hr)
  | replyReady reply =>
    rw [request_ready s p kind bytes execute reply iface]
    exact modPort_stamps s p fun _ hr => .inl hr

theorem commandFrame_stamps (s : State) (p : Plane) (code : CommandCode) (args : Args) :
    s.Stamps (s.commandFrame p code args) := by
  refine request_stamps s p _ _ ?_
  unfold State.commandRequest
  split
  · exact route_stamps s p _
  · exact .refl s

theorem readRequest_state (s : State) (p : Plane) (space : Byte) (index : Word) (count : Byte) :
    (s.readRequest p space index count).state = s := by
  unfold State.readRequest; split <;> rfl

theorem writeRequest_stamps (s : State) (p : Plane) (space : Byte) (index : Word) (count : Byte) (data : List Word) :
    s.Stamps (s.writeRequest p space index count data).state := by
  unfold State.writeRequest
  cases checkAccess space index count with
  | error st => exact .refl s
  | ok sp =>
    cases sp with
    | channelConfig => exact .of_queues (by simp [Reply.plain]) (by simp [Reply.plain])
    | coeff => exact .of_queues (by simp [Reply.plain]) (by simp [Reply.plain])
    | channelStatus | segment | list | claims | device => exact .refl s

theorem takeEventsRequest_stamps (s : State) (p : Plane) (n : Byte) : s.Stamps (s.takeEventsRequest p n).state := by
  unfold State.takeEventsRequest
  split
  · exact .refl s
  · dsimp only
    exact modQueue_stamps s p fun _ hr => List.mem_of_mem_drop hr

theorem setTriggerRequest_stamps (s : State) (p : Plane) (level : Byte) :
    s.Stamps (s.setTriggerRequest p level).state := by
  unfold State.setTriggerRequest
  split
  · exact .refl s
  · dsimp only
    exact modQueue_stamps s p fun _ hr => hr

/-- LINK_RESET empties the queue and leaves the counter alone (R18, R177). -/
theorem linkResetRequest_stamps (s : State) (p : Plane) : s.Stamps (s.linkResetRequest p).state := by
  have detached : ∀ l, s.Stamps { s with lc := l } := fun _ => .of_queues rfl ⟨rfl, rfl⟩
  exact (detached _).trans
    (modPort_stamps _ p (f := ({ · with panel := .reset, queue := .reset })) fun _ hr => absurd hr List.not_mem_nil)

theorem clockReply_stamps (s : State) (p : Plane) (bytes : Nat) : s.Stamps (s.clockReply p bytes) :=
  .of_queues (by simp) (by simp)

theorem badFrameRequest_stamps (s : State) (p : Plane) (frame : List Byte) : s.Stamps (s.badFrameRequest p frame) := by
  unfold State.badFrameRequest
  split
  · exact clockReply_stamps s p 0
  · exact request_stamps s p _ _ (.refl s)

theorem quietExpiry_stamps (s : State) (p : Plane) : s.Stamps (s.quietExpiry p) := by
  refine modQueue_stamps s p fun r hr => ?_
  split at hr <;> exact hr

/-! ### The commands -/

/-- A command that answers u answers no other state. -/
theorem State.Stamps.of_next (h : s.Stamps u)
    (answer : (.next u : Host.Outcome State Fault Refusal) = .next t) : s.Stamps t := by
  cases answer; exact h

/-- Every command but STAMP_TICK and POWER_ON_RESET leaves the Stamp Counter alone and puts into the queues only records
that carry its value (R18). -/
theorem exec_stamps {c : Instr} (answer : exec c s = .next t) (tick : c ≠ .stampTick)
    (reset : ∀ law, c ≠ .powerOnReset law) : s.Stamps t := by
  cases c with
  | powerOnReset law => exact absurd rfl (reset law)
  | stampTick => exact absurd rfl tick
  | syncPulse position => exact (syncPulse_stamps s position).of_next answer
  | missedSync => exact (missedSync_stamps s).of_next answer
  | samplePairArrival n rin sin => exact (arrival_stamps s n rin sin).of_next answer
  | blockBoundary n => exact (boundary_stamps s n).of_next answer
  | transparentTimeslot slot rin sin => exact (transparent_stamps s slot rin sin).of_next answer
  | read p space index count =>
    exact (request_stamps s p _ _ ((readRequest_state s p space index count).symm ▸ .refl s)).of_next answer
  | writeChannelConfig p index count data =>
    exact (request_stamps s p _ _ (writeRequest_stamps s p 1 index count data)).of_next answer
  | writeCoeff p index count data =>
    exact (request_stamps s p _ _ (writeRequest_stamps s p 4 index count data)).of_next answer
  | write p space index count data =>
    exact (request_stamps s p _ _ (writeRequest_stamps s p space index count data)).of_next answer
  | status p => exact (request_stamps s p _ _ (.refl s)).of_next answer
  | takeEvents p n => exact (request_stamps s p _ _ (takeEventsRequest_stamps s p n)).of_next answer
  | setTrigger p level => exact (request_stamps s p _ _ (setTriggerRequest_stamps s p level)).of_next answer
  | linkReset p => exact (request_stamps s p _ _ (linkResetRequest_stamps s p)).of_next answer
  | replyFrame p bytes => exact (clockReply_stamps s p bytes).of_next answer
  | badFrame p frame => exact (badFrameRequest_stamps s p frame).of_next answer
  | quietTimerExpiry p => exact (quietExpiry_stamps s p).of_next answer
  | allocateTake => exact (State.Stamps.of_queues (by simp) (allocateTake_queues s)).of_next answer
  | allocateLink => exact (State.Stamps.of_queues (by simp) (allocateLinkWork_queues s)).of_next answer
  | releaseTake => exact (State.Stamps.of_queues (by simp) (releaseTake_queues s)).of_next answer
  | releaseLinkIntoF => exact (State.Stamps.of_queues (by simp) (releaseLinkWork_queues s)).of_next answer
  | moveTake => exact (State.Stamps.of_queues (by simp) (moveTake_queues s)).of_next answer
  | moveLink => exact (State.Stamps.of_queues (by simp) (moveLinkWork_queues s)).of_next answer
  | swapTake => exact (State.Stamps.of_queues (by simp) (swapTake_queues s)).of_next answer
  | emptyTake => exact (State.Stamps.of_queues (by simp) (emptyTake_queues s)).of_next answer
  | emptyLinkIntoF => exact (State.Stamps.of_queues (by simp) (emptyLinkWork_queues s)).of_next answer
  | emptyUnlink =>
    exact (State.Stamps.of_queues (t := s.emptyUnlinkWork) (by simp) (by simp)).of_next answer
  | relocationTake => exact (relocationTakeWork_stamps s).of_next answer
  | relocationLink => exact (relocationLinkWork_stamps s).of_next answer
  | gatherTimerExpiry => exact (gatherExpiry_stamps s).of_next answer
  | segmentClearEnd => exact (clearEnd_stamps s).of_next answer
  | suspendTimerExpiry => exact (suspendExpiry_stamps s).of_next answer
  | allocate p args | release p args | move p args | swap p args | empty p args | purge p args | suspend p args
  | resume p args | claim p args | unclaim p args | seize p args | restart p args =>
    exact (commandFrame_stamps s p _ args).of_next answer
  | command p code args =>
    cases named : commandOfCode code with
    | some k => exact (commandFrame_stamps s p k args).of_next (by simpa [exec, execCommand, named] using answer)
    | none => exact (request_stamps s p 0x03 8 (.refl s)).of_next (by simpa [exec, execCommand, named] using answer)

/-- Whatever the command, what it puts into a queue carries the counter's value as it was: STAMP_TICK puts nothing there,
and POWER_ON_RESET leaves the queues empty. -/
theorem exec_records {c : Instr} (answer : exec c s = .next t) {p : Plane} {r : EventRecord}
    (hr : r ∈ (t.port p).queue.entries) : r ∈ (s.port p).queue.entries ∨ r.stamp = s.hwi.stamp := by
  by_cases tick : c = .stampTick
  · subst tick
    cases answer
    cases p <;> exact .inl hr
  · by_cases reset : ∃ law, c = .powerOnReset law
    · obtain ⟨law, rfl⟩ := reset
      cases answer
      cases p <;> exact absurd hr List.not_mem_nil
    · exact (exec_stamps answer tick fun law e => reset ⟨law, e⟩).records p r hr

/-- A read of DEVICE item 5 replies with the Stamp Counter (R165). -/
theorem read_stamp (s : State) (p : Plane) (iface : (s.port p).iface = .awaitRequest) :
    exec (.read p 7 5 1) s = .next (s.answered p 0x01 .ok [highByte s.hwi.stamp, lowByte s.hwi.stamp]) := by
  have reply : s.readRequest p 7 5 1 =
      { state := s, status := .ok, body := [highByte s.hwi.stamp, lowByte s.hwi.stamp] } := rfl
  have held := request_awaiting s p 0x01 6 (·.readRequest p 7 5 1) iface
  rw [reply] at held
  exact congrArg Host.Outcome.next held

/-- Settles O7: the tick, the reset and the read are the commands' own effects; that no other command moves the counter and
that every record carries it is `exec_stamps`. -/
theorem stampCounter : Obligations.StampCounter := by
  unfold Obligations.StampCounter
  refine ⟨fun _ => rfl, ?wrap, fun _ _ => ⟨_, rfl, rfl⟩, ?others, fun _ _ _ _ _ answer => exec_records answer,
    read_stamp⟩
  case wrap =>
    intro s full
    rw [full]
    decide
  case others =>
    exact fun _ _ _ answer tick reset => (exec_stamps answer tick reset).counter

end Sys2Proof.Machine
end

section
/-! SUPPORT. A command whose owner executes it at once (R38), in closed form, and what the Purge Engine's states say of its
refusals (R45, R61, R69, R73). -/

namespace Sys2Proof.Machine

/-! ### A command that its panel takes and completes in one event (R37, R38) -/

/-- Two changes of one panel are one. -/
theorem modPanel_modPanel (s : State) (p : Plane) (f g : Panel → Panel) :
    (s.modPanel p f).modPanel p g = s.modPanel p fun panel => g (f panel) := by
  cases p <;> rfl

/-- A command executed at once is completed when its execution, on the panel that has just taken it, comes to a state and
a result and leaves that panel to `takeImmediate`. -/
theorem takeImmediate_of_execute {s t : State} {p : Plane} {w : CommandWord} {execute : State → State × Status}
    {st : Status}
    (executed : execute (s.modPanel p fun _ => .take w .running) = (t.modPanel p fun _ => .take w .running, st)) :
    s.takeImmediate p w execute = t.modPanel p fun _ => (Panel.take w .running).complete st none := by
  unfold State.takeImmediate
  rw [executed]
  exact modPanel_modPanel t p _ (·.complete st none)

/-- The frame of a command at a Ready link, whose routing executes it at once. -/
theorem commandFrame_completed {s t : State} {p : Plane} {code : CommandCode} {a : Args}
    {execute : State → State × Status} {st : Status} (ready : s.Ready p)
    (routed : s.route p { code := code, args := a } = s.takeImmediate p { code := code, args := a } execute)
    (executed : execute (s.modPanel p fun _ => .take { code := code, args := a } .running) =
      (t.modPanel p fun _ => .take { code := code, args := a } .running, st)) :
    s.commandFrame p code a = t.completed p code a st := by
  obtain ⟨awaiting, idle⟩ := ready
  unfold State.commandFrame
  rw [request_awaiting s p _ _ _ awaiting, State.commandRequest, if_pos idle]
  dsimp only
  rw [routed, takeImmediate_of_execute executed]
  rfl

/-! ### SUSPEND (R69) -/

theorem suspendCommand_running {s : State} (engine : s.pge.engine = .running) :
    s.suspendCommand = ({ s with pge := { s.pge with engine := .suspending } }, .ok) := by
  unfold State.suspendCommand
  rw [engine]

theorem suspendCommand_not_running {s : State} (engine : s.pge.engine ≠ .running) :
    s.suspendCommand = (s, .notRunning) := by
  unfold State.suspendCommand
  cases h : s.pge.engine with
  | running => exact absurd h engine
  | idle | gathering | suspending | suspended => rfl

/-! ### What SUSPENDING refuses and what it holds in purge (R45, R61, R73) -/

/-- A list is in purge in SUSPENDING as long as its entry is unfinished (R45). -/
theorem inPurge_of_suspending {s : State} (engine : s.pge.engine = .suspending) (c : ChainCode) :
    s.inPurge c = s.unfinished c := by
  unfold State.inPurge
  rw [engine]
  exact Bool.and_true _

/-- A PURGE by the holder while a batch is being cleared or is suspended (R61). -/
theorem purgeCommand_busy {s : State} {p : Plane} {c : ChainCode} (holder : s.holder c = some p)
    (engine : s.pge.engine = .running ∨ s.pge.engine = .suspending ∨ s.pge.engine = .suspended) :
    s.purgeCommand p (some c) = (s, .purgeBusy) := by
  have held : s.holds p c = true := decide_eq_true holder
  unfold State.purgeCommand
  rcases engine with h | h | h <;> simp [held, h]

/-- The engine owes a purge to every request while a batch is being cleared or is suspended (R73). -/
theorem owes_of_past_gathering {e : Pge}
    (engine : e.engine = .running ∨ e.engine = .suspending ∨ e.engine = .suspended) : e.owes = true := by
  unfold Pge.owes
  rcases engine with h | h | h <;> rw [h]

/-- A request that the engine owes leaves the engine as it is (R73). -/
theorem requestPurge_pge_of_owes {s : State} (owes : s.pge.owes = true) (n : ChannelNo) (r : Requesters) :
    (s.requestPurge n r).pge = s.pge := by
  unfold Pge.owes at owes
  unfold State.requestPurge
  cases engine : s.pge.engine with
  | idle => simp [engine] at owes
  | gathering =>
    have full : Config.maxBatch ≤ s.pge.batch.length := by simpa [engine] using owes
    simp [full]
  | running | suspending | suspended => simp

end Sys2Proof.Machine
end

section
/-! PROOF. SUSPEND in every engine state, and what SUSPENDING refuses (R69). -/

namespace Sys2Proof.Machine

/-- SUSPEND at a Ready link ends as its execution by the Purge Engine does: the engine's own state decides, and the panel's
record of the command takes no part in it. -/
theorem exec_suspend_of_suspendCommand {s t : State} {p : Plane} {a : Args} {st : Status} (ready : s.Ready p)
    (executed : (s.modPanel p fun _ => .take { code := .suspend, args := a } .running).suspendCommand =
      (t.modPanel p fun _ => .take { code := .suspend, args := a } .running, st)) :
    exec (.suspend p a) s = .next (t.completed p .suspend a st) :=
  congrArg Host.Outcome.next (commandFrame_completed ready rfl executed)

theorem exec_suspend_running {s : State} {p : Plane} {a : Args} (ready : s.Ready p)
    (engine : s.pge.engine = .running) :
    exec (.suspend p a) s =
      .next ({ s with pge := { s.pge with engine := .suspending } }.completed p .suspend a .ok) :=
  exec_suspend_of_suspendCommand ready <| by
    rw [suspendCommand_running (by simpa using engine)]
    cases p <;> rfl

theorem exec_suspend_not_running {s : State} {p : Plane} {a : Args} (ready : s.Ready p)
    (engine : s.pge.engine ≠ .running) :
    exec (.suspend p a) s = .next (s.completed p .suspend a .notRunning) :=
  exec_suspend_of_suspendCommand ready <| suspendCommand_not_running (by simpa using engine)

/-- PURGE by the holder while a batch is being cleared or is suspended is refused PURGE_BUSY (R61). -/
theorem exec_purge_busy {s : State} {p : Plane} {a : Args} {c : ChainCode} (ready : s.Ready p)
    (list : argChain a = some c) (holder : s.holder c = some p)
    (engine : s.pge.engine = .running ∨ s.pge.engine = .suspending ∨ s.pge.engine = .suspended) :
    exec (.purge p a) s = .next (s.completed p .purge a .purgeBusy) := by
  refine congrArg Host.Outcome.next
    (commandFrame_completed (execute := (·.purgeCommand p (argChain a))) ready rfl ?_)
  rw [list]
  exact purgeCommand_busy (by simpa using holder) (by simpa using engine)

/-- Settles O35: one part for SUSPEND in RUNNING and one for it elsewhere, then what SUSPENDING does to a list in the
batch, to a PURGE and to an internal request. -/
theorem suspendCommand : Obligations.SuspendCommand := by
  unfold Obligations.SuspendCommand
  refine fun s p a => ⟨exec_suspend_running, exec_suspend_not_running, ?inPurge, ?purge, ?internal⟩
  case inPurge =>
    exact fun engine c unfinished => (inPurge_of_suspending engine c).trans unfinished
  case purge =>
    exact fun ready engine c list holder => exec_purge_busy ready list holder (.inr (.inl engine))
  case internal =>
    intro n r engine
    have owes : s.pge.owes = true := owes_of_past_gathering (.inr (.inl engine))
    have owed : ((s.requestPurge n r).channel n).owed = s.pge.owes := by rw [requestPurge_channel]
    exact ⟨owed.trans owes, requestPurge_pge_of_owes owes n r⟩

end Sys2Proof.Machine
end

section
/-! SUPPORT. The sample-pair arrival in closed form (R10): its error, what reaches the send gain, and the taps it leaves,
each in the terms in which the statements give it. -/

namespace Sys2Proof.Machine

variable {s : State} {n : ChannelNo}

/-! ### The error, the send path and the taps (R81, R83, R140) -/

/-- The error as R81 states it: every canceller state but RUNNING leaves Sin. -/
theorem arrivalError_eq_errorAt (s : State) (n : ChannelNo) (rin sin : Byte) :
    arrivalError (s.canceller n) (linRat (expand s.hwi.law sin)) (s.estimate n (s.historyAt n rin)) =
      s.errorAt n rin sin := by
  unfold arrivalError State.errorAt
  rw [estimate_eq]
  cases s.canceller n <;> rfl

/-- What reaches the send gain is the signal of the mode and the suppressor (R115, R140). -/
theorem sendPath_eq_pathAt (s : State) (n : ChannelNo) (rin sin : Byte) :
    sendPath (s.channel n) n s.hwi.phase (linRat (expand s.hwi.law sin)) (s.errorAt n rin sin) = s.pathAt n rin sin := by
  unfold sendPath State.pathAt
  cases (s.channel n).governing.mode with
  | off | observe => rfl
  | active => cases (s.channel n).suppressor <;> rfl

theorem pathAt_of_active_opened (mode : (s.channel n).governing.mode = .active)
    (suppressor : (s.channel n).suppressor = .opened) (rin sin : Byte) :
    s.pathAt n rin sin = s.errorAt n rin sin := by
  unfold State.pathAt
  rw [if_pos mode, if_pos suppressor]

theorem pathAt_of_observe (mode : (s.channel n).governing.mode = .observe) (rin sin : Byte) :
    s.pathAt n rin sin = linRat (expand s.hwi.law sin) := by
  unfold State.pathAt
  rw [mode]
  rfl

/-- A run of changes of segments that are not g leaves g. -/
theorem segment_foldModSegment_of_notMem {l : List SegNo} {g : SegNo} (f : SegNo → Segment → Segment) (outside : g ∉ l)
    (s : State) : (l.foldl (fun t x => t.modSegment x (f x)) s).segment g = s.segment g := by
  induction l generalizing s with
  | nil => rfl
  | cons x l ih =>
    obtain ⟨ne, rest⟩ := not_or.1 (mt List.mem_cons.2 outside)
    rw [List.foldl_cons, ih rest, segment_modSegment_ne s ne]

/-- A run of changes of different segments changes each of them once. -/
theorem segment_foldModSegment_of_mem {l : List SegNo} {g : SegNo} (f : SegNo → Segment → Segment) (nodup : l.Nodup)
    (member : g ∈ l) (s : State) : (l.foldl (fun t x => t.modSegment x (f x)) s).segment g = f g (s.segment g) := by
  induction l generalizing s with
  | nil => exact absurd member List.not_mem_nil
  | cons x l ih =>
    obtain ⟨fresh, nodup⟩ := List.nodup_cons.1 nodup
    rw [List.foldl_cons]
    by_cases first : g = x
    · subst first
      rw [segment_foldModSegment_of_notMem f fresh, segment_modSegment]
    · rw [ih nodup ((List.mem_cons.1 member).resolve_left first), segment_modSegment_ne s first]

/-- The taps of a chained segment after an update of the chain (R82, R83). -/
theorem adapt_coeffs (nodup : (s.channelChain n).Nodup) {g : SegNo} (member : g ∈ s.channelChain n)
    (history : List Lin) (error : Lin) :
    ((s.adapt n history error).segment g).coeffs =
      adaptCoeffs (s.segment g).coeffs (tapSamples history (s.delay g))
        (linScale (stepValue (s.channel n).governing.step (s.channel n).divState) error)
        (s.normaliserAt n history) := by
  unfold State.adapt
  dsimp only
  rw [segment_foldModSegment_of_mem
    (fun g x => { x with coeffs := adaptCoeffs x.coeffs (tapSamples history (s.delay g)) _ _ }) nodup member,
    normaliser_eq]

/-! ### The arrival (R10) -/

theorem exec_samplePairArrival (arrives : s.TakesArrival n) (rin sin : Byte) :
    exec (.samplePairArrival n rin sin) s = .next (s.arrivalWork n rin sin) := by
  obtain ⟨framed, mode, arrived, joining⟩ := arrives
  have due : s.arrivalDue n = true := by simp [State.arrivalDue, framed, mode, arrived, joining]
  exact congrArg Host.Outcome.next (if_pos due)

/-- The state whose chain an arrival has updated, if its block is ADAPT and its channel RUNNING (R82). -/
def State.adaptedAt (s : State) (n : ChannelNo) (rin sin : Byte) : State :=
  if (s.channel n).standing = .adapt ∧ s.canceller n = .running then
    s.adapt n (s.historyAt n rin) (s.errorAt n rin sin)
  else s

theorem adaptedAt_frame (s : State) (n : ChannelNo) (rin sin : Byte) :
    (s.adaptedAt n rin sin).hwi = s.hwi ∧ (s.adaptedAt n rin sin).channel n = s.channel n := by
  unfold State.adaptedAt
  split
  · simp [State.channel]
  · exact ⟨rfl, rfl⟩

/-- The arrival in the terms of the statements: the taps adapt, the channel takes the samples in, the codes go out and the
frame mark is set. -/
theorem arrivalWork_eq (s : State) (n : ChannelNo) (rin sin : Byte) :
    s.arrivalWork n rin sin =
      ((((s.adaptedAt n rin sin).modChannel n fun c => { c with
          history := s.historyAt n rin
          acc := c.acc.add (s.referenceAt n rin) (linRat (expand s.hwi.law sin)) (s.errorAt n rin sin)
          toneRin := c.toneRin ++ [expand s.hwi.law rin]
          toneSin := c.toneSin ++ [expand s.hwi.law sin]
          receive := c.receive.measure (linRat (expand s.hwi.law rin))
          send := c.send.measure (s.pathAt n rin sin)
          whollyRunning := c.whollyRunning && decide (s.canceller n = .running) }).sendCodes
        (s.channel n).governing.timeslot (compand s.hwi.law (s.referenceAt n rin))
        (s.sendCode n (s.pathAt n rin sin))).modMark n ({ · with arrived := true })) := by
  unfold State.adaptedAt
  rw [← sendPath_eq_pathAt, ← arrivalError_eq_errorAt]
  rfl

/-- The limited error is the one that the block accumulator takes in (R81, R90). -/
theorem arrivalWork_errorPower (s : State) (n : ChannelNo) (rin sin : Byte) :
    ((s.arrivalWork n rin sin).channel n).acc.errorPower =
      linAdd (s.channel n).acc.errorPower (linSquare (s.errorAt n rin sin)) := by
  rw [arrivalWork_eq, channel_modMark, channel_sendCodes, channel_modChannel, (adaptedAt_frame s n rin sin).2]
  rfl

/-- The code that goes out on Sout (R140). -/
theorem arrivalWork_sout (s : State) (n : ChannelNo) (rin sin : Byte) :
    (s.arrivalWork n rin sin).hwi.sout =
      s.hwi.sout.set (s.channel n).governing.timeslot.val (s.sendCode n (s.pathAt n rin sin)) := by
  rw [arrivalWork_eq]
  dsimp only [State.modMark, State.sendCodes, State.modChannel]
  rw [(adaptedAt_frame s n rin sin).1]

/-- The segments of an arrival in an ADAPT block of a RUNNING channel (R82). -/
theorem arrivalWork_segment_of_adapt (standing : (s.channel n).standing = .adapt) (running : s.canceller n = .running)
    (rin sin : Byte) (g : SegNo) :
    (s.arrivalWork n rin sin).segment g = (s.adapt n (s.historyAt n rin) (s.errorAt n rin sin)).segment g := by
  rw [arrivalWork_eq, segment_modMark, segment_sendCodes, segment_modChannel, State.adaptedAt,
    if_pos ⟨standing, running⟩]

end Sys2Proof.Machine
end

section
/-! PROOF. The error of an arrival and the three places where the limited error is used (R81). The namespace is not the
model's, where `arrivalError` names the function that R81 defines. -/

namespace Sys2Proof.Proofs

open Sys2Proof.Machine

/-- Settles O10: one part for each use of the limited error, and one for Sout in OBSERVE. -/
theorem arrivalError : Obligations.ArrivalError := by
  unfold Obligations.ArrivalError
  intro s n rin sin arrives
  have sout : (s.arrivalWork n rin sin).hwi.sout[(s.channel n).governing.timeslot.val] =
      s.sendCode n (s.pathAt n rin sin) := by
    simp only [arrivalWork_sout, Vector.getElem_set_self]
  refine ⟨_, exec_samplePairArrival arrives rin sin, arrivalWork_errorPower s n rin sin, ?taps, ?active, ?observe⟩
  case taps =>
    intro standing running nodup g member
    rw [arrivalWork_segment_of_adapt standing running, adapt_coeffs nodup member]
  case active =>
    intro mode suppressor
    rw [sout, pathAt_of_active_opened mode suppressor]
  case observe =>
    intro mode
    rw [sout, pathAt_of_observe mode]

end Sys2Proof.Proofs
end

section
/-! SUPPORT. The boundary at which a block closes, as a state: what applying a record and opening a block write over the
decisions, the events that stand in the queues after it, and what EEA's two decisions make of its channel (R87, R95). -/

namespace Sys2Proof.Machine

variable {s : State} {n : ChannelNo}

/-! ### The canceller state RUNNING (R8) -/

theorem canceller_running_iff (s : State) (n : ChannelNo) :
    s.canceller n = .running ↔ (s.channel n).governing.mode ≠ .off ∧ s.unfinished (channelCode n) = false ∧
      (s.channel n).owed = false ∧ (s.channel n).tone ≠ .bypassFull := by
  unfold State.canceller
  dsimp only
  split_ifs with off restarting bypassed
  · simp [off]
  · refine iff_of_false (fun e => nomatch e) ?_
    rintro ⟨-, unfinished, owed, -⟩
    simp [unfinished, owed] at restarting
  · simp [bypassed]
  · simpa [off, bypassed] using restarting

/-! ### Events that stand in a queue (R158, R173) -/

/-- Records that a queue has room for are stored as they come (R173). -/
theorem foldl_arrive_entries (record : Event → EventRecord) (events : List Event) (q : Queue)
    (room : q.entries.length + events.length ≤ 63) :
    (events.foldl (fun q e => q.arrive (record e)) q).entries = q.entries ++ events.map record := by
  induction events generalizing q with
  | nil => exact (List.append_nil _).symm
  | cons e events ih =>
    rw [List.length_cons] at room
    have stored : (q.arrive (record e)).entries = q.entries ++ [record e] := if_pos (by omega)
    rw [List.foldl_cons, ih _ (by rw [stored, List.length_append, List.length_singleton]; omega), stored,
      List.map_cons, List.append_assoc, List.singleton_append]

/-- One of at most six events about a channel that are raised together is reported (R158, R173). -/
theorem Raises.reported {t : State} {events : List Event} (raised : Raises s t n events) {e : Event}
    (member : e ∈ events) (few : events.length ≤ 6) : s.Reported t n e := by
  obtain ⟨-, -, ports⟩ := raised
  intro p routed room
  rw [ports p]
  dsimp only
  rw [State.queueWith, if_pos routed, foldl_arrive_entries _ _ _ (by omega)]
  exact List.mem_append_right _ (List.mem_map_of_mem member)

theorem length_ite_singleton_le (p : Prop) [Decidable p] (e : Event) : (if p then [e] else []).length ≤ 1 := by
  split <;> simp

theorem limitEvents_length (n : ChannelNo) (send : Bool) (gain : Option Int) :
    (limitEvents n send gain).length ≤ 1 := by
  cases gain <;> simp [limitEvents]

/-! ### The boundary after its decisions (R4, R11, R12) -/

theorem State.ClosesBlock.mode (closes : s.ClosesBlock n) : (s.channel n).governing.mode ≠ .off := by
  obtain ⟨-, -, -, -, mode⟩ := closes
  exact mode

theorem exec_blockBoundary (closes : s.ClosesBlock n) :
    exec (.blockBoundary n) s = .next (s.boundaryWork n) := by
  obtain ⟨framed, phase, boundary, arrived, -⟩ := closes
  have due : s.boundaryDue n = true := by simp [State.boundaryDue, framed, phase, boundary, arrived]
  exact congrArg Host.Outcome.next (if_pos due)

theorem boundaryWork_of_not_off (mode : (s.channel n).governing.mode ≠ .off) :
    s.boundaryWork n =
      (((s.decisions n).applyPending n).openBlock n).modMark n ({ · with boundary := true }) := by
  unfold State.boundaryWork
  rw [if_neg mode]

theorem boundaryWork_pge (mode : (s.channel n).governing.mode ≠ .off) :
    (s.boundaryWork n).pge = (s.decisions n).pge := by
  rw [boundaryWork_of_not_off mode, modMark_pge]
  simp only [openBlock_frame, applyPending_frame]

theorem boundaryWork_port (mode : (s.channel n).governing.mode ≠ .off) (p : Plane) :
    (s.boundaryWork n).port p = (s.decisions n).port p := by
  rw [boundaryWork_of_not_off mode]
  cases p <;> simp only [State.port, modMark_portA, modMark_portB, openBlock_frame, applyPending_frame]

/-- The record that is applied to a channel that is not OFF and the block that opens write eleven fields. -/
theorem recordApplied_blockOpened_writes {c : Channel} (mode : c.governing.mode ≠ .off) (state : Canceller) :
    ∃ governing pending receive send acc rin sin beforeRin beforeSin block wholly,
      c.recordApplied.blockOpened state =
        { c with governing := governing, pendingRecord := pending, receive := receive, send := send, acc := acc,
                 toneRin := rin, toneSin := sin, beforeRin := beforeRin, beforeSin := beforeSin, freeBlock := block,
                 whollyRunning := wholly } := by
  have applied : ∃ governing pending receive send, c.recordApplied =
      { c with governing := governing, pendingRecord := pending, receive := receive, send := send } := by
    unfold Channel.recordApplied
    cases c.pendingRecord with
    | none => exact ⟨_, _, _, _, rfl⟩
    | some r =>
      dsimp only
      rw [if_neg mode]
      exact ⟨_, _, _, _, rfl⟩
  obtain ⟨governing, pending, receive, send, applied⟩ := applied
  rw [applied]
  unfold Channel.blockOpened
  split <;> exact ⟨_, _, _, _, _, _, _, _, _, _, _, rfl⟩

theorem decisions_governing (s : State) (n : ChannelNo) :
    ((s.decisions n).channel n).governing = (s.channel n).governing := by
  obtain ⟨_, decided⟩ := decisions_channel s n
  rw [decided]
  obtain ⟨⟨governing, -⟩, -⟩ := afterDecisions_fields rfl rfl rfl rfl rfl rfl rfl
  exact governing

/-- What a closing block's boundary leaves of its decisions: all but the eleven fields of the record and the new block. -/
theorem boundaryWork_channel_writes (mode : (s.channel n).governing.mode ≠ .off) :
    ∃ governing pending receive send acc rin sin beforeRin beforeSin block wholly,
      (s.boundaryWork n).channel n =
        { (s.decisions n).channel n with
          governing := governing, pendingRecord := pending, receive := receive, send := send, acc := acc,
          toneRin := rin, toneSin := sin, beforeRin := beforeRin, beforeSin := beforeSin, freeBlock := block,
          whollyRunning := wholly } := by
  have opened := openBlock_channel ((s.decisions n).applyPending n) n
  rw [applyPending_channel] at opened
  rw [boundaryWork_of_not_off mode, channel_modMark, opened]
  exact recordApplied_blockOpened_writes (by rwa [decisions_governing]) _

/-! ### EEA's convergence decision (R95) -/

section Convergence

variable {c : Channel} {r : BlockRecord}

theorem decideConvergence_of_not_steady (state : c.divState ≠ .steady) :
    c.decideConvergence r = { c with runCount := 0, converged := false } := by
  unfold Channel.decideConvergence
  cases h : c.divState with
  | steady => exact absurd h state
  | watchful | diverged => rfl

theorem decideConvergence_of_high (state : c.divState = .steady) (adapt : r.adapt = true) (erle : 150 ≤ r.erle) :
    c.decideConvergence r =
      { c with runCount := min 8 (c.runCount + 1), converged := c.converged || decide (8 ≤ c.runCount + 1) } := by
  unfold Channel.decideConvergence
  simp [state, adapt, erle]

theorem decideConvergence_of_low (state : c.divState = .steady) (adapt : r.adapt = true) (erle : r.erle < 150) :
    c.decideConvergence r = { c with runCount := 0 } := by
  unfold Channel.decideConvergence
  simp [state, adapt, not_le.2 erle]

theorem decideConvergence_of_hold (state : c.divState = .steady) (hold : r.adapt = false) :
    c.decideConvergence r = c := by
  unfold Channel.decideConvergence
  simp [state, hold]

/-- DVW's decision leaves the run count and the flag to EEA unless the channel enters DIVERGED (R96, R122). -/
theorem watched_of_steady {owes wasRunning : Bool} {framing : Framing}
    (steady : (c.watched r owes wasRunning framing).divState = .steady) :
    (c.watched r owes wasRunning framing).runCount = c.runCount ∧
      (c.watched r owes wasRunning framing).converged = c.converged := by
  obtain ⟨_, _, _, _, _, writes⟩ := watched_writes c r owes wasRunning framing
  rw [writes] at steady
  have state : (c.decideDivergence r).divState = .steady := steady
  unfold Channel.watched
  dsimp only
  rw [if_neg fun enters => Divergence.noConfusion (state.symm.trans enters.2)]
  unfold Channel.decideDivergence
  split <;> exact ⟨rfl, rfl⟩

end Convergence

/-! ### EEA's standing decision (R87) -/

theorem decideStanding_adapt_iff (c : Channel) (r : BlockRecord) (state : Canceller) :
    (c.decideStanding r state).standing = .adapt ↔
      state = .running ∧ r.whollyRunning = true ∧ r.farActive = true ∧ c.doubleTalk = false := by
  unfold Channel.decideStanding
  dsimp only
  split_ifs with h
  · exact iff_of_true rfl h
  · exact iff_of_false (fun e => nomatch e) h

/-! ### Both decisions among those of a boundary (R12) -/

/-- EEA decides on `x`, the channel as DTD, TBD and DVW leave it, when the decisions of a boundary lead from `c` to `d`
with the canceller state `state` (R12, R87, R95). -/
structure Channel.EstimatorDecides (c x d : Channel) (state : Canceller) : Prop where
  divState : x.divState = d.divState
  doubleTalk : x.doubleTalk = d.doubleTalk
  /-- In STEADY the run count and the flag are still those from before the boundary. -/
  kept : x.divState = .steady → x.runCount = c.runCount ∧ x.converged = c.converged
  runCount : d.runCount = (x.decideConvergence c.measured).runCount
  converged : d.converged = (x.decideConvergence c.measured).converged
  standing : d.standing = ((x.decideConvergence c.measured).decideStanding c.measured state).standing
  erle : d.erle = c.measured.erle

theorem afterDecisions_estimatorDecides (c : Channel) (n : ChannelNo) (delays : List Nat) (owes wasRunning : Bool)
    (framing : Framing) (state : Canceller) :
    ∃ x, c.EstimatorDecides x (c.afterDecisions n delays owes wasRunning framing state) state := by
  obtain ⟨tested, test⟩ : ∃ x, Channel.testDoubleTalk
    { c with erle := c.measured.erle, blockRecord := some c.measured } delays c.measured = x := ⟨_, rfl⟩
  obtain ⟨toned, tone⟩ : ∃ x, tested.decideTone n = x := ⟨_, rfl⟩
  obtain ⟨watched, watch⟩ : ∃ x, toned.watched c.measured owes wasRunning framing = x := ⟨_, rfl⟩
  obtain ⟨-, ⟨erle, -⟩, ⟨-, doubleTalk, -⟩, -, ⟨-, divState, -⟩, ⟨converged, runCount⟩, standing, -⟩ :=
    afterDecisions_fields (state := state) rfl test tone watch rfl rfl rfl
  obtain ⟨_, _, _, testWrites⟩ :=
    testDoubleTalk_writes { c with erle := c.measured.erle, blockRecord := some c.measured } delays c.measured
  obtain ⟨_, _, _, _, toneWrites⟩ := decideTone_writes tested n
  obtain ⟨_, _, _, _, _, watchWrites⟩ := watched_writes toned c.measured owes wasRunning framing
  rw [test] at testWrites
  rw [tone] at toneWrites
  rw [watch] at watchWrites
  refine ⟨watched, ?state, ?flag, ?kept, runCount, converged, standing, erle⟩
  case state => rw [divState, watchWrites]
  case flag => rw [doubleTalk, watchWrites, toneWrites]
  case kept =>
    intro steady
    subst watch
    obtain ⟨run, set⟩ := watched_of_steady steady
    rw [run, set, toneWrites, testWrites]
    exact ⟨rfl, rfl⟩

theorem decisions_estimatorDecides (s : State) (n : ChannelNo) :
    ∃ x, (s.channel n).EstimatorDecides x ((s.decisions n).channel n) ((s.decisions n).canceller n) := by
  obtain ⟨_, decided⟩ := decisions_channel s n
  rw [decided]
  exact afterDecisions_estimatorDecides ..

end Sys2Proof.Machine
end

section
/-! PROOF. Convergence at a boundary with its event, and the standing of the block that opens (R87, R95). -/

namespace Sys2Proof.Machine

/-- The run count and the flag after the decisions, in R95's order of cases. -/
theorem decisions_convergence_cases (s : State) (n : ChannelNo) :
    let c := s.channel n
    let d := (s.decisions n).channel n
    (d.divState ≠ .steady → d.runCount = 0 ∧ d.converged = false) ∧
    (d.divState = .steady → c.standing = .adapt → 150 ≤ d.erle →
      d.runCount = min 8 (c.runCount + 1) ∧ (d.converged = true ↔ c.converged = true ∨ 8 ≤ c.runCount + 1)) ∧
    (d.divState = .steady → c.standing = .adapt → d.erle < 150 → d.runCount = 0 ∧ d.converged = c.converged) ∧
    (d.divState = .steady → c.standing = .hold → d.runCount = c.runCount ∧ d.converged = c.converged) := by
  obtain ⟨x, state, -, kept, runCount, converged, -, erle⟩ := decisions_estimatorDecides s n
  have adapt : (s.channel n).standing = .adapt → (s.channel n).measured.adapt = true := decide_eq_true
  dsimp only
  rw [← state, runCount, converged, erle]
  refine ⟨?watched, ?high, ?low, ?hold⟩
  case watched =>
    intro notSteady
    rw [decideConvergence_of_not_steady notSteady]
    exact ⟨rfl, rfl⟩
  case high =>
    intro steady standing high
    obtain ⟨run, flag⟩ := kept steady
    rw [decideConvergence_of_high steady (adapt standing) high, ← run, ← flag]
    exact ⟨rfl, by simp⟩
  case low =>
    intro steady standing low
    rw [decideConvergence_of_low steady (adapt standing) low]
    exact ⟨rfl, (kept steady).2⟩
  case hold =>
    intro steady standing
    have hold : (s.channel n).measured.adapt = false := decide_eq_false (by rw [standing]; exact fun e => nomatch e)
    rw [decideConvergence_of_hold steady hold]
    exact kept steady

/-- The standing after the decisions: the canceller state and the double-talk flag are those the decisions leave (R87). -/
theorem decisions_standing_adapt_iff (s : State) (n : ChannelNo) :
    ((s.decisions n).channel n).standing = .adapt ↔
      (s.decisions n).canceller n = .running ∧ (s.channel n).whollyRunning = true ∧
        -400 ≤ levelOf (linScale (1 / 32) (s.channel n).acc.refPower) ∧
        ((s.decisions n).channel n).doubleTalk = false := by
  obtain ⟨x, -, doubleTalk, -, -, -, standing, -⟩ := decisions_estimatorDecides s n
  obtain ⟨_, _, converged⟩ := decideConvergence_writes x (s.channel n).measured
  have far : (s.channel n).measured.farActive = true ↔
      -400 ≤ levelOf (linScale (1 / 32) (s.channel n).acc.refPower) := decide_eq_true_iff
  rw [standing, decideStanding_adapt_iff, converged, ← doubleTalk, far]
  rfl

/-- A flag that becomes set at the decisions is reported (R95, R173). -/
theorem decisions_reports_converged {s : State} {n : ChannelNo} (clear : (s.channel n).converged = false)
    (set : ((s.decisions n).channel n).converged = true) :
    s.Reported (s.decisions n) n (.converged n ((s.decisions n).channel n).erle) := by
  have raised := decisions_raises s n
  dsimp only at raised
  refine raised.reported (by simp [clear, set]) ?_
  simp only [List.length_append]
  have five : ∀ {a b c d e : Nat}, a ≤ 1 → b ≤ 1 → c ≤ 1 → d ≤ 1 → e ≤ 1 → a + b + c + d + e ≤ 6 := by omega
  exact five (length_ite_singleton_le _ _) (length_ite_singleton_le _ _) (length_ite_singleton_le _ _)
    (limitEvents_length ..) (limitEvents_length ..)

/-- Settles O20: both parts read the decisions off the boundary, which only applies a record and opens a block over
them. -/
theorem convergenceAndStanding : Obligations.ConvergenceAndStanding := by
  unfold Obligations.ConvergenceAndStanding
  refine ⟨?convergence, ?standing⟩
  case convergence =>
    intro s n closes
    have mode := closes.mode
    obtain ⟨_, _, _, _, _, _, _, _, _, _, _, opened⟩ := boundaryWork_channel_writes mode
    obtain ⟨watched, high, low, hold⟩ := decisions_convergence_cases s n
    refine ⟨s.boundaryWork n, exec_blockBoundary closes, ?_⟩
    dsimp only
    rw [opened]
    dsimp only
    refine ⟨watched, high, low, hold, fun clear set p routed room => ?_⟩
    rw [boundaryWork_port mode]
    exact decisions_reports_converged clear set p routed room
  case standing =>
    intro s n closes
    have mode := closes.mode
    obtain ⟨_, _, _, _, _, _, _, _, _, _, _, opened⟩ := boundaryWork_channel_writes mode
    refine ⟨s.boundaryWork n, exec_blockBoundary closes, ?_⟩
    rw [opened, unfinished_congr (congrArg Pge.batch (boundaryWork_pge mode))]
    dsimp only
    rw [decisions_standing_adapt_iff, canceller_running_iff, decisions_governing]
    simp only [mode, ne_eq, not_false_eq_true, true_and, and_assoc]

end Sys2Proof.Machine
end

section
/-! SUPPORT. DTD's and RSU's decisions at a boundary in closed form, each by the cases of its rules, and the two decisions
among those of a boundary (R12, R99 to R101, R111 to R113). -/

namespace Sys2Proof.Machine

/-! ### The double-talk test (R99 to R101) -/

section DoubleTalk

variable {c : Channel} {r : BlockRecord} {delays : List Nat} {f g : Nat}

theorem foldl_min_of_least {d : Nat} {rest : List Nat} (mem : f ∈ d :: rest) (least : ∀ x ∈ d :: rest, f ≤ x) :
    rest.foldl min d = f :=
  Option.some.inj (List.min?_eq_some_iff.2 ⟨mem, least⟩)

theorem foldl_max_of_greatest {d : Nat} {rest : List Nat} (mem : g ∈ d :: rest) (greatest : ∀ x ∈ d :: rest, x ≤ g) :
    rest.foldl max d = g :=
  Option.some.inj (List.max?_eq_some_iff.2 ⟨mem, greatest⟩)

/-- The closing block meets the test (R101), for the smallest and largest start delays `f` and `g` of the list. -/
def Channel.meetsTest (c : Channel) (r : BlockRecord) (f g : Nat) : Bool :=
  linLt (linScale (marginScale c.governing.margin) (windowPeak (pushPeak r.refPeak c.peakHistory) f g)) r.sinPeak

theorem testDoubleTalk_of_empty (c : Channel) (r : BlockRecord) :
    c.testDoubleTalk [] r =
      { c with peakHistory := pushPeak r.refPeak c.peakHistory, doubleTalk := false, hangover := 0 } := rfl

/-- The flag is on while the test is met and through the hangover, which counts down to 0 from 8 (R101). -/
theorem testDoubleTalk_of_window (smallest : f ∈ delays) (largest : g ∈ delays)
    (bounds : ∀ d ∈ delays, f ≤ d ∧ d ≤ g) :
    c.testDoubleTalk delays r =
      { c with peakHistory := pushPeak r.refPeak c.peakHistory
               doubleTalk := c.meetsTest r f g || decide (0 < c.hangover)
               hangover := if c.meetsTest r f g then 8 else c.hangover - 1 } := by
  cases delays with
  | nil => cases smallest
  | cons d rest =>
    unfold Channel.testDoubleTalk
    dsimp only
    rw [foldl_min_of_least smallest fun x hx => (bounds x hx).1,
      foldl_max_of_greatest largest fun x hx => (bounds x hx).2]
    cases met : c.meetsTest r f g with
    | true => exact if_pos met
    | false =>
      refine (if_neg (ne_true_of_eq_false met)).trans ?_
      by_cases hanging : 0 < c.hangover
      · simp [hanging]
      · simp [Nat.eq_zero_of_not_pos hanging]

theorem testDoubleTalk_peakHistory (c : Channel) (delays : List Nat) (r : BlockRecord) :
    (c.testDoubleTalk delays r).peakHistory = pushPeak r.refPeak c.peakHistory := by
  unfold Channel.testDoubleTalk
  split
  · rfl
  · dsimp only
    split_ifs <;> rfl

/-- The test does not read what the block measurements write before it. -/
theorem testDoubleTalk_measured (c : Channel) (delays : List Nat) (r : BlockRecord) :
    Channel.testDoubleTalk { c with erle := r.erle, blockRecord := some r } delays r =
      { c.testDoubleTalk delays r with erle := r.erle, blockRecord := some r } := by
  unfold Channel.testDoubleTalk
  split
  · rfl
  · dsimp only
    split_ifs <;> rfl

/-- No later decision touches what the test leaves (R12). -/
theorem decisions_doubleTalk (s : State) (n : ChannelNo) :
    let tested := (s.channel n).testDoubleTalk ((s.channelChain n).map s.delay) (s.channel n).measured
    ((s.decisions n).channel n).peakHistory = tested.peakHistory ∧
      ((s.decisions n).channel n).doubleTalk = tested.doubleTalk ∧
      ((s.decisions n).channel n).hangover = tested.hangover := by
  obtain ⟨_, decided⟩ := decisions_channel s n
  obtain ⟨-, -, kept, -⟩ := afterDecisions_fields rfl (testDoubleTalk_measured ..) rfl rfl rfl rfl rfl
  rw [decided]
  exact kept

end DoubleTalk

/-! ### RSU's decision on its state (R111, R112) -/

section Suppressor

variable {c : Channel} {r : BlockRecord}

theorem mayClose_iff (c : Channel) :
    c.mayClose = true ↔ c.governing.suppressor = true ∧ c.governing.mode = .active ∧ c.converged = true ∧
      c.doubleTalk = false ∧ c.tone ≠ .bypassSuppressor ∧ c.tone ≠ .bypassFull := by
  have bypass : Tone.isBypass c.tone = false ↔ c.tone ≠ .bypassSuppressor ∧ c.tone ≠ .bypassFull := by
    cases c.tone <;> simp [Tone.isBypass]
  simp only [Channel.mayClose, Bool.and_eq_true, decide_eq_true_iff, Bool.not_eq_true', bypass, and_assoc]

theorem decideSuppressor_of_barred (barred : ¬c.mayClose = true) :
    c.decideSuppressor r = { c with suppressor := .opened, suppHangover := 0 } :=
  if_pos (by simpa using barred)

theorem decideSuppressor_of_quiet (may : c.mayClose = true) (quiet : r.errorLevel < -450) :
    c.decideSuppressor r = { c with suppressor := .closed, suppHangover := 2 } := by
  simp [Channel.decideSuppressor, may, quiet]

theorem decideSuppressor_of_hanging (may : c.mayClose = true) (loud : ¬r.errorLevel < -450)
    (closed : c.suppressor = .closed) (hanging : 0 < c.suppHangover) :
    c.decideSuppressor r = { c with suppHangover := c.suppHangover - 1 } := by
  simp [Channel.decideSuppressor, may, loud, closed, hanging]

theorem decideSuppressor_of_spent (may : c.mayClose = true) (loud : ¬r.errorLevel < -450)
    (closed : c.suppressor = .closed) (spent : c.suppHangover = 0) :
    c.decideSuppressor r = { c with suppressor := .opened } := by
  simp [Channel.decideSuppressor, may, loud, closed, spent]

theorem decideSuppressor_of_opened (may : c.mayClose = true) (loud : ¬r.errorLevel < -450)
    (opened : c.suppressor = .opened) : c.decideSuppressor r = c := by
  simp [Channel.decideSuppressor, may, loud, opened]

theorem decideSuppressor_writes (c : Channel) (r : BlockRecord) :
    ∃ state hangover, c.decideSuppressor r = { c with suppressor := state, suppHangover := hangover } := by
  by_cases may : c.mayClose = true
  · by_cases quiet : r.errorLevel < -450
    · exact ⟨_, _, decideSuppressor_of_quiet may quiet⟩
    · cases state : c.suppressor with
      | opened => exact ⟨_, _, decideSuppressor_of_opened may quiet state⟩
      | closed =>
        rcases Nat.eq_zero_or_pos c.suppHangover with spent | hanging
        · exact ⟨_, _, decideSuppressor_of_spent may quiet state spent⟩
        · exact ⟨_, _, decideSuppressor_of_hanging may quiet state hanging⟩
  · exact ⟨_, _, decideSuppressor_of_barred may⟩

/-! ### The background estimate (R113) -/

theorem moveBackground_of_still (still : ¬(r.farActive = false ∧ c.doubleTalk = false)) : c.moveBackground r = c :=
  if_pos (by simpa [or_iff_not_imp_left] using still)

/-- The estimate moves to the Sin block level, by at most 0.5 dB (R113). -/
theorem moveBackground_of_moves (moves : r.farActive = false ∧ c.doubleTalk = false) :
    c.moveBackground r = { c with background := clampInt (c.background - 5) (c.background + 5) r.sinLevel } := by
  obtain ⟨far, doubleTalk⟩ := moves
  have limited : (if r.sinLevel < c.background - 5 then c.background - 5
      else if c.background + 5 < r.sinLevel then c.background + 5 else r.sinLevel) =
      clampInt (c.background - 5) (c.background + 5) r.sinLevel := by
    unfold clampInt
    split_ifs <;> omega
  simp [Channel.moveBackground, far, doubleTalk, limited]

/-- The estimate does not read the state RSU decides before it. -/
theorem moveBackground_decideSuppressor (c : Channel) (r : BlockRecord) :
    (c.decideSuppressor r).moveBackground r =
      { c.decideSuppressor r with background := (c.moveBackground r).background } := by
  obtain ⟨_, _, decided⟩ := decideSuppressor_writes c r
  rw [decided]
  by_cases moves : r.farActive = false ∧ c.doubleTalk = false
  · rw [moveBackground_of_moves moves]
    exact moveBackground_of_moves moves
  · rw [moveBackground_of_still moves]
    exact moveBackground_of_still moves

end Suppressor

/-! ### RSU's decisions among those of a boundary (R12) -/

/-- RSU decides on `x`, the channel as DTD, TBD, DVW and EEA leave it, when the decisions of a boundary lead from `c` to `d`
(R12, R111 to R113). -/
structure Channel.SuppressorDecides (c x d : Channel) : Prop where
  governing : x.governing = c.governing
  suppressorBefore : x.suppressor = c.suppressor
  hangoverBefore : x.suppHangover = c.suppHangover
  backgroundBefore : x.background = c.background
  converged : d.converged = x.converged
  doubleTalk : d.doubleTalk = x.doubleTalk
  tone : d.tone = x.tone
  suppressor : d.suppressor = (x.decideSuppressor c.measured).suppressor
  suppHangover : d.suppHangover = (x.decideSuppressor c.measured).suppHangover
  background : d.background = (x.moveBackground c.measured).background

theorem afterDecisions_suppressorDecides (c : Channel) (n : ChannelNo) (delays : List Nat) (owes wasRunning : Bool)
    (framing : Framing) (state : Canceller) :
    ∃ x, c.SuppressorDecides x (c.afterDecisions n delays owes wasRunning framing state) := by
  obtain ⟨tested, test⟩ : ∃ x, Channel.testDoubleTalk
    { c with erle := c.measured.erle, blockRecord := some c.measured } delays c.measured = x := ⟨_, rfl⟩
  obtain ⟨toned, tone⟩ : ∃ x, tested.decideTone n = x := ⟨_, rfl⟩
  obtain ⟨watched, watch⟩ : ∃ x, toned.watched c.measured owes wasRunning framing = x := ⟨_, rfl⟩
  obtain ⟨judged, judge⟩ : ∃ x, watched.decideConvergence c.measured = x := ⟨_, rfl⟩
  obtain ⟨-, -, ⟨-, doubleTalk, -⟩, ⟨toneState, -⟩, -, ⟨converged, -⟩, -, ⟨suppressor, hangover, background⟩, -⟩ :=
    afterDecisions_fields rfl test tone watch judge (rfl : judged.decideStanding c.measured state = _)
      (moveBackground_decideSuppressor ..)
  obtain ⟨_, _, _, testWrites⟩ :=
    testDoubleTalk_writes { c with erle := c.measured.erle, blockRecord := some c.measured } delays c.measured
  obtain ⟨_, _, _, _, toneWrites⟩ := decideTone_writes tested n
  obtain ⟨_, _, _, _, _, watchWrites⟩ := watched_writes toned c.measured owes wasRunning framing
  obtain ⟨_, _, judgeWrites⟩ := decideConvergence_writes watched c.measured
  rw [test] at testWrites
  rw [tone] at toneWrites
  rw [watch] at watchWrites
  rw [judge] at judgeWrites
  refine ⟨judged.decideStanding c.measured state, ?_, ?_, ?_, ?_, converged, doubleTalk.trans ?_, toneState.trans ?_,
    suppressor, hangover, background⟩
  all_goals unfold Channel.decideStanding; simp only [judgeWrites, watchWrites, toneWrites, testWrites]

theorem decisions_suppressorDecides (s : State) (n : ChannelNo) :
    ∃ x, (s.channel n).SuppressorDecides x ((s.decisions n).channel n) := by
  obtain ⟨_, decided⟩ := decisions_channel s n
  rw [decided]
  exact afterDecisions_suppressorDecides ..

end Sys2Proof.Machine
end

section
/-! PROOF. The double-talk test at a boundary, over the window of the list that stands there (R99 to R101). -/

namespace Sys2Proof.Machine

/-- The flag and the hangover count after the decisions, by the cases of R101. -/
theorem decisions_doubleTalk_cases (s : State) (n : ChannelNo) {f g : Nat}
    (smallest : f ∈ (s.channelChain n).map s.delay) (largest : g ∈ (s.channelChain n).map s.delay)
    (bounds : ∀ d ∈ (s.channelChain n).map s.delay, f ≤ d ∧ d ≤ g) :
    let c := s.channel n
    let d := (s.decisions n).channel n
    (c.meetsTest c.measured f g = true → d.doubleTalk = true ∧ d.hangover = 8) ∧
    (c.meetsTest c.measured f g = false → 0 < c.hangover → d.doubleTalk = true ∧ d.hangover = c.hangover - 1) ∧
    (c.meetsTest c.measured f g = false → c.hangover = 0 → d.doubleTalk = false ∧ d.hangover = 0) := by
  obtain ⟨-, flag, count⟩ := decisions_doubleTalk s n
  rw [testDoubleTalk_of_window smallest largest bounds] at flag count
  dsimp only at flag count ⊢
  rw [flag, count]
  refine ⟨fun met => ?_, fun unmet hanging => ?_, fun unmet spent => ?_⟩
  · simp [met]
  · simp [unmet, hanging]
  · simp [unmet, spent]

/-- Settles O16: the boundary keeps what the decisions leave of the test, and the smallest and largest start delays fix its
window. -/
theorem doubleTalkTest : Obligations.DoubleTalkTest := by
  unfold Obligations.DoubleTalkTest
  intro s n closes
  obtain ⟨_, _, _, _, _, _, _, _, _, _, _, opened⟩ := boundaryWork_channel_writes closes.mode
  obtain ⟨peaks, flag, count⟩ := decisions_doubleTalk s n
  refine ⟨s.boundaryWork n, exec_blockBoundary closes, ?_⟩
  rw [opened]
  dsimp only
  refine ⟨?history, ?empty, fun f g smallest largest bounds => ?window⟩
  case history => exact peaks.trans (testDoubleTalk_peakHistory ..)
  case empty =>
    intro empty
    rw [empty, List.map_nil, testDoubleTalk_of_empty] at flag count
    exact ⟨flag, count⟩
  case window => exact decisions_doubleTalk_cases s n smallest largest bounds

end Sys2Proof.Machine
end

section
/-! PROOF. The suppressor and the background estimate at a boundary (R111 to R113). -/

namespace Sys2Proof.Machine

section Decided

variable {c x d : Channel} (decides : c.SuppressorDecides x d)

include decides

/-- The close conditions hold on the channel RSU decides on exactly when they hold after the boundary's decisions (R111). -/
theorem mayClose_decided_iff :
    x.mayClose = true ↔ c.governing.suppressor = true ∧ c.governing.mode = .active ∧ d.converged = true ∧
      d.doubleTalk = false ∧ d.tone ≠ .bypassSuppressor ∧ d.tone ≠ .bypassFull := by
  rw [mayClose_iff, decides.governing, decides.converged, decides.doubleTalk, decides.tone]

/-- The suppressor state and its hangover, by the cases of R112. -/
theorem suppressor_decided_cases :
    (¬x.mayClose = true → d.suppressor = .opened ∧ d.suppHangover = 0) ∧
    (x.mayClose = true → c.measured.errorLevel < -450 → d.suppressor = .closed ∧ d.suppHangover = 2) ∧
    (x.mayClose = true → ¬c.measured.errorLevel < -450 → c.suppressor = .closed → 0 < c.suppHangover →
      d.suppressor = .closed ∧ d.suppHangover = c.suppHangover - 1) ∧
    (x.mayClose = true → ¬c.measured.errorLevel < -450 → c.suppressor = .closed → c.suppHangover = 0 →
      d.suppressor = .opened) ∧
    (x.mayClose = true → ¬c.measured.errorLevel < -450 → c.suppressor = .opened →
      d.suppressor = .opened ∧ d.suppHangover = c.suppHangover) := by
  rw [decides.suppressor, decides.suppHangover, ← decides.suppressorBefore, ← decides.hangoverBefore]
  refine ⟨fun barred => ?_, fun may quiet => ?_, fun may loud closed hanging => ?_, fun may loud closed spent => ?_,
    fun may loud opened => ?_⟩
  · rw [decideSuppressor_of_barred barred]
    exact ⟨rfl, rfl⟩
  · rw [decideSuppressor_of_quiet may quiet]
    exact ⟨rfl, rfl⟩
  · rw [decideSuppressor_of_hanging may loud closed hanging]
    exact ⟨closed, rfl⟩
  · rw [decideSuppressor_of_spent may loud closed spent]
  · rw [decideSuppressor_of_opened may loud opened]
    exact ⟨opened, rfl⟩

/-- The background estimate, by the cases of R113. -/
theorem background_decided_cases :
    (¬(c.measured.farActive = false ∧ d.doubleTalk = false) → d.background = c.background) ∧
    (c.measured.farActive = false ∧ d.doubleTalk = false → c.measured.sinLevel < c.background - 5 →
      d.background = c.background - 5) ∧
    (c.measured.farActive = false ∧ d.doubleTalk = false → c.background + 5 < c.measured.sinLevel →
      d.background = c.background + 5) ∧
    (c.measured.farActive = false ∧ d.doubleTalk = false → c.background - 5 ≤ c.measured.sinLevel →
      c.measured.sinLevel ≤ c.background + 5 → d.background = c.measured.sinLevel) := by
  rw [decides.background, decides.doubleTalk, ← decides.backgroundBefore]
  have moved : c.measured.farActive = false ∧ x.doubleTalk = false → (x.moveBackground c.measured).background =
      max (x.background - 5) (min (x.background + 5) c.measured.sinLevel) := fun moves => by
    rw [moveBackground_of_moves moves]
    rfl
  refine ⟨fun still => ?_, fun moves below => ?_, fun moves above => ?_, fun moves low high => ?_⟩
  · rw [moveBackground_of_still still]
  · rw [moved moves]; omega
  · rw [moved moves]; omega
  · rw [moved moves]; omega

end Decided

/-- Settles O21: RSU's decisions are read off the channel it decides on, and its conditions and levels off the boundary's
outcome and the closing block. -/
theorem suppressorAndBackground : Obligations.SuppressorAndBackground := by
  unfold Obligations.SuppressorAndBackground
  intro s n closes
  obtain ⟨_, _, _, _, _, _, _, _, _, _, _, opened⟩ := boundaryWork_channel_writes closes.mode
  obtain ⟨x, decides⟩ := decisions_suppressorDecides s n
  obtain ⟨barred, quiet, hanging, spent, stays⟩ := suppressor_decided_cases decides
  have background := background_decided_cases decides
  have far : (s.channel n).measured.farActive = false ↔
      ¬(-400 ≤ levelOf (linScale (1 / 32) (s.channel n).acc.refPower)) := decide_eq_false_iff_not
  rw [mayClose_decided_iff decides] at barred quiet hanging spent stays
  rw [far] at background
  refine ⟨s.boundaryWork n, exec_blockBoundary closes, ?_⟩
  rw [opened]
  dsimp only
  exact ⟨barred, quiet, hanging, spent, stays, background⟩

end Sys2Proof.Machine
end

section
/-! SUPPORT. DVW's decision at a boundary by the cases of its rules, and the decision among those of a boundary (R12, R119 to
R121). -/

namespace Sys2Proof.Machine

/-! ### The count and the state it gives (R119 to R121) -/

theorem countedBlock_iff (r : BlockRecord) (doubleTalk : Bool) :
    countedBlock r doubleTalk = true ↔ r.whollyRunning = true ∧ r.farActive = true ∧ doubleTalk = false := by
  simp only [countedBlock, Bool.and_eq_true, Bool.not_eq_true', and_assoc]

theorem nextDivCount_of_worse {count : Nat} {r : BlockRecord} (worse : 10 < r.errorLevel - r.sinLevel) :
    nextDivCount count r = count + 8 := if_pos worse

theorem nextDivCount_of_cancels {count : Nat} {r : BlockRecord} (notWorse : ¬10 < r.errorLevel - r.sinLevel)
    (cancels : 60 ≤ r.erle) : nextDivCount count r = count - 1 := (if_neg notWorse).trans (if_pos cancels)

theorem nextDivCount_of_neither {count : Nat} {r : BlockRecord} (notWorse : ¬10 < r.errorLevel - r.sinLevel)
    (little : ¬60 ≤ r.erle) : nextDivCount count r = count := (if_neg notWorse).trans (if_neg little)

/-- The ranges of R121's table. -/
theorem divStateOf_ranges (count : Nat) :
    (count ≤ 95 → divStateOf count = .steady) ∧
    (96 ≤ count → count ≤ 191 → divStateOf count = .watchful) ∧
    (192 ≤ count → divStateOf count = .diverged) := by
  unfold divStateOf
  refine ⟨fun low => ?_, fun low high => ?_, fun high => ?_⟩
  · rw [if_pos (by omega)]
  · rw [if_neg (by omega), if_pos (by omega)]
  · rw [if_neg (by omega), if_neg (by omega)]

section Watch

variable {c : Channel} {r : BlockRecord}

theorem decideDivergence_of_diverged (state : c.divState = .diverged) : c.decideDivergence r = c := if_pos state

theorem decideDivergence_of_counted (state : c.divState ≠ .diverged) (counted : countedBlock r c.doubleTalk = true) :
    c.decideDivergence r =
      { c with divCount := nextDivCount c.divCount r, divState := divStateOf (nextDivCount c.divCount r) } := by
  simp [Channel.decideDivergence, state, counted]

theorem decideDivergence_of_uncounted (state : c.divState ≠ .diverged)
    (uncounted : ¬countedBlock r c.doubleTalk = true) :
    c.decideDivergence r = { c with divState := divStateOf c.divCount } := by
  simp [Channel.decideDivergence, state, uncounted]

/-- Outside DIVERGED the count decides the state, whether it has changed or not (R121). -/
theorem decideDivergence_divState (state : c.divState ≠ .diverged) :
    (c.decideDivergence r).divState = divStateOf (c.decideDivergence r).divCount := by
  by_cases counted : countedBlock r c.doubleTalk = true
  · rw [decideDivergence_of_counted state counted]
  · rw [decideDivergence_of_uncounted state counted]

end Watch

/-! ### DVW's decision among those of a boundary (R12) -/

/-- DVW decides on `x`, the channel as DTD and TBD leave it, when the decisions of a boundary lead from `c` to `d` (R12, R119
to R121). -/
structure Channel.WatchDecides (c x d : Channel) : Prop where
  countBefore : x.divCount = c.divCount
  stateBefore : x.divState = c.divState
  doubleTalk : d.doubleTalk = x.doubleTalk
  erle : d.erle = c.measured.erle
  divCount : d.divCount = (x.decideDivergence c.measured).divCount
  divState : d.divState = (x.decideDivergence c.measured).divState

theorem afterDecisions_watchDecides (c : Channel) (n : ChannelNo) (delays : List Nat) (owes wasRunning : Bool)
    (framing : Framing) (state : Canceller) :
    ∃ x, c.WatchDecides x (c.afterDecisions n delays owes wasRunning framing state) := by
  obtain ⟨tested, test⟩ : ∃ x, Channel.testDoubleTalk
    { c with erle := c.measured.erle, blockRecord := some c.measured } delays c.measured = x := ⟨_, rfl⟩
  obtain ⟨toned, tone⟩ : ∃ x, tested.decideTone n = x := ⟨_, rfl⟩
  obtain ⟨-, ⟨erle, -⟩, ⟨-, doubleTalk, -⟩, -, ⟨divCount, divState, -⟩, -⟩ :=
    afterDecisions_fields (owes := owes) (w := wasRunning) (f := framing) (state := state) rfl test tone rfl rfl rfl rfl
  obtain ⟨_, _, _, testWrites⟩ :=
    testDoubleTalk_writes { c with erle := c.measured.erle, blockRecord := some c.measured } delays c.measured
  obtain ⟨_, _, _, _, toneWrites⟩ := decideTone_writes tested n
  rw [test] at testWrites
  rw [tone] at toneWrites
  refine ⟨toned, ?_, ?_, doubleTalk.trans ?_, erle, divCount, divState⟩
  all_goals simp only [toneWrites, testWrites]

theorem decisions_watchDecides (s : State) (n : ChannelNo) :
    ∃ x, (s.channel n).WatchDecides x ((s.decisions n).channel n) := by
  obtain ⟨_, decided⟩ := decisions_channel s n
  rw [decided]
  exact afterDecisions_watchDecides ..

end Sys2Proof.Machine
end

section
/-! PROOF. The divergence count and state at a boundary (R119 to R122). -/

namespace Sys2Proof.Machine

section Watched

variable {c x d : Channel} (decides : c.WatchDecides x d)

include decides

/-- The block is counted by the double-talk flag that the boundary leaves (R119). -/
theorem countedBlock_decided_iff :
    countedBlock c.measured x.doubleTalk = true ↔
      c.whollyRunning = true ∧ -400 ≤ levelOf (linScale (1 / 32) c.acc.refPower) ∧ d.doubleTalk = false := by
  have far : c.measured.farActive = true ↔ -400 ≤ levelOf (linScale (1 / 32) c.acc.refPower) := decide_eq_true_iff
  rw [countedBlock_iff, far, decides.doubleTalk]
  exact Iff.rfl

/-- DIVERGED freezes the count and the state (R122). -/
theorem diverged_decided_frozen (state : c.divState = .diverged) : d.divCount = c.divCount ∧ d.divState = .diverged := by
  have frozen : x.divState = .diverged := decides.stateBefore.trans state
  rw [decides.divCount, decides.divState, decideDivergence_of_diverged frozen]
  exact ⟨decides.countBefore, frozen⟩

/-- The count of a channel not in DIVERGED, by the cases of R120. -/
theorem divCount_decided_cases (state : c.divState ≠ .diverged) :
    let r := c.measured
    let counted := countedBlock r x.doubleTalk = true
    (¬counted → d.divCount = c.divCount) ∧
    (counted → 10 < r.errorLevel - r.sinLevel → d.divCount = c.divCount + 8) ∧
    (counted → ¬10 < r.errorLevel - r.sinLevel → 60 ≤ d.erle → d.divCount = c.divCount - 1) ∧
    (counted → ¬10 < r.errorLevel - r.sinLevel → ¬60 ≤ d.erle → d.divCount = c.divCount) := by
  have state : x.divState ≠ .diverged := fun diverged => state (decides.stateBefore.symm.trans diverged)
  have next (counted : countedBlock c.measured x.doubleTalk = true) :
      d.divCount = nextDivCount c.divCount c.measured := by
    rw [decides.divCount, decideDivergence_of_counted state counted, decides.countBefore]
  dsimp only
  rw [decides.erle]
  refine ⟨fun uncounted => ?_, fun counted worse => ?_, fun counted notWorse cancels => ?_,
    fun counted notWorse little => ?_⟩
  · rw [decides.divCount, decideDivergence_of_uncounted state uncounted, decides.countBefore]
  · rw [next counted, nextDivCount_of_worse worse]
  · rw [next counted, nextDivCount_of_cancels notWorse cancels]
  · rw [next counted, nextDivCount_of_neither notWorse little]

/-- The state of a channel not in DIVERGED is the one its count gives (R121). -/
theorem divState_decided (state : c.divState ≠ .diverged) : d.divState = divStateOf d.divCount := by
  rw [decides.divState, decides.divCount]
  exact decideDivergence_divState fun diverged => state (decides.stateBefore.symm.trans diverged)

end Watched

/-- Settles O18: the boundary keeps what DVW decides, on the flag and the ERLE that the boundary leaves. -/
theorem divergenceCount : Obligations.DivergenceCount := by
  unfold Obligations.DivergenceCount
  intro s n closes
  obtain ⟨_, _, _, _, _, _, _, _, _, _, _, opened⟩ := boundaryWork_channel_writes closes.mode
  obtain ⟨x, decides⟩ := decisions_watchDecides s n
  refine ⟨s.boundaryWork n, exec_blockBoundary closes, ?_⟩
  rw [opened]
  dsimp only
  refine ⟨diverged_decided_frozen decides, fun state => ?_⟩
  obtain ⟨uncounted, worse, cancels, neither⟩ := divCount_decided_cases decides state
  rw [countedBlock_decided_iff decides] at uncounted worse cancels neither
  rw [divState_decided decides state]
  exact ⟨uncounted, worse, cancels, neither, divStateOf_ranges _⟩

end Sys2Proof.Machine
end

section
/-! SUPPORT. TTK's decision at a boundary by the cases of its rules: the end of a tracking period, the offers that reach the
Relocation Queue, and the decision among those of a boundary (R12, R125 to R127, R134). -/

namespace Sys2Proof.Machine

/-! ### Changes of the segments of a list -/

theorem segment_modSegments_of_mem {l : List SegNo} {g : SegNo} (nodup : l.Nodup) (member : g ∈ l) (s : State)
    (f : Segment → Segment) : (s.modSegments l f).segment g = f (s.segment g) :=
  segment_foldModSegment_of_mem (fun _ => f) nodup member s

@[simp] theorem channel_refreshWeights (s : State) (n m : ChannelNo) : (s.refreshWeights n).channel m = s.channel m := by
  simp only [State.channel, refreshWeights_frame]

@[simp] theorem channelChain_refreshWeights (s : State) (n m : ChannelNo) :
    (s.refreshWeights n).channelChain m = s.channelChain m := by
  simp only [State.channelChain, State.chain, refreshWeights_frame]

/-- The refresh of a chain's weights leaves its vacancy counts (R21, R93). -/
theorem refreshWeights_vacancy {s : State} {n : ChannelNo} {g : SegNo} (nodup : (s.channelChain n).Nodup)
    (member : g ∈ s.channelChain n) : ((s.refreshWeights n).segment g).vacancy = (s.segment g).vacancy := by
  rw [State.refreshWeights, segment_modSegments_of_mem nodup member]
  rfl

/-! ### Weak segments (R126) -/

theorem weak_iff (largest weight : Nat) : weak largest weight = true ↔ weight * 64 < largest ∨ largest = 0 := by
  simp [weak]

theorem largestWeight_eq {s : State} {l : List SegNo} {W : Nat} (greatest : ∀ g ∈ l, (s.segment g).weight ≤ W)
    (attained : ∃ g ∈ l, (s.segment g).weight = W) : s.largestWeight l = W := by
  obtain ⟨g, member, weight⟩ := attained
  refine foldl_max_of_greatest (List.mem_cons_of_mem 0 (List.mem_map.2 ⟨g, member, weight⟩)) fun x hx => ?_
  rcases List.mem_cons.1 hx with rfl | hx
  · exact Nat.zero_le W
  · obtain ⟨h, member, rfl⟩ := List.mem_map.1 hx
    exact greatest h member

/-! ### Offers to the Relocation Queue (R127) -/

/-- The entries that the offers of a period end place: in list order, none for a segment that has an entry, and an offer of
any other segment is left out only where the queue is full in the end. -/
theorem foldl_offer_places (n : ChannelNo) (offered : List SegNo) (queue : List RelocEntry) :
    ∃ placed : List SegNo, placed.Sublist offered ∧
      offered.foldl (fun queue g => offer queue n g) queue =
        queue ++ placed.map (fun g => { segment := g, channel := n }) ∧
      (∀ g ∈ placed, ∀ e ∈ queue, e.segment ≠ g) ∧
      ∀ g ∈ offered, (∀ e ∈ queue, e.segment ≠ g) →
        g ∈ placed ∨ Config.maxRelocation ≤ (offered.foldl (fun queue g => offer queue n g) queue).length := by
  induction offered generalizing queue with
  | nil => exact ⟨[], .slnil, (List.append_nil _).symm, by simp, by simp⟩
  | cons x rest ih =>
    rw [List.foldl_cons]
    by_cases barred : (queue.any fun e => decide (e.segment = x)) ∨ Config.maxRelocation ≤ queue.length
    · have kept : offer queue n x = queue := if_pos barred
      rw [kept]
      obtain ⟨placed, sublist, appended, fresh, complete⟩ := ih queue
      refine ⟨placed, sublist.cons x, appended, fresh, fun g member absent => ?_⟩
      rcases List.mem_cons.1 member with rfl | member
      · have full : Config.maxRelocation ≤ queue.length :=
          barred.resolve_left (by simpa using absent)
        rw [appended, List.length_append]
        exact .inr (Nat.le_add_right_of_le full)
      · exact complete g member absent
    · have joined : offer queue n x = queue ++ [{ segment := x, channel := n }] := if_neg barred
      have absent : ∀ e ∈ queue, e.segment ≠ x := by simpa using (not_or.1 barred).1
      rw [joined]
      obtain ⟨placed, sublist, appended, fresh, complete⟩ := ih (queue ++ [{ segment := x, channel := n }])
      refine ⟨x :: placed, sublist.cons_cons x, by rw [appended, List.append_assoc]; rfl, fun g member => ?_,
        fun g member lacks => ?_⟩
      · rcases List.mem_cons.1 member with rfl | member
        · exact absent
        · exact fun e he => fresh g member e (List.mem_append_left _ he)
      · by_cases first : g = x
        · exact .inl (first ▸ List.mem_cons_self)
        · have lacks' : ∀ e ∈ queue ++ [{ segment := x, channel := n }], e.segment ≠ g := by
            simpa [or_imp, forall_and] using ⟨lacks, Ne.symm first⟩
          exact (complete g ((List.mem_cons.1 member).resolve_left first) lacks').imp_left (List.mem_cons_of_mem x)

/-! ### The end of a tracking period (R126, R127) -/

theorem periodEnd_segment {s : State} {n : ChannelNo} {g : SegNo} (nodup : (s.channelChain n).Nodup)
    (member : g ∈ s.channelChain n) :
    (s.periodEnd n).segment g = nextVacancy (s.largestWeight (s.channelChain n)) (s.segment g) :=
  segment_modSegments_of_mem nodup member s _

/-- Segment g is weak among those of channel n's list (R126). -/
def State.weakIn (s : State) (n : ChannelNo) (g : SegNo) : Bool :=
  weak (s.largestWeight (s.channelChain n)) (s.segment g).weight

/-- A tracking period of channel n ends on the way from s to t: the vacancy counts change by R126's table, and the weak
segments whose count is then 4 are offered to the Relocation Queue in list order (R126, R127). -/
structure State.PeriodEnds (s t : State) (n : ChannelNo) : Prop where
  weight : ∀ g ∈ s.channelChain n, (t.segment g).weight = (s.segment g).weight
  vacancy : ∀ g ∈ s.channelChain n,
    (t.segment g).vacancy = if s.weakIn n g then min 4 ((s.segment g).vacancy + 1) else 0
  places : ∃ placed : List SegNo, placed.Sublist (s.channelChain n) ∧
    t.relocation = s.relocation ++ placed.map (fun g => { segment := g, channel := n }) ∧
    (∀ g ∈ placed, s.weakIn n g = true ∧ (t.segment g).vacancy = 4 ∧ ∀ e ∈ s.relocation, e.segment ≠ g) ∧
    ∀ g ∈ s.channelChain n, s.weakIn n g = true → (t.segment g).vacancy = 4 → (∀ e ∈ s.relocation, e.segment ≠ g) →
      g ∈ placed ∨ Config.maxRelocation ≤ t.relocation.length

theorem periodEnd_ends {s : State} {n : ChannelNo} (nodup : (s.channelChain n).Nodup) :
    s.PeriodEnds (s.periodEnd n) n := by
  refine ⟨fun g member => ?_, fun g member => ?_, ?_⟩
  · rw [periodEnd_segment nodup member]
    rfl
  · rw [periodEnd_segment nodup member]
    rfl
  · obtain ⟨placed, sublist, appended, fresh, complete⟩ := foldl_offer_places n
      ((s.channelChain n).filter fun g => s.weakIn n g && decide (((s.periodEnd n).segment g).vacancy = 4)) s.relocation
    refine ⟨placed, sublist.trans List.filter_sublist, appended, fun g member => ?_, fun g member isWeak four lacks => ?_⟩
    · obtain ⟨-, offered⟩ := List.mem_filter.1 (sublist.subset member)
      obtain ⟨isWeak, four⟩ := Bool.and_eq_true_iff.1 offered
      exact ⟨isWeak, of_decide_eq_true four, fresh g member⟩
    · exact complete g (List.mem_filter.2 ⟨member, Bool.and_eq_true_iff.2 ⟨isWeak, decide_eq_true four⟩⟩) lacks

/-- What a period end reads of the state before it, and what it writes of the state after it. -/
theorem State.PeriodEnds.congr {s s' t t' : State} {n : ChannelNo} (ends : s.PeriodEnds t n)
    (segments : s'.segments = s.segments) (chains : s'.chains = s.chains) (relocation : s'.relocation = s.relocation)
    (segmentsAfter : t'.segments = t.segments) (relocationAfter : t'.relocation = t.relocation) :
    s'.PeriodEnds t' n := by
  have chain : s'.channelChain n = s.channelChain n := by simp only [State.channelChain, State.chain, chains]
  have segment : s'.segment = s.segment := funext fun g => by simp only [State.segment, segments]
  have segmentAfter : t'.segment = t.segment := funext fun g => by simp only [State.segment, segmentsAfter]
  have isWeak : s'.weakIn n = s.weakIn n := funext fun g => by
    simp only [State.weakIn, State.largestWeight, chain, segment]
  obtain ⟨weight, vacancy, places⟩ := ends
  constructor <;> simp only [chain, segment, segmentAfter, isWeak, relocation, relocationAfter] <;> assumption

/-! ### TTK's decision (R125, R134) -/

section Count

variable {c : Channel} {r : BlockRecord}

theorem nextTrackCount_of_off (off : c.governing.tracking = false) : c.nextTrackCount r = 0 := if_pos off

theorem nextTrackCount_of_hold (on : c.governing.tracking = true) (hold : r.adapt = false) :
    c.nextTrackCount r = c.trackCount := by
  simp [Channel.nextTrackCount, on, hold]

theorem nextTrackCount_of_adapt (on : c.governing.tracking = true) (adapt : r.adapt = true) :
    c.nextTrackCount r = if 63 ≤ c.trackCount then 0 else c.trackCount + 1 := by
  simp [Channel.nextTrackCount, on, adapt]

end Count

/-- A boundary that ends no period changes neither a segment nor the queue (R125, R134). -/
theorem trackingBoundary_of_not_ends {s : State} {n : ChannelNo} {r : BlockRecord}
    (goesOn : ¬((s.channel n).governing.tracking = true ∧ r.adapt = true ∧ 63 ≤ (s.channel n).trackCount)) :
    (s.trackingBoundary n r).segments = s.segments ∧ (s.trackingBoundary n r).relocation = s.relocation := by
  unfold State.trackingBoundary
  dsimp only
  split_ifs with off hold full
  · exact ⟨rfl, rfl⟩
  · exact ⟨rfl, rfl⟩
  · exact absurd ⟨by simpa using off, by simpa using hold, by omega⟩ goesOn
  · exact ⟨rfl, rfl⟩

/-- A boundary that ends a period examines the chain (R126). -/
theorem trackingBoundary_of_ends {s : State} {n : ChannelNo} {r : BlockRecord}
    (tracking : (s.channel n).governing.tracking = true) (adapt : r.adapt = true)
    (full : 63 ≤ (s.channel n).trackCount) :
    s.trackingBoundary n r = (s.modChannel n ({ · with trackCount := 0 })).periodEnd n := by
  unfold State.trackingBoundary
  dsimp only
  rw [tracking, adapt, if_pos (show 64 ≤ (s.channel n).trackCount + 1 by omega)]
  rfl

/-! ### TTK's decision among those of a boundary (R12) -/

/-- What leads from s to t changes nothing that TTK reads of channel n. -/
structure State.KeepsTracking (s t : State) (n : ChannelNo) : Prop where
  segments : t.segments = s.segments
  chains : t.chains = s.chains
  relocation : t.relocation = s.relocation
  governing : (t.channel n).governing = (s.channel n).governing
  trackCount : (t.channel n).trackCount = (s.channel n).trackCount

section Stages

variable {s t u : State} {n : ChannelNo}

theorem State.KeepsTracking.trans (first : s.KeepsTracking t n) (second : t.KeepsTracking u n) :
    s.KeepsTracking u n where
  segments := second.segments.trans first.segments
  chains := second.chains.trans first.chains
  relocation := second.relocation.trans first.relocation
  governing := second.governing.trans first.governing
  trackCount := second.trackCount.trans first.trackCount

theorem doubleTalkBoundary_keepsTracking (s : State) (n : ChannelNo) (r : BlockRecord) :
    s.KeepsTracking (s.doubleTalkBoundary n r) n := by
  obtain ⟨_, _, _, writes⟩ := testDoubleTalk_writes (s.channel n) ((s.channelChain n).map s.delay) r
  constructor <;> simp [doubleTalkBoundary_channel, writes]

theorem toneBoundary_keepsTracking (s : State) (n : ChannelNo) : s.KeepsTracking (s.toneBoundary n) n := by
  obtain ⟨_, _, _, _, writes⟩ := decideTone_writes (s.channel n) n
  constructor <;> simp [toneBoundary_channel, writes]

theorem divergenceBoundary_keepsTracking (s : State) (n : ChannelNo) (r : BlockRecord) :
    s.KeepsTracking (s.divergenceBoundary n r) n := by
  obtain ⟨wasRunning, watched⟩ := divergenceBoundary_channel s n r
  obtain ⟨_, _, _, _, _, writes⟩ := watched_writes (s.channel n) r s.pge.owes wasRunning s.hwi.framing
  constructor <;> simp [watched, writes]

theorem convergenceBoundary_keepsTracking (s : State) (n : ChannelNo) (r : BlockRecord) :
    s.KeepsTracking (s.convergenceBoundary n r) n := by
  obtain ⟨_, _, writes⟩ := decideConvergence_writes (s.channel n) r
  constructor <;> simp [convergenceBoundary_channel, writes]

theorem standingBoundary_keepsTracking (s : State) (n : ChannelNo) (r : BlockRecord) :
    s.KeepsTracking (s.standingBoundary n r) n := by
  constructor <;> simp [standingBoundary_channel, Channel.decideStanding]

theorem suppressorBoundary_keepsTracking (s : State) (n : ChannelNo) (r : BlockRecord) :
    s.KeepsTracking (s.suppressorBoundary n r) n := by
  obtain ⟨_, _, _, writes⟩ := suppressor_writes (s.channel n) r
  constructor <;> simp [suppressorBoundary_channel, writes]

/-- TTK decides in `u`, which differs from the state at the boundary's start by the refresh of R93 and by what TTK does not
read, and no later decision touches what TTK writes (R12). -/
theorem decisions_tracks (s : State) (n : ChannelNo) :
    ∃ u, (s.refreshWeights n).KeepsTracking u n ∧
      (s.decisions n).segments = (u.trackingBoundary n (s.channel n).measured).segments ∧
      (s.decisions n).relocation = (u.trackingBoundary n (s.channel n).measured).relocation ∧
      ((s.decisions n).channel n).trackCount = (u.channel n).nextTrackCount (s.channel n).measured := by
  have measured : (s.refreshWeights n).KeepsTracking ((s.refreshWeights n).modChannel n
      ({ · with erle := (s.channel n).measured.erle, blockRecord := some (s.channel n).measured })) n := by
    constructor <;> simp
  refine ⟨_, measured.trans (doubleTalkBoundary_keepsTracking _ n (s.channel n).measured)
    |>.trans (toneBoundary_keepsTracking _ n)
    |>.trans (divergenceBoundary_keepsTracking _ n (s.channel n).measured)
    |>.trans (convergenceBoundary_keepsTracking _ n (s.channel n).measured)
    |>.trans (standingBoundary_keepsTracking _ n (s.channel n).measured)
    |>.trans (suppressorBoundary_keepsTracking _ n (s.channel n).measured), ?_, ?_, ?_⟩
  · simp only [State.decisions, modChannel_segments, levelBoundary_frame]
  · simp only [State.decisions, modChannel_relocation, levelBoundary_frame]
  · simp only [State.decisions, channel_modChannel, levelBoundary_channel, trackingBoundary_channel]

end Stages

end Sys2Proof.Machine
end

section
/-! PROOF. The tracking period at a boundary (R125 to R127, R134). -/

namespace Sys2Proof.Machine

variable {s : State} {n : ChannelNo}

theorem measured_adapt_iff (c : Channel) : c.measured.adapt = true ↔ c.standing = .adapt := decide_eq_true_iff

theorem measured_adapt_of_hold {c : Channel} (hold : c.standing = .hold) : c.measured.adapt = false :=
  decide_eq_false (by rw [hold]; exact fun e => nomatch e)

/-- The tracking period count after the decisions, by the cases of R125 and R134. -/
theorem decisions_trackCount_cases (s : State) (n : ChannelNo) :
    let c := s.channel n
    let d := (s.decisions n).channel n
    (c.governing.tracking = false → d.trackCount = 0) ∧
    (c.governing.tracking = true → c.standing = .hold → d.trackCount = c.trackCount) ∧
    (c.governing.tracking = true → c.standing = .adapt →
      d.trackCount = if 63 ≤ c.trackCount then 0 else c.trackCount + 1) := by
  obtain ⟨u, keeps, -, -, count⟩ := decisions_tracks s n
  have governing := keeps.governing
  have before := keeps.trackCount
  rw [channel_refreshWeights] at governing before
  dsimp only
  rw [← governing, count, ← before]
  refine ⟨nextTrackCount_of_off, fun on hold => ?_, fun on adapt => ?_⟩
  · exact nextTrackCount_of_hold on (measured_adapt_of_hold hold)
  · exact nextTrackCount_of_adapt on ((measured_adapt_iff _).2 adapt)

/-- Decisions that end no period leave the vacancy counts of the list and the Relocation Queue (R125, R134). -/
theorem decisions_of_period_goes_on (nodup : (s.channelChain n).Nodup)
    (goesOn : ¬((s.channel n).governing.tracking = true ∧ (s.channel n).standing = .adapt ∧
      63 ≤ (s.channel n).trackCount)) :
    (s.decisions n).relocation = s.relocation ∧
      ∀ g ∈ s.channelChain n, ((s.decisions n).segment g).vacancy = (s.segment g).vacancy := by
  obtain ⟨u, keeps, segments, relocation, -⟩ := decisions_tracks s n
  rw [← channel_refreshWeights s n, ← keeps.governing, ← keeps.trackCount, channel_refreshWeights,
    ← measured_adapt_iff] at goesOn
  obtain ⟨untouched, queue⟩ := trackingBoundary_of_not_ends goesOn
  rw [untouched, keeps.segments] at segments
  rw [queue, keeps.relocation] at relocation
  refine ⟨by simpa using relocation, fun g member => ?_⟩
  rw [← refreshWeights_vacancy nodup member]
  simp only [State.segment, segments]

/-- Decisions that end a period examine the list after the refresh of its weights (R93, R125, R126). -/
theorem decisions_of_period_ends (nodup : (s.channelChain n).Nodup)
    (tracking : (s.channel n).governing.tracking = true) (adapt : (s.channel n).standing = .adapt)
    (full : 63 ≤ (s.channel n).trackCount) :
    (s.refreshWeights n).PeriodEnds (s.decisions n) n := by
  obtain ⟨u, keeps, segments, relocation, -⟩ := decisions_tracks s n
  rw [← channel_refreshWeights s n, ← keeps.governing] at tracking
  rw [← channel_refreshWeights s n, ← keeps.trackCount] at full
  rw [trackingBoundary_of_ends tracking ((measured_adapt_iff _).2 adapt) full] at segments relocation
  have chains : u.chains = s.chains := by simpa using keeps.chains
  have nodup : ((u.modChannel n ({ · with trackCount := 0 })).channelChain n).Nodup := by
    simpa only [State.channelChain, State.chain, modChannel_chains, chains] using nodup
  exact (periodEnd_ends nodup).congr keeps.segments.symm keeps.chains.symm keeps.relocation.symm segments relocation

/-- Settles O22: the boundary keeps what TTK decides; at a period's end the weights it leaves are those that TTK compares. -/
theorem trackingPeriod : Obligations.TrackingPeriod := by
  unfold Obligations.TrackingPeriod
  intro s n closes nodup
  obtain ⟨_, _, _, _, _, _, _, _, _, _, _, opened⟩ := boundaryWork_channel_writes closes.mode
  obtain ⟨off, hold, adapts⟩ := decisions_trackCount_cases s n
  have segment : (s.boundaryWork n).segment = (s.decisions n).segment := funext fun g => by
    simp [boundaryWork_of_not_off closes.mode, State.segment]
  have relocation : (s.boundaryWork n).relocation = (s.decisions n).relocation := by
    simp [boundaryWork_of_not_off closes.mode]
  refine ⟨s.boundaryWork n, exec_blockBoundary closes, ?_⟩
  rw [opened, segment, relocation]
  dsimp only
  refine ⟨off, hold, fun on adapt below => ?counts, decisions_of_period_goes_on nodup, ?ends⟩
  case counts => rw [adapts on adapt, if_neg (by omega)]
  case ends =>
    rintro ⟨on, adapt, full⟩
    refine ⟨by rw [adapts on adapt, if_pos full], fun W greatest attained => ?_⟩
    obtain ⟨weight, vacancy, placed, sublist, appended, fresh, complete⟩ :=
      decisions_of_period_ends nodup on adapt full
    have queue : (s.refreshWeights n).relocation = s.relocation := by simp only [refreshWeights_frame]
    rw [channelChain_refreshWeights] at weight vacancy sublist complete
    rw [queue] at appended fresh complete
    have isWeak {g : SegNo} (member : g ∈ s.channelChain n) : (s.refreshWeights n).weakIn n g = true ↔
        ((s.decisions n).segment g).weight * 64 < W ∨ W = 0 := by
      have largest : (s.refreshWeights n).largestWeight (s.channelChain n) = W :=
        largestWeight_eq (fun g member => weight g member ▸ greatest g member)
          (attained.imp fun g ⟨member, attains⟩ => ⟨member, weight g member ▸ attains⟩)
      rw [State.weakIn, weak_iff, channelChain_refreshWeights, largest, weight g member]
    refine ⟨fun g member => ?_, placed, sublist, appended, fun g member => ?_, fun g member thin => ?_⟩
    · rw [vacancy g member, refreshWeights_vacancy nodup member, ← isWeak member]
      exact ⟨fun thin => if_pos thin, fun thick => if_neg thick⟩
    · rw [← isWeak (sublist.subset member)]
      exact fresh g member
    · exact complete g member ((isWeak member).2 thin)

end Sys2Proof.Machine
end

section
/-! SUPPORT. The two events of a relocation in closed form: the choice of the candidate, the take in its three cases, and the
link (R129 to R132). -/

namespace Sys2Proof.Machine

variable {s : State} {n : ChannelNo}

/-! ### The entry and the candidates (R129, R130) -/

theorem stale_iff (s : State) (e : RelocEntry) :
    s.stale e = true ↔ e.segment ∉ s.channelChain e.channel ∨ (s.channel e.channel).governing.tracking = false ∨
      s.canceller e.channel ≠ .running ∨ s.unfinished (channelCode e.channel) = true ∨
      (s.segment e.segment).vacancy < 4 := by
  simp [State.stale, or_assoc]

/-- The start delay that is tried after i others in a search of channel n's list, from the cursor and wrapping from 1984 to 0
(R130). -/
def State.candidate (s : State) (n : ChannelNo) (i : Nat) : Nat := ((s.channel n).cursor + 64 * i) % 2048

/-- The candidate stands 64 or more from every segment of the list (R130). -/
def State.CandidateFits (s : State) (n : ChannelNo) (i : Nat) : Prop :=
  ∀ h ∈ s.channelChain n, s.candidate n i + 64 ≤ s.delay h ∨ s.delay h + 64 ≤ s.candidate n i

theorem not_overlaps_iff (d e : Nat) : (!overlaps d e) = true ↔ d + 64 ≤ e ∨ e + 64 ≤ d := by
  simp only [overlaps, Bool.not_eq_true', Bool.and_eq_false_iff, decide_eq_false_iff_not, not_lt]
  exact Or.comm

theorem candidateFits_iff (s : State) (n : ChannelNo) (i : Nat) :
    ((s.channelChain n).all fun g => !overlaps (s.candidate n i) (s.delay g)) = true ↔ s.CandidateFits n i := by
  simp only [List.all_eq_true, not_overlaps_iff, State.CandidateFits]

/-- The search goes through the candidates by their number (R130). -/
theorem fit_eq (s : State) (n : ChannelNo) :
    s.fit n = ((List.range 32).find? fun i =>
      (s.channelChain n).all fun g => !overlaps (s.candidate n i) (s.delay g)).map (s.candidate n) :=
  List.find?_map

theorem fit_of_none (barred : ∀ i, i < 32 → ¬s.CandidateFits n i) : s.fit n = none := by
  rw [fit_eq, Option.map_eq_none_iff, List.find?_eq_none]
  intro i tried
  rw [candidateFits_iff]
  exact barred i (List.mem_range.1 tried)

theorem fit_of_first {i : Nat} (tried : i < 32) (fits : s.CandidateFits n i)
    (first : ∀ j, j < i → ¬s.CandidateFits n j) : s.fit n = some (s.candidate n i) := by
  have found : ((List.range 32).find? fun i =>
      (s.channelChain n).all fun g => !overlaps (s.candidate n i) (s.delay g)) = some i := by
    rw [List.find?_range_eq_some]
    refine ⟨(candidateFits_iff s n i).2 fits, List.mem_range.2 tried, fun j earlier => ?_⟩
    rw [Bool.not_eq_true', Bool.eq_false_iff, ne_eq, candidateFits_iff]
    exact first j earlier
  rw [fit_eq, found, Option.map_some]

/-! ### The take (R129 to R132) -/

/-- The state in which LC has taken the head of the Relocation Queue and the arbiter position is Relocation (R43, R129). -/
def State.entryTaken (s : State) (rest : List RelocEntry) : State :=
  { s with relocation := rest, lc := { s.lc with arbiter := .relocation } }

section Take

variable {e : RelocEntry} {rest : List RelocEntry} (chosen : s.choice = some .relocation)
  (queue : s.relocation = e :: rest)

include chosen queue

theorem relocationTakeWork_of_stale (stale : s.stale e = true) : s.relocationTakeWork = s.entryTaken rest := by
  simp only [State.relocationTakeWork, chosen, queue, stale, if_true]
  rfl

theorem relocationTakeWork_of_blocked (fresh : ¬s.stale e = true) (unfit : s.fit e.channel = none) :
    s.relocationTakeWork =
      ((s.entryTaken rest).raiseChannel e.channel
        (.trackBlocked e.channel e.segment (s.delay e.segment))).modSegment e.segment ({ · with vacancy := 0 }) := by
  simp only [State.relocationTakeWork, chosen, queue, if_neg fresh, unfit]
  rfl

theorem relocationTakeWork_of_fits {c : Nat} (fresh : ¬s.stale e = true) (fits : s.fit e.channel = some c) :
    s.relocationTakeWork = { s.modChannel e.channel ({ · with cursor := (c + 64) % 2048 }) with
      relocation := rest
      lc := { s.lc with
        current := some { work := .relocation e.channel c, issuer := .relocation }, arbiter := .relocation }
      chains := s.chains.set (channelCode e.channel).val ((s.channelChain e.channel).erase e.segment)
      transit := some e.segment
      pge := s.pge.disturbed (channelCode e.channel) } := by
  simp only [State.relocationTakeWork, chosen, queue, if_neg fresh, fits]
  rfl

end Take

/-! ### The link (R131) -/

/-- The completed relocation frees LC and has no panel to post to (R40, R131). -/
theorem completeJob_relocation {w : LcWork} (current : s.lc.current = some { work := w, issuer := .relocation })
    (post : Panel → Panel) : s.completeJob post = { s with lc := s.lc.freed } := by
  simp only [State.completeJob, current, Option.map_some]
  rfl

/-- The state after the link of a relocation, but for its event (R29, R131). -/
def State.relocated (s : State) (n : ChannelNo) (g : SegNo) (d : Nat) : State :=
  { s.link (channelCode n) g d true with lc := s.lc.freed }

theorem relocationLinkWork_eq {d : Nat} {g : SegNo}
    (current : s.lc.current = some { work := .relocation n d, issuer := .relocation }) (carried : s.transit = some g) :
    s.relocationLinkWork = if (s.channel n).governing.mode = .off then s.relocated n g d
      else (s.relocated n g d).raiseChannel n (.trackMoved n g (s.delay g) d) := by
  have freed : (s.link (channelCode n) g d true).completeJob id = s.relocated n g d :=
    completeJob_relocation (by simpa using current) id
  simp only [State.relocationLinkWork, current, carried, Option.map_some, freed]

/-! ### The events of a relocation (R158) -/

/-- The queues that the holder of a channel names take the record of an event about it (R158). -/
theorem raiseChannel_port_of_holder (s : State) (n : ChannelNo) (e : Event) (p : Plane) :
    (s.raiseChannel n e).port p =
      if s.holder (channelCode n) = none ∨ s.holder (channelCode n) = some p then
        { s.port p with queue :=
            (s.port p).queue.arrive (s.stamped (decide (s.holder (channelCode n) = none)) e) }
      else s.port p := by
  rw [raiseChannel_port]
  simp only [routesTo, decide_eq_true_eq]

/-- A raised event about a channel changes the two links only. -/
theorem raiseChannel_eq (s : State) (n : ChannelNo) (e : Event) :
    s.raiseChannel n e = { s with portA := (s.raiseChannel n e).portA, portB := (s.raiseChannel n e).portB } :=
  State.eq_of_fields (by simp) (by simp) (by simp) (by simp) (by simp) (by simp) (by simp) (by simp) (by simp) (by simp)
    rfl rfl (by simp)

end Sys2Proof.Machine
end

section
/-! PROOF. The take and the link of a relocation (R129 to R132). -/

namespace Sys2Proof.Machine

variable {s : State} {n : ChannelNo}

section Take

variable {e : RelocEntry} {rest : List RelocEntry} (chosen : s.choice = some .relocation)
  (queue : s.relocation = e :: rest)

include chosen queue

/-- A segment that no candidate fits stays, is reported and starts its vacancy count anew (R132). -/
theorem exec_relocationTake_of_blocked (fresh : ¬s.stale e = true) (unfit : s.fit e.channel = none) :
    ∃ t, exec .relocationTake s = .next t ∧
      t = { s with relocation := rest, lc := { s.lc with arbiter := .relocation }, segments := t.segments,
                   portA := t.portA, portB := t.portB } ∧
      t.segment e.segment = { s.segment e.segment with vacancy := 0 } ∧
      (∀ h, h ≠ e.segment → t.segment h = s.segment h) ∧
      let record := s.stamped (decide (s.holder (channelCode e.channel) = none))
        (.trackBlocked e.channel e.segment (s.delay e.segment))
      ∀ p, t.port p =
        if s.holder (channelCode e.channel) = none ∨ s.holder (channelCode e.channel) = some p then
          { s.port p with queue := (s.port p).queue.arrive record }
        else s.port p := by
  have kept : ∀ event h, ((s.entryTaken rest).raiseChannel e.channel event).segment h = s.segment h := by
    intro event h
    rw [raiseChannel_eq]
    rfl
  refine ⟨_, congrArg Host.Outcome.next (relocationTakeWork_of_blocked chosen queue fresh unfit), ?_, ?_,
    fun h other => ?_, fun p => ?_⟩
  · rw [raiseChannel_eq]
    rfl
  · rw [segment_modSegment, kept]
  · rw [segment_modSegment_ne _ other, kept]
  · rw [port_modSegment]
    exact raiseChannel_port_of_holder (s.entryTaken rest) ..

/-- A segment that a candidate fits goes into transit, and the cursor moves past the candidate (R131). -/
theorem exec_relocationTake_of_fits {c : Nat} (fresh : ¬s.stale e = true) (fits : s.fit e.channel = some c) :
    ∃ t, exec .relocationTake s = .next t ∧
      t = { s with
        relocation := rest
        lc := { s.lc with
          current := some { work := .relocation e.channel c, issuer := .relocation }, arbiter := .relocation }
        chains := s.chains.set (channelCode e.channel).val ((s.channelChain e.channel).erase e.segment)
        transit := some e.segment
        pge := s.pge.disturbed (channelCode e.channel)
        channels := t.channels } ∧
      t.channel e.channel = { s.channel e.channel with cursor := (c + 64) % 2048 } ∧
      ∀ m, m ≠ e.channel → t.channel m = s.channel m :=
  ⟨_, congrArg Host.Outcome.next (relocationTakeWork_of_fits chosen queue fresh fits), rfl,
    channel_modChannel s e.channel ({ · with cursor := (c + 64) % 2048 }),
    fun _ other => channel_modChannel_ne s other ({ · with cursor := (c + 64) % 2048 })⟩

end Take

/-- The link of a relocation puts its segment in its place in the list, zeroed (R29, R131). -/
theorem relocated_links (s : State) (n : ChannelNo) (g : SegNo) (d : Nat) :
    let t := s.relocated n g d
    s.LinkedAt t (channelCode n) g d ∧
      t.segment g = { startDelay := some d, coeffs := Vector.replicate 64 0, weight := 0, vacancy := 0 } ∧
      ∀ h, h ≠ g → t.segment h = s.segment h :=
  ⟨linkedAt_link s (channelCode n) g d true,
    segment_modSegment s g fun x => { x.zero with startDelay := some d },
    fun _ other => segment_modSegment_ne s other fun x => { x.zero with startDelay := some d }⟩

/-- The ports after the link: TRACK_MOVED to the queues that the holder gives, unless the channel is OFF (R131, R158). -/
theorem relocationLinkWork_port {d : Nat} {g : SegNo}
    (current : s.lc.current = some { work := .relocation n d, issuer := .relocation }) (carried : s.transit = some g)
    (p : Plane) :
    let record := s.stamped (decide (s.holder (channelCode n) = none)) (.trackMoved n g (s.delay g) d)
    s.relocationLinkWork.port p =
      if (s.channel n).governing.mode ≠ .off ∧
          (s.holder (channelCode n) = none ∨ s.holder (channelCode n) = some p) then
        { s.port p with queue := (s.port p).queue.arrive record }
      else s.port p := by
  have linked : (s.relocated n g d).port p = s.port p := by cases p <;> rfl
  dsimp only
  rw [relocationLinkWork_eq current carried]
  by_cases off : (s.channel n).governing.mode = .off
  · rw [if_pos off, if_neg fun raised => raised.1 off, linked]
  · rw [if_neg off, raiseChannel_port_of_holder, linked]
    simp only [ne_eq, off, not_false_eq_true, true_and]
    rfl

/-- A relocation's link leads, but for the two links' queues, to the state in which the segment is linked. -/
theorem relocationLinkWork_eq_relocated {d : Nat} {g : SegNo}
    (current : s.lc.current = some { work := .relocation n d, issuer := .relocation }) (carried : s.transit = some g) :
    s.relocationLinkWork = { s.relocated n g d with
      portA := s.relocationLinkWork.portA, portB := s.relocationLinkWork.portB } := by
  rw [relocationLinkWork_eq current carried]
  split
  · rfl
  · exact raiseChannel_eq ..

/-- The link of a relocation (R29, R131). -/
theorem exec_relocationLink {d : Nat} {g : SegNo}
    (current : s.lc.current = some { work := .relocation n d, issuer := .relocation }) (carried : s.transit = some g) :
    ∃ t, exec .relocationLink s = .next t ∧ s.LinkedAt t (channelCode n) g d ∧
      t.segment g = { startDelay := some d, coeffs := Vector.replicate 64 0, weight := 0, vacancy := 0 } ∧
      (∀ h, h ≠ g → t.segment h = s.segment h) ∧
      t = { s with chains := t.chains, segments := t.segments, transit := none,
                   pge := s.pge.disturbed (channelCode n), lc := s.lc.freed, portA := t.portA, portB := t.portB } ∧
      let record := s.stamped (decide (s.holder (channelCode n) = none)) (.trackMoved n g (s.delay g) d)
      ∀ p, t.port p =
        if (s.channel n).governing.mode ≠ .off ∧
            (s.holder (channelCode n) = none ∨ s.holder (channelCode n) = some p) then
          { s.port p with queue := (s.port p).queue.arrive record }
        else s.port p := by
  obtain ⟨linked, record, others⟩ := relocated_links s n g d
  refine ⟨s.relocationLinkWork, rfl, ?_, ?_, fun h other => ?_, ?_, relocationLinkWork_port current carried⟩
  all_goals rw [relocationLinkWork_eq_relocated current carried]
  · exact linked
  · exact record
  · exact others h other
  · rfl

/-- Settles O31: the take by the outcome of its search, then the link. -/
theorem relocationEvents : Obligations.RelocationEvents := by
  unfold Obligations.RelocationEvents
  refine ⟨fun s e rest chosen queue => ?take, fun s n d g => exec_relocationLink⟩
  case take =>
    dsimp only
    rw [← stale_iff]
    refine ⟨fun stale => ?_, fun fresh barred => ?_, fun i fresh tried fits first => ?_⟩
    · exact congrArg Host.Outcome.next (relocationTakeWork_of_stale chosen queue stale)
    · exact exec_relocationTake_of_blocked chosen queue fresh (fit_of_none barred)
    · exact exec_relocationTake_of_fits chosen queue fresh (fit_of_first tried fits first)

end Sys2Proof.Machine
end

section
/-! SUPPORT. A command executed at once, by what its execution does when it ignores the panel that carries it (R38). -/

namespace Sys2Proof.Machine

/-- What a command does and answers does not depend on its own panel, and leaves it alone: a change of the panel before it
is a change of the panel after it. -/
def IgnoresPanel (p : Plane) (execute : State → State × Status) : Prop :=
  ∀ (s : State) (f : Panel → Panel), execute (s.modPanel p f) = ((execute s).1.modPanel p f, (execute s).2)

/-- A command at a Ready link, whose execution ignores the panel, completes with what its execution makes of the state as
it stands before the command is taken. -/
theorem commandFrame_of_ignoresPanel {s t : State} {p : Plane} {code : CommandCode} {a : Args}
    {execute : State → State × Status} {st : Status} (ready : s.Ready p)
    (routed : s.route p { code := code, args := a } = s.takeImmediate p { code := code, args := a } execute)
    (ignores : IgnoresPanel p execute) (executed : execute s = (t, st)) :
    s.commandFrame p code a = t.completed p code a st := by
  refine commandFrame_completed ready routed ?_
  rw [ignores, executed]

theorem setHolder_modPanel (s : State) (p : Plane) (f : Panel → Panel) (c : ChainCode) (h : Holder) :
    (s.modPanel p f).setHolder c h = (s.setHolder c h).modPanel p f := by
  cases p <;> rfl

theorem modQueue_modPanel (s : State) (p q : Plane) (f : Panel → Panel) (g : Queue → Queue) :
    (s.modPanel p f).modQueue q g = (s.modQueue q g).modPanel p f := by
  cases p <;> cases q <;> rfl

theorem stamped_modPanel (s : State) (p : Plane) (f : Panel → Panel) (both : Bool) (e : Event) :
    (s.modPanel p f).stamped both e = s.stamped both e := by
  simp only [State.stamped, modPanel_hwi]

/-! ### Claimable codes (R152, R153) -/

theorem argChain_of_not_claimable {a : Args} (code : 136 ≤ a.arg1.toNat % 256) : argChain a = none :=
  dif_neg (Nat.not_lt.mpr code)

theorem argChain_of_claimable {a : Args} {c : ChainCode} (code : c.val = a.arg1.toNat % 256) : argChain a = some c := by
  have claimable : argCode a < Config.chains := lt_of_eq_of_lt code.symm c.isLt
  exact (dif_pos claimable).trans (congrArg some (Fin.ext code.symm))

/-! ### The two planes -/

theorem Plane.ne_other (p : Plane) : p ≠ p.other := by
  cases p <;> decide

/-- A claimable that is free or the issuer's own is not the other plane's. -/
theorem holder_ne_other {s : State} {p : Plane} {c : ChainCode} (own : s.holder c = none ∨ s.holder c = some p) :
    s.holder c ≠ some p.other := by
  rcases own with free | issuer
  · simp [free]
  · simpa [issuer] using Plane.ne_other p

/-- An event for the other plane alone arrives at that plane's queue and at no other (R154). -/
theorem raise_other (s : State) (p : Plane) (e : Event) :
    s.raise (decide (p.other = .a)) (decide (p.other = .b)) e =
      s.modQueue p.other (·.arrive (s.stamped false e)) := by
  cases p <;> rfl

end Sys2Proof.Machine
end

section
/-! PROOF. The table of CLAIM, UNCLAIM and SEIZE (R153, R154): its rows as equations of the Claim Table's three commands,
then what the panels' commands make of them. -/

namespace Sys2Proof.Machine

section Rows

variable {s : State} {p : Plane} {c : ChainCode}

/-! ### The rows of the table -/

theorem claimCommand_of_other (other : s.holder c = some p.other) : s.claimCommand p (some c) = (s, .claimed) :=
  if_pos other

theorem claimCommand_of_not_other (own : s.holder c ≠ some p.other) :
    s.claimCommand p (some c) = (s.setHolder c (some p), .ok) :=
  if_neg own

theorem unclaimCommand_of_issuer (issuer : s.holder c = some p) :
    s.unclaimCommand p (some c) = (s.setHolder c none, .ok) :=
  if_pos issuer

theorem unclaimCommand_of_not_issuer (notIssuer : s.holder c ≠ some p) :
    s.unclaimCommand p (some c) = (s, .notHolder) :=
  if_neg notIssuer

theorem seizeCommand_of_other (other : s.holder c = some p.other) :
    s.seizeCommand p (some c) =
      ((s.setHolder c (some p)).modQueue p.other (·.arrive (s.stamped false (.claimLost c p))), .ok) :=
  (if_pos other).trans (congrArg (·, Status.ok) (raise_other (s.setHolder c (some p)) p _))

theorem seizeCommand_of_not_other (own : s.holder c ≠ some p.other) :
    s.seizeCommand p (some c) = (s.setHolder c (some p), .ok) :=
  if_neg own

end Rows

/-! ### The commands ignore the issuer's panel -/

theorem claimCommand_ignoresPanel (p : Plane) (claimable : Option ChainCode) :
    IgnoresPanel p (·.claimCommand p claimable) := by
  intro s f
  dsimp only
  cases claimable with
  | none => rfl
  | some c =>
    by_cases other : s.holder c = some p.other
    · rw [claimCommand_of_other other, claimCommand_of_other (by simpa using other)]
    · rw [claimCommand_of_not_other other, claimCommand_of_not_other (by simpa using other), setHolder_modPanel]

theorem unclaimCommand_ignoresPanel (p : Plane) (claimable : Option ChainCode) :
    IgnoresPanel p (·.unclaimCommand p claimable) := by
  intro s f
  dsimp only
  cases claimable with
  | none => rfl
  | some c =>
    by_cases issuer : s.holder c = some p
    · rw [unclaimCommand_of_issuer issuer, unclaimCommand_of_issuer (by simpa using issuer), setHolder_modPanel]
    · rw [unclaimCommand_of_not_issuer issuer, unclaimCommand_of_not_issuer (by simpa using issuer)]

/-- The loser's record goes to a queue, and no panel is touched (R154). -/
theorem seizeCommand_ignoresPanel (p : Plane) (claimable : Option ChainCode) :
    IgnoresPanel p (·.seizeCommand p claimable) := by
  intro s f
  dsimp only
  cases claimable with
  | none => rfl
  | some c =>
    by_cases other : s.holder c = some p.other
    · rw [seizeCommand_of_other other, seizeCommand_of_other (by simpa using other), setHolder_modPanel,
        modQueue_modPanel, stamped_modPanel]
    · rw [seizeCommand_of_not_other other, seizeCommand_of_not_other (by simpa using other), setHolder_modPanel]

/-! ### The commands at a Ready link -/

section Commands

variable {s t : State} {p : Plane} {a : Args} {claimable : Option ChainCode} {st : Status}

theorem exec_claim_of_row (ready : s.Ready p) (code : argChain a = claimable)
    (row : s.claimCommand p claimable = (t, st)) : exec (.claim p a) s = .next (t.completed p .claim a st) :=
  congrArg Host.Outcome.next
    (commandFrame_of_ignoresPanel ready rfl (claimCommand_ignoresPanel p (argChain a)) (code ▸ row))

theorem exec_unclaim_of_row (ready : s.Ready p) (code : argChain a = claimable)
    (row : s.unclaimCommand p claimable = (t, st)) : exec (.unclaim p a) s = .next (t.completed p .unclaim a st) :=
  congrArg Host.Outcome.next
    (commandFrame_of_ignoresPanel ready rfl (unclaimCommand_ignoresPanel p (argChain a)) (code ▸ row))

theorem exec_seize_of_row (ready : s.Ready p) (code : argChain a = claimable)
    (row : s.seizeCommand p claimable = (t, st)) : exec (.seize p a) s = .next (t.completed p .seize a st) :=
  congrArg Host.Outcome.next
    (commandFrame_of_ignoresPanel ready rfl (seizeCommand_ignoresPanel p (argChain a)) (code ▸ row))

end Commands

/-- Settles O33: BAD_LIST for a code of no claimable, then the rows by the holder before. -/
theorem claimTable : Obligations.ClaimTable := by
  unfold Obligations.ClaimTable
  intro s p a ready
  refine ⟨fun noClaimable => ?badList, fun c code => ?rows⟩
  case badList =>
    have code := argChain_of_not_claimable noClaimable
    exact ⟨exec_claim_of_row ready code rfl, exec_unclaim_of_row ready code rfl, exec_seize_of_row ready code rfl⟩
  case rows =>
    have claimable := argChain_of_claimable code
    refine ⟨fun own => ?freeOrIssuer, fun issuer => ?unclaimed, fun notIssuer => ?notHolder, fun other => ?otherPlane⟩
    case freeOrIssuer =>
      have own := holder_ne_other own
      exact ⟨exec_claim_of_row ready claimable (claimCommand_of_not_other own),
        exec_seize_of_row ready claimable (seizeCommand_of_not_other own)⟩
    case unclaimed => exact exec_unclaim_of_row ready claimable (unclaimCommand_of_issuer issuer)
    case notHolder => exact exec_unclaim_of_row ready claimable (unclaimCommand_of_not_issuer notIssuer)
    case otherPlane =>
      exact ⟨exec_claim_of_row ready claimable (claimCommand_of_other other),
        exec_seize_of_row ready claimable (seizeCommand_of_other other)⟩

end Sys2Proof.Machine
end

section
/-! SUPPORT. The COEFF write in closed form (R167): the check of one segment by where it stands, the check of all the touched
segments by the first that fails, and the taps after the words are stored. -/

namespace Sys2Proof.Machine

variable {s : State} {p : Plane} {g : SegNo}

/-! ### The check of a segment -/

theorem mem_chain_of_place {c : ChainCode} (place : s.place g = .chain c) : g ∈ s.chain c := by
  unfold State.place at place
  split at place
  · contradiction
  · split at place
    next found =>
      cases place
      simpa using List.find?_some found
    next => contradiction

/-- Plane p's COEFF write may store in segment g: it stands in a work list that p holds and that is not being purged
(R167). -/
def State.Stores (s : State) (p : Plane) (g : SegNo) : Prop :=
  ∃ c : ChainCode, 128 ≤ c.val ∧ g ∈ s.chain c ∧ s.holder c = some p ∧ s.unfinished c = false

theorem checkCoeff_of_mem_workList (pool : s.PoolInv) {c : ChainCode} (work : 128 ≤ c.val) (member : g ∈ s.chain c) :
    s.checkCoeff p g =
      if s.holder c ≠ some p then some .notHolder else if s.unfinished c then some .notWritable else none := by
  unfold State.checkCoeff
  simp only [pool.place_of_mem_chain member, if_neg (Nat.not_lt.2 work)]
  simp [State.holds]

theorem checkCoeff_of_no_workList (outside : ∀ c : ChainCode, 128 ≤ c.val → g ∉ s.chain c) :
    s.checkCoeff p g = some .notWritable := by
  unfold State.checkCoeff
  cases place : s.place g with
  | free => rfl
  | transit => rfl
  | chain c => exact if_pos (Nat.lt_of_not_le fun work => outside c work (mem_chain_of_place place))

theorem checkCoeff_of_stores (pool : s.PoolInv) (stores : s.Stores p g) : s.checkCoeff p g = none := by
  obtain ⟨c, work, member, held, settled⟩ := stores
  simp [checkCoeff_of_mem_workList pool work member, held, settled]

theorem checkCoeff_of_not_held (pool : s.PoolInv)
    (notHeld : ∃ c : ChainCode, 128 ≤ c.val ∧ g ∈ s.chain c ∧ s.holder c ≠ some p) :
    s.checkCoeff p g = some .notHolder := by
  obtain ⟨c, work, member, other⟩ := notHeld
  rw [checkCoeff_of_mem_workList pool work member, if_pos other]

/-- A segment that is in no work list of another plane's and may not be stored in is NOT_WRITABLE: it is in no work list at
all, or in one that is being purged (R167). -/
theorem checkCoeff_of_not_stores (pool : s.PoolInv)
    (held : ¬∃ c : ChainCode, 128 ≤ c.val ∧ g ∈ s.chain c ∧ s.holder c ≠ some p) (barred : ¬s.Stores p g) :
    s.checkCoeff p g = some .notWritable := by
  by_cases inWorkList : ∃ c : ChainCode, 128 ≤ c.val ∧ g ∈ s.chain c
  · obtain ⟨c, work, member⟩ := inWorkList
    have holder : s.holder c = some p := by_contra fun other => held ⟨c, work, member, other⟩
    have unfinished : s.unfinished c = true :=
      (Bool.not_eq_false _).mp fun settled => barred ⟨c, work, member, holder, settled⟩
    rw [checkCoeff_of_mem_workList pool work member, if_neg (not_not.2 holder), if_pos unfinished]
  · exact checkCoeff_of_no_workList fun c work member => inWorkList ⟨c, work, member⟩

/-! ### The touched segments -/

theorem mem_coeffSegments {index count : Nat} :
    g ∈ coeffSegments index count ↔ index / 64 ≤ g.val ∧ g.val ≤ (index + count - 1) / 64 := by
  simp [coeffSegments]

theorem coeffSegments_ascending (index count : Nat) : (coeffSegments index count).Pairwise (· < ·) :=
  (List.pairwise_lt_finRange _).filter _

theorem findSome?_coeffSegments_of_first {index count : Nat} {check : SegNo → Option Status} {st : Status}
    (touched : g ∈ coeffSegments index count)
    (earlier : ∀ h ∈ coeffSegments index count, h < g → check h = none) (refused : check g = some st) :
    (coeffSegments index count).findSome? check = some st := by
  obtain ⟨before, after, split⟩ := List.append_of_mem touched
  have ascending := coeffSegments_ascending index count
  rw [split, List.pairwise_append] at ascending
  obtain ⟨-, -, below⟩ := ascending
  refine List.findSome?_eq_some_iff.2 ⟨before, g, after, split, refused, fun h member => ?_⟩
  exact earlier h (split ▸ List.mem_append_left _ member) (below h member g List.mem_cons_self)

/-! ### The stored words -/

theorem segment_modSegments_of_notMem {l : List SegNo} (outside : g ∉ l) (s : State) (f : Segment → Segment) :
    (s.modSegments l f).segment g = s.segment g :=
  segment_foldModSegment_of_notMem (fun _ => f) outside s

theorem segment_storeTap (index : Nat) (w : Word) (s : State) (g : SegNo) :
    (storeTap index w s).segment g =
      if index / 64 = g.val then
        { s.segment g with coeffs := (s.segment g).coeffs.set (index % 64) w (Nat.mod_lt _ (by decide)) }
      else s.segment g := by
  unfold storeTap
  cases inPool : coeffSegment index with
  | none =>
    have beyond : ¬index / 64 < Config.segments := by simpa [coeffSegment] using inPool
    exact (if_neg fun here => beyond (here.trans_lt g.isLt)).symm
  | some h =>
    have number : index / 64 = h.val := by
      obtain ⟨_, rfl⟩ : ∃ lt, (⟨index / 64, lt⟩ : SegNo) = h := by simpa [coeffSegment] using inPool
      rfl
    by_cases same : g = h
    · rw [same, if_pos number]
      exact segment_modSegment s h _
    · rw [if_neg fun here => same (Fin.ext (here.symm.trans number))]
      exact segment_modSegment_ne s same _

theorem storeTap_coeff (index : Nat) (w : Word) (s : State) (g : SegNo) (k : Fin 64) :
    ((storeTap index w s).segment g).coeffs[k.val] =
      if 64 * g.val + k.val = index then w else (s.segment g).coeffs[k.val] := by
  rw [segment_storeTap]
  by_cases here : index / 64 = g.val
  · simp only [if_pos here, Vector.getElem_set]
    exact if_congr (by omega) rfl rfl
  · rw [if_neg here, if_neg (by omega)]

/-- Storing words changes nothing of a segment record but its taps (R167). -/
theorem storeTaps_keeps (g : SegNo) (data : List Word) (index : Nat) (s : State) :
    ((storeTaps index data s).segment g).startDelay = (s.segment g).startDelay ∧
      ((storeTaps index data s).segment g).vacancy = (s.segment g).vacancy := by
  induction data generalizing index s with
  | nil => exact ⟨rfl, rfl⟩
  | cons w rest ih =>
    obtain ⟨startDelay, vacancy⟩ := ih (index + 1) (storeTap index w s)
    rw [storeTaps, startDelay, vacancy, segment_storeTap]
    split <;> exact ⟨rfl, rfl⟩

theorem segment_storeTaps_of_apart {data : List Word} {index : Nat}
    (apart : ∀ j < data.length, (index + j) / 64 ≠ g.val) (s : State) :
    (storeTaps index data s).segment g = s.segment g := by
  induction data generalizing index s with
  | nil => rfl
  | cons w rest ih =>
    have later : ∀ j < rest.length, (index + 1 + j) / 64 ≠ g.val := fun j lt => by
      rw [Nat.add_assoc, Nat.add_comm 1]
      exact apart (j + 1) (Nat.succ_lt_succ lt)
    rw [storeTaps, ih later, segment_storeTap, if_neg (by simpa using apart 0 (Nat.succ_pos _))]

/-- A tap holds its word of the run of words stored, or what it held where the run does not reach it (R167). -/
theorem storeTaps_coeff (g : SegNo) (k : Fin 64) (data : List Word) (index : Nat) (s : State) :
    ((storeTaps index data s).segment g).coeffs[k.val] =
      (if index ≤ 64 * g.val + k.val then data[64 * g.val + k.val - index]? else none).getD
        (s.segment g).coeffs[k.val] := by
  induction data generalizing index s with
  | nil => simp [storeTaps]
  | cons w rest ih =>
    rw [storeTaps, ih, storeTap_coeff]
    rcases Nat.lt_trichotomy (64 * g.val + k.val) index with below | here | above
    · rw [if_neg (by omega), if_neg (by omega), if_neg (by omega)]
    · rw [if_neg (by omega), if_pos here, if_pos (by omega), here, Nat.sub_self]
      rfl
    · have place : 64 * g.val + k.val - index = 64 * g.val + k.val - (index + 1) + 1 := by omega
      rw [if_pos (by omega), if_neg (by omega), if_pos (by omega), place, List.getElem?_cons_succ]

/-! ### The write -/

theorem checkAccess_of_writeAccepted {space : Space} {code : Byte} {index : Word} {count : Byte}
    (accepted : writeAccepted space code index count = true) : checkAccess code index count = .ok space := by
  unfold writeAccepted at accepted
  split at accepted
  next named => rw [named, of_decide_eq_true accepted]
  next => contradiction

theorem exec_writeCoeff {index : Word} {count : Byte} {data : List Word} (awaiting : (s.port p).iface = .awaitRequest)
    (wellFormed : (Instr.writeCoeff p index count data).wellFormed = true) {t : State} {st : Status}
    (written : s.writeCoeff p index.toNat count.toNat data = (t, st)) :
    exec (.writeCoeff p index count data) s = .next (t.answered p 0x02 st []) := by
  obtain ⟨-, accepted⟩ := Bool.and_eq_true_iff.1 wellFormed
  have request : s.writeRequest p 4 index count data = .plain (t, st) := by
    unfold State.writeRequest
    simp only [checkAccess_of_writeAccepted accepted, written]
  refine congrArg Host.Outcome.next ?_
  rw [request_awaiting s p _ _ _ awaiting, request]
  rfl

theorem length_of_writeCoeff_wellFormed {index : Word} {count : Byte} {data : List Word}
    (wellFormed : (Instr.writeCoeff p index count data).wellFormed = true) : data.length = count.toNat := by
  obtain ⟨fits, -⟩ := Bool.and_eq_true_iff.1 wellFormed
  exact (of_decide_eq_true fits).trans (Nat.mul_one _)

variable {index count : Nat} {data : List Word}

theorem writeCoeff_of_first_refused {st : Status} (touched : g ∈ coeffSegments index count)
    (earlier : ∀ h ∈ coeffSegments index count, h < g → s.checkCoeff p h = none)
    (refused : s.checkCoeff p g = some st) : s.writeCoeff p index count data = (s, st) := by
  unfold State.writeCoeff
  simp only [findSome?_coeffSegments_of_first touched earlier refused]

/-- The state after a COEFF write that is carried out (R167). -/
def State.coeffsStored (s : State) (index count : Nat) (data : List Word) : State :=
  (storeTaps index data s).modSegments (coeffSegments index count) (·.refresh)

theorem writeCoeff_of_accepted (length : data.length = count)
    (accepted : ∀ g ∈ coeffSegments index count, s.checkCoeff p g = none) :
    s.writeCoeff p index count data = (s.coeffsStored index count data, .ok) := by
  unfold State.writeCoeff
  simp only [List.findSome?_eq_none_iff.2 accepted, List.take_left' length]
  rfl

theorem coeffsStored_eq_withSegments (s : State) (index count : Nat) (data : List Word) :
    s.coeffsStored index count data = { s with segments := (s.coeffsStored index count data).segments } := by
  apply State.eq_of_fields <;> simp [State.coeffsStored]

theorem segment_coeffsStored_of_touched (touched : g ∈ coeffSegments index count) (s : State) (data : List Word) :
    (s.coeffsStored index count data).segment g = ((storeTaps index data s).segment g).refresh :=
  segment_modSegments_of_mem ((coeffSegments_ascending index count).imp Fin.ne_of_lt) touched _ _

theorem segment_coeffsStored_of_not_touched (length : data.length = count) (untouched : g ∉ coeffSegments index count)
    (s : State) : (s.coeffsStored index count data).segment g = s.segment g := by
  have apart : ∀ j < data.length, (index + j) / 64 ≠ g.val := fun j lt here =>
    untouched (mem_coeffSegments.2 (by omega))
  rw [State.coeffsStored, segment_modSegments_of_notMem untouched, segment_storeTaps_of_apart apart]

end Sys2Proof.Machine
end

section
/-! PROOF. A WRITE to COEFF: the refusal by the first touched segment that fails, and what an accepted one stores (R167). -/

namespace Sys2Proof.Machine

/-- Settles O40: the first failing segment's check gives the refusal in the first two parts; in the last every check passes,
and the write is the stored words with the touched weights refreshed. -/
theorem coeffWrite : Obligations.CoeffWrite := by
  unfold Obligations.CoeffWrite
  intro s p index count data pool awaiting wellFormed
  have passes (g : SegNo) (good : ∀ h ∈ coeffSegments index.toNat count.toNat, h < g → s.Stores p h) :
      ∀ h ∈ coeffSegments index.toNat count.toNat, h < g → s.checkCoeff p h = none :=
    fun h touched before => checkCoeff_of_stores pool (good h touched before)
  simp only [← mem_coeffSegments]
  refine ⟨fun g touched good notHeld => ?notHolder, fun g touched good held barred => ?notWritable, fun good => ?stored⟩
  case notHolder =>
    exact exec_writeCoeff awaiting wellFormed
      (writeCoeff_of_first_refused touched (passes g good) (checkCoeff_of_not_held pool notHeld))
  case notWritable =>
    have barred : ¬s.Stores p g := fun ⟨c, work, member, holder, settled⟩ =>
      barred ⟨c, work, member, holder⟩ ⟨c, work, member, holder, settled⟩
    exact exec_writeCoeff awaiting wellFormed
      (writeCoeff_of_first_refused touched (passes g good) (checkCoeff_of_not_stores pool held barred))
  case stored =>
    have length := length_of_writeCoeff_wellFormed wellFormed
    refine ⟨s.coeffsStored index.toNat count.toNat data,
      exec_writeCoeff awaiting wellFormed
        (writeCoeff_of_accepted length fun g touched => checkCoeff_of_stores pool (good g touched)),
      coeffsStored_eq_withSegments s _ _ data,
      fun g untouched => segment_coeffsStored_of_not_touched length untouched s, fun g touched => ?_⟩
    obtain ⟨startDelay, vacancy⟩ := storeTaps_keeps g data index.toNat s
    rw [segment_coeffsStored_of_touched touched]
    exact ⟨startDelay, vacancy, rfl, fun k => storeTaps_coeff g k data index.toNat s⟩

end Sys2Proof.Machine
end

section
/-! PROOF. TAKE_EVENTS and SET_TRIGGER, and the bytes of an event record (R169, R172, R174). -/

namespace Sys2Proof.Machine

/-! ### The bytes of an event record (R172) -/

theorem kindCode_eq_kindNumber (k : EventKind) : kindCode k = kindNumber k := by cases k <;> rfl

theorem toneCode_eq_toneNumber (t : Tone) : toneCode t = toneNumber t := by cases t <;> rfl

theorem requesterByte_eq (r : Requesters) :
    requesterByte r = inByte (bitIf r.a 1 + bitIf r.b 2 + bitIf r.internal 4) := by
  obtain ⟨a, b, internal⟩ := r
  cases a <;> cases b <;> cases internal <;> rfl

theorem byteOf_ite (flag : Bool) : byteOf (if flag then 1 else 0) = if flag then 1 else 0 := by cases flag <;> rfl

theorem recordOfEvent_eq_eventLayout (r : EventRecord) : recordOfEvent r = eventLayout r := by
  obtain ⟨event, stamp, both⟩ := r
  unfold recordOfEvent
  rw [byteOf_ite]
  cases event with
  | toneBypass n t => simp only [detailBytes, toneCode_eq_toneNumber]; rfl
  | levelLimit n send gain => simp only [detailBytes, byteOf_ite]; rfl
  | purgeDone c x => simp only [detailBytes, requesterByte_eq]; rfl
  | claimLost c seizer => cases seizer <;> rfl
  | overrun kind subject =>
    simp only [detailBytes, kindCode_eq_kindNumber]
    cases subject <;> rfl
  | _ => rfl

/-! ### The two requests (R169) -/

section Requests

variable {s : State} {p : Plane}

/-- A removal's effect on a link, with the entries that stay read off the state before it (R174). -/
theorem modQueue_remove (s : State) (p : Plane) (m : Nat) :
    s.modQueue p (·.remove m) = s.modQueue p ({ · with
      entries := (s.port p).queue.entries.drop m, quietTimer := true, quietMark := false }) := by
  cases p <;> rfl

theorem takeEventsRequest_of_bad {n : Byte} (bad : n.toNat = 0 ∨ 16 < n.toNat) :
    s.takeEventsRequest p n = .refuse s .badValue := if_pos bad

theorem takeEventsRequest_of_good {n : Byte} (positive : 1 ≤ n.toNat) (small : n.toNat ≤ 16) :
    let entries := (s.port p).queue.entries
    let m := min n.toNat entries.length
    s.takeEventsRequest p n =
      { state := s.modQueue p ({ · with entries := entries.drop m, quietTimer := true, quietMark := false }), status := .ok
        body := BitVec.ofNat 8 m :: (entries.take m).flatMap eventLayout } := by
  have good : ¬(n.toNat = 0 ∨ 16 < n.toNat) := by omega
  dsimp only
  rw [← modQueue_remove, ← funext recordOfEvent_eq_eventLayout]
  exact if_neg good

theorem setTriggerRequest_of_bad {level : Byte} (bad : level.toNat = 0 ∨ 64 < level.toNat) :
    s.setTriggerRequest p level = .refuse s .badValue := if_pos bad

theorem setTriggerRequest_of_good {level : Byte} (positive : 1 ≤ level.toNat) (small : level.toNat ≤ 64) :
    s.setTriggerRequest p level =
      { state := s.modQueue p ({ · with trigger := level.toNat }), status := .ok, body := [] } :=
  if_neg (by omega)

theorem exec_takeEvents (awaiting : (s.port p).iface = .awaitRequest) {n : Byte} {r : Reply}
    (reply : s.takeEventsRequest p n = r) :
    exec (.takeEvents p n) s = .next (r.state.answered p 0x05 r.status r.body) :=
  reply ▸ congrArg Host.Outcome.next (request_awaiting s p _ _ _ awaiting)

theorem exec_setTrigger (awaiting : (s.port p).iface = .awaitRequest) {level : Byte} {r : Reply}
    (reply : s.setTriggerRequest p level = r) :
    exec (.setTrigger p level) s = .next (r.state.answered p 0x06 r.status r.body) :=
  reply ▸ congrArg Host.Outcome.next (request_awaiting s p _ _ _ awaiting)

end Requests

/-- Settles O43: each request by the range of its operand, its event records in the layout of section 10.6. -/
theorem takeEventsAndSetTrigger : Obligations.TakeEventsAndSetTrigger := by
  unfold Obligations.TakeEventsAndSetTrigger
  exact fun s p awaiting =>
    ⟨fun n => ⟨fun bad => exec_takeEvents awaiting (takeEventsRequest_of_bad bad),
      fun positive small => exec_takeEvents awaiting (takeEventsRequest_of_good positive small)⟩,
    fun level => ⟨fun bad => exec_setTrigger awaiting (setTriggerRequest_of_bad bad),
      fun positive small => exec_setTrigger awaiting (setTriggerRequest_of_good positive small)⟩⟩

end Sys2Proof.Machine
end

section
/-! PROOF. A step of the part with a command waiting (R163). -/

namespace Sys2Proof.Machine

/-- Settles O1: the queue of waiting commands is not empty, so the step takes its front. -/
theorem stepExecutesFrontCommand : Obligations.StepExecutesFrontCommand := by
  unfold Obligations.StepExecutesFrontCommand
  intro c rest s waiting
  unfold step
  rw [waiting]

end Sys2Proof.Machine
end

section
/-! SUPPORT. A command by its effect: what it does to the part besides what it does to the link that carries it. A predicate
that reads nothing of a link but its event queue is kept by a command when its effect keeps it, so that an invariant is
proved over the effects alone. -/

namespace Sys2Proof.Machine

/-! ### The effect of a command -/

/-- What a command code does when its panel takes the command: the owner's execution, which ignores the reply; a list command
only waits (R38). -/
def State.taken (s : State) (p : Plane) (a : Args) : CommandCode → State
  | .allocate | .release | .move | .swap | .empty => s
  | .purge => (s.purgeCommand p (argChain a)).1
  | .suspend => s.suspendCommand.1
  | .resume => s.resumeCommand.1
  | .claim => (s.claimCommand p (argChain a)).1
  | .unclaim => (s.unclaimCommand p (argChain a)).1
  | .seize => (s.seizeCommand p (argChain a)).1
  | .restart => (s.restartCommand p (argChannel a)).1

/-- The effect of a command, as if its request were executed and its panel IDLE. -/
def State.effect (s : State) : Instr → State
  | .powerOnReset law => s.powerOnReset law
  | .syncPulse position => s.syncPulse position
  | .missedSync => s.missedSync
  | .samplePairArrival n rin sin => s.arrival n rin sin
  | .blockBoundary n => s.boundary n
  | .stampTick => s.stampTick
  | .writeChannelConfig p index count data => (s.writeRequest p 1 index count data).state
  | .writeCoeff p index count data => (s.writeRequest p 4 index count data).state
  | .write p space index count data => (s.writeRequest p space index count data).state
  | .takeEvents p n => (s.takeEventsRequest p n).state
  | .setTrigger p level => (s.setTriggerRequest p level).state
  | .linkReset p => (s.linkResetRequest p).state
  | .allocateTake => s.allocateTake
  | .allocateLink => s.allocateLinkWork
  | .releaseTake => s.releaseTake
  | .releaseLinkIntoF => s.releaseLinkWork
  | .moveTake => s.moveTake
  | .moveLink => s.moveLinkWork
  | .swapTake => s.swapTake
  | .emptyTake => s.emptyTake
  | .emptyLinkIntoF => s.emptyLinkWork
  | .emptyUnlink => s.emptyUnlinkWork
  | .relocationTake => s.relocationTakeWork
  | .relocationLink => s.relocationLinkWork
  | .purge p a => s.taken p a .purge
  | .suspend p a => s.taken p a .suspend
  | .resume p a => s.taken p a .resume
  | .claim p a => s.taken p a .claim
  | .unclaim p a => s.taken p a .unclaim
  | .seize p a => s.taken p a .seize
  | .restart p a => s.taken p a .restart
  | .gatherTimerExpiry => s.gatherExpiry
  | .segmentClearEnd => s.clearEnd
  | .suspendTimerExpiry => s.suspendExpiry
  | .quietTimerExpiry p => s.quietExpiry p
  | .transparentTimeslot t rin sin => s.transparent t rin sin
  | .command p code a => ((commandOfCode code).map (s.taken p a)).getD s
  | .read _ _ _ _ | .status _ | .replyFrame _ _ | .badFrame _ _ | .allocate _ _ | .release _ _ | .move _ _ | .swap _ _
  | .empty _ _ => s

/-- A predicate that reads nothing of a link but its event queue. -/
def OffLinks (P : State → Prop) : Prop :=
  ∀ (s : State) (p : Plane) (f : Port → Port), (∀ port, (f port).queue = port.queue) → P s → P (s.modPort p f)

/-- A COMMAND whose code names a command is that command (R37). -/
theorem exec_command_of_some {code : Byte} {named : CommandCode} (known : commandOfCode code = some named) (s : State)
    (p : Plane) (a : Args) : exec (.command p code a) s = .next (s.commandFrame p named a) := by
  change execCommand p code a s = _
  unfold execCommand
  rw [known]

/-- A COMMAND whose code names no command is answered BAD_COMMAND (R37). -/
theorem exec_command_of_none {code : Byte} (unknown : commandOfCode code = none) (s : State) (p : Plane) (a : Args) :
    exec (.command p code a) s = .next (s.request p 0x03 8 fun u => .refuse u .badCommand) := by
  change execCommand p code a s = _
  unfold execCommand
  rw [unknown]

/-! ### Requests and commands keep what their effects keep -/

section
variable {P : State → Prop} (links : OffLinks P) {s : State} (kept : P s)
include links kept

theorem clockReply_keeps (p : Plane) (bytes : Nat) : P (s.clockReply p bytes) := by
  unfold State.clockReply
  split
  · exact kept
  · exact links s p _ (fun _ => rfl) kept

theorem request_keeps {p : Plane} {kind : Byte} {bytes : Nat} {execute : State → Reply} (hx : P (execute s).state) :
    P (s.request p kind bytes execute) := by
  unfold State.request
  split
  · exact clockReply_keeps links kept p bytes
  · exact links _ p _ (fun _ => rfl) hx

theorem modPanel_keeps (p : Plane) (f : Panel → Panel) : P (s.modPanel p f) := links s p _ (fun _ => rfl) kept

theorem takeImmediate_keeps (p : Plane) (w : CommandWord) {execute : State → State × Status}
    (hx : ∀ u, P u → P (execute u).1) : P (s.takeImmediate p w execute) := by
  unfold State.takeImmediate
  exact modPanel_keeps links (hx _ (modPanel_keeps links kept p _)) p _

theorem route_keeps (p : Plane) (code : CommandCode) (a : Args) (hx : ∀ u, P u → P (u.taken p a code)) :
    P (s.route p { code := code, args := a }) := by
  unfold State.route
  cases code
  case allocate | release | move | swap | empty => exact modPanel_keeps links kept p _
  all_goals exact takeImmediate_keeps links kept p _ hx

theorem commandFrame_keeps (p : Plane) (code : CommandCode) (a : Args) (hx : ∀ u, P u → P (u.taken p a code)) :
    P (s.commandFrame p code a) := by
  refine request_keeps links kept ?_
  unfold State.commandRequest
  split
  · exact route_keeps links kept p code a hx
  · exact kept

theorem badFrameRequest_keeps (p : Plane) (frame : List Byte) : P (s.badFrameRequest p frame) := by
  unfold State.badFrameRequest
  split
  · exact clockReply_keeps links kept p 0
  · exact request_keeps links kept kept

/-- A command keeps what its effect keeps. -/
theorem exec_keeps {c : Instr} {t : State} (hx : ∀ u, P u → P (u.effect c)) (answer : exec c s = .next t) : P t := by
  have next {u : State} (h : P u) (e : (.next u : Host.Outcome State Fault Refusal) = .next t) : P t := by
    cases e; exact h
  cases c
  case read => exact next (request_keeps links kept (by rw [readRequest_state]; exact kept)) answer
  case status => exact next (request_keeps links kept kept) answer
  case writeChannelConfig | writeCoeff | write | takeEvents | setTrigger | linkReset =>
    exact next (request_keeps links kept (hx s kept)) answer
  case replyFrame => exact next (clockReply_keeps links kept _ _) answer
  case badFrame => exact next (badFrameRequest_keeps links kept _ _) answer
  case allocate p a | release p a | move p a | swap p a | empty p a | purge p a | suspend p a | resume p a | claim p a |
      unclaim p a | seize p a | restart p a =>
    refine next ?_ answer
    exact commandFrame_keeps links kept p _ a hx
  case command p code a =>
    cases known : commandOfCode code with
    | none =>
      rw [exec_command_of_none known] at answer
      refine next ?_ answer
      exact request_keeps links kept kept
    | some named =>
      rw [exec_command_of_some known] at answer
      simp only [State.effect, known, Option.map_some, Option.getD_some] at hx
      exact next (commandFrame_keeps links kept p named a hx) answer
  all_goals exact next (hx s kept) answer

end

/-- A write request does what the space's own rule does, or nothing (R166). -/
theorem writeRequest_keeps {P : State → Prop} {s : State} (kept : P s) {p : Plane} {space : Byte} {index : Word}
    {count : Byte} {data : List Word} (config : P (s.writeConfig p index.toNat count.toNat data).1)
    (coeff : P (s.writeCoeff p index.toNat count.toNat data).1) :
    P (s.writeRequest p space index count data).state := by
  unfold State.writeRequest
  cases checkAccess space index count with
  | error st => exact kept
  | ok sp =>
    cases sp
    case channelConfig => exact config
    case coeff => simpa only [Reply.plain] using coeff
    all_goals exact kept

/-- What a step answers: the same state when no command waits, and what the front command's execution answers otherwise. -/
theorem step_cases {s t : State} (answer : step s = .next t) :
    t = s ∨ ∃ c rest, exec c { s with pending := rest } = .next t := by
  unfold step at answer
  split at answer
  · cases answer; exact .inl rfl
  · exact .inr ⟨_, _, answer⟩

/-- An invariant of every effect is an invariant of every step. -/
theorem step_keeps {P : State → Prop} (links : OffLinks P) (queue : ∀ s rest, P s → P { s with pending := rest })
    (effects : ∀ s c, P s → P (s.effect c)) {s t : State} (kept : P s) (answer : step s = .next t) : P t := by
  obtain rfl | ⟨c, rest, executed⟩ := step_cases answer
  · exact kept
  · exact exec_keeps links (queue s rest kept) (fun u => effects u c) executed

/-! ### Every command answers (R39, R164) -/

theorem exec_next (c : Instr) (s : State) : ∃ t, exec c s = .next t := by
  cases c
  case command p code a =>
    cases known : commandOfCode code with
    | none => exact ⟨_, exec_command_of_none known s p a⟩
    | some named => exact ⟨_, exec_command_of_some known s p a⟩
  all_goals exact ⟨_, rfl⟩

theorem taken_pending (s : State) (p : Plane) (a : Args) (code : CommandCode) : (s.taken p a code).pending = s.pending := by
  cases code <;> simp [State.taken]

theorem takeEventsRequest_queue (s : State) (p : Plane) (n : Byte) :
    (s.takeEventsRequest p n).state = s ∨ ∃ m, (s.takeEventsRequest p n).state = s.modQueue p (·.remove m) := by
  unfold State.takeEventsRequest
  split
  · exact .inl rfl
  · exact .inr ⟨_, rfl⟩

theorem setTriggerRequest_queue (s : State) (p : Plane) (level : Byte) :
    (s.setTriggerRequest p level).state = s ∨ (1 ≤ level.toNat ∧ level.toNat ≤ 64 ∧
      (s.setTriggerRequest p level).state = s.modQueue p ({ · with trigger := level.toNat })) := by
  unfold State.setTriggerRequest
  split
  · exact .inl rfl
  · exact .inr ⟨by omega, by omega, rfl⟩

theorem effect_pending (s : State) (c : Instr) : (s.effect c).pending = s.pending := by
  cases c
  case writeChannelConfig p index count data | writeCoeff p index count data | write p space index count data =>
    exact writeRequest_keeps (P := fun u => u.pending = s.pending) rfl (by simp) (by simp)
  case takeEvents p n =>
    obtain h | ⟨m, h⟩ := takeEventsRequest_queue s p n <;> simp only [State.effect, h, modQueue_pending]
  case setTrigger p level =>
    obtain h | ⟨-, -, h⟩ := setTriggerRequest_queue s p level <;> simp only [State.effect, h, modQueue_pending]
  case command p code a => cases h : commandOfCode code <;> simp [State.effect, h, taken_pending]
  all_goals simp [State.effect, taken_pending, State.powerOnReset, State.linkResetRequest]

end Sys2Proof.Machine
end

section
/-! PROOF. Every command answers a next state and leaves the queue of waiting commands alone (R39, R164). -/

namespace Sys2Proof.Machine

/-- Settles O2: `exec` has no other answer, and no effect touches the queue of waiting commands. -/
theorem everyCommandAnswersAndLeavesTheQueue : Obligations.EveryCommandAnswersAndLeavesTheQueue := by
  unfold Obligations.EveryCommandAnswersAndLeavesTheQueue
  intro c s
  obtain ⟨t, answer⟩ := exec_next c s
  refine ⟨t, answer, ?_⟩
  exact exec_keeps (P := fun u => u.pending = s.pending) (fun u p f _ h => (modPort_pending u p f).trans h) rfl
    (fun u h => (effect_pending u c).trans h) answer

end Sys2Proof.Machine
end

section
/-! SUPPORT. What the commands that are no event of the List Controller leave of the pool: every list, the in-transit slot and
LC's current command, every start delay, and the whole record of a segment that stands in no chain (R26, R41). -/

namespace Sys2Proof.Machine

/-- What every command but LC's events and power-on reset keeps of the pool on the way from s to t. -/
structure State.PoolKept (s t : State) : Prop where
  free : t.free = s.free
  chains : t.chains = s.chains
  transit : t.transit = s.transit
  current : t.lc.current = s.lc.current
  delays : ∀ g, (t.segment g).startDelay = (s.segment g).startDelay
  outside : ∀ g, (∀ c, g ∉ s.chain c) → t.segment g = s.segment g

variable {s t u : State}

theorem chain_congr (chains : t.chains = s.chains) (c : ChainCode) : t.chain c = s.chain c := by
  simp only [State.chain, chains]

theorem segment_congr (segments : t.segments = s.segments) (g : SegNo) : t.segment g = s.segment g := by
  simp only [State.segment, segments]

theorem State.PoolKept.of_segments (free : t.free = s.free) (chains : t.chains = s.chains)
    (transit : t.transit = s.transit) (lc : t.lc.current = s.lc.current) (segments : t.segments = s.segments) :
    s.PoolKept t :=
  ⟨free, chains, transit, lc, fun g => by rw [segment_congr segments], fun g _ => segment_congr segments g⟩

theorem State.PoolKept.refl (s : State) : s.PoolKept s := .of_segments rfl rfl rfl rfl rfl

theorem State.PoolKept.trans (first : s.PoolKept t) (second : t.PoolKept u) : s.PoolKept u where
  free := second.free.trans first.free
  chains := second.chains.trans first.chains
  transit := second.transit.trans first.transit
  current := second.current.trans first.current
  delays g := (second.delays g).trans (first.delays g)
  outside g apart :=
    (second.outside g fun c => by rw [chain_congr first.chains]; exact apart c).trans (first.outside g apart)

/-! ### Changes of segments that keep the start delays -/

theorem startDelay_foldModSegment {f : SegNo → Segment → Segment}
    (hf : ∀ g x, (f g x).startDelay = x.startDelay) (l : List SegNo) (s : State) (g : SegNo) :
    ((l.foldl (fun t x => t.modSegment x (f x)) s).segment g).startDelay = (s.segment g).startDelay := by
  induction l generalizing s with
  | nil => rfl
  | cons x l ih =>
    rw [List.foldl_cons, ih]
    by_cases same : g = x
    · subst same; simp [hf]
    · rw [segment_modSegment_ne _ same]

theorem foldModSegment_poolKept {f : SegNo → Segment → Segment} (hf : ∀ g x, (f g x).startDelay = x.startDelay)
    {l : List SegNo} (chained : ∀ g ∈ l, ∃ c, g ∈ s.chain c) :
    s.PoolKept (l.foldl (fun t x => t.modSegment x (f x)) s) where
  free := by rw [foldModSegment_segments]
  chains := by rw [foldModSegment_segments]
  transit := by rw [foldModSegment_segments]
  current := by rw [foldModSegment_segments]
  delays := startDelay_foldModSegment hf l s
  outside g apart := segment_foldModSegment_of_notMem f
    (fun member => let ⟨c, hc⟩ := chained g member; apart c hc) s

theorem modSegments_poolKept {f : Segment → Segment} (hf : ∀ x, (f x).startDelay = x.startDelay) {l : List SegNo}
    (chained : ∀ g ∈ l, ∃ c, g ∈ s.chain c) : s.PoolKept (s.modSegments l f) :=
  foldModSegment_poolKept (f := fun _ => f) (fun _ => hf) chained

theorem chained_of_mem_channelChain {n : ChannelNo} : ∀ g ∈ s.channelChain n, ∃ c, g ∈ s.chain c :=
  fun _ member => ⟨channelCode n, member⟩

/-! ### The arrival (R83) and the boundary (R93, R126) -/

theorem adapt_poolKept (n : ChannelNo) (history : List Lin) (error : Lin) : s.PoolKept (s.adapt n history error) := by
  unfold State.adapt
  exact foldModSegment_poolKept (f := fun g x => { x with
    coeffs := adaptCoeffs x.coeffs (tapSamples history (s.delay g))
      (linScale (stepValue (s.channel n).governing.step (s.channel n).divState) error) (s.normaliser n history) })
    (fun _ _ => rfl) chained_of_mem_channelChain

theorem arrival_poolKept (n : ChannelNo) (rin sin : Byte) : s.PoolKept (s.arrival n rin sin) := by
  have adapted : s.PoolKept (s.adaptedAt n rin sin) := by
    unfold State.adaptedAt
    split
    · exact adapt_poolKept n _ _
    · exact .refl s
  unfold State.arrival
  split
  · rw [arrivalWork_eq]
    exact adapted.trans (.of_segments rfl rfl rfl rfl rfl)
  · exact .refl s

theorem periodEnd_poolKept (n : ChannelNo) : s.PoolKept (s.periodEnd n) := by
  have counted : s.PoolKept (s.modSegments (s.channelChain n) (nextVacancy (s.largestWeight (s.channelChain n)))) :=
    modSegments_poolKept (f := nextVacancy _) (fun _ => rfl) chained_of_mem_channelChain
  exact ⟨counted.free, counted.chains, counted.transit, counted.current, counted.delays, counted.outside⟩

theorem trackingBoundary_poolKept (n : ChannelNo) (r : BlockRecord) : s.PoolKept (s.trackingBoundary n r) := by
  by_cases ends : (s.channel n).governing.tracking = true ∧ r.adapt = true ∧ 63 ≤ (s.channel n).trackCount
  · obtain ⟨tracking, adapt, full⟩ := ends
    rw [trackingBoundary_of_ends tracking adapt full]
    exact .trans (t := s.modChannel n ({ · with trackCount := 0 })) (.of_segments rfl rfl rfl rfl rfl)
      (periodEnd_poolKept n)
  · exact .of_segments (by simp) (by simp) (by simp) (by simp) (trackingBoundary_of_not_ends ends).1

theorem decisions_poolKept (n : ChannelNo) : s.PoolKept (s.decisions n) := by
  have weights : s.PoolKept (s.refreshWeights n) :=
    modSegments_poolKept (f := Segment.refresh) (fun _ => rfl) chained_of_mem_channelChain
  obtain ⟨u, kept, segments, -, -⟩ := decisions_tracks s n
  have segmentsKept := weights.trans (u := { s.refreshWeights n with segments := u.segments })
    (.of_segments rfl rfl rfl rfl kept.segments)
  have tracked : u.PoolKept (u.trackingBoundary n (s.channel n).measured) := trackingBoundary_poolKept n _
  refine ⟨by simp, by simp, by simp, by simp, fun g => ?_, fun g apart => ?_⟩
  · rw [segment_congr segments, tracked.delays, segment_congr kept.segments, weights.delays]
  · have chains (c : ChainCode) : u.chain c = s.chain c :=
      (chain_congr kept.chains c).trans (chain_congr weights.chains c)
    rw [segment_congr segments, tracked.outside g fun c => by rw [chains]; exact apart c,
      segment_congr kept.segments, weights.outside g apart]

theorem boundary_poolKept (n : ChannelNo) : s.PoolKept (s.boundary n) := by
  have decided : s.PoolKept (if (s.channel n).governing.mode = .off then s else s.decisions n) := by
    split
    · exact .refl s
    · exact decisions_poolKept n
  unfold State.boundary
  split
  · exact decided.trans (.of_segments (by simp [State.boundaryWork]) (by simp [State.boundaryWork])
      (by simp [State.boundaryWork]) (by simp [State.boundaryWork]) (by simp [State.boundaryWork]))
  · exact .refl s

/-! ### The WRITE to COEFF (R167) and the end of a clear (R65) -/

theorem startDelay_storeTaps (index : Nat) (data : List Word) (s : State) (g : SegNo) :
    ((storeTaps index data s).segment g).startDelay = (s.segment g).startDelay := (storeTaps_keeps g data index s).1

theorem writeCoeff_poolKept (p : Plane) (index count : Nat) (data : List Word) :
    s.PoolKept (s.writeCoeff p index count data).1 := by
  unfold State.writeCoeff
  dsimp only
  split
  · exact .refl s
  · next accepted =>
    have chained : ∀ g ∈ coeffSegments index count, ∃ c, g ∈ s.chain c := by
      intro g touched
      have check := List.findSome?_eq_none_iff.1 accepted g touched
      unfold State.checkCoeff at check
      cases place : s.place g with
      | chain c => exact ⟨c, mem_chain_of_place place⟩
      | free | transit => rw [place] at check; cases check
    have stored : s.PoolKept (storeTaps index ((data ++ List.replicate count 0).take count) s) := by
      refine ⟨by simp, by simp, by simp, by simp, startDelay_storeTaps index _ s, fun g apart => ?_⟩
      refine segment_storeTaps_of_apart (fun j inside same => ?_) s
      have : j < count := by simpa using inside
      obtain ⟨c, member⟩ := chained g (mem_coeffSegments.2 ⟨by omega, by omega⟩)
      exact apart c member
    dsimp only
    refine stored.trans (modSegments_poolKept (f := Segment.refresh) (fun _ => rfl) fun g touched => ?_)
    obtain ⟨c, member⟩ := chained g touched
    exact ⟨c, by rw [chain_congr stored.chains]; exact member⟩

theorem clearEnd_poolKept : s.PoolKept s.clearEnd := by
  unfold State.clearEnd
  split
  · exact .refl s
  · next k _ =>
    have ended : s.PoolKept (s.endClear k) := by
      unfold State.endClear
      dsimp only
      split
      · next chained =>
        refine .trans (modSegments_poolKept (l := [k.segment]) (f := Segment.zero) (fun _ => rfl) fun g member => ?_)
          (.of_segments rfl rfl rfl rfl rfl)
        exact ⟨k.list, by rw [List.mem_singleton.1 member]; exact chained⟩
      · exact .of_segments rfl rfl rfl rfl rfl
    exact ended.trans (.of_segments (by simp) (by simp) (by simp) (by simp) (by simp))

/-! ### All commands but LC's -/

theorem taken_poolKept (p : Plane) (a : Args) (code : CommandCode) : s.PoolKept (s.taken p a code) := by
  cases code <;> exact .of_segments (by simp [State.taken]) (by simp [State.taken]) (by simp [State.taken])
    (by simp [State.taken]) (by simp [State.taken])

theorem PoolKept_offLinks (s : State) : OffLinks s.PoolKept :=
  fun _ _ _ _ h => h.trans (.of_segments (by simp) (by simp) (by simp) (by simp) (by simp))

theorem modQueue_poolKept (p : Plane) (f : Queue → Queue) : s.PoolKept (s.modQueue p f) :=
  .of_segments (by simp) (by simp) (by simp) (by simp) (by simp)

theorem effect_poolKept {c : Instr} (apart : changesLists c = false) (s : State) : s.PoolKept (s.effect c) := by
  cases c
  case samplePairArrival n rin sin => exact arrival_poolKept n rin sin
  case blockBoundary n => exact boundary_poolKept n
  case segmentClearEnd => exact clearEnd_poolKept
  case purge | suspend | resume | claim | unclaim | seize | restart =>
    simp only [State.effect]
    exact taken_poolKept _ _ _
  case command p code a =>
    cases known : commandOfCode code <;> simp only [State.effect, known, Option.map_none, Option.map_some, Option.getD_none,
      Option.getD_some]
    · exact .refl s
    · exact taken_poolKept p a _
  case writeChannelConfig p index count data | writeCoeff p index count data | write p space index count data =>
    exact writeRequest_keeps (.refl s) (.of_segments (by simp) (by simp) (by simp) (by simp) (by simp))
      (writeCoeff_poolKept p _ _ data)
  case takeEvents p n =>
    simp only [State.effect]
    obtain h | ⟨m, h⟩ := takeEventsRequest_queue s p n <;> rw [h]
    · exact .refl s
    · exact modQueue_poolKept p _
  case setTrigger p level =>
    simp only [State.effect]
    obtain h | ⟨-, -, h⟩ := setTriggerRequest_queue s p level <;> rw [h]
    · exact .refl s
    · exact modQueue_poolKept p _
  case linkReset p =>
    exact .of_segments (by simp [State.effect, State.linkResetRequest]) (by simp [State.effect, State.linkResetRequest])
      (by simp [State.effect, State.linkResetRequest]) (by simp [State.effect, State.linkResetRequest])
      (by simp [State.effect, State.linkResetRequest])
  case read | status | replyFrame | badFrame | allocate | release | move | swap | empty => exact .refl s
  case syncPulse | missedSync | stampTick | gatherTimerExpiry | suspendTimerExpiry | quietTimerExpiry |
      transparentTimeslot =>
    exact .of_segments (by simp [State.effect]) (by simp [State.effect]) (by simp [State.effect])
      (by simp [State.effect]) (by simp [State.effect])
  all_goals exact absurd apart Bool.noConfusion

/-- A command that is no event of LC and no power-on reset keeps the pool but for the records of chained segments. -/
theorem exec_poolKept {c : Instr} (apart : changesLists c = false) (answer : exec c s = .next t) : s.PoolKept t :=
  exec_keeps (PoolKept_offLinks s) (.refl s) (fun u h => h.trans (effect_poolKept apart u)) answer

end Sys2Proof.Machine
end

section
/-! SUPPORT. The List Controller's takes and links by their cases (R39 to R54): which checks passed when a take goes on, what a
take that is refused does, and what the event that completes a command leaves. -/

namespace Sys2Proof.Machine

variable {s t : State} {p : Plane} {a : Args} {c : ChainCode} {g : SegNo}

/-! ### Conditions the checks read -/

theorem holds_iff : s.holds p c = true ↔ s.holder c = some p := decide_eq_true_iff

theorem overlaps_iff (d e : Nat) : overlaps d e = true ↔ d < e + 64 ∧ e < d + 64 := by simp [overlaps]

theorem goodDelay_iff (d : Nat) : goodDelay d = true ↔ d % 8 = 0 ∧ d ≤ 1984 := by
  unfold goodDelay Config.maxDelay
  rw [Bool.and_eq_true, decide_eq_true_iff, decide_eq_true_iff]

theorem overlapsChain_none_iff {d : Nat} :
    s.overlapsChain c d none = true ↔ ∃ g ∈ s.chain c, s.delay g < d + 64 ∧ d < s.delay g + 64 := by
  simp [State.overlapsChain, overlaps, and_comm]

theorem overlapsChain_some_iff {d : Nat} :
    s.overlapsChain c d (some g) = true ↔ ∃ h ∈ s.chain c, h ≠ g ∧ s.delay h < d + 64 ∧ d < s.delay h + 64 := by
  simp [State.overlapsChain, overlaps, and_comm]

/-! ### Which checks passed (R47, R49, R50, R52, R53) -/

theorem allocateCheck_ok_iff : s.allocateCheck p a = .ok (c, g) ↔
    argChain a = some c ∧ s.holder c = some p ∧ s.inPurge c = false ∧ s.Fits c (argDelay a) ∧ s.free.head? = some g := by
  unfold State.allocateCheck State.Fits
  cases argChain a with
  | none => simp
  | some d =>
    simp only [Option.some.injEq, Bool.not_eq_true', ← Bool.not_eq_true, holds_iff, goodDelay_iff]
    constructor
    · intro ok
      split_ifs at ok with h1 h2 h3 h4 h5
      cases free : s.free with
      | nil => simp [free] at ok
      | cons x rest =>
        simp only [free, Except.ok.injEq, Prod.mk.injEq] at ok
        obtain ⟨rfl, rfl⟩ := ok
        have apart : ∀ h ∈ s.chain d, ¬overlaps (argDelay a) (s.delay h) = true := by
          intro h member both
          rw [overlaps_iff] at both
          exact h5 (overlapsChain_none_iff.2 ⟨h, member, both.2, both.1⟩)
        exact ⟨rfl, h1, h2, ⟨h4, Nat.lt_of_not_le h3, apart⟩, rfl⟩
    · rintro ⟨rfl, held, outside, ⟨good, short, apart⟩, first⟩
      have clear : ¬s.overlapsChain d (argDelay a) none = true := by
        rw [overlapsChain_none_iff]
        rintro ⟨h, member, both⟩
        exact apart h member ((overlaps_iff _ _).2 ⟨both.2, both.1⟩)
      rw [if_neg (by simpa using held), if_neg outside, if_neg (by omega), if_neg (by simpa using good), if_neg clear]
      cases free : s.free with
      | nil => simp [free] at first
      | cons x rest =>
        obtain rfl : x = g := by simpa [free] using first
        rfl

theorem releaseCheck_ok_iff : s.releaseCheck p a = .ok (c, g) ↔
    argSegment a = some g ∧ s.place g = .chain c ∧ s.holder c = some p ∧ s.inPurge c = false := by
  unfold State.releaseCheck
  cases argSegment a with
  | none => simp
  | some h =>
    simp only [Option.some.injEq]
    cases place : s.place h with
    | free | transit =>
      simp only [reduceCtorEq, false_iff]
      rintro ⟨rfl, same, -⟩
      simp [place] at same
    | chain d =>
      simp only [Bool.not_eq_true', ← Bool.not_eq_true, holds_iff]
      constructor
      · intro ok
        split_ifs at ok with h1 h2
        simp only [Except.ok.injEq, Prod.mk.injEq] at ok
        obtain ⟨rfl, rfl⟩ := ok
        exact ⟨rfl, place, h1, h2⟩
      · rintro ⟨rfl, same, held, outside⟩
        obtain rfl : d = c := by simpa [place] using same
        rw [if_neg (by simpa using held), if_neg outside]

theorem moveCheck_ok_iff {d : ChainCode} : s.moveCheck p a = .ok (c, g, d) ↔
    argSegment a = some g ∧ s.place g = .chain c ∧ argTarget a = some d ∧ s.holder c = some p ∧ s.holder d = some p ∧
      s.inPurge c = false ∧ s.inPurge d = false ∧ (d ≠ c → (s.chain d).length < 16) ∧ goodDelay (argDelay a) = true ∧
      ∀ h ∈ s.chain d, h ≠ g → overlaps (argDelay a) (s.delay h) = false := by
  unfold State.moveCheck
  cases argSegment a with
  | none => simp
  | some x =>
    simp only [Option.some.injEq]
    cases place : s.place x with
    | free | transit =>
      simp only [reduceCtorEq, false_iff]
      rintro ⟨rfl, same, -⟩
      simp [place] at same
    | chain e =>
      cases argTarget a with
      | none => simp
      | some f =>
        simp only [Bool.not_eq_true', ← Bool.not_eq_true, Bool.and_eq_true, Bool.or_eq_true, holds_iff,
          Option.some.injEq, Config.maxChain]
        constructor
        · intro ok
          split_ifs at ok with h1 h2 h3 h4 h5
          simp only [Except.ok.injEq, Prod.mk.injEq] at ok
          obtain ⟨rfl, rfl, rfl⟩ := ok
          refine ⟨rfl, place, rfl, h1.1, h1.2, fun h => h2 (.inl h), fun h => h2 (.inr h), fun ne => ?_,
            h4, fun h member ne both => ?_⟩
          · exact Nat.lt_of_not_le fun full => h3 ⟨ne, full⟩
          · rw [overlaps_iff] at both
            exact h5 (overlapsChain_some_iff.2 ⟨h, member, ne, both.2, both.1⟩)
        · rintro ⟨rfl, same, rfl, held, target, outside, outsideTarget, short, good, apart⟩
          obtain rfl : e = c := by simpa [place] using same
          have clear : ¬s.overlapsChain f (argDelay a) (some x) = true := by
            rw [overlapsChain_some_iff]
            rintro ⟨h, member, ne, both⟩
            exact apart h member ne ((overlaps_iff _ _).2 ⟨both.2, both.1⟩)
          rw [if_neg (by simp [held, target]), if_neg (by simp [outside, outsideTarget]),
            if_neg (fun full => absurd (short full.1) (by omega)), if_neg (by simpa using good), if_neg clear]

theorem swapCheck_ok_iff {n : ChannelNo} {w : ChainCode} : s.swapCheck p a = .ok (n, w) ↔
    argChannel a = some n ∧ argWorkList a = some w ∧ s.holder (channelCode n) = some p ∧ s.holder w = some p ∧
      s.inPurge (channelCode n) = false ∧ s.inPurge w = false := by
  unfold State.swapCheck
  cases argChannel a with
  | none => simp
  | some m =>
    cases argWorkList a with
    | none => simp
    | some v =>
      simp only [Bool.not_eq_true', ← Bool.not_eq_true, Bool.and_eq_true, Bool.or_eq_true, holds_iff, Option.some.injEq]
      constructor
      · intro ok
        split_ifs at ok with h1 h2
        simp only [Except.ok.injEq, Prod.mk.injEq] at ok
        obtain ⟨rfl, rfl⟩ := ok
        exact ⟨rfl, rfl, h1.1, h1.2, fun h => h2 (.inl h), fun h => h2 (.inr h)⟩
      · rintro ⟨rfl, rfl, held, heldWork, outside, outsideWork⟩
        rw [if_neg (by simp [held, heldWork]), if_neg (by simp [outside, outsideWork])]

theorem emptyCheck_ok_iff : s.emptyCheck p a = .ok c ↔
    argChain a = some c ∧ s.holder c = some p ∧ s.inPurge c = false := by
  unfold State.emptyCheck
  cases argChain a with
  | none => simp
  | some d =>
    simp only [Bool.not_eq_true', ← Bool.not_eq_true, holds_iff, Option.some.injEq]
    constructor
    · intro ok
      split_ifs at ok with h1 h2
      obtain rfl := Except.ok.inj ok
      exact ⟨rfl, h1, h2⟩
    · rintro ⟨rfl, held, outside⟩
      rw [if_neg (by simpa using held), if_neg outside]

/-! ### A take (R39, R43) -/

/-- The state in which a take's own work begins: the arbiter position has moved to the panel (R43). -/
def State.takenFrom (s : State) (p : Plane) : State := { s with lc := { s.lc with arbiter := .panel p } }

theorem current_of_choice {r : Requester} (chosen : s.choice = some r) : s.lc.current = none := by
  unfold State.choice at chosen
  split at chosen
  · next free => exact Option.isNone_iff_eq_none.1 free
  · cases chosen

theorem takeCommand_cases (s : State) (code : CommandCode) (work : State → Plane → Args → State) :
    s.takeCommand code work = s ∨
      ∃ p a, s.Takes p code a ∧ s.takeCommand code work = work (s.takenFrom p) p a := by
  by_cases takes : ∃ p a, s.Takes p code a
  · obtain ⟨p, a, takes⟩ := takes
    exact .inr ⟨p, a, takes, takeCommand_of_takes takes work⟩
  · left
    unfold State.takeCommand
    split
    · next q chosen =>
      split
      · next w command =>
        split
        · next named => exact absurd ⟨q, w.args, chosen, by rw [command, ← named]⟩ takes
        · rfl
      · rfl
    · rfl
    · rfl

theorem refusedAtTake_eq (s : State) (p : Plane) (st : Status) :
    s.refusedAtTake p st = (s.takenFrom p).refuseTake p st := rfl

theorem allocateTakeWork_of_error {st : Status} (check : s.allocateCheck p a = .error st) :
    (s.takenFrom p).allocateTakeWork p a = s.refusedAtTake p st := by
  unfold State.allocateTakeWork
  rw [show (s.takenFrom p).allocateCheck p a = .error st from check]
  rfl

theorem allocateTakeWork_of_ok (check : s.allocateCheck p a = .ok (c, g)) :
    (s.takenFrom p).allocateTakeWork p a =
      { s with lc := s.lc.busy p (.allocate c (argDelay a)), free := s.free.tail, transit := some g }.modPanel p
        ({ · with state := .running, valid := true, status := some .ok, segment := some g }) := by
  obtain ⟨-, -, -, -, first⟩ := allocateCheck_ok_iff.1 check
  obtain ⟨rest, free⟩ := List.head?_eq_some_iff.1 first
  unfold State.allocateTakeWork
  rw [show (s.takenFrom p).allocateCheck p a = .ok (c, g) from check]
  simp only [State.startJob, modPanel_modPanel, State.unlinkFree, State.takenFrom, free, List.erase_cons_head,
    List.tail_cons]
  rfl

/-- A segment goes from its list into transit for a command that goes on (R28, R40). -/
def State.carried (s : State) (p : Plane) (c : ChainCode) (g : SegNo) (w : LcWork) : State :=
  { s with
    chains := s.chains.set c.val ((s.chain c).erase g), transit := some g, pge := s.pge.disturbed c,
    lc := s.lc.busy p w }.modPanel p ({ · with state := .running })

theorem unlink_startJob (s : State) (p : Plane) (c : ChainCode) (g : SegNo) (w : LcWork) :
    ((s.takenFrom p).unlink c g).startJob p w = s.carried p c g w := rfl

theorem releaseTakeWork_of_error {st : Status} (check : s.releaseCheck p a = .error st) :
    (s.takenFrom p).releaseTakeWork p a = s.refusedAtTake p st := by
  unfold State.releaseTakeWork
  rw [show (s.takenFrom p).releaseCheck p a = .error st from check]
  rfl

theorem releaseTakeWork_of_ok (check : s.releaseCheck p a = .ok (c, g)) :
    (s.takenFrom p).releaseTakeWork p a = s.carried p c g .release := by
  unfold State.releaseTakeWork
  rw [show (s.takenFrom p).releaseCheck p a = .ok (c, g) from check]
  exact unlink_startJob s p c g _

theorem moveTakeWork_of_error {st : Status} (check : s.moveCheck p a = .error st) :
    (s.takenFrom p).moveTakeWork p a = s.refusedAtTake p st := by
  unfold State.moveTakeWork
  rw [show (s.takenFrom p).moveCheck p a = .error st from check]
  rfl

theorem moveTakeWork_of_ok {d : ChainCode} (check : s.moveCheck p a = .ok (c, g, d)) :
    (s.takenFrom p).moveTakeWork p a = s.carried p c g (.move d (argDelay a)) := by
  unfold State.moveTakeWork
  rw [show (s.takenFrom p).moveCheck p a = .ok (c, g, d) from check]
  exact unlink_startJob s p c g _

theorem swapTakeWork_of_error {st : Status} (check : s.swapCheck p a = .error st) :
    (s.takenFrom p).swapTakeWork p a = s.refusedAtTake p st := by
  unfold State.swapTakeWork
  rw [show (s.takenFrom p).swapCheck p a = .error st from check]
  rfl

theorem swapTakeWork_of_ok {n : ChannelNo} {w : ChainCode} (check : s.swapCheck p a = .ok (n, w)) :
    (s.takenFrom p).swapTakeWork p a =
      (((s.takenFrom p).exchange (channelCode n) w).modChannel n (·.swapped)).modPanel p (·.complete .ok none) := by
  unfold State.swapTakeWork
  rw [show (s.takenFrom p).swapCheck p a = .ok (n, w) from check]

theorem emptyTakeWork_of_error {st : Status} (check : s.emptyCheck p a = .error st) :
    (s.takenFrom p).emptyTakeWork p a = s.refusedAtTake p st := by
  unfold State.emptyTakeWork
  rw [show (s.takenFrom p).emptyCheck p a = .error st from check]
  rfl

theorem emptyTakeWork_of_empty (check : s.emptyCheck p a = .ok c) (empty : s.chain c = []) :
    (s.takenFrom p).emptyTakeWork p a = (s.takenFrom p).modPanel p (·.complete .ok (some 0)) := by
  unfold State.emptyTakeWork
  rw [show (s.takenFrom p).emptyCheck p a = .ok c from check]
  dsimp only
  rw [show (s.takenFrom p).chain c = [] from empty]

theorem emptyTakeWork_of_cons {rest : List SegNo} (check : s.emptyCheck p a = .ok c) (filled : s.chain c = g :: rest) :
    (s.takenFrom p).emptyTakeWork p a = s.carried p c g (.empty c (rest.length + 1)) := by
  unfold State.emptyTakeWork
  rw [show (s.takenFrom p).emptyCheck p a = .ok c from check]
  dsimp only
  rw [show (s.takenFrom p).chain c = g :: rest from filled]
  exact unlink_startJob s p c g _

/-! ### A link -/

theorem allocateLinkWork_of_job {d : Nat} {i : Requester}
    (current : s.lc.current = some { work := .allocate c d, issuer := i }) (carried : s.transit = some g) :
    s.allocateLinkWork = (s.link c g d false).completeJob ({ · with state := .idle }) := by
  unfold State.allocateLinkWork
  rw [current, carried]
  rfl

theorem releaseLinkWork_of_job {i : Requester} (current : s.lc.current = some { work := .release, issuer := i })
    (carried : s.transit = some g) : s.releaseLinkWork = (s.linkFree g).completeJob (·.complete .ok none) := by
  unfold State.releaseLinkWork
  rw [current, carried]
  rfl

/-- The segment that a MOVE links: zeroed when its start delay changes, its vacancy count 0 in every case (R51). -/
def State.moved (s : State) (c : ChainCode) (g : SegNo) (d : Nat) : State :=
  (s.link c g d (decide ((s.segment g).startDelay ≠ some d))).modSegment g ({ · with vacancy := 0 })

theorem moveLinkWork_of_job {d : Nat} {i : Requester}
    (current : s.lc.current = some { work := .move c d, issuer := i }) (carried : s.transit = some g) :
    s.moveLinkWork = (s.moved c g d).completeJob (·.complete .ok none) := by
  unfold State.moveLinkWork
  rw [current, carried]
  rfl

theorem emptyLinkWork_of_job {k : Nat} {i : Requester}
    (current : s.lc.current = some { work := .empty c k, issuer := i }) (carried : s.transit = some g) :
    s.emptyLinkWork =
      if s.chain c = [] then (s.linkFree g).completeJob (·.complete .ok (some k)) else s.linkFree g := by
  unfold State.emptyLinkWork
  rw [current, carried]
  simp only [Option.map_some, List.isEmpty_iff]

theorem emptyUnlinkWork_of_job {k : Nat} {i : Requester} {rest : List SegNo}
    (current : s.lc.current = some { work := .empty c k, issuer := i }) (idle : s.transit = none)
    (filled : s.chain c = g :: rest) : s.emptyUnlinkWork = s.unlink c g := by
  unfold State.emptyUnlinkWork
  rw [current, idle]
  simp only [Option.map_some, filled]

/-- What the event that completes a panel's command does besides its link: LC is FREE, and unless the command is detached
the panel's result is posted (R39, R40, R58). -/
structure State.JobCompletes (s t : State) (p : Plane) (post : Panel → Panel) : Prop where
  rest : t = { s with lc := s.lc.freed, portA := t.portA, portB := t.portB }
  other : t.port p.other = s.port p.other
  posted : s.lc.detached = false → t.port p = { s.port p with panel := post (s.port p).panel }
  detached : s.lc.detached = true → t.port p = s.port p

theorem completeJob_completes {w : LcWork} (current : s.lc.current = some { work := w, issuer := .panel p })
    (post : Panel → Panel) : s.JobCompletes (s.completeJob post) p post := by
  rw [completeJob_panel s p w post current]
  cases detached : s.lc.detached
  · exact ⟨by cases p <;> rfl, by cases p <;> rfl, fun _ => by cases p <;> rfl, fun h => absurd (detached.symm.trans h) (by decide)⟩
  · exact ⟨rfl, by cases p <;> rfl, fun h => absurd (detached.symm.trans h) (by decide), fun _ => by cases p <;> rfl⟩

theorem State.LinkedAt.congr {u : State} {d : Nat} (linked : s.LinkedAt t c g d) (chains : u.chains = t.chains) :
    s.LinkedAt u c g d := by
  obtain ⟨before, after, split, placed, low, high, others⟩ := linked
  exact ⟨before, after, split, by rw [chain_congr chains, placed], low, high,
    fun e ne => by rw [chain_congr chains, others e ne]⟩

theorem segment_link (s : State) (c : ChainCode) (g : SegNo) (d : Nat) (zeroing : Bool) :
    (s.link c g d zeroing).segment g =
      { (if zeroing then (s.segment g).zero else s.segment g) with startDelay := some d } := by
  rw [link_eq]
  simp [State.segment]

theorem segment_link_ne {h : SegNo} (ne : h ≠ g) (s : State) (c : ChainCode) (d : Nat) (zeroing : Bool) :
    (s.link c g d zeroing).segment h = s.segment h := by
  have : g.val ≠ h.val := fun e => ne (Fin.ext e.symm)
  rw [link_eq]
  simp [State.segment, this]

theorem linkFree_eq (s : State) (g : SegNo) :
    s.linkFree g = { s with
      free := s.free ++ [g], transit := none, segments := s.segments.set g.val Segment.free } := rfl

theorem segment_linkFree (s : State) (g : SegNo) : (s.linkFree g).segment g = Segment.free := by
  rw [linkFree_eq]
  simp [State.segment]

theorem segment_linkFree_ne {h : SegNo} (ne : h ≠ g) (s : State) : (s.linkFree g).segment h = s.segment h := by
  have : g.val ≠ h.val := fun e => ne (Fin.ext e.symm)
  rw [linkFree_eq]
  simp [State.segment, this]

end Sys2Proof.Machine
end

section
/-! PROOF. The arbiter's choice by its position (R42, R43). -/

namespace Sys2Proof.Machine

theorem waiting_panel_iff (s : State) (p : Plane) :
    s.waiting (.panel p) = true ↔ (s.port p).panel.state = .pending := decide_eq_true_iff

theorem waiting_relocation_iff (s : State) : s.waiting .relocation = true ↔ s.relocation ≠ [] := by
  simp [State.waiting]

theorem choice_of_busy {s : State} (busy : s.lc.current ≠ none) : s.choice = none := by
  unfold State.choice State.lcFree
  rw [if_neg (by simpa using busy)]

theorem choice_of_free {s : State} (free : s.lc.current = none) :
    s.choice = (rotation s.lc.arbiter).find? s.waiting := by
  unfold State.choice State.lcFree
  rw [if_pos (by simp [free])]

/-- The choice of a FREE LC is the first of the three requesters in the rotation that waits. -/
theorem choice_of_rotation {s : State} {x y z : Requester} (free : s.lc.current = none)
    (order : rotation s.lc.arbiter = [x, y, z]) :
    (s.waiting x = true → s.choice = some x) ∧ (¬s.waiting x = true → s.waiting y = true → s.choice = some y) ∧
      (¬s.waiting x = true → ¬s.waiting y = true → s.waiting z = true → s.choice = some z) := by
  rw [choice_of_free free, order]
  refine ⟨fun hx => ?_, fun hx hy => ?_, fun hx hy hz => ?_⟩ <;> simp_all [List.find?]

/-- Settles O24: by LC's state, and with LC FREE by the rotation from each position. -/
theorem arbiterRotation : Obligations.ArbiterRotation := by
  unfold Obligations.ArbiterRotation
  intro s
  have a : s.portA.panel.state = .pending ↔ s.waiting (.panel .a) = true := (waiting_panel_iff s .a).symm
  have b : s.portB.panel.state = .pending ↔ s.waiting (.panel .b) = true := (waiting_panel_iff s .b).symm
  simp only [a, b, ← waiting_relocation_iff s]
  refine ⟨choice_of_busy, fun ha hb hr => ?_, fun free => ⟨fun at_ => ?_, fun at_ => ?_, fun at_ => ?_⟩⟩
  · by_cases free : s.lc.current = none
    · rw [choice_of_free free, List.find?_eq_none]
      rintro (⟨_ | _⟩ | _) - <;> assumption
    · exact choice_of_busy free
  all_goals exact choice_of_rotation free (by rw [at_]; rfl)

end Sys2Proof.Machine
end

section
/-! PROOF. The refusals of the five list commands at their take, in the order of the checks (R39, R47, R49, R50, R52, R53). -/

namespace Sys2Proof.Machine

variable {s : State} {p : Plane} {a : Args} {st : Status}

/-! ### A refused take -/

theorem exec_allocateTake_of_error (takes : s.Takes p .allocate a) (check : s.allocateCheck p a = .error st) :
    exec .allocateTake s = .next (s.refusedAtTake p st) :=
  congrArg Host.Outcome.next ((takeCommand_of_takes takes _).trans (allocateTakeWork_of_error check))

theorem exec_releaseTake_of_error (takes : s.Takes p .release a) (check : s.releaseCheck p a = .error st) :
    exec .releaseTake s = .next (s.refusedAtTake p st) :=
  congrArg Host.Outcome.next ((takeCommand_of_takes takes _).trans (releaseTakeWork_of_error check))

theorem exec_moveTake_of_error (takes : s.Takes p .move a) (check : s.moveCheck p a = .error st) :
    exec .moveTake s = .next (s.refusedAtTake p st) :=
  congrArg Host.Outcome.next ((takeCommand_of_takes takes _).trans (moveTakeWork_of_error check))

theorem exec_swapTake_of_error (takes : s.Takes p .swap a) (check : s.swapCheck p a = .error st) :
    exec .swapTake s = .next (s.refusedAtTake p st) :=
  congrArg Host.Outcome.next ((takeCommand_of_takes takes _).trans (swapTakeWork_of_error check))

theorem exec_emptyTake_of_error (takes : s.Takes p .empty a) (check : s.emptyCheck p a = .error st) :
    exec .emptyTake s = .next (s.refusedAtTake p st) :=
  congrArg Host.Outcome.next ((takeCommand_of_takes takes _).trans (emptyTakeWork_of_error check))

/-! ### The checks of each command -/

theorem allocateCheck_refusals (s : State) (p : Plane) (a : Args) :
    (argChain a = none → s.allocateCheck p a = .error .badList) ∧
    ∀ c, argChain a = some c →
      (s.holder c ≠ some p → s.allocateCheck p a = .error .notHolder) ∧
      (s.holder c = some p →
        (s.inPurge c = true → s.allocateCheck p a = .error .inPurge) ∧
        (s.inPurge c = false →
          (16 ≤ (s.chain c).length → s.allocateCheck p a = .error .chainFull) ∧
          ((s.chain c).length < 16 →
            (argDelay a % 8 ≠ 0 ∨ 1984 < argDelay a → s.allocateCheck p a = .error .badDelay) ∧
            (argDelay a % 8 = 0 → argDelay a ≤ 1984 →
              ((∃ g ∈ s.chain c, s.delay g < argDelay a + 64 ∧ argDelay a < s.delay g + 64) →
                s.allocateCheck p a = .error .overlap) ∧
              ((∀ g ∈ s.chain c, s.delay g + 64 ≤ argDelay a ∨ argDelay a + 64 ≤ s.delay g) → s.free = [] →
                s.allocateCheck p a = .error .empty))))) := by
  refine ⟨fun none => by simp [State.allocateCheck, none], fun c list => ?_⟩
  simp only [State.allocateCheck, list, Config.maxChain, Bool.not_eq_true', ← Bool.not_eq_true, holds_iff, goodDelay_iff,
    overlapsChain_none_iff]
  refine ⟨fun other => if_pos other, fun held => ?_⟩
  rw [if_neg (not_not.2 held)]
  refine ⟨fun inside => if_pos inside, fun outside => ?_⟩
  rw [if_neg outside]
  refine ⟨fun full => if_pos full, fun short => ?_⟩
  rw [if_neg (by omega)]
  refine ⟨fun bad => if_pos (by omega), fun multiple small => ?_⟩
  rw [if_neg (not_not.2 ⟨multiple, small⟩)]
  refine ⟨fun overlap => if_pos overlap, fun apart none => ?_⟩
  rw [if_neg, none]
  rintro ⟨g, member, low, high⟩
  have := apart g member
  omega

theorem swapCheck_refusals (s : State) (p : Plane) (a : Args) :
    (argChannel a = none ∨ argWorkList a = none → s.swapCheck p a = .error .badList) ∧
    ∀ n w, argChannel a = some n → argWorkList a = some w →
      (s.holder (channelCode n) ≠ some p ∨ s.holder w ≠ some p → s.swapCheck p a = .error .notHolder) ∧
      (s.holder (channelCode n) = some p → s.holder w = some p →
        s.inPurge (channelCode n) = true ∨ s.inPurge w = true → s.swapCheck p a = .error .inPurge) := by
  constructor
  · unfold State.swapCheck
    cases argChannel a <;> cases argWorkList a <;> simp
  · intro n w channel work
    simp only [State.swapCheck, channel, work, Bool.not_eq_true', ← Bool.not_eq_true, Bool.and_eq_true, Bool.or_eq_true,
      holds_iff]
    exact ⟨fun other => if_pos (by tauto), fun held heldWork inside => by
      rw [if_neg (not_not.2 ⟨held, heldWork⟩), if_pos inside]⟩

theorem emptyCheck_refusals (s : State) (p : Plane) (a : Args) :
    (argChain a = none → s.emptyCheck p a = .error .badList) ∧
    ∀ c, argChain a = some c →
      (s.holder c ≠ some p → s.emptyCheck p a = .error .notHolder) ∧
      (s.holder c = some p → s.inPurge c = true → s.emptyCheck p a = .error .inPurge) := by
  refine ⟨fun none => by simp [State.emptyCheck, none], fun c list => ?_⟩
  simp only [State.emptyCheck, list, Bool.not_eq_true', ← Bool.not_eq_true, holds_iff]
  exact ⟨fun other => if_pos other, fun held inside => by rw [if_neg (not_not.2 held), if_pos inside]⟩

theorem releaseCheck_refusals (pool : s.PoolInv) (p : Plane) (a : Args) :
    (argSegment a = none → s.releaseCheck p a = .error .badSegment) ∧
    ∀ g, argSegment a = some g →
      (g ∈ s.free → s.releaseCheck p a = .error .badSegment) ∧
      ∀ c, g ∈ s.chain c →
        (s.holder c ≠ some p → s.releaseCheck p a = .error .notHolder) ∧
        (s.holder c = some p → s.inPurge c = true → s.releaseCheck p a = .error .inPurge) := by
  refine ⟨fun none => by simp [State.releaseCheck, none], fun g segment => ⟨fun free => ?_, fun c member => ?_⟩⟩
  · simp only [State.releaseCheck, segment, pool.place_of_mem_free free]
  · simp only [State.releaseCheck, segment, pool.place_of_mem_chain member, Bool.not_eq_true', ← Bool.not_eq_true,
      holds_iff]
    exact ⟨fun other => if_pos other, fun held inside => by rw [if_neg (not_not.2 held), if_pos inside]⟩

theorem moveCheck_refusals (pool : s.PoolInv) (p : Plane) (a : Args) :
    (argSegment a = none → s.moveCheck p a = .error .badSegment) ∧
    ∀ g, argSegment a = some g →
      (g ∈ s.free → s.moveCheck p a = .error .badSegment) ∧
      ∀ c, g ∈ s.chain c →
        (argTarget a = none → s.moveCheck p a = .error .badList) ∧
        ∀ t, argTarget a = some t →
          (s.holder c ≠ some p ∨ s.holder t ≠ some p → s.moveCheck p a = .error .notHolder) ∧
          (s.holder c = some p → s.holder t = some p →
            (s.inPurge c = true ∨ s.inPurge t = true → s.moveCheck p a = .error .inPurge) ∧
            (s.inPurge c = false → s.inPurge t = false →
              (t ≠ c → 16 ≤ (s.chain t).length → s.moveCheck p a = .error .chainFull) ∧
              (t = c ∨ (s.chain t).length < 16 →
                (argDelay a % 8 ≠ 0 ∨ 1984 < argDelay a → s.moveCheck p a = .error .badDelay) ∧
                (argDelay a % 8 = 0 → argDelay a ≤ 1984 →
                  (∃ h ∈ s.chain t, h ≠ g ∧ s.delay h < argDelay a + 64 ∧ argDelay a < s.delay h + 64) →
                  s.moveCheck p a = .error .overlap)))) := by
  refine ⟨fun none => by simp [State.moveCheck, none], fun g segment => ⟨fun free => ?_, fun c member => ?_⟩⟩
  · simp only [State.moveCheck, segment, pool.place_of_mem_free free]
  simp only [State.moveCheck, segment, pool.place_of_mem_chain member]
  refine ⟨fun none => by simp only [none], fun t target => ?_⟩
  simp only [target, Config.maxChain, Bool.not_eq_true', ← Bool.not_eq_true, Bool.and_eq_true, Bool.or_eq_true, holds_iff,
    goodDelay_iff, overlapsChain_some_iff]
  refine ⟨fun other => if_pos (by tauto), fun held heldTarget => ?_⟩
  rw [if_neg (not_not.2 ⟨held, heldTarget⟩)]
  refine ⟨fun inside => if_pos inside, fun outside outsideTarget => ?_⟩
  rw [if_neg (by tauto)]
  refine ⟨fun other full => if_pos ⟨other, full⟩, fun room => ?_⟩
  rw [if_neg fun full => room.elim full.1 fun short => by omega]
  refine ⟨fun bad => if_pos (by omega), fun multiple small overlap => ?_⟩
  rw [if_neg (not_not.2 ⟨multiple, small⟩), if_pos overlap]

/-- Settles O25: every check that fails is the command's refusal, and a refusal posts itself and nothing else. -/
theorem refusalsAtTake : Obligations.RefusalsAtTake := by
  unfold Obligations.RefusalsAtTake
  refine ⟨fun s p a => ⟨fun takes => ?_, fun takes => ?_, fun takes => ?_⟩,
    fun s p a pool => ⟨fun takes => ?_, fun takes => ?_⟩⟩
  · have refused {st} := exec_allocateTake_of_error (st := st) takes
    obtain ⟨none, some⟩ := allocateCheck_refusals s p a
    refine ⟨fun h => refused (none h), fun c list => ?_⟩
    obtain ⟨holder, rest⟩ := some c list
    refine ⟨fun h => refused (holder h), fun held => ⟨fun h => refused ((rest held).1 h), fun outside => ?_⟩⟩
    obtain ⟨full, rest⟩ := (rest held).2 outside
    refine ⟨fun h => refused (full h), fun short => ⟨fun h => refused ((rest short).1 h), fun multiple small => ?_⟩⟩
    obtain ⟨overlap, empty⟩ := (rest short).2 multiple small
    exact ⟨fun h => refused (overlap h), fun apart h => refused (empty apart h)⟩
  · have refused {st} := exec_swapTake_of_error (st := st) takes
    obtain ⟨none, some⟩ := swapCheck_refusals s p a
    refine ⟨fun h => refused (none h), fun n w channel work => ?_⟩
    obtain ⟨holder, inside⟩ := some n w channel work
    exact ⟨fun h => refused (holder h), fun held heldWork h => refused (inside held heldWork h)⟩
  · have refused {st} := exec_emptyTake_of_error (st := st) takes
    obtain ⟨none, some⟩ := emptyCheck_refusals s p a
    refine ⟨fun h => refused (none h), fun c list => ?_⟩
    obtain ⟨holder, inside⟩ := some c list
    exact ⟨fun h => refused (holder h), fun held h => refused (inside held h)⟩
  · have refused {st} := exec_releaseTake_of_error (st := st) takes
    obtain ⟨none, some⟩ := releaseCheck_refusals pool p a
    refine ⟨fun h => refused (none h), fun g segment => ⟨fun free => refused ((some g segment).1 free), fun c member => ?_⟩⟩
    obtain ⟨holder, inside⟩ := (some g segment).2 c member
    exact ⟨fun h => refused (holder h), fun held h => refused (inside held h)⟩
  · have refused {st} := exec_moveTake_of_error (st := st) takes
    obtain ⟨none, some⟩ := moveCheck_refusals pool p a
    refine ⟨fun h => refused (none h), fun g segment => ⟨fun free => refused ((some g segment).1 free), fun c member => ?_⟩⟩
    obtain ⟨badList, rest⟩ := (some g segment).2 c member
    refine ⟨fun h => refused (badList h), fun t target => ?_⟩
    obtain ⟨holder, rest⟩ := rest t target
    refine ⟨fun h => refused (holder h), fun held heldTarget => ?_⟩
    obtain ⟨inside, rest⟩ := rest held heldTarget
    refine ⟨fun h => refused (inside h), fun outside outsideTarget => ?_⟩
    obtain ⟨full, rest⟩ := rest outside outsideTarget
    refine ⟨fun other h => refused (full other h), fun room => ?_⟩
    obtain ⟨delay, overlap⟩ := rest room
    exact ⟨fun h => refused (delay h), fun multiple small h => refused (overlap multiple small h)⟩

end Sys2Proof.Machine
end

section
/-! PROOF. The events of ALLOCATE, RELEASE, MOVE, SWAP and EMPTY that pass their checks (R28 to R31, R47 to R54, R58). -/

namespace Sys2Proof.Machine

variable {s : State} {p : Plane} {a : Args} {c : ChainCode} {g : SegNo}

/-! ### ALLOCATE (R48) -/

/-- Settles O26: the take by its check, the link by the closed form of a completed link. -/
theorem allocateEvents : Obligations.AllocateEvents := by
  unfold Obligations.AllocateEvents
  refine ⟨fun s p a c g rest takes list held outside fits free => ?_, fun s p c d g current carried => ?_⟩
  · have check : s.allocateCheck p a = .ok (c, g) :=
      allocateCheck_ok_iff.2 ⟨list, held, outside, fits, by rw [free]; rfl⟩
    have taken := (takeCommand_of_takes takes _).trans (allocateTakeWork_of_ok check)
    rw [free] at taken
    exact congrArg Host.Outcome.next taken
  · have done := completeJob_completes (s := s.link c g d false) (p := p) (w := .allocate c d) (by simpa using current)
      ({ · with state := .idle })
    refine ⟨_, congrArg Host.Outcome.next (allocateLinkWork_of_job current carried),
      (linkedAt_link s c g d false).congr (by simp), ?_, fun h ne => ?_, ?_, ?_, fun h => ?_, fun h => ?_⟩
    · rw [segment_congr (completeJob_frame ..).2.2.1, segment_link]; rfl
    · rw [segment_congr (completeJob_frame ..).2.2.1, segment_link_ne ne]
    · refine done.rest.trans ?_
      simp only [completeJob_frame]
      rfl
    · exact done.other
    · exact done.posted h
    · exact done.detached h

/-! ### RELEASE and MOVE (R49, R51) -/

/-- Settles O27: both takes carry the segment out of the list that the pool's invariant places it in. -/
theorem releaseTakeAndMoveTake : Obligations.ReleaseTakeAndMoveTake := by
  unfold Obligations.ReleaseTakeAndMoveTake
  intro s p a c g pool segment member held outside
  have place := pool.place_of_mem_chain member
  refine ⟨fun takes => ?_, fun t takes target heldTarget outsideTarget room good apart => ?_⟩
  · have check : s.releaseCheck p a = .ok (c, g) := releaseCheck_ok_iff.2 ⟨segment, place, held, outside⟩
    exact congrArg Host.Outcome.next ((takeCommand_of_takes takes _).trans (releaseTakeWork_of_ok check))
  · have check : s.moveCheck p a = .ok (c, g, t) :=
      moveCheck_ok_iff.2 ⟨segment, place, target, held, heldTarget, outside, outsideTarget,
        fun ne => room.resolve_left ne, good, apart⟩
    exact congrArg Host.Outcome.next ((takeCommand_of_takes takes _).trans (moveTakeWork_of_ok check))

theorem segment_moved (s : State) (c : ChainCode) (g : SegNo) (d : Nat) :
    (s.moved c g d).segment g = if (s.segment g).startDelay = some d then { s.segment g with vacancy := 0 }
      else { startDelay := some d, coeffs := Vector.replicate 64 0, weight := 0, vacancy := 0 } := by
  unfold State.moved
  rw [segment_modSegment, segment_link]
  by_cases same : (s.segment g).startDelay = some d
  · simp [same]
  · simp only [ne_eq, same, not_false_eq_true, decide_true, if_true, if_false]
    rfl

/-- Settles O28: the two links by the closed form of a link that completes its command. -/
theorem releaseLinkAndMoveLink : Obligations.ReleaseLinkAndMoveLink := by
  unfold Obligations.ReleaseLinkAndMoveLink
  refine ⟨fun s p g current carried => ?_, fun s p c d g current carried => ?_⟩
  · have done := completeJob_completes (s := s.linkFree g) (p := p) (w := .release) (by simpa using current)
      (·.complete .ok none)
    refine ⟨_, congrArg Host.Outcome.next (releaseLinkWork_of_job current carried), by simp [linkFree_eq], ?_,
      fun h ne => ?_, ?_, ?_, fun h => ?_, fun h => ?_⟩
    · rw [segment_congr (completeJob_frame ..).2.2.1, segment_linkFree]; rfl
    · rw [segment_congr (completeJob_frame ..).2.2.1, segment_linkFree_ne ne]
    · refine done.rest.trans ?_
      simp only [completeJob_frame]
      rfl
    · exact done.other
    · exact done.posted h
    · exact done.detached h
  · have done := completeJob_completes (s := s.moved c g d) (p := p) (w := .move c d)
      (by simpa [State.moved] using current) (·.complete .ok none)
    refine ⟨_, congrArg Host.Outcome.next (moveLinkWork_of_job current carried),
      (linkedAt_link s c g d (decide ((s.segment g).startDelay ≠ some d))).congr (by simp [State.moved]), fun same => ?_, fun other => ?_, fun h ne => ?_, ?_, ?_,
      fun h => ?_, fun h => ?_⟩
    · rw [segment_congr (completeJob_frame ..).2.2.1, segment_moved, if_pos same]
    · rw [segment_congr (completeJob_frame ..).2.2.1, segment_moved, if_neg other]
    · rw [segment_congr (completeJob_frame ..).2.2.1, State.moved, segment_modSegment_ne _ ne, segment_link_ne ne]
    · refine done.rest.trans ?_
      simp only [completeJob_frame]
      rfl
    · exact done.other
    · exact done.posted h
    · exact done.detached h

/-! ### SWAP (R31, R52) -/

theorem channelCode_ne_workList {n : ChannelNo} {w : ChainCode} (work : argWorkList a = some w) : channelCode n ≠ w := by
  unfold argWorkList at work
  split at work
  · cases work
  · next high =>
    unfold chainOfCode at work
    split at work
    · rintro rfl
      have := congrArg Fin.val (Option.some.inj work)
      have := n.isLt
      simp only [channelCode, Config.channels] at *
      omega
    · cases work

theorem exchange_eq (s : State) (c w : ChainCode) :
    s.exchange c w = { (s.setChain c (s.chain w)).setChain w (s.chain c) with
      pge := (s.pge.disturbed c).disturbed w } := rfl

theorem chain_exchange (s : State) {c w : ChainCode} (ne : c ≠ w) :
    (s.exchange c w).chain c = s.chain w ∧ (s.exchange c w).chain w = s.chain c ∧
      ∀ e, e ≠ c → e ≠ w → (s.exchange c w).chain e = s.chain e := by
  have chains : (s.exchange c w).chains = ((s.setChain c (s.chain w)).setChain w (s.chain c)).chains := by
    rw [exchange_eq]
  refine ⟨?_, ?_, fun e neC neW => ?_⟩ <;> rw [chain_congr chains]
  · rw [chain_setChain_ne _ ne, chain_setChain]
  · rw [chain_setChain]
  · rw [chain_setChain_ne _ neW, chain_setChain_ne _ neC]

/-- Settles O29: a channel list and a work list are two lists, so that the exchange is of both. -/
theorem swapTake : Obligations.SwapTake := by
  unfold Obligations.SwapTake
  intro s p a n w takes channel work held heldWork outside outsideWork
  have check : s.swapCheck p a = .ok (n, w) :=
    swapCheck_ok_iff.2 ⟨channel, work, held, heldWork, outside, outsideWork⟩
  obtain ⟨left, right, others⟩ := chain_exchange (s.takenFrom p) (channelCode_ne_workList (n := n) work)
  refine ⟨_, congrArg Host.Outcome.next ((takeCommand_of_takes takes _).trans (swapTakeWork_of_ok check)), ?_, ?_,
    fun e neC neW => ?_, ?_, fun m ne => ?_, ?_, ?_, ?_⟩
  · rw [chain_modPanel, chain_modChannel, left]; rfl
  · rw [chain_modPanel, chain_modChannel, right]; rfl
  · rw [chain_modPanel, chain_modChannel, others e neC neW]; rfl
  · rw [channel_modPanel, channel_modChannel]; rfl
  · rw [channel_modPanel, channel_modChannel_ne _ ne]; rfl
  · cases p <;> rfl
  · cases p <;> rfl
  · cases p <;> rfl

/-! ### EMPTY (R53, R54) -/

/-- Settles O30: the take by the list's segments, each link and unlink by its closed form. -/
theorem emptyEvents : Obligations.EmptyEvents := by
  unfold Obligations.EmptyEvents
  refine ⟨fun s p a c takes list held outside => ?_, fun s p c k g current carried => ?_,
    fun s i c k g rest current idle filled => ?_⟩
  · have check : s.emptyCheck p a = .ok c := emptyCheck_ok_iff.2 ⟨list, held, outside⟩
    refine ⟨fun empty => ?_, fun g rest filled => ?_⟩
    · exact congrArg Host.Outcome.next ((takeCommand_of_takes takes _).trans (emptyTakeWork_of_empty check empty))
    · have taken := (takeCommand_of_takes takes _).trans (emptyTakeWork_of_cons check filled)
      rw [State.carried, filled, List.erase_cons_head] at taken
      exact congrArg Host.Outcome.next taken
  · have linked := emptyLinkWork_of_job current carried
    by_cases empty : s.chain c = []
    · rw [if_pos empty] at linked
      have done := completeJob_completes (s := s.linkFree g) (p := p) (w := .empty c k) (by simpa using current)
        (·.complete .ok (some k))
      refine ⟨_, congrArg Host.Outcome.next linked, by simp [linkFree_eq], ?_, fun h ne => ?_,
        fun filled => absurd empty filled, fun _ => ⟨?_, done.other, fun h => done.posted h, fun h => done.detached h⟩⟩
      · rw [segment_congr (completeJob_frame ..).2.2.1, segment_linkFree]; rfl
      · rw [segment_congr (completeJob_frame ..).2.2.1, segment_linkFree_ne ne]
      · refine done.rest.trans ?_
        simp only [completeJob_frame]
        rfl
    · rw [if_neg empty] at linked
      exact ⟨_, congrArg Host.Outcome.next linked, rfl, segment_linkFree s g, fun h ne => segment_linkFree_ne ne s,
        fun _ => rfl, fun none => absurd none empty⟩
  · have unlinked := emptyUnlinkWork_of_job current idle filled
    rw [unlink_eq, filled, List.erase_cons_head] at unlinked
    exact congrArg Host.Outcome.next unlinked

end Sys2Proof.Machine
end

section
/-! PROOF. Only claim commands change holders, and only LC's events the lists (R23, R41, R55, R152). -/

namespace Sys2Proof.Machine

theorem taken_claims (s : State) (p : Plane) (a : Args) {code : CommandCode} (claim : code ≠ .claim)
    (unclaim : code ≠ .unclaim) (seize : code ≠ .seize) : (s.taken p a code).claims = s.claims := by
  cases code
  case claim | unclaim | seize => contradiction
  all_goals simp [State.taken]

theorem effect_claims {c : Instr} (wellFormed : c.wellFormed = true) (reset : ∀ law, c ≠ .powerOnReset law)
    (claim : ∀ p a, c ≠ .claim p a) (unclaim : ∀ p a, c ≠ .unclaim p a) (seize : ∀ p a, c ≠ .seize p a) (s : State) :
    (s.effect c).claims = s.claims := by
  cases c
  case powerOnReset law => exact absurd rfl (reset law)
  case claim p a => exact absurd rfl (claim p a)
  case unclaim p a => exact absurd rfl (unclaim p a)
  case seize p a => exact absurd rfl (seize p a)
  case command p code a =>
    have unknown : commandOfCode code = none := Option.isNone_iff_eq_none.1 wellFormed
    simp only [State.effect, unknown, Option.map_none, Option.getD_none]
  case purge | suspend | resume | restart => exact taken_claims s _ _ (by decide) (by decide) (by decide)
  case writeChannelConfig p index count data | writeCoeff p index count data | write p space index count data =>
    exact writeRequest_keeps (P := fun u => u.claims = s.claims) rfl (by simp) (by simp)
  case takeEvents p n =>
    obtain h | ⟨m, h⟩ := takeEventsRequest_queue s p n <;> simp only [State.effect, h, modQueue_claims]
  case setTrigger p level =>
    obtain h | ⟨-, -, h⟩ := setTriggerRequest_queue s p level <;> simp only [State.effect, h, modQueue_claims]
  all_goals simp [State.effect, State.linkResetRequest]

/-- Settles O34: the effects that change a holder are those of the three claim commands, and those that change a list LC's. -/
theorem onlyTheOwnersChangeClaimsAndLists : Obligations.OnlyTheOwnersChangeClaimsAndLists := by
  unfold Obligations.OnlyTheOwnersChangeClaimsAndLists
  intro c s t wellFormed answer
  refine ⟨fun reset claim unclaim seize => ?_, fun apart => ?_⟩
  · exact exec_keeps (P := fun u => u.claims = s.claims) (fun u p f _ h => (modPort_claims u p f).trans h) rfl
      (fun u h => (effect_claims wellFormed reset claim unclaim seize u).trans h) answer
  · have kept := exec_poolKept apart answer
    exact ⟨kept.free, kept.chains, kept.transit⟩

end Sys2Proof.Machine
end

section
/-! SUPPORT. LC's effects on the lists, as a small number of structural events (R28 to R31): a list command that is refused or
posts its result at once, an unlink from F or from a chain, a link into a chain or into F, and an exchange. An invariant of the
pool is kept by LC's events when these keep it. -/

namespace Sys2Proof.Machine

variable {s t : State}

/-! ### The structural events -/

/-- The stores an invariant of the pool reads, but for the cursors, are the same: the lists, the in-transit slot, LC's current
command and the segments' records. -/
structure SameLists (s t : State) : Prop where
  free : t.free = s.free
  chains : t.chains = s.chains
  transit : t.transit = s.transit
  current : t.lc.current = s.lc.current
  segments : t.segments = s.segments

/-- What LC has checked when it takes segment g out of list c for a command (R49, R50, R53, R130). -/
def State.Checked (s : State) (c : ChainCode) (g : SegNo) : LcWork → Prop
  | .move e d => goodDelay d = true ∧ (e ≠ c → (s.chain e).length < 16) ∧
      ∀ h ∈ s.chain e, h ≠ g → overlaps d (s.delay h) = false
  | .relocation n d => channelCode n = c ∧ (∃ i, d = s.candidate n i) ∧ ∀ h ∈ s.chain c, overlaps d (s.delay h) = false
  | .allocate _ _ => False
  | .release | .empty _ _ => True

/-- A command links its segment into a list at a start delay. -/
def LcWork.Targets (w : LcWork) (c : ChainCode) (d : Nat) : Prop :=
  w = .allocate c d ∨ w = .move c d ∨ ∃ n, channelCode n = c ∧ w = .relocation n d

/-- The structural events of LC (R28 to R31, R41), with what LC has checked when it makes them. -/
inductive State.ListEvent (s t : State) : Prop
  /-- Nothing structural: a refusal, an EMPTY of an empty list, an entry of the Relocation Queue that is discarded. -/
  | idle (same : SameLists s t)
  /-- The vacancy count of a chained segment is reset: its relocation is blocked (R130). -/
  | vacated (g : SegNo) (c : ChainCode) (member : g ∈ s.chain c)
      (same : SameLists (s.modSegment g ({ · with vacancy := 0 })) t)
  /-- F's first segment goes into transit for an ALLOCATE. -/
  | takeFree (g : SegNo) (c : ChainCode) (d : Nat) (i : Requester) (idle : s.transit = none)
      (first : s.free.head? = some g) (fits : s.Fits c d) (free : t.free = s.free.tail) (chains : t.chains = s.chains)
      (transit : t.transit = some g) (segments : t.segments = s.segments)
      (current : t.lc.current = some { work := .allocate c d, issuer := i })
  /-- A chained segment goes into transit, for a command that LC takes or goes on with. -/
  | takeChained (g : SegNo) (c : ChainCode) (job : LcJob) (member : g ∈ s.chain c) (idle : s.transit = none)
      (checked : s.Checked c g job.work) (free : t.free = s.free)
      (chains : t.chains = (s.setChain c ((s.chain c).erase g)).chains) (transit : t.transit = some g)
      (segments : t.segments = s.segments) (current : t.lc.current = some job)
  /-- The segment in transit joins the chain that the current command names, which completes it. -/
  | link (g : SegNo) (c : ChainCode) (d : Nat) (job : LcJob) (x : Segment) (carried : s.transit = some g)
      (busy : s.lc.current = some job) (target : job.work.Targets c d) (delay : x.startDelay = some d)
      (free : t.free = s.free) (chains : t.chains = (s.setChain c (insertByDelay s.delay g d (s.chain c))).chains)
      (transit : t.transit = none) (segments : t.segments = (s.modSegment g fun _ => x).segments)
      (current : t.lc.current = none)
  /-- The segment in transit joins F's end cleared; LC goes on with an EMPTY, or its command completes. -/
  | linkFree (g : SegNo) (job : LcJob) (carried : s.transit = some g) (work : job.work = .release ∨ ∃ c k, job.work = .empty c k)
      (free : t.free = s.free ++ [g]) (chains : t.chains = s.chains) (transit : t.transit = none)
      (segments : t.segments = (s.modSegment g fun _ => .free).segments)
      (current : t.lc.current = none ∨ t.lc.current = some job)
  /-- Two lists exchange their contents. -/
  | exchange (c w : ChainCode) (ne : c ≠ w) (free : t.free = s.free)
      (chains : t.chains = ((s.setChain c (s.chain w)).setChain w (s.chain c)).chains) (transit : t.transit = s.transit)
      (segments : t.segments = s.segments) (current : t.lc.current = none) (idle : s.transit = none)

/-! ### LC's commands as structural events -/

theorem SameLists.refl (s : State) : SameLists s s := ⟨rfl, rfl, rfl, rfl, rfl⟩

theorem State.ListEvent.congr {u : State} (event : s.ListEvent t) (same : SameLists t u) : s.ListEvent u := by
  obtain ⟨free, chains, transit, current, segments⟩ := same
  cases event with
  | idle same =>
    exact .idle ⟨free.trans same.free, chains.trans same.chains, transit.trans same.transit, current.trans same.current,
      segments.trans same.segments⟩
  | vacated g c member same =>
    exact .vacated g c member ⟨free.trans same.free, chains.trans same.chains, transit.trans same.transit,
      current.trans same.current, segments.trans same.segments⟩
  | takeFree g c d i idle first fits free' chains' transit' segments' current' =>
    exact .takeFree g c d i idle first fits (free.trans free') (chains.trans chains') (transit.trans transit')
      (segments.trans segments') (current.trans current')
  | takeChained g c job member idle checked free' chains' transit' segments' current' =>
    exact .takeChained g c job member idle checked (free.trans free') (chains.trans chains') (transit.trans transit')
      (segments.trans segments') (current.trans current')
  | link g c d job x carried busy target delay free' chains' transit' segments' current' =>
    exact .link g c d job x carried busy target delay (free.trans free') (chains.trans chains') (transit.trans transit')
      (segments.trans segments') (current.trans current')
  | linkFree g job carried work free' chains' transit' segments' current' =>
    exact .linkFree g job carried work (free.trans free') (chains.trans chains') (transit.trans transit')
      (segments.trans segments') (by rw [current]; exact current')
  | exchange c w ne free' chains' transit' segments' current' idle =>
    exact .exchange c w ne (free.trans free') (chains.trans chains') (transit.trans transit')
      (segments.trans segments') (current.trans current') idle

theorem listEvent_refl (s : State) : s.ListEvent s := .idle (.refl s)

@[simp] theorem completeJob_current (s : State) (post : Panel → Panel) : (s.completeJob post).lc.current = none := by
  unfold State.completeJob
  dsimp only
  repeat' split
  all_goals simp

theorem refusedAtTake_listEvent (s : State) (p : Plane) (st : Status) : s.ListEvent (s.refusedAtTake p st) := by
  rw [refusedAtTake_eq]
  exact .idle ⟨by simp [State.takenFrom], by simp [State.takenFrom], by simp [State.takenFrom],
    by simp [State.takenFrom], by simp [State.takenFrom]⟩

theorem carried_listEvent {p : Plane} {c : ChainCode} {g : SegNo} {w : LcWork} (member : g ∈ s.chain c)
    (idle : s.transit = none) (checked : s.Checked c g w) : s.ListEvent (s.carried p c g w) :=
  .takeChained g c { work := w, issuer := .panel p } member idle checked (by simp [State.carried])
    (by simp [State.carried, State.setChain]) (by simp [State.carried]) (by simp [State.carried])
    (by simp [State.carried, Lc.busy])

section
variable (pool : s.PoolInv)
include pool

theorem transit_of_takes {p : Plane} {code : CommandCode} {a : Args} (takes : s.Takes p code a) : s.transit = none :=
  pool.2 (current_of_choice takes.1)

theorem allocateTake_listEvent : s.ListEvent s.allocateTake := by
  obtain same | ⟨p, a, takes, taken⟩ := takeCommand_cases s .allocate State.allocateTakeWork <;> unfold State.allocateTake
  · rw [same]; exact listEvent_refl s
  rw [taken]
  cases check : s.allocateCheck p a with
  | error st => rw [allocateTakeWork_of_error check]; exact refusedAtTake_listEvent s p st
  | ok found =>
    obtain ⟨c, g⟩ := found
    obtain ⟨-, -, -, fits, first⟩ := allocateCheck_ok_iff.1 check
    rw [allocateTakeWork_of_ok check]
    exact .takeFree g c (argDelay a) (.panel p) (transit_of_takes pool takes) first fits (by simp) (by simp) (by simp)
      (by simp) (by simp [Lc.busy])

theorem releaseTake_listEvent : s.ListEvent s.releaseTake := by
  obtain same | ⟨p, a, takes, taken⟩ := takeCommand_cases s .release State.releaseTakeWork <;> unfold State.releaseTake
  · rw [same]; exact listEvent_refl s
  rw [taken]
  cases check : s.releaseCheck p a with
  | error st => rw [releaseTakeWork_of_error check]; exact refusedAtTake_listEvent s p st
  | ok found =>
    obtain ⟨c, g⟩ := found
    obtain ⟨-, place, -, -⟩ := releaseCheck_ok_iff.1 check
    rw [releaseTakeWork_of_ok check]
    exact carried_listEvent (mem_chain_of_place place) (transit_of_takes pool takes) trivial

theorem moveTake_listEvent : s.ListEvent s.moveTake := by
  obtain same | ⟨p, a, takes, taken⟩ := takeCommand_cases s .move State.moveTakeWork <;> unfold State.moveTake
  · rw [same]; exact listEvent_refl s
  rw [taken]
  cases check : s.moveCheck p a with
  | error st => rw [moveTakeWork_of_error check]; exact refusedAtTake_listEvent s p st
  | ok found =>
    obtain ⟨c, g, d⟩ := found
    obtain ⟨-, place, -, -, -, -, -, short, good, apart⟩ := moveCheck_ok_iff.1 check
    rw [moveTakeWork_of_ok check]
    exact carried_listEvent (mem_chain_of_place place) (transit_of_takes pool takes) ⟨good, short, apart⟩

theorem swapTake_listEvent : s.ListEvent s.swapTake := by
  obtain same | ⟨p, a, takes, taken⟩ := takeCommand_cases s .swap State.swapTakeWork <;> unfold State.swapTake
  · rw [same]; exact listEvent_refl s
  rw [taken]
  cases check : s.swapCheck p a with
  | error st => rw [swapTakeWork_of_error check]; exact refusedAtTake_listEvent s p st
  | ok found =>
    obtain ⟨n, w⟩ := found
    obtain ⟨-, work, -⟩ := swapCheck_ok_iff.1 check
    rw [swapTakeWork_of_ok check]
    exact .exchange (channelCode n) w (channelCode_ne_workList work) (by simp [State.takenFrom])
      (by simp [exchange_eq, State.takenFrom, State.setChain, State.chain]) (by simp [State.takenFrom])
      (by simp [State.takenFrom]) (by simp [State.takenFrom, current_of_choice takes.1]) (transit_of_takes pool takes)

theorem emptyTake_listEvent : s.ListEvent s.emptyTake := by
  obtain same | ⟨p, a, takes, taken⟩ := takeCommand_cases s .empty State.emptyTakeWork <;> unfold State.emptyTake
  · rw [same]; exact listEvent_refl s
  rw [taken]
  cases check : s.emptyCheck p a with
  | error st => rw [emptyTakeWork_of_error check]; exact refusedAtTake_listEvent s p st
  | ok c =>
    cases filled : s.chain c with
    | nil =>
      rw [emptyTakeWork_of_empty check filled]
      exact .idle ⟨by simp [State.takenFrom], by simp [State.takenFrom], by simp [State.takenFrom],
        by simp [State.takenFrom], by simp [State.takenFrom]⟩
    | cons g rest =>
      rw [emptyTakeWork_of_cons check filled]
      exact carried_listEvent (by simp [filled]) (transit_of_takes pool takes) trivial

theorem relocationTake_listEvent : s.ListEvent s.relocationTakeWork := by
  by_cases chosen : s.choice = some .relocation
  · cases queue : s.relocation with
    | nil => simp only [State.relocationTakeWork, chosen, queue]; exact listEvent_refl s
    | cons e rest =>
      by_cases stale : s.stale e = true
      · rw [relocationTakeWork_of_stale chosen queue stale]
        exact .idle ⟨rfl, rfl, rfl, rfl, rfl⟩
      have member : e.segment ∈ s.chain (channelCode e.channel) := by
        by_contra outside
        exact stale ((stale_iff s e).2 (.inl outside))
      cases fit : s.fit e.channel with
      | none =>
        rw [relocationTakeWork_of_blocked chosen queue stale fit]
        exact .vacated e.segment _ member ⟨by simp [State.entryTaken], by simp [State.entryTaken],
          by simp [State.entryTaken], by simp [State.entryTaken],
          by simp [State.entryTaken, State.modSegment, State.segment]⟩
      | some d =>
        rw [relocationTakeWork_of_fits chosen queue stale fit]
        rw [fit_eq, Option.map_eq_some_iff] at fit
        obtain ⟨i, found, rfl⟩ := fit
        have apart : ∀ h ∈ s.chain (channelCode e.channel), overlaps (s.candidate e.channel i) (s.delay h) = false := by
          simpa [State.channelChain] using List.find?_some found
        exact .takeChained e.segment (channelCode e.channel)
          { work := .relocation e.channel (s.candidate e.channel i), issuer := .relocation } member
          (pool.2 (current_of_choice chosen)) ⟨rfl, ⟨i, rfl⟩, apart⟩ rfl rfl rfl rfl rfl
  · have same : s.relocationTakeWork = s := by
      unfold State.relocationTakeWork
      split
      · next chosen' _ => exact absurd chosen' chosen
      · rfl
    rw [same]
    exact listEvent_refl s

omit pool

theorem allocateLink_listEvent (s : State) : s.ListEvent s.allocateLinkWork := by
  unfold State.allocateLinkWork
  split
  · next c d g work carried =>
    obtain ⟨job, busy, same⟩ := Option.map_eq_some_iff.1 work
    refine .link g c d job { s.segment g with startDelay := some d } carried busy (.inl same) rfl (by simp) ?_ ?_ ?_
      (by simp)
    · simp [link_eq, State.setChain]
    · simp [link_eq]
    · simp [link_eq, State.modSegment]
  · exact listEvent_refl s

theorem moveLink_listEvent (s : State) : s.ListEvent s.moveLinkWork := by
  unfold State.moveLinkWork
  split
  · next c d g work carried =>
    obtain ⟨job, busy, same⟩ := Option.map_eq_some_iff.1 work
    rw [← State.moved]
    refine .link g c d job ((s.moved c g d).segment g) carried busy (.inr (.inl same)) ?_ (by simp [State.moved]) ?_ ?_ ?_
      (by simp)
    · rw [State.moved, segment_modSegment, segment_link]
    · simp [State.moved, link_eq, State.setChain]
    · simp [State.moved, link_eq]
    · simp [State.moved, link_eq, State.modSegment, State.segment]
  · exact listEvent_refl s

theorem relocationLink_listEvent (s : State) : s.ListEvent s.relocationLinkWork := by
  unfold State.relocationLinkWork
  split
  · next n d g work carried =>
    obtain ⟨job, busy, same⟩ := Option.map_eq_some_iff.1 work
    have linked : s.ListEvent ((s.link (channelCode n) g d true).completeJob id) := by
      refine .link g (channelCode n) d job { (s.segment g).zero with startDelay := some d } carried busy
        (.inr (.inr ⟨n, rfl, same⟩)) rfl (by simp) ?_ ?_ ?_ (by simp)
      · simp [link_eq, State.setChain]
      · simp [link_eq]
      · simp [link_eq, State.modSegment]
    dsimp only
    split
    · exact linked
    · exact linked.congr ⟨by simp, by simp, by simp, by simp, by simp⟩
  · exact listEvent_refl s

theorem releaseLink_listEvent (s : State) : s.ListEvent s.releaseLinkWork := by
  unfold State.releaseLinkWork
  split
  · next g work carried =>
    obtain ⟨job, -, same⟩ := Option.map_eq_some_iff.1 work
    exact .linkFree g job carried (.inl same) (by simp [linkFree_eq]) (by simp) (by simp [linkFree_eq])
      (by simp [linkFree_eq, State.modSegment]) (.inl (by simp))
  · exact listEvent_refl s

theorem emptyLink_listEvent (s : State) : s.ListEvent s.emptyLinkWork := by
  unfold State.emptyLinkWork
  split
  · next c k g work carried =>
    obtain ⟨job, busy, same⟩ := Option.map_eq_some_iff.1 work
    dsimp only
    split
    · exact .linkFree g job carried (.inr ⟨c, k, same⟩) (by simp [linkFree_eq]) (by simp) (by simp [linkFree_eq])
        (by simp [linkFree_eq, State.modSegment]) (.inl (by simp))
    · exact .linkFree g job carried (.inr ⟨c, k, same⟩) rfl rfl rfl rfl (.inr busy)
  · exact listEvent_refl s

theorem emptyUnlink_listEvent (s : State) : s.ListEvent s.emptyUnlinkWork := by
  unfold State.emptyUnlinkWork
  split
  · next c k work idle =>
    obtain ⟨job, busy, same⟩ := Option.map_eq_some_iff.1 work
    split
    · exact listEvent_refl s
    · next g rest filled =>
      exact .takeChained g c job (by simp [filled]) idle (by rw [same]; trivial) rfl rfl rfl rfl busy
  · exact listEvent_refl s

end

/-- A command of LC makes one structural event (R28 to R31). -/
theorem effect_listEvent (pool : s.PoolInv) {c : Instr} (lists : changesLists c = true)
    (reset : ∀ law, c ≠ .powerOnReset law) : s.ListEvent (s.effect c) := by
  cases c
  case powerOnReset law => exact absurd rfl (reset law)
  case allocateTake => exact allocateTake_listEvent pool
  case allocateLink => exact allocateLink_listEvent s
  case releaseTake => exact releaseTake_listEvent pool
  case releaseLinkIntoF => exact releaseLink_listEvent s
  case moveTake => exact moveTake_listEvent pool
  case moveLink => exact moveLink_listEvent s
  case swapTake => exact swapTake_listEvent pool
  case emptyTake => exact emptyTake_listEvent pool
  case emptyLinkIntoF => exact emptyLink_listEvent s
  case emptyUnlink => exact emptyUnlink_listEvent s
  case relocationTake => exact relocationTake_listEvent pool
  case relocationLink => exact relocationLink_listEvent s
  all_goals exact absurd lists Bool.noConfusion

end Sys2Proof.Machine
end

section
/-! PROOF. Power-on reset: every invariant holds after it, and every register that the spec gives a power-on value has it
(R34). -/

namespace Sys2Proof.Machine

variable (s : State) (law : Law)

/-! ### What POWER_ON_RESET leaves -/

@[simp] theorem channel_powerOnReset (n : ChannelNo) :
    (s.powerOnReset law).channel n = { Channel.reset n with freeBlock := (s.channel n).freeBlock } := by
  simp [State.powerOnReset, State.channel]

@[simp] theorem chain_powerOnReset (c : ChainCode) : (s.powerOnReset law).chain c = [] := by
  simp [State.powerOnReset, State.powerOn, State.chain]

@[simp] theorem segment_powerOnReset (g : SegNo) : (s.powerOnReset law).segment g = Segment.free := by
  simp [State.powerOnReset, State.powerOn, State.segment]

@[simp] theorem holder_powerOnReset (c : ChainCode) : (s.powerOnReset law).holder c = none := by
  simp [State.powerOnReset, State.powerOn, State.holder]

@[simp] theorem port_powerOnReset (p : Plane) : (s.powerOnReset law).port p = Port.reset := by cases p <;> rfl

theorem free_powerOnReset : (s.powerOnReset law).free = List.finRange Config.segments := by
  simp only [State.powerOnReset, State.powerOn]

theorem transit_powerOnReset : (s.powerOnReset law).transit = none := rfl

@[simp] theorem hwi_powerOnReset : (s.powerOnReset law).hwi = Hwi.reset law := rfl

theorem powerOn_eq_powerOnReset : State.powerOn law = (State.powerOn law).powerOnReset law := by
  have channels : (State.powerOn law).channels = ((State.powerOn law).powerOnReset law).channels := by
    ext i h
    simp [State.powerOnReset, State.powerOn, State.channel, Channel.reset]
  have free : (State.powerOn law).free = ((State.powerOn law).powerOnReset law).free := by
    rw [free_powerOnReset]; simp only [State.powerOn]
  exact State.eq_of_fields rfl channels rfl free rfl rfl rfl rfl rfl rfl rfl rfl rfl

/-! ### The invariants after it -/

theorem powerOnReset_poolInv : (s.powerOnReset law).PoolInv := by
  have chained : (List.finRange Config.chains).flatMap (s.powerOnReset law).chain = [] := by simp
  unfold State.PoolInv
  rw [chained, free_powerOnReset, transit_powerOnReset, List.append_nil, Option.toList_none, List.append_nil]
  exact ⟨.refl _, fun _ => rfl⟩

theorem powerOnReset_freeInv : (s.powerOnReset law).FreeInv := fun g _ => segment_powerOnReset s law g

theorem powerOnReset_chainForm (c : ChainCode) : (s.powerOnReset law).ChainForm c := by
  simp [State.ChainForm]

theorem powerOnReset_chainsInv : (s.powerOnReset law).ChainsInv :=
  ⟨powerOnReset_chainForm s law, trivial, fun n => by simp [Channel.reset]⟩

theorem queue_reset_bounded : Queue.reset.Bounded := ⟨by decide, rfl, by decide, by decide⟩

theorem powerOnReset_queuesInv : (s.powerOnReset law).QueuesInv :=
  ⟨queue_reset_bounded, queue_reset_bounded, Nat.zero_le _, .nil⟩

theorem powerOnReset_pgeInv : (s.powerOnReset law).pge.Inv := ⟨Nat.zero_le _, .nil, rfl, rfl, rfl, rfl⟩

theorem lsuDir_start_default_inRange : (LsuDir.start .default).InRange := by
  unfold LsuDir.InRange; decide

theorem powerOnReset_countsInv : (s.powerOnReset law).CountsInv := by
  intro n
  rw [channel_powerOnReset]
  refine ⟨?_, fun r pending => absurd pending (by simp [Channel.reset]), lsuDir_start_default_inRange,
    lsuDir_start_default_inRange, ?_, ?_, ?_, ?_, ?_, ?_, ?_, ?_, ?_, ?_⟩
  · simp [Channel.reset, ConfigRecord.GainsInRange, ConfigRecord.default, AlcConfig.default]
  all_goals simp [Channel.reset]

theorem powerOnReset_timeslotsInv : (s.powerOnReset law).TimeslotsInv := by
  intro n m t named _
  rw [channel_powerOnReset] at named
  simp [Channel.Names, Channel.reset, ConfigRecord.names, ConfigRecord.default] at named

theorem canceller_powerOnReset (n : ChannelNo) : (s.powerOnReset law).canceller n = .off := by
  simp [State.canceller, Channel.reset, ConfigRecord.default]

theorem powerOnReset_restartingInv : (s.powerOnReset law).RestartingInv := by
  intro n restarting
  rw [canceller_powerOnReset] at restarting
  cases restarting

theorem powerOnReset_hwiInv : (s.powerOnReset law).hwi.Inv := by
  rw [hwi_powerOnReset]
  refine ⟨Nat.zero_lt_succ _, Nat.zero_le _, Nat.zero_le _, Nat.zero_le _, ?_, fun t => ?_⟩
  · simp [Hwi.reset]
  · simp [Hwi.reset]

/-- Settles O3: the state after reset is one that POWER_ON_RESET leaves. -/
theorem resetMeetsInvariants : Obligations.ResetMeetsInvariants := by
  unfold Obligations.ResetMeetsInvariants
  intro law
  rw [powerOn_eq_powerOnReset law]
  exact ⟨powerOnReset_poolInv _ law, powerOnReset_freeInv _ law, powerOnReset_chainsInv _ law,
    powerOnReset_queuesInv _ law, powerOnReset_pgeInv _ law, powerOnReset_countsInv _ law,
    powerOnReset_timeslotsInv _ law, powerOnReset_restartingInv _ law, powerOnReset_hwiInv _ law,
    rfl⟩

/-- Settles O4: POWER_ON_RESET answers the state whose stores are read above. -/
theorem powerOnReset : Obligations.PowerOnReset := by
  unfold Obligations.PowerOnReset
  intro law s
  refine ⟨s.powerOnReset law, rfl, free_powerOnReset s law, chain_powerOnReset s law, rfl, segment_powerOnReset s law, rfl,
    rfl, rfl, holder_powerOnReset s law, rfl, rfl, rfl, rfl, rfl, rfl, ?_, ?_⟩
  · intro p
    rw [port_powerOnReset]
    exact ⟨rfl, rfl, rfl⟩
  · intro n
    rw [channel_powerOnReset, canceller_powerOnReset]
    exact ⟨rfl, rfl, rfl, rfl, rfl, rfl, rfl, rfl, rfl, rfl, rfl, rfl, rfl, rfl, rfl, rfl, rfl, rfl, rfl, rfl, rfl, rfl,
      rfl, rfl, rfl, rfl, rfl⟩

end Sys2Proof.Machine
end

section
/-! PROOF. The pool and its free segments (R24, R26): what a structural event of LC keeps of them. -/

namespace Sys2Proof.Machine

variable {s t : State} {c : ChainCode} {g : SegNo}

/-! ### The chained segments, split at one list -/

/-- The segments of all lists but one. -/
def State.chainedBut (s : State) (c : ChainCode) : List SegNo := ((List.finRange Config.chains).erase c).flatMap s.chain

theorem chained_split (s : State) (c : ChainCode) :
    ((List.finRange Config.chains).flatMap s.chain).Perm (s.chain c ++ s.chainedBut c) :=
  (List.perm_cons_erase (List.mem_finRange c)).flatMap_right s.chain

theorem chainedBut_congr (others : ∀ e, e ≠ c → t.chain e = s.chain e) : t.chainedBut c = s.chainedBut c :=
  List.flatMap_congr fun e member => others e ((List.nodup_finRange _).mem_erase_iff.1 member).1

theorem chain_of_setChain {l : List SegNo} (chains : t.chains = (s.setChain c l).chains) : t.chain c = l :=
  (chain_congr chains c).trans (chain_setChain s c l)

theorem chain_of_setChain_ne {l : List SegNo} {e : ChainCode} (chains : t.chains = (s.setChain c l).chains) (other : e ≠ c) :
    t.chain e = s.chain e :=
  (chain_congr chains e).trans (chain_setChain_ne s other l)

/-- Two lists that exchange their contents hold the segments they held. -/
theorem chained_of_exchange {w : ChainCode} (ne : c ≠ w)
    (chains : t.chains = ((s.setChain c (s.chain w)).setChain w (s.chain c)).chains) :
    ((List.finRange Config.chains).flatMap t.chain).Perm ((List.finRange Config.chains).flatMap s.chain) := by
  have swapped : t.chain = s.chain ∘ Equiv.swap c w := by
    funext e
    simp only [Function.comp]
    by_cases isW : e = w
    · subst isW; rw [chain_of_setChain chains, Equiv.swap_apply_right]
    rw [chain_of_setChain_ne chains isW]
    by_cases isC : e = c
    · subst isC; rw [chain_setChain, Equiv.swap_apply_left]
    · rw [chain_setChain_ne s isC, Equiv.swap_apply_of_ne_of_ne isC isW]
  rw [swapped, ← List.flatMap_map]
  exact (Equiv.Perm.map_finRange_perm _).flatMap_right s.chain

/-! ### The pool -/

/-- The pool's segments, list by list. -/
abbrev State.pooled (s : State) : List SegNo :=
  s.free ++ (List.finRange Config.chains).flatMap s.chain ++ s.transit.toList

theorem State.PoolInv.of_pooled (pool : s.PoolInv) (same : t.pooled.Perm s.pooled)
    (carrying : t.lc.current = none → t.transit = none) : t.PoolInv :=
  ⟨same.trans pool.1, carrying⟩

/-- The pool's segments are the same ones when a segment moves between one list and the in-transit slot. -/
theorem pooled_perm_of_chain (free : t.free = s.free) (others : ∀ e, e ≠ c → t.chain e = s.chain e)
    (moved : (t.chain c ++ t.transit.toList).Perm (s.chain c ++ s.transit.toList)) : t.pooled.Perm s.pooled := by
  have after := (chained_split t c).symm
  have before := chained_split s c
  rw [chainedBut_congr others] at after
  rw [List.perm_iff_count] at after before moved ⊢
  intro x
  have ha := after x
  have hb := before x
  have hm := moved x
  simp only [State.pooled, free, List.count_append] at ha hb hm ⊢
  omega

theorem listEvent_poolInv (pool : s.PoolInv) (event : s.ListEvent t) : t.PoolInv := by
  cases event with
  | idle same => exact pool.congr same.free same.chains same.transit same.current
  | vacated g c member same => exact pool.congr same.free same.chains same.transit same.current
  | takeFree g c d i idle first fits free chains transit segments current =>
    obtain ⟨rest, split⟩ : ∃ rest, s.free = g :: rest := by
      cases filled : s.free with
      | nil => rw [filled] at first; cases first
      | cons x rest => rw [filled] at first; cases first; exact ⟨rest, rfl⟩
    refine pool.of_pooled ?_ fun freed => by rw [freed] at current; cases current
    rw [List.perm_iff_count]
    intro x
    simp only [State.pooled, free, split, funext (chain_congr chains), transit, idle, List.count_append, List.tail_cons,
      List.count_cons, Option.toList_some, Option.toList_none, List.count_nil]
    omega
  | takeChained g c job member idle checked free chains transit segments current =>
    refine pool.of_pooled (pooled_perm_of_chain (c := c) free (fun e => chain_of_setChain_ne chains) ?_) fun freed => by
      rw [freed] at current; cases current
    rw [chain_of_setChain chains, transit, idle, Option.toList_some, Option.toList_none, List.append_nil]
    exact (List.perm_append_singleton g _).trans (List.perm_cons_erase member).symm
  | link g c d job x carried busy target delay free chains transit segments current =>
    refine pool.of_pooled (pooled_perm_of_chain (c := c) free (fun e => chain_of_setChain_ne chains) ?_) fun _ => transit
    rw [chain_of_setChain chains, transit, carried, Option.toList_some, Option.toList_none, List.append_nil]
    exact (insertByDelay_perm s.delay g d (s.chain c)).trans (List.perm_append_singleton g _).symm
  | linkFree g job carried work free chains transit segments current =>
    refine pool.of_pooled ?_ fun _ => transit
    rw [List.perm_iff_count]
    intro x
    simp only [State.pooled, free, funext (chain_congr chains), transit, carried, List.count_append, Option.toList_some,
      Option.toList_none, List.count_nil]
    omega
  | exchange c w ne free chains transit segments current idle =>
    refine pool.of_pooled ?_ fun _ => transit.trans idle
    simp only [State.pooled, free, transit]
    exact ((chained_of_exchange ne chains).append_left _).append_right _

theorem effect_poolInv (pool : s.PoolInv) (c : Instr) : (s.effect c).PoolInv := by
  by_cases lists : changesLists c = true
  · by_cases reset : ∃ law, c = .powerOnReset law
    · obtain ⟨law, rfl⟩ := reset
      exact powerOnReset_poolInv s law
    · exact listEvent_poolInv pool (effect_listEvent pool lists fun law same => reset ⟨law, same⟩)
  · have kept := effect_poolKept (Bool.eq_false_iff.2 lists) s
    exact pool.congr kept.free kept.chains kept.transit kept.current

theorem poolInv_offLinks : OffLinks State.PoolInv := fun s p f _ pool =>
  pool.congr (modPort_free s p f) (modPort_chains s p f) (modPort_transit s p f) (by simp)

/-- Settles O52: LC's events move segments between the lists and the in-transit slot, and nothing else touches them. -/
theorem stepKeepsPool : Obligations.StepKeepsPool := by
  unfold Obligations.StepKeepsPool
  intro s t pool answer
  exact step_keeps poolInv_offLinks (fun _ _ kept => kept) (fun _ c kept => effect_poolInv kept c) pool answer

/-! ### Free segments -/

theorem listEvent_freeInv (pool : s.PoolInv) (clear : s.FreeInv) (event : s.ListEvent t) : t.FreeInv := by
  intro h member
  cases event with
  | idle same =>
    rw [same.free] at member
    rw [segment_congr same.segments, clear h member]
  | vacated g c chained same =>
    rw [same.free, modSegment_free] at member
    have other : h ≠ g := by rintro rfl; exact (pool.free_apart member).1 c chained
    rw [segment_congr same.segments, segment_modSegment_ne s other, clear h member]
  | takeFree g c d i idle first fits free chains transit segments current =>
    rw [free] at member
    rw [segment_congr segments, clear h (List.mem_of_mem_tail member)]
  | takeChained g c job chained idle checked free chains transit segments current =>
    rw [free] at member
    rw [segment_congr segments, clear h member]
  | link g c d job x carried busy target delay free chains transit segments current =>
    rw [free] at member
    have other : h ≠ g := by rintro rfl; exact (pool.free_apart member).2 carried
    rw [segment_congr segments, segment_modSegment_ne s other, clear h member]
  | linkFree g job carried work free chains transit segments current =>
    rw [free, List.mem_append, List.mem_singleton] at member
    obtain old | rfl := member
    · have other : h ≠ g := by rintro rfl; exact (pool.free_apart old).2 carried
      rw [segment_congr segments, segment_modSegment_ne s other, clear h old]
    · rw [segment_congr segments, segment_modSegment]
  | exchange c w ne free chains transit segments current idle =>
    rw [free] at member
    rw [segment_congr segments, clear h member]

theorem effect_freeInv (pool : s.PoolInv) (clear : s.FreeInv) (c : Instr) : (s.effect c).FreeInv := by
  by_cases lists : changesLists c = true
  · by_cases reset : ∃ law, c = .powerOnReset law
    · obtain ⟨law, rfl⟩ := reset
      exact powerOnReset_freeInv s law
    · exact listEvent_freeInv pool clear (effect_listEvent pool lists fun law same => reset ⟨law, same⟩)
  · have kept := effect_poolKept (Bool.eq_false_iff.2 lists) s
    intro g member
    rw [kept.free] at member
    rw [kept.outside g (pool.free_apart member).1, clear g member]

theorem freeInv_offLinks : OffLinks State.FreeInv := by
  intro s p f _ clear g member
  rw [modPort_free] at member
  rw [segment_modPort, clear g member]

/-- Settles O53: only F's end takes a segment, and it takes it cleared; what writes a segment writes one that stands in no
free list. -/
theorem stepKeepsFreeSegmentsClear : Obligations.StepKeepsFreeSegmentsClear := by
  unfold Obligations.StepKeepsFreeSegmentsClear
  intro s t pool clear answer
  exact (step_keeps (P := fun s => s.PoolInv ∧ s.FreeInv)
    (fun s p f queue kept => ⟨poolInv_offLinks s p f queue kept.1, freeInv_offLinks s p f queue kept.2⟩)
    (fun _ _ kept => kept) (fun _ c kept => ⟨effect_poolInv kept.1 c, effect_freeInv kept.1 kept.2 c⟩)
    ⟨pool, clear⟩ answer).2

end Sys2Proof.Machine
end

section
/-! SUPPORT. What the effects do to the channels, as a small number of elementary changes of one channel: a predicate on a
channel that each of them keeps is kept by every effect but power-on reset and a configuration write, which are treated
apart. -/

namespace Sys2Proof.Machine

/-- The elementary changes of a channel, but for those of a reset and of an accepted record. -/
inductive Channel.Change (c : Channel) : Channel → Prop
  | owed (b : Bool) : c.Change { c with owed := b }
  | enterRestarting (wasRunning : Bool) (framing : Framing) : c.Change (c.enterRestarting wasRunning framing)
  | leaveRestarting : c.Change c.leaveRestarting
  | dropBlock : c.Change c.dropBlock
  | swapped : c.Change c.swapped
  /-- A candidate of the relocation search is used (R131). -/
  | searched (i : Nat) : c.Change { c with cursor := ((c.cursor + 64 * i) % 2048 + 64) % 2048 }
  /-- An arrival (R10). -/
  | arrived (history : List Lin) (acc : BlockAcc) (rin sin : List Rat) (receive send : Lin) (mark : Bool) :
      c.Change { c with history := history, acc := acc, toneRin := rin, toneSin := sin,
                        receive := c.receive.measure receive, send := c.send.measure send, whollyRunning := mark }
  /-- The block record of a boundary (R91 to R94). -/
  | measured (r : BlockRecord) : c.Change { c with erle := r.erle, blockRecord := some r }
  | testDoubleTalk (delays : List Nat) (r : BlockRecord) : c.Change (c.testDoubleTalk delays r)
  | decideTone (n : ChannelNo) : c.Change (c.decideTone n)
  | decideDivergence (r : BlockRecord) : c.Change (c.decideDivergence r)
  | decideConvergence (r : BlockRecord) : c.Change (c.decideConvergence r)
  | decideStanding (r : BlockRecord) (state : Canceller) : c.Change (c.decideStanding r state)
  | suppressed (r : BlockRecord) (range : -700 ≤ r.sinLevel ∧ r.sinLevel ≤ 30) :
      c.Change ((c.decideSuppressor r).moveBackground r)
  | tracked (r : BlockRecord) : c.Change { c with trackCount := c.nextTrackCount r }
  | levels : c.Change { c with
      receive := (c.receive.boundary c.governing.receive c.windowEnds).1
      send := (c.send.boundary c.governing.send c.windowEnds).1
      windowPos := if c.windowEnds then 0 else c.windowPos + 1 }
  | counted : c.Change { c with blockCount := c.blockCount + 1 }
  | recordApplied : c.Change c.recordApplied
  | blockOpened (state : Canceller) : c.Change (c.blockOpened state)
  | restart : c.Change c.restart
  | unmarked : c.Change { c with whollyRunning := false }

/-- Changes one after another. -/
abbrev Channel.Changes : Channel → Channel → Prop := Relation.ReflTransGen Channel.Change

/-- What each change keeps, changes one after another keep. -/
theorem Channel.Changes.keeps {P : Channel → Prop} (each : ∀ c d : Channel, c.Change d → P c → P d) {c d : Channel}
    (changes : c.Changes d) (kept : P c) : P d := by
  induction changes with
  | refl => exact kept
  | tail _ change ih => exact each _ _ change ih

/-- Every channel is changed by elementary changes only. -/
def State.ChannelsChange (s t : State) : Prop := ∀ n, (s.channel n).Changes (t.channel n)

variable {s t u : State}

theorem State.ChannelsChange.of_channels (channels : t.channels = s.channels) : s.ChannelsChange t := by
  intro n
  have same : t.channel n = s.channel n := by simp only [State.channel, channels]
  rw [same]

theorem State.ChannelsChange.refl (s : State) : s.ChannelsChange s := .of_channels rfl

theorem State.ChannelsChange.trans (first : s.ChannelsChange t) (second : t.ChannelsChange u) : s.ChannelsChange u :=
  fun n => (first n).trans (second n)

/-- What follows a change and changes no channel itself. -/
theorem State.ChannelsChange.congr (change : s.ChannelsChange t) (channels : u.channels = t.channels) :
    s.ChannelsChange u := change.trans (.of_channels channels)

theorem State.ChannelsChange.modChannel (s : State) (n : ChannelNo) {f : Channel → Channel}
    (change : (s.channel n).Changes (f (s.channel n))) : s.ChannelsChange (s.modChannel n f) := by
  intro m
  rw [channel_modChannel_cases]
  split
  · next same => subst same; exact change
  · exact .refl

theorem State.ChannelsChange.change (s : State) (n : ChannelNo) {f : Channel → Channel}
    (change : (s.channel n).Change (f (s.channel n))) : s.ChannelsChange (s.modChannel n f) :=
  .modChannel s n (.single change)

theorem State.ChannelsChange.raiseBoth (change : s.ChannelsChange t) (e : Event) : s.ChannelsChange (t.raiseBoth e) :=
  change.congr (by simp)

theorem State.ChannelsChange.raiseChannel (change : s.ChannelsChange t) (n : ChannelNo) (e : Event) :
    s.ChannelsChange (t.raiseChannel n e) :=
  change.congr (by simp)

theorem State.ChannelsChange.modMark (change : s.ChannelsChange t) (n : ChannelNo) (f : FrameMark → FrameMark) :
    s.ChannelsChange (t.modMark n f) := change.congr rfl

theorem State.ChannelsChange.sendCodes (change : s.ChannelsChange t) (x : Timeslot) (rout sout : Byte) :
    s.ChannelsChange (t.sendCodes x rout sout) := change.congr rfl

/-! ### The Purge Engine -/

theorem enterRestarting_changes (s : State) (c : ChainCode) : s.ChannelsChange (s.enterRestarting c) := by
  unfold State.enterRestarting
  split
  · exact .change s _ (.enterRestarting _ _)
  · exact .refl s

theorem setOwed_changes (s : State) (c : ChainCode) (b : Bool) : s.ChannelsChange (s.setOwed c b) := by
  unfold State.setOwed
  split
  · exact .change s _ (.owed b)
  · exact .refl s

theorem joinPurge_changes (s : State) (c : ChainCode) (r : Requesters) : s.ChannelsChange (s.joinPurge c r) := by
  have entered := (enterRestarting_changes s c).trans (setOwed_changes _ c false)
  unfold State.joinPurge
  dsimp only
  split <;> exact entered.congr rfl

theorem requestPurge_changes (s : State) (n : ChannelNo) (r : Requesters) : s.ChannelsChange (s.requestPurge n r) := by
  have owing := (enterRestarting_changes s (channelCode n)).trans (setOwed_changes _ (channelCode n) true)
  unfold State.requestPurge
  dsimp only
  split
  · exact joinPurge_changes s _ r
  · split
    · exact owing
    · exact joinPurge_changes s _ r
  all_goals exact owing

theorem purgeCommand_changes (s : State) (p : Plane) (c : Option ChainCode) : s.ChannelsChange (s.purgeCommand p c).1 := by
  cases c with
  | none => exact .refl s
  | some c =>
    unfold State.purgeCommand
    dsimp only
    split
    · exact .refl s
    split
    case h_4 => exact joinPurge_changes s c _
    case h_5 =>
      split
      · exact .refl s
      · exact joinPurge_changes s c _
    all_goals exact .refl s

theorem channelAfter_changes (s : State) (n : ChannelNo) (done : List BatchEntry) :
    (s.channel n).Changes (s.channelAfter n done) := by
  by_cases leaves : (∃ e ∈ done, e.list = channelCode n) ∧ (s.channel n).owed = false
  · have left : s.channelAfter n done = (s.channel n).leaveRestarting := by
      simp [State.channelAfter, Channel.leaveRestarting, leaves.1, leaves.2]
    rw [left]
    exact .single .leaveRestarting
  · rw [State.channelAfter, if_neg leaves]

theorem finishEntry_changes (s : State) (e : BatchEntry) : s.ChannelsChange (s.finishEntry e) := by
  obtain ⟨-, channels, -⟩ := finishEntry_finishes s e
  intro n
  rw [channels]
  exact channelAfter_changes s n [e]

theorem foldOwed_changes (l : List ChannelNo) (s : State) :
    s.ChannelsChange (l.foldl (fun t m => t.modChannel m ({ · with owed := false })) s) := by
  induction l generalizing s with
  | nil => exact .refl s
  | cons n l ih => exact (State.ChannelsChange.change s n (.owed false)).trans (ih _)

theorem exhaust_changes (s : State) : s.ChannelsChange s.exhaust := by
  unfold State.exhaust
  split
  · exact .of_channels rfl
  · exact (foldOwed_changes _ s).congr rfl

theorem selectNext_changes (fuel : Nat) (s : State) : s.ChannelsChange (s.selectNext fuel) := by
  induction fuel generalizing s with
  | zero => exact .refl s
  | succ fuel ih =>
    unfold State.selectNext
    split
    · exact exhaust_changes s
    · split
      · exact (finishEntry_changes s _).trans (ih _)
      · exact .of_channels rfl

theorem select_changes (s : State) : s.ChannelsChange s.select := selectNext_changes _ s

theorem run_changes (s : State) : s.ChannelsChange s.run := by
  unfold State.run
  refine State.ChannelsChange.trans ?_ (select_changes _)
  exact .of_channels rfl

theorem resumeCommand_changes (s : State) : s.ChannelsChange s.resumeCommand.1 := by
  unfold State.resumeCommand
  split
  · exact run_changes s
  all_goals exact .of_channels rfl

theorem gatherExpiry_changes (s : State) : s.ChannelsChange s.gatherExpiry := by
  unfold State.gatherExpiry
  split
  · exact run_changes s
  · exact .refl s

theorem suspendExpiry_changes (s : State) : s.ChannelsChange s.suspendExpiry := by
  unfold State.suspendExpiry
  split
  · exact (State.ChannelsChange.of_channels (by simp)).trans (run_changes _)
  · exact .refl s

theorem finishIfDone_changes (s : State) (c : ChainCode) : s.ChannelsChange (s.finishIfDone c) := by
  unfold State.finishIfDone
  split
  · split
    · exact finishEntry_changes s _
    · exact .refl s
  · exact .refl s

theorem afterClear_changes (s : State) : s.ChannelsChange s.afterClear := by
  unfold State.afterClear
  split
  · exact select_changes s
  · split
    · exact .of_channels rfl
    · exact exhaust_changes s
  all_goals exact .refl s

theorem clearEnd_changes (s : State) : s.ChannelsChange s.clearEnd := by
  unfold State.clearEnd
  split
  · exact .refl s
  · exact (State.ChannelsChange.of_channels (by simp)).trans
      ((finishIfDone_changes _ _).trans (afterClear_changes _))

/-! ### The line -/

theorem discardBlocks_changes (s : State) : s.ChannelsChange s.discardBlocks := by
  intro n
  have read : s.discardBlocks.channel n =
      if (s.channel n).governing.mode = .off then s.channel n else (s.channel n).dropBlock := by
    by_cases off : (s.channel n).governing.mode = .off <;> simp_all [State.discardBlocks, State.channel]
  rw [read]
  split
  · exact .refl
  · exact .single .dropBlock

theorem missedSync_changes (s : State) : s.ChannelsChange s.missedSync := by
  unfold State.missedSync
  split
  · dsimp only
    split
    · refine State.ChannelsChange.raiseBoth (State.ChannelsChange.trans ?_ (discardBlocks_changes _)) _
      exact .of_channels rfl
    · exact .of_channels rfl
  · exact .of_channels rfl

theorem arrival_changes (s : State) (n : ChannelNo) (rin sin : Byte) : s.ChannelsChange (s.arrival n rin sin) := by
  unfold State.arrival
  split
  · have adapted (u : State) (channels : u.channels = s.channels) (f : Channel → Channel)
        (change : (u.channel n).Change (f (u.channel n))) : s.ChannelsChange (u.modChannel n f) :=
      (State.ChannelsChange.of_channels channels).trans (.change u n change)
    unfold State.arrivalWork
    dsimp only
    refine State.ChannelsChange.modMark (State.ChannelsChange.sendCodes ?_ _ _ _) n _
    refine adapted _ ?_ _ (.arrived _ _ _ _ _ _ _)
    split <;> simp
  · exact .refl s

/-! ### The block boundary -/

/-- A level is from −70 to +3 dBm0 (R78). -/
theorem levelOf_range (power : Lin) : -700 ≤ levelOf power ∧ levelOf power ≤ 30 := by
  unfold levelOf
  split <;> omega

theorem measured_sinLevel_range (c : Channel) : -700 ≤ c.measured.sinLevel ∧ c.measured.sinLevel ≤ 30 :=
  levelOf_range _

theorem toneBoundary_changes (s : State) (n : ChannelNo) : s.ChannelsChange (s.toneBoundary n) := by
  have decided : s.ChannelsChange (s.modChannel n fun _ => (s.channel n).decideTone n) := .change s n (.decideTone n)
  unfold State.toneBoundary
  dsimp only
  split
  · exact decided.raiseChannel n _
  · exact decided

theorem divergenceBoundary_changes (s : State) (n : ChannelNo) (r : BlockRecord) :
    s.ChannelsChange (s.divergenceBoundary n r) := by
  have decided : s.ChannelsChange (s.modChannel n fun _ => (s.channel n).decideDivergence r) :=
    .change s n (.decideDivergence r)
  unfold State.divergenceBoundary
  dsimp only
  split
  · exact (decided.raiseChannel n _).trans (requestPurge_changes _ n _)
  · exact decided

theorem convergenceBoundary_changes (s : State) (n : ChannelNo) (r : BlockRecord) :
    s.ChannelsChange (s.convergenceBoundary n r) := by
  have decided : s.ChannelsChange (s.modChannel n fun _ => (s.channel n).decideConvergence r) :=
    .change s n (.decideConvergence r)
  unfold State.convergenceBoundary
  dsimp only
  split
  · exact decided.raiseChannel n _
  · exact decided

/-- A stage of the boundary that changes channel n only, and changes it to d. -/
theorem channelsChange_of_channel {n : ChannelNo} (others : ∀ m, m ≠ n → t.channel m = s.channel m)
    (change : (s.channel n).Changes (t.channel n)) : s.ChannelsChange t := by
  intro m
  by_cases same : m = n
  · subst same; exact change
  · rw [others m same]

theorem trackingBoundary_channel_ne {n m : ChannelNo} (other : m ≠ n) (s : State) (r : BlockRecord) :
    (s.trackingBoundary n r).channel m = s.channel m := by
  have period (u : State) : (u.periodEnd n).channel m = u.channel m := by simp only [State.channel, periodEnd_frame]
  unfold State.trackingBoundary
  dsimp only
  repeat' split
  all_goals simp only [period, channel_modChannel_ne _ other]

theorem trackingBoundary_changes (s : State) (n : ChannelNo) (r : BlockRecord) :
    s.ChannelsChange (s.trackingBoundary n r) :=
  channelsChange_of_channel (fun _ other => trackingBoundary_channel_ne other s r) (by
    rw [trackingBoundary_channel]
    exact .single (.tracked r))

theorem levelBoundary_channel_ne {n m : ChannelNo} (other : m ≠ n) (s : State) :
    (s.levelBoundary n).channel m = s.channel m := by
  unfold State.levelBoundary
  dsimp only
  split <;> split <;> simp only [channel_raiseChannel, channel_modChannel_ne _ other]

theorem levelBoundary_changes (s : State) (n : ChannelNo) : s.ChannelsChange (s.levelBoundary n) :=
  channelsChange_of_channel (fun _ other => levelBoundary_channel_ne other s) (by
    rw [levelBoundary_channel]
    exact .single .levels)

theorem decisions_changes (s : State) (n : ChannelNo) : s.ChannelsChange (s.decisions n) := by
  unfold State.decisions
  dsimp only
  refine State.ChannelsChange.trans ?_ (.change _ n .counted)
  refine State.ChannelsChange.trans ?_ (levelBoundary_changes _ n)
  refine State.ChannelsChange.trans ?_ (trackingBoundary_changes _ n _)
  refine State.ChannelsChange.trans ?_ (.change _ n (.suppressed _ (measured_sinLevel_range _)))
  refine State.ChannelsChange.trans ?_ (.change _ n (.decideStanding _ _))
  refine State.ChannelsChange.trans ?_ (convergenceBoundary_changes _ n _)
  refine State.ChannelsChange.trans ?_ (divergenceBoundary_changes _ n _)
  refine State.ChannelsChange.trans ?_ (toneBoundary_changes _ n)
  refine State.ChannelsChange.trans ?_ (.change _ n (.testDoubleTalk _ _))
  exact (State.ChannelsChange.of_channels (by simp)).trans (.change (s.refreshWeights n) n (.measured _))

theorem applyPending_channel_ne {n m : ChannelNo} (other : m ≠ n) (s : State) :
    (s.applyPending n).channel m = s.channel m := by
  unfold State.applyPending
  dsimp only
  split
  · rfl
  · rw [channel_modMark, channel_modChannel_ne _ other]

theorem applyPending_changes (s : State) (n : ChannelNo) : s.ChannelsChange (s.applyPending n) :=
  channelsChange_of_channel (fun _ other => applyPending_channel_ne other s) (by
    rw [applyPending_channel]
    exact .single .recordApplied)

theorem openBlock_channel_ne {n m : ChannelNo} (other : m ≠ n) (s : State) :
    (s.openBlock n).channel m = s.channel m := by
  unfold State.openBlock
  split
  · rfl
  · rw [channel_modChannel_ne _ other]

theorem openBlock_changes (s : State) (n : ChannelNo) : s.ChannelsChange (s.openBlock n) :=
  channelsChange_of_channel (fun _ other => openBlock_channel_ne other s) (by
    rw [openBlock_channel]
    exact .single (.blockOpened _))

theorem boundary_changes (s : State) (n : ChannelNo) : s.ChannelsChange (s.boundary n) := by
  unfold State.boundary
  split
  · unfold State.boundaryWork
    dsimp only
    refine State.ChannelsChange.modMark (State.ChannelsChange.trans ?_ (openBlock_changes _ n)) n _
    refine State.ChannelsChange.trans ?_ (applyPending_changes _ n)
    split
    · exact .refl s
    · exact decisions_changes s n
  · exact .refl s

/-! ### LC and RESTART -/

theorem takeCommand_changes {code : CommandCode} {work : State → Plane → Args → State}
    (works : ∀ (u : State) (p : Plane) (a : Args), u.ChannelsChange (work u p a)) (s : State) : s.ChannelsChange (s.takeCommand code work) := by
  obtain same | ⟨p, a, -, taken⟩ := takeCommand_cases s code work
  · rw [same]; exact .refl s
  · rw [taken]; exact (State.ChannelsChange.of_channels rfl).trans (works (s.takenFrom p) p a)

theorem swapTake_changes (s : State) : s.ChannelsChange s.swapTake := by
  refine takeCommand_changes (fun u p a => ?_) s
  cases check : u.swapCheck p a with
  | error st => exact .of_channels (by simp [State.swapTakeWork, check, State.refuseTake])
  | ok found =>
    simp only [State.swapTakeWork, check]
    refine State.ChannelsChange.congr ?_ (modPanel_channels _ _ _)
    exact (State.ChannelsChange.of_channels (by simp [exchange_eq])).trans (.change _ found.1 .swapped)

/-- LC's take of an entry of the Relocation Queue changes no channel, or the cursor of one (R130, R131). -/
theorem relocationTakeWork_channels (s : State) : s.relocationTakeWork.channels = s.channels ∨
    ∃ n i, s.relocationTakeWork.channels =
      (s.modChannel n ({ · with cursor := (s.candidate n i + 64) % 2048 })).channels := by
  by_cases chosen : s.choice = some .relocation
  · cases queue : s.relocation with
    | nil => exact .inl (by simp only [State.relocationTakeWork, chosen, queue])
    | cons e rest =>
      by_cases stale : s.stale e = true
      · rw [relocationTakeWork_of_stale chosen queue stale]
        exact .inl rfl
      cases fit : s.fit e.channel with
      | none =>
        rw [relocationTakeWork_of_blocked chosen queue stale fit]
        exact .inl (by simp [State.entryTaken])
      | some d =>
        rw [relocationTakeWork_of_fits chosen queue stale fit]
        rw [fit_eq, Option.map_eq_some_iff] at fit
        obtain ⟨i, -, rfl⟩ := fit
        exact .inr ⟨e.channel, i, rfl⟩
  · refine .inl ?_
    unfold State.relocationTakeWork
    split
    · next chosen' _ => exact absurd chosen' chosen
    · rfl

theorem relocationTakeWork_changes (s : State) : s.ChannelsChange s.relocationTakeWork := by
  obtain same | ⟨n, i, moved⟩ := relocationTakeWork_channels s
  · exact .of_channels same
  · exact (State.ChannelsChange.change s n
      (f := fun c => { c with cursor := (s.candidate n i + 64) % 2048 }) (.searched i)).congr moved

theorem markAtRestart_changes (s : State) (n : ChannelNo) (w : Bool) : s.ChannelsChange (s.markAtRestart n w) := by
  unfold State.markAtRestart
  split
  · exact .refl s
  · exact .change s n .unmarked

theorem restartChannel_changes (s : State) (p : Plane) (n : ChannelNo) : s.ChannelsChange (s.restartChannel p n) := by
  have reset : s.ChannelsChange (s.modChannel n (·.restart)) := .change s n .restart
  have purged : s.ChannelsChange (if (s.channelChain n).isEmpty then s.modChannel n (·.restart)
      else (s.modChannel n (·.restart)).requestPurge n (.ofPlane p)) := by
    split
    · exact reset
    · exact reset.trans (requestPurge_changes _ n _)
  have marked := purged.trans (markAtRestart_changes _ n (decide (s.canceller n = .running)))
  unfold State.restartChannel
  dsimp only
  split
  · exact marked
  · split
    case h_1 | h_2 => exact marked.raiseChannel n _
    all_goals exact marked

/-! ### The effects -/

/-- A command that resets the part or stores configuration records. -/
def setsRecords : Instr → Bool
  | .powerOnReset _ | .writeChannelConfig _ _ _ _ | .writeCoeff _ _ _ _ | .write _ _ _ _ _ => true
  | _ => false

theorem taken_changes (s : State) (p : Plane) (a : Args) (code : CommandCode) : s.ChannelsChange (s.taken p a code) := by
  cases code
  case purge => exact purgeCommand_changes s p _
  case resume => exact resumeCommand_changes s
  case restart =>
    unfold State.taken State.restartCommand
    cases argChannel a with
    | none => exact .refl s
    | some n =>
      dsimp only
      split
      · exact restartChannel_changes s p n
      · exact .refl s
  all_goals exact .of_channels (by simp [State.taken])

theorem effect_changes {c : Instr} (apart : setsRecords c = false) (s : State) : s.ChannelsChange (s.effect c) := by
  cases c
  case powerOnReset | writeChannelConfig | writeCoeff | write => exact absurd apart Bool.noConfusion
  case missedSync => exact missedSync_changes s
  case samplePairArrival n rin sin => exact arrival_changes s n rin sin
  case blockBoundary n => exact boundary_changes s n
  case swapTake => exact swapTake_changes s
  case relocationTake => exact relocationTakeWork_changes s
  case gatherTimerExpiry => exact gatherExpiry_changes s
  case suspendTimerExpiry => exact suspendExpiry_changes s
  case segmentClearEnd => exact clearEnd_changes s
  case purge p a | suspend p a | resume p a | claim p a | unclaim p a | seize p a | restart p a => exact taken_changes s p a _
  case command p code a =>
    cases known : commandOfCode code with
    | none => simp only [State.effect, known]; exact .refl s
    | some named => simp only [State.effect, known]; exact taken_changes s p a named
  case takeEvents p n =>
    obtain h | ⟨m, h⟩ := takeEventsRequest_queue s p n <;> exact .of_channels (by simp [State.effect, h])
  case setTrigger p level =>
    obtain h | ⟨-, -, h⟩ := setTriggerRequest_queue s p level <;> exact .of_channels (by simp [State.effect, h])
  case linkReset p => exact .of_channels (by simp [State.effect, State.linkResetRequest])
  all_goals exact .of_channels (by simp [State.effect])

/-! ### Configuration writes -/

theorem alcOf_range {auto : Bool} {gain upper lower : Int} {a : AlcConfig} (built : alcOf auto gain upper lower = some a) :
    -24 ≤ a.fixedGain ∧ a.fixedGain ≤ 24 := by
  unfold alcOf at built
  split at built
  · next good =>
    cases built
    simp only [goodGain, Bool.and_eq_true, decide_eq_true_iff] at good
    exact good.1.1
  · cases built

theorem decode_gainsInRange {raw : RawRecord} {r : ConfigRecord} (decoded : raw.decode = some r) : r.GainsInRange := by
  unfold RawRecord.decode at decoded
  split at decoded
  · next receive send =>
    split at decoded
    · cases decoded
      exact ⟨alcOf_range ‹_›, alcOf_range ‹_›⟩
    · cases decoded
  · cases decoded

theorem checkRecord_decode {p : Plane} {o : Overlay} {n : ChannelNo} {raw : RawRecord} {r : ConfigRecord}
    (accepted : s.checkRecord p o n raw = .ok r) : raw.decode = some r := by
  unfold State.checkRecord at accepted
  split at accepted
  · cases accepted
  split at accepted
  · cases accepted
  split at accepted
  · cases accepted
  split at accepted
  · cases accepted
  · next decoded => cases accepted; exact decoded

/-- Every record of an accepted WRITE is among the options of R1. -/
theorem checkRecords_inRange {p : Plane} {raws : List (ChannelNo × RawRecord)} {o records : Overlay}
    (old : ∀ x ∈ o, x.2.GainsInRange) (accepted : s.checkRecords p o raws = .ok records) :
    ∀ x ∈ records, x.2.GainsInRange := by
  induction raws generalizing o with
  | nil => cases accepted; exact old
  | cons raw rest ih =>
    unfold State.checkRecords at accepted
    split at accepted
    · cases accepted
    · next record checked =>
      refine ih (fun x member => ?_) accepted
      rw [List.mem_append, List.mem_singleton] at member
      obtain before | rfl := member
      · exact old x before
      · exact decode_gainsInRange (checkRecord_decode checked)

/-- An invariant of accepted records is an invariant of a WRITE. -/
theorem acceptRecords_keeps {P : State → Prop} {records : Overlay}
    (each : ∀ u, ∀ x ∈ records, P u → P (u.modChannel x.1 (·.accept x.2))) (kept : P s) : P (s.acceptRecords records) := by
  unfold State.acceptRecords
  induction records generalizing s with
  | nil => exact kept
  | cons x rest ih =>
    exact ih (fun u y member => each u y (List.mem_cons_of_mem _ member)) (each s x List.mem_cons_self kept)

theorem writeConfig_keeps {P : State → Prop} (each : ∀ u n (r : ConfigRecord), r.GainsInRange → P u →
    P (u.modChannel n (·.accept r))) (kept : P s) (p : Plane) (index count : Nat) (data : List Word) :
    P (s.writeConfig p index count data).1 := by
  unfold State.writeConfig
  split
  · exact kept
  · next records accepted =>
    exact acceptRecords_keeps (fun u x member => each u x.1 x.2 (checkRecords_inRange (by simp) accepted x member)) kept

/-- A predicate on a channel that each change, each accepted record and a reset keeps is kept by every effect. -/
theorem effect_keeps_channels {P : Channel → Prop} (each : ∀ c d : Channel, c.Change d → P c → P d)
    (accept : ∀ (c : Channel) (r : ConfigRecord), r.GainsInRange → P c → P (c.accept r))
    (reset : ∀ n k, P { Channel.reset n with freeBlock := k }) (kept : ∀ n, P (s.channel n)) (c : Instr) :
    ∀ n, P ((s.effect c).channel n) := by
  have write (p : Plane) (space : Byte) (index : Word) (count : Byte) (data : List Word) :
      ∀ n, P ((s.writeRequest p space index count data).state.channel n) := by
    refine writeRequest_keeps (P := fun u => ∀ n, P (u.channel n)) kept ?_ ?_
    · refine writeConfig_keeps (P := fun u => ∀ n, P (u.channel n)) (fun u m r range kept n => ?_) kept _ _ _ _
      rw [channel_modChannel_cases]
      split
      · exact accept _ r range (kept m)
      · exact kept n
    · simpa only [State.channel, writeCoeff_frame] using kept
  by_cases sets : setsRecords c = true
  · cases c
    case powerOnReset law =>
      intro n
      change P ((s.powerOnReset law).channel n)
      rw [channel_powerOnReset]
      exact reset n _
    case writeChannelConfig p index count data | writeCoeff p index count data | write p space index count data =>
      exact write _ _ _ _ _
    all_goals exact absurd sets Bool.noConfusion
  · exact fun n => (effect_changes (Bool.eq_false_iff.2 sets) s n).keeps each (kept n)

end Sys2Proof.Machine
end

section
/-! PROOF. The channels' counts stay in range (R9, R118, R122, R138), and every search cursor stays a multiple of 64 from 0 to
1984 (R124). -/

namespace Sys2Proof.Machine

variable {c d : Channel}

/-! ### A direction of LSU -/

theorem lsuStep_inRange {x : LsuDir} (kept : x.InRange) (up : Int) : (x.step up).1.InRange := by
  obtain ⟨low, high, highs, lows⟩ := kept
  unfold LsuDir.step
  split
  · next inside => exact ⟨inside.1, inside.2, highs, lows⟩
  split
  · exact ⟨low, high, highs, lows⟩
  · exact ⟨low, high, highs, lows⟩

theorem judgeAuto_inRange {x : LsuDir} (kept : x.InRange) (a : AlcConfig) (level : Int) : (x.judgeAuto a level).1.InRange := by
  obtain ⟨low, high, highs, lows⟩ := kept
  unfold LsuDir.judgeAuto
  dsimp only
  split
  · exact ⟨low, high, highs, lows⟩
  split
  · split
    · refine lsuStep_inRange ?_ _
      exact ⟨low, high, Nat.zero_le _, Nat.zero_le _⟩
    · exact ⟨low, high, by dsimp only; omega, by simp⟩
  split
  · split
    · refine lsuStep_inRange ?_ _
      exact ⟨low, high, Nat.zero_le _, Nat.zero_le _⟩
    · exact ⟨low, high, by simp, by dsimp only; omega⟩
  · exact ⟨low, high, by simp, by simp⟩

theorem lsuBoundary_inRange {x : LsuDir} (kept : x.InRange) (a : AlcConfig) (ends : Bool) : (x.boundary a ends).1.InRange := by
  have ⟨low, high, _, _⟩ := kept
  unfold LsuDir.boundary
  dsimp only
  split
  · exact kept
  split
  · exact judgeAuto_inRange (x := { x with windowAcc := [], blockAcc := [] }) kept a _
  · exact ⟨low, high, by simp, by simp⟩

theorem startGain_range {a : AlcConfig} (range : -24 ≤ a.fixedGain ∧ a.fixedGain ≤ 24) :
    -24 ≤ a.startGain ∧ a.startGain ≤ 24 := by
  unfold AlcConfig.startGain
  split <;> omega

theorem lsuRestart_inRange {a : AlcConfig} (range : -24 ≤ a.fixedGain ∧ a.fixedGain ≤ 24) (x : LsuDir) :
    (lsuRestart a x).InRange :=
  ⟨(startGain_range range).1, (startGain_range range).2, Nat.zero_le _, Nat.zero_le _⟩

theorem applyRecord_inRange {x : LsuDir} (kept : x.InRange) {new : AlcConfig}
    (range : -24 ≤ new.fixedGain ∧ new.fixedGain ≤ 24) (old : AlcConfig) : (x.applyRecord old new).InRange := by
  have ⟨low, high, _, _⟩ := kept
  unfold LsuDir.applyRecord
  split
  · exact ⟨range.1, range.2, Nat.zero_le _, Nat.zero_le _⟩
  split
  · exact ⟨low, high, Nat.zero_le _, Nat.zero_le _⟩
  · exact kept

/-! ### The counts of the decisions -/

theorem testDoubleTalk_hangover (kept : c.hangover ≤ 8) (delays : List Nat) (r : BlockRecord) :
    (c.testDoubleTalk delays r).hangover ≤ 8 := by
  unfold Channel.testDoubleTalk
  dsimp only
  split
  · exact Nat.zero_le _
  split
  · exact Nat.le_refl _
  split
  · dsimp only; omega
  · exact kept

theorem quietStep_counts (tones : c.toneCount ≤ 100) (quiets : c.quietCount ≤ 63) (quiet : Bool) :
    (c.quietStep quiet).toneCount ≤ 100 ∧ (c.quietStep quiet).quietCount ≤ 63 := by
  unfold Channel.quietStep
  split
  · split
    · exact ⟨tones, Nat.zero_le _⟩
    · exact ⟨tones, by dsimp only; omega⟩
  · exact ⟨tones, Nat.zero_le _⟩

theorem decideTone_counts (tones : c.toneCount ≤ 100) (quiets : c.quietCount ≤ 63) (n : ChannelNo) :
    (c.decideTone n).toneCount ≤ 100 ∧ (c.decideTone n).quietCount ≤ 63 := by
  have entered (t : Tone) : (c.enterTone t).toneCount ≤ 100 ∧ (c.enterTone t).quietCount ≤ 63 :=
    ⟨Nat.zero_le _, Nat.zero_le _⟩
  unfold Channel.decideTone
  split
  · unfold Channel.toneEnabled
    cases c.tone
    case listening =>
      dsimp only
      split
      · exact ⟨by simp, quiets⟩
      · exact ⟨tones, quiets⟩
    case tone =>
      dsimp only
      split
      · exact ⟨Nat.zero_le _, quiets⟩
      split
      · exact ⟨by dsimp only; omega, quiets⟩
      split
      · exact entered _
      · exact entered _
    case bypassSuppressor =>
      dsimp only
      split
      · exact ⟨tones, Nat.zero_le _⟩
      · exact quietStep_counts tones quiets _
    case bypassFull => exact quietStep_counts tones quiets _
  · exact entered _

theorem divStateOf_below {k : Nat} (outside : divStateOf k ≠ .diverged) : k < 192 := by
  by_contra above
  exact outside (by simp only [divStateOf]; rw [if_neg (by omega), if_neg above])

theorem decideDivergence_counts (count : c.divCount ≤ 199) (below : c.divState ≠ .diverged → c.divCount < 192)
    (r : BlockRecord) : (c.decideDivergence r).divCount ≤ 199 ∧
      ((c.decideDivergence r).divState ≠ .diverged → (c.decideDivergence r).divCount < 192) := by
  unfold Channel.decideDivergence
  split
  · exact ⟨count, below⟩
  · next outside =>
    have before := below outside
    have next : nextDivCount c.divCount r ≤ 199 := by
      unfold nextDivCount
      split
      · omega
      split <;> omega
    refine ⟨?_, divStateOf_below⟩
    dsimp only
    split
    · exact next
    · exact count

theorem decideConvergence_runCount (kept : c.runCount ≤ 8) (r : BlockRecord) : (c.decideConvergence r).runCount ≤ 8 := by
  unfold Channel.decideConvergence
  split
  · exact Nat.zero_le _
  · exact Nat.zero_le _
  split
  · exact kept
  split
  · exact Nat.min_le_left _ _
  · exact Nat.zero_le _

theorem decideSuppressor_suppHangover (kept : c.suppHangover ≤ 2) (r : BlockRecord) :
    (c.decideSuppressor r).suppHangover ≤ 2 := by
  unfold Channel.decideSuppressor
  split
  · exact Nat.zero_le _
  split
  · exact Nat.le_refl _
  split
  · exact kept
  split
  · dsimp only; omega
  · exact kept

theorem decideSuppressor_background (c : Channel) (r : BlockRecord) :
    (c.decideSuppressor r).background = c.background := by
  unfold Channel.decideSuppressor
  repeat' split
  all_goals rfl

theorem moveBackground_background {r : BlockRecord} (range : -700 ≤ r.sinLevel ∧ r.sinLevel ≤ 30)
    (kept : -700 ≤ c.background ∧ c.background ≤ 30) :
    -700 ≤ (c.moveBackground r).background ∧ (c.moveBackground r).background ≤ 30 := by
  unfold Channel.moveBackground
  split
  · exact kept
  · dsimp only; split
    · omega
    split <;> omega

theorem moveBackground_suppHangover (c : Channel) (r : BlockRecord) :
    (c.moveBackground r).suppHangover = c.suppHangover := by
  unfold Channel.moveBackground
  split <;> rfl

theorem nextTrackCount_le (kept : c.trackCount ≤ 63) (r : BlockRecord) : c.nextTrackCount r ≤ 63 := by
  unfold Channel.nextTrackCount
  split
  · exact Nat.zero_le _
  split
  · exact kept
  split <;> omega

/-! ### Resets and records -/

/-- A channel at its defaults under a record is in range. -/
theorem restarted_inRange {r : ConfigRecord} (range : r.GainsInRange) (governing : c.governing.GainsInRange)
    (pending : ∀ x, c.pendingRecord = some x → x.GainsInRange) : (c.restarted r).InRange where
  governing := governing
  pendingRecord := pending
  receive := lsuRestart_inRange range.1 _
  send := lsuRestart_inRange range.2 _
  divCount := Nat.zero_le _
  divBelow _ := Nat.zero_lt_succ _
  runCount := Nat.zero_le _
  hangover := Nat.zero_le _
  toneCount := Nat.zero_le _
  quietCount := Nat.zero_le _
  suppHangover := Nat.zero_le _
  background := by simp [Channel.restarted]
  trackCount := Nat.zero_le _
  windowPos := Nat.zero_le _

theorem leaveOff_inRange {r : ConfigRecord} (range : r.GainsInRange) : (c.leaveOff r).InRange :=
  { restarted_inRange (c := { c with governing := r, pendingRecord := none }) range range (by simp) with }

theorem enterOff_inRange {r : ConfigRecord} (range : r.GainsInRange) : (c.enterOff r).InRange :=
  { restarted_inRange (c := { c with governing := r, pendingRecord := none }) range range (by simp) with }

theorem restart_inRange (kept : c.InRange) : c.restart.InRange :=
  { restarted_inRange kept.governing kept.governing kept.pendingRecord with }

theorem applyRunning_inRange {r : ConfigRecord} (kept : c.InRange) (range : r.GainsInRange) : (c.applyRunning r).InRange :=
  { kept with
    governing := range
    pendingRecord := by simp [Channel.applyRunning]
    receive := applyRecord_inRange kept.receive range.1 _
    send := applyRecord_inRange kept.send range.2 _ }

theorem recordApplied_inRange (kept : c.InRange) : c.recordApplied.InRange := by
  unfold Channel.recordApplied
  split
  · exact kept
  · next r pending =>
    have range := kept.pendingRecord r pending
    split
    · exact leaveOff_inRange range
    · exact applyRunning_inRange kept range

theorem accept_inRange (kept : c.InRange) {r : ConfigRecord} (range : r.GainsInRange) : (c.accept r).InRange := by
  unfold Channel.accept
  split
  · exact { kept with pendingRecord := by rintro x stored; cases stored; exact range }
  split
  · exact { kept with governing := range, pendingRecord := by simp }
  · exact enterOff_inRange range

/-! ### Every change -/

theorem enterRestarting_inRange (kept : c.InRange) (w : Bool) (f : Framing) : (c.enterRestarting w f).InRange := by
  unfold Channel.enterRestarting
  split
  · exact kept
  · exact { kept with runCount := Nat.zero_le _ }

theorem leaveRestarting_inRange (kept : c.InRange) : c.leaveRestarting.InRange := by
  unfold Channel.leaveRestarting
  split
  · exact kept
  split
  · exact { kept with divCount := Nat.zero_le _, divBelow := fun _ => Nat.zero_lt_succ _ }
  · exact { kept with }

theorem blockOpened_inRange (kept : c.InRange) (state : Canceller) : (c.blockOpened state).InRange := by
  unfold Channel.blockOpened
  split
  · exact kept
  · exact { kept with }

theorem change_inRange (change : c.Change d) (kept : c.InRange) : d.InRange := by
  cases change with
  | owed | searched | arrived | measured | counted | unmarked | dropBlock | decideStanding => exact { kept with }
  | enterRestarting w f => exact enterRestarting_inRange kept w f
  | leaveRestarting => exact leaveRestarting_inRange kept
  | swapped =>
    exact { kept with
      divCount := Nat.zero_le _, divBelow := fun _ => Nat.zero_lt_succ _, runCount := Nat.zero_le _
      trackCount := Nat.zero_le _ }
  | testDoubleTalk delays r =>
    have bound := testDoubleTalk_hangover kept.hangover delays r
    obtain ⟨p, x, h, written⟩ := testDoubleTalk_writes c delays r
    rw [written] at bound ⊢
    exact { kept with hangover := bound }
  | decideTone n =>
    have bounds := decideTone_counts kept.toneCount kept.quietCount n
    obtain ⟨t, k, x, q, written⟩ := decideTone_writes c n
    rw [written] at bounds ⊢
    exact { kept with toneCount := bounds.1, quietCount := bounds.2 }
  | decideDivergence r =>
    have bounds := decideDivergence_counts kept.divCount kept.divBelow r
    obtain ⟨k, x, written⟩ : ∃ k x, c.decideDivergence r = { c with divCount := k, divState := x } := by
      unfold Channel.decideDivergence
      split
      · exact ⟨_, _, rfl⟩
      · exact ⟨_, _, rfl⟩
    rw [written] at bounds ⊢
    exact { kept with divCount := bounds.1, divBelow := bounds.2 }
  | decideConvergence r =>
    have bound := decideConvergence_runCount kept.runCount r
    obtain ⟨a, b, written⟩ := decideConvergence_writes c r
    rw [written] at bound ⊢
    exact { kept with runCount := bound }
  | suppressed r range =>
    have held : ((c.decideSuppressor r).moveBackground r).suppHangover ≤ 2 := by
      rw [moveBackground_suppHangover]; exact decideSuppressor_suppHangover kept.suppHangover r
    have level := moveBackground_background (c := c.decideSuppressor r) range (by
      rw [decideSuppressor_background]; exact kept.background)
    obtain ⟨a, b, x, written⟩ := suppressor_writes c r
    rw [written] at held level ⊢
    exact { kept with suppHangover := held, background := level }
  | tracked r => exact { kept with trackCount := nextTrackCount_le kept.trackCount r }
  | levels =>
    refine { kept with
      receive := lsuBoundary_inRange kept.receive _ _, send := lsuBoundary_inRange kept.send _ _, windowPos := ?_ }
    have before := kept.windowPos
    simp only [Channel.windowEnds, decide_eq_true_iff]
    split <;> omega
  | recordApplied => exact recordApplied_inRange kept
  | blockOpened state => exact blockOpened_inRange kept state
  | restart => exact restart_inRange kept

theorem reset_inRange (n : ChannelNo) (k : Nat) : ({ Channel.reset n with freeBlock := k } : Channel).InRange := by
  have range := powerOnReset_countsInv (State.powerOn .aLaw) .aLaw n
  rw [channel_powerOnReset] at range
  exact { range with }

theorem channels_offLinks (P : Channel → Prop) : OffLinks fun s => ∀ n, P (s.channel n) := by
  intro s p f _ kept n
  rw [channel_modPort]
  exact kept n

theorem effect_countsInv {s : State} (kept : s.CountsInv) (c : Instr) : (s.effect c).CountsInv :=
  effect_keeps_channels (fun _ _ change => change_inRange change) (fun _ _ range kept => accept_inRange kept range)
    reset_inRange kept c

/-- Settles O57: each elementary change of a channel keeps its counts in range. -/
theorem stepKeepsChannelCounts : Obligations.StepKeepsChannelCounts := by
  unfold Obligations.StepKeepsChannelCounts
  intro s t kept answer
  exact step_keeps (P := State.CountsInv) (channels_offLinks Channel.InRange) (fun _ _ kept => kept)
    (fun _ c kept => effect_countsInv kept c) kept answer

/-! ### Search cursors (R124) -/

/-- A search cursor is a multiple of 64 from 0 to 1984. -/
def Channel.CursorFits (c : Channel) : Prop := c.cursor % 64 = 0 ∧ c.cursor ≤ Config.maxDelay

theorem change_cursor (change : c.Change d) :
    d.cursor = c.cursor ∨ d.cursor = 0 ∨ ∃ i, d.cursor = ((c.cursor + 64 * i) % 2048 + 64) % 2048 := by
  cases change with
  | searched i => exact .inr (.inr ⟨i, rfl⟩)
  | restart => exact .inr (.inl rfl)
  | enterRestarting w f => obtain ⟨a, b, x, y, written⟩ := enterRestarting_writes c w f; rw [written]; exact .inl rfl
  | leaveRestarting => unfold Channel.leaveRestarting; refine .inl ?_; repeat' split
                       all_goals rfl
  | testDoubleTalk delays r => obtain ⟨p, x, h, written⟩ := testDoubleTalk_writes c delays r; rw [written]; exact .inl rfl
  | decideTone n => obtain ⟨t, k, x, q, written⟩ := decideTone_writes c n; rw [written]; exact .inl rfl
  | decideDivergence r => unfold Channel.decideDivergence; refine .inl ?_; split <;> rfl
  | decideConvergence r => obtain ⟨a, b, written⟩ := decideConvergence_writes c r; rw [written]; exact .inl rfl
  | suppressed r range => obtain ⟨a, b, x, written⟩ := suppressor_writes c r; rw [written]; exact .inl rfl
  | recordApplied =>
    unfold Channel.recordApplied
    refine .inl ?_
    split
    · rfl
    · split <;> rfl
  | blockOpened state => unfold Channel.blockOpened; refine .inl ?_; split <;> rfl
  | _ => exact .inl rfl

theorem change_cursorFits (change : c.Change d) (kept : c.CursorFits) : d.CursorFits := by
  unfold Channel.CursorFits Config.maxDelay at *
  obtain same | zero | ⟨i, found⟩ := change_cursor change <;> omega

theorem effect_cursorFits {s : State} (kept : ∀ n, (s.channel n).CursorFits) (c : Instr) :
    ∀ n, ((s.effect c).channel n).CursorFits := by
  refine effect_keeps_channels (fun _ _ change => change_cursorFits change) (fun c r _ kept => ?_)
    (fun n k => ⟨rfl, Nat.zero_le _⟩) kept c
  have same : (c.accept r).cursor = c.cursor := by
    unfold Channel.accept
    split
    · rfl
    split <;> rfl
  unfold Channel.CursorFits
  rw [same]
  exact kept

end Sys2Proof.Machine
end

section
/-! PROOF. The form of the lists, and that LC's current command goes on fitting its target (R27, R41, R124). -/

namespace Sys2Proof.Machine

variable {s t : State} {c : ChainCode} {g : SegNo}

theorem delay_congr {x : SegNo} (same : (t.segment x).startDelay = (s.segment x).startDelay) : t.delay x = s.delay x := by
  simp only [State.delay, same]

/-! ### The form of a list -/

/-- A list of the form of R27, with the members' start delays read in s. -/
def State.Formed (s : State) (l : List SegNo) : Prop :=
  l.length ≤ Config.maxChain ∧ (∀ g ∈ l, ∃ d, (s.segment g).startDelay = some d ∧ goodDelay d = true) ∧
    l.Pairwise fun g h => s.delay g + 64 ≤ s.delay h

theorem chainForm_iff (s : State) (c : ChainCode) : s.ChainForm c ↔ s.Formed (s.chain c) := Iff.rfl

theorem State.Formed.congr {l : List SegNo} (form : s.Formed l)
    (delays : ∀ g ∈ l, (t.segment g).startDelay = (s.segment g).startDelay) : t.Formed l := by
  obtain ⟨short, good, ordered⟩ := form
  refine ⟨short, fun g member => ?_, ordered.imp_of_mem fun first second apart => ?_⟩
  · rw [delays g member]; exact good g member
  · rw [delay_congr (delays _ first), delay_congr (delays _ second)]; exact apart

theorem State.Formed.erase {l : List SegNo} (form : s.Formed l) (g : SegNo) : s.Formed (l.erase g) := by
  obtain ⟨short, good, ordered⟩ := form
  exact ⟨(List.erase_sublist.length_le).trans short, fun h member => good h (List.mem_of_mem_erase member),
    ordered.sublist List.erase_sublist⟩

theorem not_overlaps_of (d e : Nat) (apart : overlaps d e = false) : d + 64 ≤ e ∨ e + 64 ≤ d := by
  by_contra close
  have both : overlaps d e = true := (overlaps_iff d e).2 ⟨by omega, by omega⟩
  rw [apart] at both
  cases both

/-- A segment linked into a list that it fits leaves the list in form (R29, R41). -/
theorem formed_insert {d : Nat} (form : s.Formed (s.chain c)) (fits : s.Fits c d) (outside : g ∉ s.chain c)
    (linked : (t.segment g).startDelay = some d)
    (delays : ∀ h, h ≠ g → (t.segment h).startDelay = (s.segment h).startDelay) :
    t.Formed (insertByDelay s.delay g d (s.chain c)) := by
  obtain ⟨good, room, apart⟩ := fits
  obtain ⟨before, after, split, inserted, least, greatest⟩ := insertByDelay_split s.delay g d (s.chain c)
  have old : t.Formed (s.chain c) := form.congr fun h member => delays h fun same => outside (same ▸ member)
  obtain ⟨-, olds, ordered⟩ := old
  have at_g : t.delay g = d := by simp [State.delay, linked]
  have at_other {h : SegNo} (member : h ∈ s.chain c) : t.delay h = s.delay h :=
    delay_congr (delays h fun same => outside (same ▸ member))
  have gap {h : SegNo} (member : h ∈ s.chain c) : d + 64 ≤ t.delay h ∨ t.delay h + 64 ≤ d := by
    rw [at_other member]; exact not_overlaps_of _ _ (apart h member)
  rw [split] at ordered
  rw [List.pairwise_append] at ordered
  obtain ⟨orderedBefore, orderedAfter, across⟩ := ordered
  have below : ∀ h ∈ before, t.delay h + 64 ≤ d := by
    intro h member
    have inside : h ∈ s.chain c := by rw [split]; exact List.mem_append_left _ member
    have := at_other inside
    have := least h member
    have := gap inside
    omega
  have above : ∀ h ∈ after, d + 64 ≤ t.delay h := by
    intro h member
    have inside : h ∈ s.chain c := by rw [split]; exact List.mem_append_right _ member
    have far := gap inside
    have reach : d < t.delay h := by
      cases after with
      | nil => cases member
      | cons x rest =>
        have first := greatest x rfl
        have insideX : x ∈ s.chain c := by rw [split]; simp
        have readX := at_other insideX
        obtain rfl | later := List.mem_cons.1 member
        · omega
        · have := (List.pairwise_cons.1 orderedAfter).1 h later; omega
    omega
  rw [inserted]
  refine ⟨?_, fun h member => ?_, ?_⟩
  · rw [split, List.length_append] at room
    simp only [List.length_append, List.length_cons]
    omega
  · rw [List.mem_append, List.mem_cons] at member
    by_cases same : h = g
    · subst same; exact ⟨d, linked, good⟩
    · exact olds h (by rw [split, List.mem_append]; tauto)
  · rw [List.pairwise_append, List.pairwise_cons]
    refine ⟨orderedBefore, ⟨fun h member => ?_, orderedAfter⟩, fun h first x second => ?_⟩
    · rw [at_g]; exact above h member
    · obtain rfl | later := List.mem_cons.1 second
      · rw [at_g]; exact below h first
      · exact across h first x later

/-! ### The current command fits its target (R41) -/

theorem State.Fits.congr {d : Nat} (fits : s.Fits c d) (chain : t.chain c = s.chain c)
    (delays : ∀ h, (t.segment h).startDelay = (s.segment h).startDelay) : t.Fits c d := by
  unfold State.Fits
  rw [chain]
  obtain ⟨good, room, apart⟩ := fits
  exact ⟨good, room, fun h member => by rw [delay_congr (delays h)]; exact apart h member⟩

theorem jobFits_of_current_none (free : s.lc.current = none) : s.JobFits := by
  unfold State.JobFits; rw [free]; trivial

/-- What JobFits says of one command. -/
def State.WorkFits (s : State) : LcWork → Prop
  | .allocate c d | .move c d => s.Fits c d
  | .relocation n d => s.Fits (channelCode n) d
  | .release | .empty _ _ => True

theorem jobFits_of_current {job : LcJob} (busy : s.lc.current = some job) : s.JobFits ↔ s.WorkFits job.work := by
  unfold State.JobFits
  rw [busy]
  cases job with
  | mk work issuer => cases work <;> exact Iff.rfl

theorem State.WorkFits.congr {w : LcWork} (fits : s.WorkFits w) (chains : t.chains = s.chains)
    (delays : ∀ h, (t.segment h).startDelay = (s.segment h).startDelay) : t.WorkFits w := by
  cases w with
  | allocate c d | move c d | relocation n d => exact State.Fits.congr fits (chain_congr chains _) delays
  | release | empty => trivial

theorem jobFits_congr (fits : s.JobFits) (chains : t.chains = s.chains) (current : t.lc.current = s.lc.current)
    (delays : ∀ h, (t.segment h).startDelay = (s.segment h).startDelay) : t.JobFits := by
  cases busy : s.lc.current with
  | none => exact jobFits_of_current_none (current.trans busy)
  | some job =>
    exact (jobFits_of_current (current.trans busy)).2 (((jobFits_of_current busy).1 fits).congr chains delays)

theorem State.Fits.of_targets {job : LcJob} {d : Nat} (fits : s.JobFits) (busy : s.lc.current = some job)
    (target : job.work.Targets c d) : s.Fits c d := by
  have works := (jobFits_of_current busy).1 fits
  obtain same | same | ⟨n, code, same⟩ := target <;> rw [same] at works
  · exact works
  · exact works
  · exact code ▸ works

/-- A candidate of the relocation search is an acceptable start delay (R124, R130). -/
theorem goodDelay_candidate {n : ChannelNo} (cursor : (s.channel n).CursorFits) (i : Nat) :
    goodDelay (s.candidate n i) = true := by
  have ⟨multiple, bound⟩ := cursor
  rw [goodDelay_iff]
  unfold State.candidate
  unfold Config.maxDelay at bound
  omega

/-- What LC has checked at an unlink still holds of the lists without the segment (R41). -/
theorem workFits_of_checked {w : LcWork} (pool : s.PoolInv) (cursors : ∀ n, (s.channel n).CursorFits)
    (form : s.Formed (s.chain c)) (member : g ∈ s.chain c) (checked : s.Checked c g w)
    (chains : t.chains = (s.setChain c ((s.chain c).erase g)).chains) (segments : t.segments = s.segments) :
    t.WorkFits w := by
  have delays (h : SegNo) : t.delay h = s.delay h := delay_congr (by rw [segment_congr segments])
  have shorter : (t.chain c).length < Config.maxChain := by
    rw [chain_of_setChain chains, List.length_erase_of_mem member]
    have := form.1
    have := List.length_pos_of_mem member
    omega
  have stays {h : SegNo} (inside : h ∈ t.chain c) : h ∈ s.chain c ∧ h ≠ g := by
    rw [chain_of_setChain chains, (pool.chain_nodup c).mem_erase_iff] at inside
    exact inside.symm
  cases w with
  | allocate => exact checked.elim
  | release | empty => trivial
  | move e d =>
    obtain ⟨good, room, apart⟩ := checked
    by_cases same : e = c
    · subst same
      refine ⟨good, shorter, fun h inside => ?_⟩
      rw [delays]
      exact apart h (stays inside).1 (stays inside).2
    · have read := chain_of_setChain_ne chains same
      refine ⟨good, by rw [read]; exact room same, fun h inside => ?_⟩
      rw [read] at inside
      rw [delays]
      exact apart h inside fun isG => same (pool.chain_unique (isG ▸ inside) member)
  | relocation n d =>
    obtain ⟨rfl, ⟨i, rfl⟩, apart⟩ := checked
    exact ⟨goodDelay_candidate (cursors n) i, shorter, fun h inside => by rw [delays]; exact apart h (stays inside).1⟩

/-! ### What a structural event keeps -/

/-- The part of the invariant that speaks of the lists. -/
def State.ListsFormed (s : State) : Prop := (∀ c, s.ChainForm c) ∧ s.JobFits

theorem State.ListsFormed.congr (formed : s.ListsFormed) (chains : t.chains = s.chains)
    (current : t.lc.current = s.lc.current) (delays : ∀ h, (t.segment h).startDelay = (s.segment h).startDelay) :
    t.ListsFormed := by
  refine ⟨fun c => ?_, jobFits_congr formed.2 chains current delays⟩
  rw [chainForm_iff, chain_congr chains]
  exact State.Formed.congr (formed.1 c) fun h _ => delays h

theorem listEvent_listsFormed (pool : s.PoolInv) (cursors : ∀ n, (s.channel n).CursorFits) (formed : s.ListsFormed)
    (event : s.ListEvent t) : t.ListsFormed := by
  have ⟨forms, fits⟩ := formed
  cases event with
  | idle same => exact formed.congr same.chains same.current fun h => by rw [segment_congr same.segments]
  | vacated g c member same =>
    refine formed.congr same.chains same.current fun h => ?_
    rw [segment_congr same.segments]
    by_cases isG : h = g
    · subst isG; rw [segment_modSegment]
    · rw [segment_modSegment_ne s isG]
  | takeFree g c d i idle first checked free chains transit segments current =>
    have delays (h : SegNo) : (t.segment h).startDelay = (s.segment h).startDelay := by rw [segment_congr segments]
    refine ⟨fun e => ?_, (jobFits_of_current current).2 (checked.congr (chain_congr chains c) delays)⟩
    rw [chainForm_iff, chain_congr chains]
    exact State.Formed.congr (forms e) fun h _ => delays h
  | takeChained g c job member idle checked free chains transit segments current =>
    have delays (h : SegNo) : (t.segment h).startDelay = (s.segment h).startDelay := by rw [segment_congr segments]
    refine ⟨fun e => ?_, (jobFits_of_current current).2
      (workFits_of_checked pool cursors (forms c) member checked chains segments)⟩
    rw [chainForm_iff]
    by_cases same : e = c
    · subst same
      rw [chain_of_setChain chains]
      exact (State.Formed.erase (forms e) g).congr fun h _ => delays h
    · rw [chain_of_setChain_ne chains same]
      exact State.Formed.congr (forms e) fun h _ => delays h
  | link g c d job x carried busy target delay free chains transit segments current =>
    have outside (e : ChainCode) : g ∉ s.chain e := fun member => pool.chain_not_transit member carried
    have linked : (t.segment g).startDelay = some d := by rw [segment_congr segments, segment_modSegment, delay]
    have delays (h : SegNo) (other : h ≠ g) : (t.segment h).startDelay = (s.segment h).startDelay := by
      rw [segment_congr segments, segment_modSegment_ne s other]
    refine ⟨fun e => ?_, jobFits_of_current_none current⟩
    rw [chainForm_iff]
    by_cases same : e = c
    · subst same
      rw [chain_of_setChain chains]
      exact formed_insert (forms e) (.of_targets fits busy target) (outside e) linked delays
    · rw [chain_of_setChain_ne chains same]
      exact State.Formed.congr (forms e) fun h member => delays h fun isG => outside e (isG ▸ member)
  | linkFree g job carried work free chains transit segments current =>
    have outside (e : ChainCode) : g ∉ s.chain e := fun member => pool.chain_not_transit member carried
    refine ⟨fun e => ?_, ?_⟩
    · rw [chainForm_iff, chain_congr chains]
      refine State.Formed.congr (forms e) fun h member => ?_
      rw [segment_congr segments, segment_modSegment_ne s fun isG : h = g => outside e (isG ▸ member)]
    · obtain freed | goesOn := current
      · exact jobFits_of_current_none freed
      · refine (jobFits_of_current goesOn).2 ?_
        obtain same | ⟨c, k, same⟩ := work <;> rw [same] <;> trivial
  | exchange c w ne free chains transit segments current idle =>
    refine ⟨fun e => ?_, jobFits_of_current_none current⟩
    obtain ⟨f, same⟩ : ∃ f, t.chain e = s.chain f := by
      by_cases isW : e = w
      · subst isW; exact ⟨c, chain_of_setChain chains⟩
      by_cases isC : e = c
      · subst isC; exact ⟨w, (chain_of_setChain_ne chains isW).trans (chain_setChain s e _)⟩
      · exact ⟨e, (chain_of_setChain_ne chains isW).trans (chain_setChain_ne s isC _)⟩
    rw [chainForm_iff, same]
    exact State.Formed.congr (forms f) fun h _ => by rw [segment_congr segments]

theorem effect_listsFormed (pool : s.PoolInv) (cursors : ∀ n, (s.channel n).CursorFits) (formed : s.ListsFormed)
    (c : Instr) : (s.effect c).ListsFormed := by
  by_cases lists : changesLists c = true
  · by_cases reset : ∃ law, c = .powerOnReset law
    · obtain ⟨law, rfl⟩ := reset
      exact ⟨powerOnReset_chainForm s law, jobFits_of_current_none rfl⟩
    · exact listEvent_listsFormed pool cursors formed
        (effect_listEvent pool lists fun law same => reset ⟨law, same⟩)
  · have kept := effect_poolKept (Bool.eq_false_iff.2 lists) s
    exact formed.congr kept.chains kept.current kept.delays

theorem listsFormed_offLinks : OffLinks State.ListsFormed := fun s p f _ formed =>
  formed.congr (modPort_chains s p f) (by simp) fun h => by rw [segment_modPort]

/-- Settles O54: an event of LC keeps every list in form since its checks go on holding until the link (R41). -/
theorem stepKeepsChainForm : Obligations.StepKeepsChainForm := by
  unfold Obligations.StepKeepsChainForm
  intro s t pool chains answer
  obtain ⟨forms, fits, cursors⟩ := chains
  have kept : t.PoolInv ∧ (∀ n, (t.channel n).CursorFits) ∧ t.ListsFormed := by
    refine step_keeps (P := fun u => u.PoolInv ∧ (∀ n, (u.channel n).CursorFits) ∧ u.ListsFormed) ?_ (fun _ _ kept => kept)
      ?_ ⟨pool, cursors, forms, fits⟩ answer
    · rintro u p f queue ⟨pool, cursors, formed⟩
      exact ⟨poolInv_offLinks u p f queue pool, channels_offLinks _ u p f queue cursors,
        listsFormed_offLinks u p f queue formed⟩
    · rintro u c ⟨pool, cursors, formed⟩
      exact ⟨effect_poolInv pool c, effect_cursorFits cursors c, effect_listsFormed pool cursors formed c⟩
  obtain ⟨-, cursors, forms, fits⟩ := kept
  exact ⟨forms, fits, cursors⟩

end Sys2Proof.Machine
end

section
/-! PROOF. The bounds of the event queues and of the Relocation Queue (R127, R173, R176). An event queue is changed by records
that arrive, which no OVERRUN is, and by the requests of its own link. -/

namespace Sys2Proof.Machine

variable {s t u : State}

/-! ### Records that arrive at a queue -/

/-- A record that is no OVERRUN arrives. -/
def Queue.Arrival (q q' : Queue) : Prop := ∃ r : EventRecord, r.isOverrun = false ∧ q' = q.arrive r

/-- The queues are changed by arrivals only. -/
def State.QueuesGrow (s t : State) : Prop :=
  ∀ p, Relation.ReflTransGen Queue.Arrival (s.port p).queue (t.port p).queue

theorem State.QueuesGrow.of_queues (queues : t.portA.queue = s.portA.queue ∧ t.portB.queue = s.portB.queue) :
    s.QueuesGrow t := by
  intro p
  have same : (t.port p).queue = (s.port p).queue := by
    cases p
    · exact queues.1
    · exact queues.2
  rw [same]

theorem State.QueuesGrow.refl (s : State) : s.QueuesGrow s := .of_queues ⟨rfl, rfl⟩

theorem State.QueuesGrow.trans (first : s.QueuesGrow t) (second : t.QueuesGrow u) : s.QueuesGrow u :=
  fun p => (first p).trans (second p)

theorem State.QueuesGrow.congr (grow : s.QueuesGrow t)
    (queues : u.portA.queue = t.portA.queue ∧ u.portB.queue = t.portB.queue) : s.QueuesGrow u :=
  grow.trans (.of_queues queues)

theorem Queue.Bounded.of_arrivals {q q' : Queue} (bounded : q.Bounded) (grow : Relation.ReflTransGen Queue.Arrival q q') :
    q'.Bounded := by
  induction grow with
  | refl => exact bounded
  | tail _ arrival ih =>
    obtain ⟨r, proper, rfl⟩ := arrival
    exact ih.arrive r proper

theorem raise_grows (s : State) (toA toB : Bool) {e : Event} (proper : eventKind e ≠ .overrun) :
    s.QueuesGrow (s.raise toA toB e) := by
  intro p
  rw [raise_port]
  split_ifs
  · exact .single ⟨_, decide_eq_false proper, rfl⟩
  · exact .refl

theorem State.QueuesGrow.raise (grow : s.QueuesGrow t) (toA toB : Bool) {e : Event} (proper : eventKind e ≠ .overrun) :
    s.QueuesGrow (t.raise toA toB e) := grow.trans (raise_grows t toA toB proper)

theorem State.QueuesGrow.raiseChannel (grow : s.QueuesGrow t) (n : ChannelNo) {e : Event}
    (proper : eventKind e ≠ .overrun) : s.QueuesGrow (t.raiseChannel n e) := grow.raise _ _ proper

theorem modChannel_grows (s : State) (n : ChannelNo) (f : Channel → Channel) : s.QueuesGrow (s.modChannel n f) :=
  .of_queues ⟨rfl, rfl⟩

theorem State.QueuesGrow.requestPurge (grow : s.QueuesGrow t) (n : ChannelNo) (r : Requesters) :
    s.QueuesGrow (t.requestPurge n r) := grow.congr (by simp)

/-! ### The operations that raise -/

theorem finishEntry_grows (s : State) (e : BatchEntry) : s.QueuesGrow (s.finishEntry e) := by
  have marked (x : Pge) : s.QueuesGrow { s with pge := x } := .of_queues ⟨rfl, rfl⟩
  have raised (x : Pge) := (marked x).raise (purgeRoutes e.requesters (s.holder e.list) .a)
    (purgeRoutes e.requesters (s.holder e.list) .b) (e := .purgeDone e.list e.requesters) (by simp [eventKind])
  unfold State.finishEntry
  dsimp only
  split
  · exact (raised _).trans (.of_queues ⟨rfl, rfl⟩)
  · exact raised _

theorem selectNext_grows (fuel : Nat) (s : State) : s.QueuesGrow (s.selectNext fuel) := by
  induction fuel generalizing s with
  | zero => exact .refl s
  | succ fuel ih =>
    unfold State.selectNext
    split
    · exact .of_queues (by simp)
    · split
      · exact (finishEntry_grows s _).trans (ih _)
      · exact .of_queues ⟨rfl, rfl⟩

theorem run_grows (s : State) : s.QueuesGrow s.run := by
  unfold State.run
  refine State.QueuesGrow.trans ?_ (selectNext_grows _ _)
  exact .of_queues ⟨rfl, rfl⟩

theorem gatherExpiry_grows (s : State) : s.QueuesGrow s.gatherExpiry := by
  unfold State.gatherExpiry
  split
  · exact run_grows s
  · exact .refl s

theorem suspendExpiry_grows (s : State) : s.QueuesGrow s.suspendExpiry := by
  unfold State.suspendExpiry
  split
  · exact ((State.QueuesGrow.refl s).raise true true (by simp [eventKind])).trans (run_grows _)
  · exact .refl s

theorem resumeCommand_grows (s : State) : s.QueuesGrow s.resumeCommand.1 := by
  unfold State.resumeCommand
  split
  · exact run_grows s
  all_goals exact .of_queues ⟨rfl, rfl⟩

theorem clearEnd_grows (s : State) : s.QueuesGrow s.clearEnd := by
  have finished (u : State) (c : ChainCode) : u.QueuesGrow (u.finishIfDone c) := by
    unfold State.finishIfDone
    split
    · split
      · exact finishEntry_grows u _
      · exact .refl u
    · exact .refl u
  have after (u : State) : u.QueuesGrow u.afterClear := by
    unfold State.afterClear
    split
    · exact selectNext_grows _ u
    · split
      · exact .of_queues ⟨rfl, rfl⟩
      · exact .of_queues (by simp)
    all_goals exact .refl u
  unfold State.clearEnd
  split
  · exact .refl s
  · exact (State.QueuesGrow.of_queues (by simp)).trans ((finished _ _).trans (after _))

theorem syncPulse_grows (s : State) (position : Fin Config.framePositions) : s.QueuesGrow (s.syncPulse position) := by
  unfold State.syncPulse
  split
  · split <;> exact .of_queues ⟨rfl, rfl⟩
  · dsimp only
    split
    · refine State.QueuesGrow.raise ?_ true true (by simp [eventKind])
      exact .of_queues ⟨rfl, rfl⟩
    · exact .of_queues ⟨rfl, rfl⟩

theorem missedSync_grows (s : State) : s.QueuesGrow s.missedSync := by
  unfold State.missedSync
  split
  · dsimp only
    split
    · refine State.QueuesGrow.raise ?_ true true (by simp [eventKind])
      exact .of_queues ⟨rfl, rfl⟩
    · exact .of_queues ⟨rfl, rfl⟩
  · exact .of_queues ⟨rfl, rfl⟩

theorem toneBoundary_grows (s : State) (n : ChannelNo) : s.QueuesGrow (s.toneBoundary n) := by
  unfold State.toneBoundary
  dsimp only
  split
  · exact (modChannel_grows s n _).raiseChannel n (by simp [eventKind])
  · exact modChannel_grows s n _

theorem divergenceBoundary_grows (s : State) (n : ChannelNo) (r : BlockRecord) :
    s.QueuesGrow (s.divergenceBoundary n r) := by
  unfold State.divergenceBoundary
  dsimp only
  split
  · refine State.QueuesGrow.requestPurge ?_ n _
    exact (modChannel_grows s n _).raiseChannel n (by simp [eventKind])
  · exact modChannel_grows s n _

theorem convergenceBoundary_grows (s : State) (n : ChannelNo) (r : BlockRecord) :
    s.QueuesGrow (s.convergenceBoundary n r) := by
  unfold State.convergenceBoundary
  dsimp only
  split
  · exact (modChannel_grows s n _).raiseChannel n (by simp [eventKind])
  · exact modChannel_grows s n _

theorem levelBoundary_grows (s : State) (n : ChannelNo) : s.QueuesGrow (s.levelBoundary n) := by
  have limited (u : State) (grow : s.QueuesGrow u) (send : Bool) (gain : Option Int) :
      s.QueuesGrow (match gain with
        | some g => u.raiseChannel n (.levelLimit n send g)
        | none => u) := by
    split
    · exact grow.raiseChannel n (by simp [eventKind])
    · exact grow
  unfold State.levelBoundary
  exact limited _ (limited _ (modChannel_grows s n _) false _) true _

/-- The decisions that raise no event, between those of EEA's convergence and LSU. -/
theorem silentDecisions_grows (s : State) (n : ChannelNo) (r : BlockRecord) :
    s.QueuesGrow (((s.standingBoundary n r).suppressorBoundary n r).trackingBoundary n r) := .of_queues (by simp)

theorem decisions_grows (s : State) (n : ChannelNo) : s.QueuesGrow (s.decisions n) := by
  unfold State.decisions
  dsimp only
  refine State.QueuesGrow.trans ?_ (modChannel_grows _ n _)
  refine State.QueuesGrow.trans ?_ (levelBoundary_grows _ n)
  refine State.QueuesGrow.trans ?_ (silentDecisions_grows _ n _)
  refine State.QueuesGrow.trans ?_ (convergenceBoundary_grows _ n _)
  refine State.QueuesGrow.trans ?_ (divergenceBoundary_grows _ n _)
  refine State.QueuesGrow.trans ?_ (toneBoundary_grows _ n)
  exact .of_queues (by simp)

theorem boundary_grows (s : State) (n : ChannelNo) : s.QueuesGrow (s.boundary n) := by
  have applied (u : State) : u.QueuesGrow (((u.applyPending n).openBlock n).modMark n ({ · with boundary := true })) :=
    .of_queues (by simp)
  unfold State.boundary State.boundaryWork
  dsimp only
  split
  · split
    · exact applied s
    · exact (decisions_grows s n).trans (applied _)
  · exact .refl s

theorem relocationTakeWork_grows (s : State) : s.QueuesGrow s.relocationTakeWork := by
  have taken (rest : List RelocEntry) (l : Lc) : s.QueuesGrow { s with relocation := rest, lc := l } := .of_queues ⟨rfl, rfl⟩
  unfold State.relocationTakeWork
  split
  · dsimp only
    split
    · exact taken _ _
    · split
      · exact ((taken _ _).raiseChannel _ (by simp [eventKind])).congr ⟨rfl, rfl⟩
      · exact .of_queues (by simp)
  · exact .refl s

theorem relocationLinkWork_grows (s : State) : s.QueuesGrow s.relocationLinkWork := by
  have linked (c : ChainCode) (g : SegNo) (d : Nat) : s.QueuesGrow ((s.link c g d true).completeJob id) :=
    .of_queues (by simp)
  unfold State.relocationLinkWork
  split
  · dsimp only
    split
    · exact linked _ _ _
    · exact (linked _ _ _).raiseChannel _ (by simp [eventKind])
  · exact .refl s

theorem seizeCommand_grows (s : State) (p : Plane) (claimable : Option ChainCode) :
    s.QueuesGrow (s.seizeCommand p claimable).1 := by
  cases claimable with
  | none => exact .refl s
  | some c =>
    have seized : s.QueuesGrow (s.setHolder c (some p)) := .of_queues ⟨rfl, rfl⟩
    unfold State.seizeCommand
    dsimp only
    split
    · exact seized.raise _ _ (by simp [eventKind])
    · exact seized

theorem restartChannel_grows (s : State) (p : Plane) (n : ChannelNo) : s.QueuesGrow (s.restartChannel p n) := by
  have marked (f : Channel → Channel) (r : Requesters) (w : Bool) : s.QueuesGrow
      ((if (s.channelChain n).isEmpty then s.modChannel n f else (s.modChannel n f).requestPurge n r).markAtRestart n w) := by
    split <;> exact .of_queues (by simp)
  unfold State.restartChannel
  dsimp only
  split
  · exact marked _ _ _
  · split
    case h_1 | h_2 => exact (marked _ _ _).raiseChannel n (by simp [eventKind])
    all_goals exact marked _ _ _

theorem taken_grows (s : State) (p : Plane) (a : Args) (code : CommandCode) : s.QueuesGrow (s.taken p a code) := by
  cases code
  case resume => exact resumeCommand_grows s
  case seize => exact seizeCommand_grows s p _
  case restart =>
    unfold State.taken State.restartCommand
    cases argChannel a with
    | none => exact .refl s
    | some n =>
      dsimp only
      split
      · exact restartChannel_grows s p n
      · exact .refl s
  all_goals exact .of_queues (by simp [State.taken])

/-! ### The event queues -/

/-- Both event queues are within their bounds. -/
def State.EventsBounded (s : State) : Prop := ∀ p, (s.port p).queue.Bounded

theorem State.EventsBounded.grow (bounded : s.EventsBounded) (grow : s.QueuesGrow t) : t.EventsBounded :=
  fun p => (bounded p).of_arrivals (grow p)

theorem State.EventsBounded.modPort (bounded : s.EventsBounded) {p : Plane} {f : Port → Port}
    (changed : (f (s.port p)).queue.Bounded) : (s.modPort p f).EventsBounded := by
  intro q
  by_cases same : q = p
  · subst same; rw [port_modPort]; exact changed
  · rw [port_modPort_ne s same]; exact bounded q

theorem effect_eventsBounded (bounded : s.EventsBounded) (c : Instr) : (s.effect c).EventsBounded := by
  have grown (grow : s.QueuesGrow (s.effect c)) : (s.effect c).EventsBounded := bounded.grow grow
  cases c
  case powerOnReset law =>
    intro p
    change ((s.powerOnReset law).port p).queue.Bounded
    rw [port_powerOnReset]
    exact queue_reset_bounded
  case takeEvents p n =>
    obtain h | ⟨m, h⟩ := takeEventsRequest_queue s p n <;> simp only [State.effect, h]
    · exact bounded
    · exact bounded.modPort ((bounded p).remove m)
  case setTrigger p level =>
    obtain h | ⟨least, most, h⟩ := setTriggerRequest_queue s p level <;> simp only [State.effect, h]
    · exact bounded
    · obtain ⟨length, apart, -, -⟩ := bounded p
      exact bounded.modPort ⟨length, apart, least, most⟩
  case linkReset p =>
    have detached (l : Lc) : ({ s with lc := l } : State).EventsBounded := bounded.grow (.of_queues ⟨rfl, rfl⟩)
    exact (detached _).modPort queue_reset_bounded
  case quietTimerExpiry p =>
    refine bounded.modPort ?_
    dsimp only
    split <;> exact bounded p
  case writeChannelConfig p index count data | writeCoeff p index count data | write p space index count data =>
    exact writeRequest_keeps (P := State.EventsBounded) bounded (bounded.grow (.of_queues (by simp)))
      (bounded.grow (.of_queues (by simp)))
  case syncPulse position => exact grown (syncPulse_grows s position)
  case missedSync => exact grown (missedSync_grows s)
  case blockBoundary n => exact grown (boundary_grows s n)
  case relocationTake => exact grown (relocationTakeWork_grows s)
  case relocationLink => exact grown (relocationLinkWork_grows s)
  case gatherTimerExpiry => exact grown (gatherExpiry_grows s)
  case suspendTimerExpiry => exact grown (suspendExpiry_grows s)
  case segmentClearEnd => exact grown (clearEnd_grows s)
  case purge p a | suspend p a | resume p a | claim p a | unclaim p a | seize p a | restart p a => exact grown (taken_grows s p a _)
  case command p code a =>
    refine grown ?_
    cases known : commandOfCode code with
    | none => simp only [State.effect, known]; exact .refl s
    | some named => simp only [State.effect, known]; exact taken_grows s p a named
  case emptyUnlink =>
    refine grown (.of_queues ?_)
    simp [State.effect]
  all_goals exact grown (.of_queues (by simp [State.effect]))

theorem eventsBounded_offLinks : OffLinks State.EventsBounded := by
  intro s p f queue bounded
  exact bounded.modPort (by rw [queue]; exact bounded p)

/-! ### The Relocation Queue -/

/-- The Relocation Queue is within its bounds (R127). -/
def RelocationBounded (queue : List RelocEntry) : Prop :=
  queue.length ≤ Config.maxRelocation ∧ (queue.map RelocEntry.segment).Nodup

theorem offer_bounded {queue : List RelocEntry} (bounded : RelocationBounded queue) (n : ChannelNo) (g : SegNo) :
    RelocationBounded (offer queue n g) := by
  obtain ⟨length, distinct⟩ := bounded
  unfold offer
  split
  · exact ⟨length, distinct⟩
  · next accepts =>
    rw [not_or] at accepts
    obtain ⟨lacks, room⟩ := accepts
    simp only [Bool.not_eq_true, List.any_eq_false, decide_eq_true_eq] at lacks
    refine ⟨?_, ?_⟩
    · rw [List.length_append, List.length_singleton]; omega
    · rw [List.map_append, List.nodup_append]
      refine ⟨distinct, by simp, fun x member y new => ?_⟩
      obtain ⟨e, old, rfl⟩ := List.mem_map.1 member
      rw [List.map_singleton, List.mem_singleton] at new
      rw [new]
      exact lacks e old

theorem foldl_offer_bounded {queue : List RelocEntry} (bounded : RelocationBounded queue) (n : ChannelNo)
    (offered : List SegNo) : RelocationBounded (offered.foldl (fun queue g => offer queue n g) queue) := by
  induction offered generalizing queue with
  | nil => exact bounded
  | cons g rest ih => exact ih (offer_bounded bounded n g)

theorem trackingBoundary_relocationBounded (bounded : RelocationBounded s.relocation) (n : ChannelNo) (r : BlockRecord) :
    RelocationBounded (s.trackingBoundary n r).relocation := by
  unfold State.trackingBoundary
  dsimp only
  split
  · exact bounded
  split
  · exact bounded
  split
  · exact foldl_offer_bounded bounded n _
  · exact bounded

theorem boundary_relocationBounded (bounded : RelocationBounded s.relocation) (n : ChannelNo) :
    RelocationBounded (s.boundary n).relocation := by
  have decided : RelocationBounded (s.decisions n).relocation := by
    unfold State.decisions
    dsimp only
    rw [modChannel_relocation]
    simp only [levelBoundary_frame]
    refine trackingBoundary_relocationBounded ?_ n _
    simpa using bounded
  unfold State.boundary State.boundaryWork
  dsimp only
  split
  · simp only [modMark_relocation, openBlock_frame, applyPending_frame]
    split
    · exact bounded
    · exact decided
  · exact bounded

theorem relocationTakeWork_relocationBounded (bounded : RelocationBounded s.relocation) :
    RelocationBounded s.relocationTakeWork.relocation := by
  unfold State.relocationTakeWork
  split
  · next e rest _ queue =>
    have popped : RelocationBounded rest := by
      rw [queue] at bounded
      obtain ⟨length, distinct⟩ := bounded
      rw [List.length_cons] at length
      rw [List.map_cons, List.nodup_cons] at distinct
      exact ⟨by omega, distinct.2⟩
    dsimp only
    split
    · exact popped
    · split
      · simpa using popped
      · exact popped
  · exact bounded

theorem taken_relocation (s : State) (p : Plane) (a : Args) (code : CommandCode) :
    (s.taken p a code).relocation = s.relocation := by
  cases code <;> simp [State.taken]

theorem effect_relocationBounded (bounded : RelocationBounded s.relocation) (c : Instr) :
    RelocationBounded (s.effect c).relocation := by
  have same (unchanged : (s.effect c).relocation = s.relocation) : RelocationBounded (s.effect c).relocation := by
    rw [unchanged]; exact bounded
  cases c
  case powerOnReset law => exact ⟨Nat.zero_le _, .nil⟩
  case blockBoundary n => exact boundary_relocationBounded bounded n
  case relocationTake => exact relocationTakeWork_relocationBounded bounded
  case writeChannelConfig p index count data | writeCoeff p index count data | write p space index count data =>
    exact same (writeRequest_keeps (P := fun u => u.relocation = s.relocation) rfl (by simp) (by simp))
  case takeEvents p n =>
    obtain h | ⟨m, h⟩ := takeEventsRequest_queue s p n <;> exact same (by simp [State.effect, h])
  case setTrigger p level =>
    obtain h | ⟨-, -, h⟩ := setTriggerRequest_queue s p level <;> exact same (by simp [State.effect, h])
  case command p code a => exact same (by cases h : commandOfCode code <;> simp [State.effect, h, taken_relocation])
  case linkReset p => exact same (by simp [State.effect, State.linkResetRequest])
  case purge p a | suspend p a | resume p a | claim p a | unclaim p a | seize p a | restart p a =>
    exact same (taken_relocation s p a _)
  all_goals exact same (by simp [State.effect])

theorem queuesInv_iff (s : State) : s.QueuesInv ↔ s.EventsBounded ∧ RelocationBounded s.relocation := by
  constructor
  · rintro ⟨a, b, relocation⟩
    exact ⟨fun p => by cases p <;> assumption, relocation⟩
  · rintro ⟨events, relocation⟩
    exact ⟨events .a, events .b, relocation⟩

/-- Settles O55: a queue is changed by arrivals of records that are no OVERRUN, by removals, resets and new triggers; the
Relocation Queue by offers and by the removal of its head. -/
theorem stepKeepsQueues : Obligations.StepKeepsQueues := by
  unfold Obligations.StepKeepsQueues
  intro s t kept answer
  rw [queuesInv_iff] at kept ⊢
  refine step_keeps (P := fun u => u.EventsBounded ∧ RelocationBounded u.relocation) ?_ (fun _ _ kept => kept) ?_ kept answer
  · rintro u p f queue ⟨events, relocation⟩
    exact ⟨eventsBounded_offLinks u p f queue events, by rw [modPort_relocation]; exact relocation⟩
  · rintro u c ⟨events, relocation⟩
    exact ⟨effect_eventsBounded events c, effect_relocationBounded relocation c⟩

end Sys2Proof.Machine
end

section
/-! PROOF. The Purge Engine's state follows its batch, which holds at most 16 entries and no list twice (R59, R60). -/

namespace Sys2Proof.Machine

variable {s t : State} {e : Pge}

/-! ### Structural events (R68) -/

theorem disturbed_lists (e : Pge) (c : ChainCode) :
    (e.disturbed c).batch.map BatchEntry.list = e.batch.map BatchEntry.list := by
  unfold Pge.disturbed
  rw [List.map_map]
  refine List.map_congr_left fun x _ => ?_
  simp only [Function.comp]
  split <;> rfl

theorem disturbed_finished {c : ChainCode} {y : BatchEntry} :
    y ∈ (e.disturbed c).batch → ∃ x ∈ e.batch, y.list = x.list ∧ y.finished = x.finished := by
  intro member
  obtain ⟨x, old, rfl⟩ := List.mem_map.1 member
  refine ⟨x, old, ?_⟩
  split <;> exact ⟨rfl, rfl⟩

theorem disturbed_finished_of_mem {c : ChainCode} {x : BatchEntry} (member : x ∈ e.batch) :
    ∃ y ∈ (e.disturbed c).batch, y.list = x.list ∧ y.finished = x.finished := by
  refine ⟨_, List.mem_map_of_mem member, ?_⟩
  split <;> exact ⟨rfl, rfl⟩

theorem disturbed_clear_none {c : ChainCode} (idle : e.clear = none) : (e.disturbed c).clear = none := by
  simp [Pge.disturbed, idle]

theorem disturbed_clear_some {c : ChainCode} {k : Clear} (clearing : e.clear = some k) :
    ∃ k', (e.disturbed c).clear = some k' ∧ k'.list = k.list := by
  simp only [Pge.disturbed, clearing, Option.map_some]
  exact ⟨_, rfl, by split <;> rfl⟩

theorem disturbed_inv (inv : e.Inv) (c : ChainCode) : (e.disturbed c).Inv := by
  obtain ⟨length, distinct, follows⟩ := inv
  have same : (e.disturbed c).engine = e.engine := rfl
  refine ⟨by simpa [Pge.disturbed] using length, by rw [disturbed_lists]; exact distinct, ?_⟩
  rw [same]
  have running (works : e.gatherTimer = false ∧ e.suspendTimer = false ∧
      ∃ k, e.clear = some k ∧ ∃ x ∈ e.batch, x.list = k.list ∧ x.finished = false) :
      e.gatherTimer = false ∧ e.suspendTimer = false ∧
        ∃ k, (e.disturbed c).clear = some k ∧ ∃ x ∈ (e.disturbed c).batch, x.list = k.list ∧ x.finished = false := by
    obtain ⟨gather, suspend, k, clearing, x, member, named, unfinished⟩ := works
    obtain ⟨k', clearing', list⟩ := disturbed_clear_some (c := c) clearing
    obtain ⟨y, member', named', unfinished'⟩ := disturbed_finished_of_mem (c := c) member
    exact ⟨gather, suspend, k', clearing', y, member', by rw [named', named, list], by rw [unfinished', unfinished]⟩
  cases engine : e.engine with
  | idle =>
    rw [engine] at follows
    obtain ⟨empty, clear, gather, suspend⟩ := follows
    exact ⟨by simp [Pge.disturbed, empty], disturbed_clear_none clear, gather, suspend⟩
  | gathering =>
    rw [engine] at follows
    obtain ⟨filled, fresh, clear, gather, suspend⟩ := follows
    refine ⟨by simpa [Pge.disturbed] using filled, fun y member => ?_, disturbed_clear_none clear, gather, suspend⟩
    obtain ⟨x, old, -, finished⟩ := disturbed_finished member
    rw [finished, fresh x old]
  | running => rw [engine] at follows; exact running follows
  | suspending => rw [engine] at follows; exact running follows
  | suspended =>
    rw [engine] at follows
    obtain ⟨clear, gather, suspend, x, member, unfinished⟩ := follows
    obtain ⟨y, member', -, unfinished'⟩ := disturbed_finished_of_mem (c := c) member
    exact ⟨disturbed_clear_none clear, gather, suspend, y, member', by rw [unfinished', unfinished]⟩

/-! ### Requests (R61, R63, R73) -/

/-- A request of a list can start a batch or join one. -/
def Pge.Accepts (e : Pge) : Prop := e.engine = .idle ∨ e.engine = .gathering ∧ e.batch.length < Config.maxBatch

theorem joinBatch_lists {c : ChainCode} {r : Requesters} {batch : List BatchEntry}
    (distinct : (batch.map BatchEntry.list).Nodup) : ((joinBatch c r batch).map BatchEntry.list).Nodup := by
  unfold joinBatch
  split
  · have lists : (batch.map fun e => if e.list = c then { e with requesters := e.requesters.union r } else e).map
        BatchEntry.list = batch.map BatchEntry.list := by
      rw [List.map_map]
      refine List.map_congr_left fun x _ => ?_
      simp only [Function.comp]
      split <;> rfl
    rw [lists]
    exact distinct
  · next lacks =>
    simp only [Bool.not_eq_true, List.any_eq_false, decide_eq_true_eq] at lacks
    rw [List.map_append, List.nodup_append]
    refine ⟨distinct, by simp, fun x member y new => ?_⟩
    obtain ⟨old, inside, rfl⟩ := List.mem_map.1 member
    rw [List.map_singleton, List.mem_singleton] at new
    rw [new]
    exact lacks old inside

theorem joinBatch_length (c : ChainCode) (r : Requesters) (batch : List BatchEntry) :
    (joinBatch c r batch).length ≤ batch.length + 1 := by
  unfold joinBatch
  split <;> simp

theorem joinBatch_ne_nil {c : ChainCode} {r : Requesters} {batch : List BatchEntry} (filled : batch ≠ []) :
    joinBatch c r batch ≠ [] := by
  unfold joinBatch
  split
  · simpa using filled
  · simp

theorem joinBatch_fresh {c : ChainCode} {r : Requesters} {batch : List BatchEntry}
    (fresh : ∀ x ∈ batch, x.finished = false) : ∀ x ∈ joinBatch c r batch, x.finished = false := by
  intro x member
  unfold joinBatch at member
  split at member
  · obtain ⟨y, old, rfl⟩ := List.mem_map.1 member
    split <;> exact fresh y old
  · rw [List.mem_append, List.mem_singleton] at member
    obtain old | rfl := member
    · exact fresh x old
    · rfl

theorem joinPurge_inv (inv : s.pge.Inv) (accepts : s.pge.Accepts) (c : ChainCode) (r : Requesters) :
    (s.joinPurge c r).pge.Inv := by
  obtain ⟨length, distinct, follows⟩ := inv
  unfold State.joinPurge
  dsimp only
  obtain idle | ⟨gathering, room⟩ := accepts
  · rw [idle] at follows ⊢
    obtain ⟨-, clear, -, suspend⟩ := follows
    exact ⟨by simp [Config.maxBatch], by simp, by simp, by simp [BatchEntry.joining], clear, rfl, suspend⟩
  · rw [gathering] at follows ⊢
    obtain ⟨filled, fresh, clear, gather, suspend⟩ := follows
    have grown := joinBatch_length c r s.pge.batch
    refine ⟨by dsimp only; omega, joinBatch_lists distinct, ?_⟩
    exact ⟨joinBatch_ne_nil filled, joinBatch_fresh fresh, clear, gather, suspend⟩

@[simp] theorem setOwed_enterRestarting_pge (s : State) (c d : ChainCode) (b : Bool) :
    ((s.enterRestarting c).setOwed d b).pge = s.pge := by simp

theorem requestPurge_inv (inv : s.pge.Inv) (n : ChannelNo) (r : Requesters) : (s.requestPurge n r).pge.Inv := by
  unfold State.requestPurge
  dsimp only
  split
  · next idle => exact joinPurge_inv inv (.inl idle) _ r
  · next gathering =>
    split
    · rw [setOwed_enterRestarting_pge]; exact inv
    · next room => exact joinPurge_inv inv (.inr ⟨gathering, by omega⟩) _ r
  all_goals rw [setOwed_enterRestarting_pge]; exact inv

theorem purgeCommand_inv (inv : s.pge.Inv) (p : Plane) (c : Option ChainCode) : (s.purgeCommand p c).1.pge.Inv := by
  cases c with
  | none => exact inv
  | some c =>
    unfold State.purgeCommand
    dsimp only
    split
    · exact inv
    split
    case h_4 idle => exact joinPurge_inv inv (.inl idle) c _
    case h_5 gathering =>
      split
      · exact inv
      · next room => exact joinPurge_inv inv (.inr ⟨gathering, by omega⟩) c _
    all_goals exact inv

/-! ### Selections and exhausted batches (R64, R67) -/

/-- PGE between the end of a clear, or of a timer, and what follows it: no clear is in progress and no timer runs. -/
structure Pge.Between (e : Pge) : Prop where
  length : e.batch.length ≤ Config.maxBatch
  distinct : (e.batch.map BatchEntry.list).Nodup
  clear : e.clear = none
  gatherTimer : e.gatherTimer = false
  suspendTimer : e.suspendTimer = false

theorem owedBatch_distinct (owed : ChannelNo → Bool) (f : ChannelNo → BatchEntry) (list : ∀ n, (f n).list = channelCode n) :
    (((((List.finRange 128).filter owed).take 16).map f).map BatchEntry.list).Nodup := by
  rw [List.map_map]
  refine List.Nodup.map (fun n m same => ?_) (((List.nodup_finRange 128).filter _).sublist (List.take_sublist _ _))
  simp only [Function.comp, list] at same
  exact Fin.ext (congrArg (fun c : ChainCode => c.val) same)

theorem exhausts_inv (between : s.pge.Between) {done : List BatchEntry} (exhausts : s.Exhausts t done) : t.pge.Inv := by
  obtain ⟨whenNone, whenSome, -⟩ := exhausts
  by_cases none : (((List.finRange 128).filter fun n => (s.channel n).owed).take 16) = []
  · rw [whenNone none]
    exact ⟨Nat.zero_le _, .nil, rfl, rfl, between.gatherTimer, between.suspendTimer⟩
  · rw [whenSome none]
    refine ⟨?_, owedBatch_distinct _ _ fun _ => rfl, ?_, ?_, rfl, rfl, between.suspendTimer⟩
    · dsimp only
      rw [List.length_map, List.length_take]
      exact Nat.min_le_left _ _
    · simpa using none
    · intro x member
      obtain ⟨n, -, rfl⟩ := List.mem_map.1 member
      rfl

/-- A selection either begins a clear on an unfinished entry or exhausts the batch (R64). -/
theorem selects_cases (selects : s.Selects t) :
    (∃ passed e rest g, s.pge.batch = passed ++ e :: rest ∧ e.finished = false ∧
      t.pge = { s.pge with
        batch := (passed.map fun x => { x with finished := true }) ++ e :: rest
        clear := some { list := e.list, segment := g, disturbed := false } }) ∨
    ∃ done, s.Exhausts t done := by
  obtain ⟨begins, exhausts⟩ := selects
  cases found : s.pge.batch.find? fun x => !x.finished && decide (x.progress < (s.chain x.list).length) with
  | none =>
    refine .inr ⟨_, (exhausts fun x member => ?_).2⟩
    have nothing := List.find?_eq_none.1 found x member
    simp only [Bool.and_eq_true, Bool.not_eq_true', decide_eq_true_eq, not_and, not_lt] at nothing
    cases finished : x.finished
    · exact .inr (nothing finished)
    · exact .inl finished
  | some e =>
    obtain ⟨left, passed, rest, split, before⟩ := List.find?_eq_some_iff_append.1 found
    simp only [Bool.and_eq_true, Bool.not_eq_true', decide_eq_true_eq] at left
    refine .inl ⟨passed, e, rest, (s.chain e.list)[e.progress], split, left.1, ?_⟩
    refine (begins passed e rest _ split (fun x member => ?_) left.1 (List.getElem?_eq_getElem left.2)).2.2
    have nothing := before x member
    simp only [Bool.not_eq_true', Bool.and_eq_false_iff, Bool.not_eq_false', decide_eq_false_iff_not, not_lt] at nothing
    exact nothing

theorem select_inv (between : s.pge.Between) (running : s.pge.engine = .running) : s.select.pge.Inv := by
  obtain ⟨passed, e, rest, g, split, unfinished, after⟩ | ⟨done, exhausts⟩ :=
    selects_cases (select_selects s between.distinct)
  · have lists : ((passed.map fun x : BatchEntry => { x with finished := true }) ++ e :: rest).map BatchEntry.list =
        s.pge.batch.map BatchEntry.list := by
      rw [split, List.map_append, List.map_append, List.map_map]
      rfl
    rw [after]
    refine ⟨?_, by dsimp only; rw [lists]; exact between.distinct, ?_⟩
    · have length := between.length
      rw [← List.length_map BatchEntry.list, ← lists, List.length_map] at length
      exact length
    · dsimp only
      rw [running]
      exact ⟨between.gatherTimer, between.suspendTimer, _, rfl, e, by simp, rfl, unfinished⟩
  · exact exhausts_inv between exhausts

theorem run_inv (length : s.pge.batch.length ≤ Config.maxBatch) (distinct : (s.pge.batch.map BatchEntry.list).Nodup)
    (clear : s.pge.clear = none) : s.run.pge.Inv := by
  unfold State.run
  exact select_inv ⟨length, distinct, clear, rfl, rfl⟩ rfl

theorem gatherExpiry_inv (inv : s.pge.Inv) : s.gatherExpiry.pge.Inv := by
  unfold State.gatherExpiry
  split
  · next expires =>
    obtain ⟨length, distinct, follows⟩ := inv
    rw [expires.1] at follows
    exact run_inv length distinct follows.2.2.1
  · exact inv

theorem suspendExpiry_inv (inv : s.pge.Inv) : s.suspendExpiry.pge.Inv := by
  unfold State.suspendExpiry
  split
  · next expires =>
    obtain ⟨length, distinct, follows⟩ := inv
    rw [expires.1] at follows
    have same : (s.raiseBoth .purgeResumed).pge = s.pge := by simp
    exact run_inv (by rw [same]; exact length) (by rw [same]; exact distinct) (by rw [same]; exact follows.1)
  · exact inv

theorem resumeCommand_inv (inv : s.pge.Inv) : s.resumeCommand.1.pge.Inv := by
  have ⟨length, distinct, follows⟩ := inv
  unfold State.resumeCommand
  split
  · next suspended =>
    rw [suspended] at follows
    exact run_inv length distinct follows.1
  · next suspending =>
    rw [suspending] at follows
    exact ⟨length, distinct, follows⟩
  all_goals exact inv

theorem suspendCommand_inv (inv : s.pge.Inv) : s.suspendCommand.1.pge.Inv := by
  have ⟨length, distinct, follows⟩ := inv
  unfold State.suspendCommand
  split
  · next running =>
    rw [running] at follows
    exact ⟨length, distinct, follows⟩
  all_goals exact inv

/-! ### The end of a clear (R65, R66, R70) -/

theorem Pge.Between.of_lists {batch : List BatchEntry} (between : e.Between)
    (lists : batch.map BatchEntry.list = e.batch.map BatchEntry.list) : Pge.Between { e with batch := batch } where
  length := by
    have length := between.length
    rw [← List.length_map BatchEntry.list, ← lists, List.length_map] at length
    exact length
  distinct := by dsimp only; rw [lists]; exact between.distinct
  clear := between.clear
  gatherTimer := between.gatherTimer
  suspendTimer := between.suspendTimer

theorem finishList_lists (c : ChainCode) (batch : List BatchEntry) :
    (finishList c batch).map BatchEntry.list = batch.map BatchEntry.list := by
  unfold finishList
  rw [List.map_map]
  refine List.map_congr_left fun x _ => ?_
  simp only [Function.comp]
  split <;> rfl

theorem finishIfDone_between (between : s.pge.Between) (c : ChainCode) :
    (s.finishIfDone c).pge.Between ∧ (s.finishIfDone c).pge.engine = s.pge.engine := by
  unfold State.finishIfDone
  split
  · next x _ =>
    split
    · obtain ⟨-, -, pge⟩ := finishEntry_finishes s x
      rw [pge]
      exact ⟨between.of_lists (finishList_lists _ _), rfl⟩
    · exact ⟨between, rfl⟩
  · exact ⟨between, rfl⟩

theorem endClear_between (length : s.pge.batch.length ≤ Config.maxBatch)
    (distinct : (s.pge.batch.map BatchEntry.list).Nodup) (gather : s.pge.gatherTimer = false)
    (suspend : s.pge.suspendTimer = false) (k : Clear) :
    (s.endClear k).pge.Between ∧ (s.endClear k).pge.engine = s.pge.engine := by
  have base : Pge.Between { s.pge with clear := none } := ⟨length, distinct, rfl, gather, suspend⟩
  unfold State.endClear
  dsimp only
  refine ⟨base.of_lists ?_, rfl⟩
  split
  · rfl
  · rw [List.map_map]
    refine List.map_congr_left fun x _ => ?_
    simp only [Function.comp]
    split <;> rfl

theorem afterClear_inv (between : s.pge.Between) (working : s.pge.engine = .running ∨ s.pge.engine = .suspending) :
    s.afterClear.pge.Inv := by
  unfold State.afterClear
  obtain running | suspending := working
  · rw [running]; exact select_inv between running
  · rw [suspending]
    dsimp only
    split
    · next left =>
      obtain ⟨x, found⟩ := Option.isSome_iff_exists.1 left
      have unfinished : x.finished = false := by simpa using List.find?_some found
      exact ⟨between.length, between.distinct, between.clear, between.gatherTimer, rfl, x, List.mem_of_find?_eq_some found,
        unfinished⟩
    · exact exhausts_inv between (exhaust_exhausts s).2

theorem clearEnd_inv (inv : s.pge.Inv) : s.clearEnd.pge.Inv := by
  have ⟨length, distinct, follows⟩ := inv
  unfold State.clearEnd
  split
  · exact inv
  · next k clearing =>
    obtain ⟨working, gather, suspend⟩ : (s.pge.engine = .running ∨ s.pge.engine = .suspending) ∧
        s.pge.gatherTimer = false ∧ s.pge.suspendTimer = false := by
      cases engine : s.pge.engine <;> rw [engine] at follows
      · rw [clearing] at follows; cases follows.2.1
      · rw [clearing] at follows; cases follows.2.2.1
      · exact ⟨.inl rfl, follows.1, follows.2.1⟩
      · exact ⟨.inr rfl, follows.1, follows.2.1⟩
      · rw [clearing] at follows; cases follows.1
    obtain ⟨ended, engineEnded⟩ := endClear_between length distinct gather suspend k
    obtain ⟨finished, engineFinished⟩ := finishIfDone_between ended k.list
    exact afterClear_inv finished (by rw [engineFinished, engineEnded]; exact working)

/-! ### What LC's events do to PGE (R68) -/

/-- PGE is changed by structural events only. -/
def Pge.Disturbances (e e' : Pge) : Prop := Relation.ReflTransGen (fun x y => ∃ c, y = Pge.disturbed x c) e e'

theorem Pge.Disturbances.inv {e e' : Pge} (changes : e.Disturbances e') (inv : e.Inv) : e'.Inv := by
  induction changes with
  | refl => exact inv
  | tail _ change ih => obtain ⟨c, rfl⟩ := change; exact disturbed_inv ih c

theorem Pge.Disturbances.of_eq {e e' : Pge} (same : e' = e) : e.Disturbances e' := by rw [same]; exact .refl

theorem Pge.Disturbances.one {e e' : Pge} {c : ChainCode} (disturbed : e' = e.disturbed c) : e.Disturbances e' :=
  .single ⟨c, disturbed⟩

theorem takeCommand_disturbs {code : CommandCode} {work : State → Plane → Args → State}
    (works : ∀ (u : State) (p : Plane) (a : Args), u.pge.Disturbances (work u p a).pge) (s : State) :
    s.pge.Disturbances (s.takeCommand code work).pge := by
  obtain same | ⟨p, a, -, taken⟩ := takeCommand_cases s code work
  · rw [same]; exact .refl
  · rw [taken]; exact works (s.takenFrom p) p a

theorem listEffect_disturbs {c : Instr} (lists : changesLists c = true) (reset : ∀ law, c ≠ .powerOnReset law) (s : State) :
    s.pge.Disturbances (s.effect c).pge := by
  have unlinked (u : State) (c : ChainCode) (g : SegNo) : (u.unlink c g).pge = u.pge.disturbed c := rfl
  have linked (u : State) (c : ChainCode) (g : SegNo) (d : Nat) (z : Bool) : (u.link c g d z).pge = u.pge.disturbed c := rfl
  cases c
  case powerOnReset law => exact absurd rfl (reset law)
  case allocateTake => exact .of_eq (by simp [State.effect])
  case allocateLink =>
    simp only [State.effect, State.allocateLinkWork]
    split
    · next c d g _ _ => exact .one (c := c) (by simp [linked])
    · exact .refl
  case releaseTake =>
    refine takeCommand_disturbs (fun u p a => ?_) s
    unfold State.releaseTakeWork
    split
    · exact .of_eq (by simp)
    · next c g _ => exact .one (c := c) (by simp [unlinked])
  case releaseLinkIntoF => exact .of_eq (by simp [State.effect])
  case moveTake =>
    refine takeCommand_disturbs (fun u p a => ?_) s
    unfold State.moveTakeWork
    split
    · exact .of_eq (by simp)
    · next c g d _ => exact .one (c := c) (by simp [unlinked])
  case moveLink =>
    simp only [State.effect, State.moveLinkWork]
    split
    · next c d g _ _ => exact .one (c := c) (by simp [linked])
    · exact .refl
  case swapTake =>
    refine takeCommand_disturbs (fun u p a => ?_) s
    unfold State.swapTakeWork
    split
    · exact .of_eq (by simp)
    · next n w _ =>
      exact .tail (.single ⟨channelCode n, rfl⟩) ⟨w, by rw [modPanel_pge, modChannel_pge]; rfl⟩
  case emptyTake =>
    refine takeCommand_disturbs (fun u p a => ?_) s
    unfold State.emptyTakeWork
    split
    · exact .of_eq (by simp)
    · split
      · exact .of_eq (by simp)
      · next c _ _ _ _ _ => exact .one (c := c) (by simp [unlinked])
  case emptyLinkIntoF => exact .of_eq (by simp [State.effect])
  case emptyUnlink =>
    simp only [State.effect, State.emptyUnlinkWork]
    split
    · split
      · exact .refl
      · exact .one rfl
    · exact .refl
  case relocationTake =>
    simp only [State.effect, State.relocationTakeWork]
    split
    · split
      · exact .refl
      · split
        · exact .of_eq (by simp)
        · exact .one rfl
    · exact .refl
  case relocationLink =>
    simp only [State.effect, State.relocationLinkWork]
    split
    · next n d g _ _ => split <;> exact .one (c := channelCode n) (by simp [linked])
    · exact .refl
  all_goals exact absurd lists Bool.noConfusion

/-! ### Every effect -/

theorem decisions_inv (inv : s.pge.Inv) (n : ChannelNo) : (s.decisions n).pge.Inv := by
  have watched (u : State) (same : u.pge = s.pge) (r : BlockRecord) : (u.divergenceBoundary n r).pge.Inv := by
    unfold State.divergenceBoundary
    dsimp only
    split
    · exact requestPurge_inv (by simpa [same] using inv) n _
    · simpa [same] using inv
  unfold State.decisions
  dsimp only
  rw [modChannel_pge]
  simp only [levelBoundary_frame, trackingBoundary_frame, suppressorBoundary_frame, standingBoundary_frame,
    convergenceBoundary_frame]
  exact watched _ (by simp) _

theorem boundary_inv (inv : s.pge.Inv) (n : ChannelNo) : (s.boundary n).pge.Inv := by
  unfold State.boundary State.boundaryWork
  dsimp only
  split
  · simp only [modMark_pge, openBlock_frame, applyPending_frame]
    split
    · exact inv
    · exact decisions_inv inv n
  · exact inv

theorem restartChannel_inv (inv : s.pge.Inv) (p : Plane) (n : ChannelNo) : (s.restartChannel p n).pge.Inv := by
  have marked (w : Bool) : ((if (s.channelChain n).isEmpty then s.modChannel n (·.restart)
      else (s.modChannel n (·.restart)).requestPurge n (.ofPlane p)).markAtRestart n w).pge.Inv := by
    simp only [markAtRestart_frame]
    split
    · exact inv
    · exact requestPurge_inv (s := s.modChannel n (·.restart)) inv n _
  unfold State.restartChannel
  dsimp only
  split
  · exact marked _
  · split
    case h_1 | h_2 => simp only [raiseChannel_frame]; exact marked _
    all_goals exact marked _

theorem taken_inv (inv : s.pge.Inv) (p : Plane) (a : Args) (code : CommandCode) : (s.taken p a code).pge.Inv := by
  have same (unchanged : (s.taken p a code).pge = s.pge) : (s.taken p a code).pge.Inv := by rw [unchanged]; exact inv
  cases code
  case purge => exact purgeCommand_inv inv p _
  case suspend => exact suspendCommand_inv inv
  case resume => exact resumeCommand_inv inv
  case restart =>
    unfold State.taken State.restartCommand
    cases argChannel a with
    | none => exact inv
    | some n =>
      dsimp only
      split
      · exact restartChannel_inv inv p n
      · exact inv
  all_goals exact same (by simp [State.taken])

theorem effect_pgeInv (inv : s.pge.Inv) (c : Instr) : (s.effect c).pge.Inv := by
  have same (unchanged : (s.effect c).pge = s.pge) : (s.effect c).pge.Inv := by rw [unchanged]; exact inv
  by_cases lists : changesLists c = true
  · by_cases reset : ∃ law, c = .powerOnReset law
    · obtain ⟨law, rfl⟩ := reset
      exact powerOnReset_pgeInv s law
    · exact (listEffect_disturbs lists (fun law same => reset ⟨law, same⟩) s).inv inv
  cases c
  case blockBoundary n => exact boundary_inv inv n
  case gatherTimerExpiry => exact gatherExpiry_inv inv
  case suspendTimerExpiry => exact suspendExpiry_inv inv
  case segmentClearEnd => exact clearEnd_inv inv
  case purge p a | suspend p a | resume p a | claim p a | unclaim p a | seize p a | restart p a => exact taken_inv inv p a _
  case command p code a =>
    cases known : commandOfCode code with
    | none => exact same (by simp [State.effect, known])
    | some named => simp only [State.effect, known, Option.map_some, Option.getD_some]; exact taken_inv inv p a named
  case writeChannelConfig p index count data | writeCoeff p index count data | write p space index count data =>
    exact same (writeRequest_keeps (P := fun u => u.pge = s.pge) rfl (by simp) (by simp))
  case takeEvents p n =>
    obtain h | ⟨m, h⟩ := takeEventsRequest_queue s p n <;> exact same (by simp [State.effect, h])
  case setTrigger p level =>
    obtain h | ⟨-, -, h⟩ := setTriggerRequest_queue s p level <;> exact same (by simp [State.effect, h])
  case linkReset p => exact same (by simp [State.effect, State.linkResetRequest])
  case powerOnReset | allocateTake | allocateLink | releaseTake | releaseLinkIntoF | moveTake | moveLink | swapTake |
      emptyTake | emptyLinkIntoF | emptyUnlink | relocationTake | relocationLink => exact absurd rfl lists
  all_goals exact same (by simp [State.effect])

theorem pgeInv_offLinks : OffLinks fun s => s.pge.Inv := by
  intro s p f _ inv
  rw [modPort_pge]
  exact inv

/-- Settles O56: a batch is changed by requests, by selections, by the ends of clears and by structural events, and each
leaves the engine state following it. -/
theorem stepKeepsPurgeEngine : Obligations.StepKeepsPurgeEngine := by
  unfold Obligations.StepKeepsPurgeEngine
  intro s t inv answer
  exact step_keeps (P := fun u => u.pge.Inv) pgeInv_offLinks (fun _ _ inv => inv)
    (fun _ c inv => effect_pgeInv inv c) inv answer

end Sys2Proof.Machine
end

section
/-! PROOF. Highway framing: the counts of HWI keep their ranges, and while framing is LOST every timeslot carries idle code
(R2, R15, R16). -/

namespace Sys2Proof.Machine

variable {s t : State} {h : Hwi}

/-! ### What the highway commands write in HWI -/

/-- An arrival writes marks and codes only. -/
theorem arrivalWork_hwi (s : State) (n : ChannelNo) (rin sin : Byte) :
    ∃ marks rout sout, (s.arrivalWork n rin sin).hwi = { s.hwi with marks := marks, rout := rout, sout := sout } := by
  have adapted (history : List Lin) (error : Lin) :
      (if (s.channel n).standing = .adapt ∧ s.canceller n = .running then s.adapt n history error else s).hwi = s.hwi := by
    split <;> simp
  unfold State.arrivalWork
  dsimp only [State.modMark, State.sendCodes, State.modChannel]
  rw [adapted]
  exact ⟨_, _, _, rfl⟩

/-- A block boundary writes marks only. -/
theorem boundary_hwi (s : State) (n : ChannelNo) : ∃ marks, (s.boundary n).hwi = { s.hwi with marks := marks } := by
  have applied (u : State) (same : u.hwi = s.hwi) :
      ∃ marks, (((u.applyPending n).openBlock n).modMark n ({ · with boundary := true })).hwi =
        { s.hwi with marks := marks } := by
    have pending : ∃ marks, (u.applyPending n).hwi = { s.hwi with marks := marks } := by
      unfold State.applyPending
      dsimp only
      split
      · exact ⟨s.hwi.marks, same⟩
      · exact ⟨_, by rw [← same]; rfl⟩
    obtain ⟨marks, pending⟩ := pending
    exact ⟨_, by simp only [State.modMark, openBlock_frame, pending]; rfl⟩
  unfold State.boundary State.boundaryWork
  dsimp only
  split
  · refine applied _ ?_
    split <;> simp
  · exact ⟨_, rfl⟩

/-! ### What keeps the invariant -/

theorem Hwi.Inv.with_marks (inv : h.Inv) (marks : Vector FrameMark Config.channels) : Hwi.Inv { h with marks := marks } :=
  inv

/-- While framing is FRAMED the codes of the timeslots are free. -/
theorem Hwi.Inv.with_codes (inv : h.Inv) (framed : h.framing = .framed) (marks : Vector FrameMark Config.channels)
    (rout sout : Vector Byte Config.channels) : Hwi.Inv { h with marks := marks, rout := rout, sout := sout } := by
  obtain ⟨phase, misses, hunts, state⟩ := inv
  refine ⟨phase, misses, hunts, ?_⟩
  dsimp only
  rw [framed] at state ⊢
  exact state

theorem arrival_hwiInv (inv : s.hwi.Inv) (n : ChannelNo) (rin sin : Byte) : (s.arrival n rin sin).hwi.Inv := by
  unfold State.arrival
  split
  · next due =>
    have framed : s.hwi.framing = .framed := by
      simp only [State.arrivalDue, Bool.and_eq_true, decide_eq_true_eq] at due
      exact due.1.1.1
    obtain ⟨marks, rout, sout, written⟩ := arrivalWork_hwi s n rin sin
    rw [written]
    exact inv.with_codes framed marks rout sout
  · exact inv

theorem transparent_hwiInv (inv : s.hwi.Inv) (x : Timeslot) (rin sin : Byte) : (s.transparent x rin sin).hwi.Inv := by
  unfold State.transparent
  split
  · next passes => exact inv.with_codes passes.1 _ _ _
  · exact inv

theorem syncPulse_hwiInv (inv : s.hwi.Inv) (position : Fin Config.framePositions) : (s.syncPulse position).hwi.Inv := by
  have ⟨phase, misses, hunts, state⟩ := inv
  unfold State.syncPulse
  cases framing : s.hwi.framing with
  | framed =>
    rw [framing] at state
    dsimp only
    split
    · refine ⟨Nat.mod_lt _ (by decide), Nat.zero_le _, hunts, ?_⟩
      simp only [Hwi.frameStart, framing]
      exact ⟨Nat.zero_le _, state.2⟩
    · exact inv
  | lost =>
    rw [framing] at state
    obtain ⟨short, candidate, idle⟩ := state
    have hunted : (s.hwi.hunt position).huntCount ≤ 4 ∧ 0 < (s.hwi.hunt position).huntCount ∧
        (s.hwi.hunt position).candidate.isSome = true := by
      unfold Hwi.hunt
      split
      · next follows => exact ⟨by dsimp only; omega, Nat.succ_pos _, by dsimp only; rw [follows.2]; rfl⟩
      · exact ⟨by simp, by simp, rfl⟩
    have kept : (s.hwi.hunt position).phase = s.hwi.phase ∧ (s.hwi.hunt position).missCount = s.hwi.missCount ∧
        (s.hwi.hunt position).framing = .lost ∧ (s.hwi.hunt position).law = s.hwi.law ∧
        (s.hwi.hunt position).rout = s.hwi.rout ∧ (s.hwi.hunt position).sout = s.hwi.sout := by
      unfold Hwi.hunt
      split <;> exact ⟨rfl, rfl, framing, rfl, rfl, rfl⟩
    obtain ⟨most, least, some⟩ := hunted
    obtain ⟨phase', misses', lost', law', rout', sout'⟩ := kept
    dsimp only
    split
    · simp only [raiseBoth_frame]
      exact ⟨Nat.zero_lt_succ _, Nat.zero_le _, most, Nat.zero_le _, some⟩
    · refine ⟨by dsimp only; rw [phase']; exact phase, by dsimp only; rw [misses']; exact misses, most, ?_⟩
      dsimp only
      rw [lost']
      refine ⟨by omega, iff_of_true some least, ?_⟩
      rw [law', rout', sout']
      exact idle

theorem missedSync_hwiInv (inv : s.hwi.Inv) : s.missedSync.hwi.Inv := by
  have ⟨phase, misses, hunts, state⟩ := inv
  unfold State.missedSync
  cases framing : s.hwi.framing with
  | framed =>
    rw [framing] at state
    obtain ⟨few, some⟩ := state
    dsimp only
    split
    · simp only [raiseBoth_frame, discardBlocks_frame]
      refine ⟨phase, by simp only [Hwi.lose]; omega, Nat.zero_le _, Nat.zero_le _, ?_, fun x => ?_⟩
      · simp [Hwi.lose]
      · simp [Hwi.lose]
    · next once =>
      refine ⟨Nat.mod_lt _ (by decide), by simp only [Hwi.frameStart]; omega, hunts, ?_⟩
      simp only [Hwi.frameStart, framing]
      exact ⟨by omega, some⟩
  | lost =>
    rw [framing] at state
    obtain ⟨short, candidate, idle⟩ := state
    refine ⟨phase, misses, Nat.zero_le _, ?_⟩
    dsimp only
    rw [framing]
    exact ⟨Nat.zero_le _, by simp, idle⟩

theorem exec_hwiInv {c : Instr} (inv : s.hwi.Inv) (answer : exec c s = .next t) : t.hwi.Inv := by
  by_cases off : offHighway c = true
  · rw [exec_hwi c s t off answer]; exact inv
  cases c
  case powerOnReset law => cases answer; exact powerOnReset_hwiInv s law
  case syncPulse position => cases answer; exact syncPulse_hwiInv inv position
  case missedSync => cases answer; exact missedSync_hwiInv inv
  case samplePairArrival n rin sin => cases answer; exact arrival_hwiInv inv n rin sin
  case blockBoundary n =>
    cases answer
    obtain ⟨marks, written⟩ := boundary_hwi s n
    rw [written]
    exact inv.with_marks marks
  case transparentTimeslot x rin sin => cases answer; exact transparent_hwiInv inv x rin sin
  case stampTick => cases answer; exact inv
  all_goals exact absurd rfl off

/-- Settles O60: the commands of the highway keep the ranges, and no other command changes HWI. -/
theorem stepKeepsFraming : Obligations.StepKeepsFraming := by
  unfold Obligations.StepKeepsFraming
  intro s t inv answer
  obtain rfl | ⟨c, rest, executed⟩ := step_cases answer
  · exact inv
  · exact exec_hwiInv (s := { s with pending := rest }) inv executed

end Sys2Proof.Machine
end

section
/-! PROOF. Configuration writes (R3 to R5): what a WRITE of good records does to each channel, and that no two channels come to
name one timeslot (R2). -/

namespace Sys2Proof.Machine

variable {s t : State} {c d : Channel}

/-! ### The items of a WRITE -/

theorem channelsFrom_nodup (index count : Nat) : (channelsFrom index count).Nodup := by
  refine List.Nodup.filterMap (fun i j n first second => ?_) List.nodup_range
  simp only [channelOfCode, Option.mem_def, Option.dite_none_right_eq_some, Option.some.injEq] at first second
  obtain ⟨_, rfl⟩ := first
  obtain ⟨_, same⟩ := second
  have := congrArg Fin.val same
  dsimp only at this
  omega

theorem zip_fst_sublist {α β : Type} : ∀ (l : List α) (m : List β), ((l.zip m).map Prod.fst).Sublist l
  | [], _ => by simp
  | x :: l, [] => by simp
  | x :: l, y :: m => (zip_fst_sublist l m).cons_cons x

theorem items_distinct (index count : Nat) (raws : List RawRecord) :
    (((channelsFrom index count).zip raws).map Prod.fst).Nodup :=
  (channelsFrom_nodup index count).sublist (zip_fst_sublist _ _)

theorem channelsFrom_succ {index k : Nat} (valid : index + k < 128) :
    channelsFrom index (k + 1) = channelsFrom index k ++ [⟨index + k, valid⟩] := by
  have last : channelOfCode (index + k) = some ⟨index + k, valid⟩ := dif_pos valid
  unfold channelsFrom
  rw [List.range_succ, List.filterMap_append]
  simp [last]

theorem channelsFrom_length {index k : Nat} (valid : index + k ≤ 128) : (channelsFrom index k).length = k := by
  induction k with
  | zero => rfl
  | succ k ih => rw [channelsFrom_succ (by omega), List.length_append, ih (by omega)]; rfl

theorem channelsFrom_getElem {index k i : Nat} (valid : index + k ≤ 128) (inside : i < k) :
    (channelsFrom index k)[i]? = some ⟨index + i, Nat.lt_of_lt_of_le (Nat.add_lt_add_left inside _) valid⟩ := by
  induction k with
  | zero => omega
  | succ k ih =>
    have length := channelsFrom_length (index := index) (k := k) (by omega)
    rw [channelsFrom_succ (by omega)]
    by_cases last : i = k
    · subst last
      rw [List.getElem?_append_right (by omega), length, Nat.sub_self]
      rfl
    · rw [List.getElem?_append_left (by omega)]
      exact ih (by omega) (by omega)

theorem rawRecords_length (data : List Word) (count : Nat) : (rawRecords data count).length = count := by
  simp [rawRecords]

theorem rawRecords_getElem {data : List Word} {count i : Nat} (inside : i < count) :
    (rawRecords data count)[i]? = some (rawRecord (wordsToBytes ((data.drop (6 * i)).take 6))) := by
  simp [rawRecords, inside]

/-! ### Accepted records -/

theorem checkRecords_fst {p : Plane} {items : List (ChannelNo × RawRecord)} {o records : Overlay}
    (accepted : s.checkRecords p o items = .ok records) :
    records.map Prod.fst = o.map Prod.fst ++ items.map Prod.fst := by
  induction items generalizing o with
  | nil => cases accepted; simp
  | cons x rest ih =>
    unfold State.checkRecords at accepted
    split at accepted
    · cases accepted
    · rw [ih accepted]; simp

theorem acceptRecords_channel_of_notMem {records : Overlay} {n : ChannelNo} (apart : ∀ x ∈ records, x.1 ≠ n) :
    (s.acceptRecords records).channel n = s.channel n := by
  unfold State.acceptRecords
  induction records generalizing s with
  | nil => rfl
  | cons x rest ih =>
    rw [List.foldl_cons, ih fun y member => apart y (List.mem_cons_of_mem _ member)]
    exact channel_modChannel_ne s (apart x List.mem_cons_self).symm _

theorem acceptRecords_channel_of_mem {records : Overlay} (distinct : (records.map Prod.fst).Nodup) {n : ChannelNo}
    {r : ConfigRecord} (member : (n, r) ∈ records) : (s.acceptRecords records).channel n = (s.channel n).accept r := by
  induction records generalizing s with
  | nil => cases member
  | cons x rest ih =>
    rw [List.map_cons, List.nodup_cons] at distinct
    obtain ⟨fresh, distinct⟩ := distinct
    have tail : s.acceptRecords (x :: rest) = (s.modChannel x.1 (·.accept x.2)).acceptRecords rest := rfl
    rw [tail]
    obtain rfl | later := List.mem_cons.1 member
    · have apart : ∀ y ∈ rest, y.1 ≠ n := by
        rintro y inside rfl
        have listed : y.1 ∈ rest.map Prod.fst := List.mem_map_of_mem inside
        exact fresh listed
      rw [acceptRecords_channel_of_notMem apart]
      exact channel_modChannel s n _
    · have other : n ≠ x.1 := fun same => fresh (same ▸ List.mem_map_of_mem later)
      rw [ih distinct later, channel_modChannel_ne s other]

theorem OverlayOf.of_mem {earlier : List (ChannelNo × RawRecord)} {o : Overlay} (pairs : OverlayOf earlier o)
    {x : ChannelNo × RawRecord} (member : x ∈ earlier) : ∃ y ∈ o, y.1 = x.1 ∧ x.2.decode = some y.2 := by
  induction pairs with
  | nil => cases member
  | cons pair _ ih =>
    obtain rfl | later := List.mem_cons.1 member
    · exact ⟨_, List.mem_cons_self, pair⟩
    · obtain ⟨y, inside, holds⟩ := ih later
      exact ⟨y, List.mem_cons_of_mem _ inside, holds⟩

/-- What an accepted record does to its channel (R4, R5). -/
theorem accept_accepts (c : Channel) (r : ConfigRecord) : c.Accepts r (c.accept r) := by
  unfold Channel.Accepts Channel.accept
  refine ⟨fun on => by rw [if_pos on], fun off wasOff => ?_, fun off wasOn => ?_⟩
  · rw [if_neg (by simp [off]), if_pos wasOff]
  · rw [if_neg (by simp [off]), if_neg wasOn]
    exact ⟨rfl, rfl,
      ⟨rfl, rfl, rfl, rfl, rfl, rfl, rfl, rfl, ⟨rfl, rfl, rfl, rfl, rfl⟩, ⟨rfl, rfl, rfl, rfl, rfl⟩, rfl, rfl, rfl, rfl, rfl,
        rfl, rfl, rfl, rfl, rfl, rfl⟩,
      rfl, rfl, rfl, rfl, rfl, rfl, rfl⟩

theorem acceptRecords_eq (s : State) (records : Overlay) :
    s.acceptRecords records = { s with channels := (s.acceptRecords records).channels } := by
  apply State.eq_of_fields <;> simp

/-! ### The command -/

theorem exec_writeChannelConfig {p : Plane} {index : Word} {count : Byte} {data : List Word} {st : Status}
    (awaiting : (s.port p).iface = .awaitRequest) (access : checkAccess 1 index count = .ok .channelConfig)
    (written : s.writeConfig p index.toNat count.toNat data = (t, st)) :
    exec (.writeChannelConfig p index count data) s = .next (t.answered p 0x02 st []) := by
  have request : s.writeRequest p 1 index count data = .plain (t, st) := by
    unfold State.writeRequest
    simp only [access, written]
  refine congrArg Host.Outcome.next ?_
  rw [request_awaiting s p _ _ _ awaiting, request]
  rfl

/-- An accepted WRITE to CHANNEL_CONFIG reaches channels below 128 only (R166). -/
theorem bound_of_checkAccess_channelConfig {index : Word} {count : Byte}
    (access : checkAccess 1 index count = .ok .channelConfig) : index.toNat + count.toNat ≤ 128 := by
  have named : spaceOfCode 1 = some .channelConfig := rfl
  unfold checkAccess at access
  rw [named] at access
  dsimp only at access
  split at access
  · cases access
  split at access
  · next small valid =>
    simp only [List.all_eq_true, List.mem_range, validIndex, decide_eq_true_eq] at valid
    have last := valid (count.toNat - 1) (by omega)
    omega
  · cases access

theorem writeConfig_of_error {p : Plane} {index count : Nat} {data : List Word} {st : Status}
    (refused : s.checkRecords p [] ((channelsFrom index count).zip (rawRecords data count)) = .error st) :
    s.writeConfig p index count data = (s, st) := by
  unfold State.writeConfig; rw [refused]

theorem writeConfig_of_ok {p : Plane} {index count : Nat} {data : List Word} {records : Overlay}
    (accepted : s.checkRecords p [] ((channelsFrom index count).zip (rawRecords data count)) = .ok records) :
    s.writeConfig p index count data = (s.acceptRecords records, .ok) := by
  unfold State.writeConfig; rw [accepted]

/-! ### One record -/

theorem items_of_one (n : ChannelNo) {data : List Word} (six : data.length = 6) :
    (channelsFrom n.val 1).zip (rawRecords data 1) = [(n, rawRecord (wordsToBytes data))] := by
  have channel : channelsFrom n.val 1 = [n] := channelsFrom_succ (index := n.val) (k := 0) n.isLt
  have record : rawRecords data 1 = [rawRecord (wordsToBytes data)] := by
    simp [rawRecords, List.take_of_length_le (Nat.le_of_eq six)]
  rw [channel, record]
  rfl

theorem checkAccess_of_one (n : ChannelNo) : checkAccess 1 (BitVec.ofNat 16 n.val) 1 = .ok .channelConfig := by
  have named : spaceOfCode 1 = some .channelConfig := rfl
  have index : (BitVec.ofNat 16 n.val).toNat = n.val := by
    rw [BitVec.toNat_ofNat]; have := n.isLt; unfold Config.channels at this; omega
  have valid : validIndex .channelConfig n.val = true := decide_eq_true n.isLt
  unfold checkAccess
  rw [named]
  simp [index, valid]

/-- With no earlier record, the other channels' own records decide whether a timeslot is taken. -/
theorem takenIn_nil (s : State) (n : ChannelNo) (timeslot : Nat) :
    s.TakenIn [] n timeslot ↔ ∃ m, m ≠ n ∧
      ((s.channel m).governing.mode ≠ .off ∧ (s.channel m).governing.timeslot.val = timeslot ∨
        ∃ r, (s.channel m).pendingRecord = some r ∧ r.mode ≠ .off ∧ r.timeslot.val = timeslot) := by
  simp [State.TakenIn]

section
variable {p : Plane} {n : ChannelNo} {data : List Word} (awaiting : (s.port p).iface = .awaitRequest)
  (six : data.length = 6)
include awaiting six

theorem exec_writeOne {r : Except Status ConfigRecord}
    (checked : s.checkRecord p [] n (rawRecord (wordsToBytes data)) = r) :
    exec (.writeChannelConfig p (BitVec.ofNat 16 n.val) 1 data) s = .next (match r with
      | .error st => s.answered p 0x02 st []
      | .ok record => (s.modChannel n (·.accept record)).answered p 0x02 .ok []) := by
  have index : (BitVec.ofNat 16 n.val).toNat = n.val := by
    rw [BitVec.toNat_ofNat]; have := n.isLt; unfold Config.channels at this; omega
  have items : s.checkRecords p [] ((channelsFrom n.val 1).zip (rawRecords data 1)) =
      (match r with
        | .error st => .error st
        | .ok record => .ok [(n, record)]) := by
    rw [items_of_one n six]
    simp only [State.checkRecords, checked]
    cases r <;> rfl
  cases r with
  | error st =>
    exact exec_writeChannelConfig awaiting (checkAccess_of_one n) (by rw [index]; exact writeConfig_of_error items)
  | ok record =>
    exact exec_writeChannelConfig awaiting (checkAccess_of_one n) (by rw [index]; exact writeConfig_of_ok items)

theorem exec_writeOne_of_refused {st : Status} (refuses : s.RefusesRecord p [] n (rawRecord (wordsToBytes data)) st) :
    exec (.writeChannelConfig p (BitVec.ofNat 16 n.val) 1 data) s = .next (s.answered p 0x02 st []) :=
  exec_writeOne awaiting six (((checkRecord_iff s p .nil (by simp) n _).1 st).2 refuses)

end

/-- A WRITE of one record (R3 to R5). -/
theorem configWrite_one (s : State) (p : Plane) (n : ChannelNo) {data : List Word}
    (awaiting : (s.port p).iface = .awaitRequest) (six : data.length = 6) :
    let command := Instr.writeChannelConfig p (BitVec.ofNat 16 n.val) 1 data
    let raw := rawRecord (wordsToBytes data)
    let taken := raw.mode ≠ 0 ∧ s.TakenIn [] n raw.timeslot
    let badLevels := raw.receiveUpper < raw.receiveLower + 3 ∨ raw.sendUpper < raw.sendLower + 3
    (s.holder (channelCode n) = some p → ∀ r, ¬taken → ¬badLevels → raw.decode = some r →
      exec command s = .next ((s.modChannel n (·.accept r)).answered p 0x02 .ok [])) := by
  intro command raw taken badLevels holds r free good decoded
  obtain ⟨-, agrees, passes⟩ := checkRecord_iff s p .nil (by simp) n raw
  obtain ⟨r', checked⟩ := passes fun st refuses => by
    obtain ⟨other, -⟩ | ⟨-, ⟨isTaken, -⟩ | ⟨-, bad, -⟩ | ⟨-, -, invalid, -⟩⟩ := refuses
    · exact other holds
    · exact free isTaken
    · exact good bad
    · rw [decoded] at invalid; cases invalid
  have same : some r' = some r := (agrees r' checked).symm.trans decoded
  cases same
  exact exec_writeOne awaiting six checked

theorem modChannel_congr {n : ChannelNo} {f g : Channel → Channel} (same : f (s.channel n) = g (s.channel n)) :
    s.modChannel n f = s.modChannel n g := by
  unfold State.modChannel; rw [same]

/-- Settles O39: one record by the checks of R3, and several by induction over them. -/
theorem configWrite : Obligations.ConfigWrite := by
  unfold Obligations.ConfigWrite
  refine ⟨fun s p n data awaiting six => ?_, fun s p index count data awaiting wellFormed => ?_⟩
  · dsimp only
    rw [← takenIn_nil]
    refine ⟨fun other => exec_writeOne_of_refused awaiting six (.inl ⟨other, rfl⟩), fun holds => ⟨fun taken => ?_,
      fun free bad => ?_, fun free good invalid => ?_, fun r free good decoded => ?_⟩⟩
    · exact exec_writeOne_of_refused awaiting six (.inr ⟨holds, .inl ⟨taken, rfl⟩⟩)
    · exact exec_writeOne_of_refused awaiting six (.inr ⟨holds, .inr (.inl ⟨free, bad, rfl⟩)⟩)
    · exact exec_writeOne_of_refused awaiting six (.inr ⟨holds, .inr (.inr ⟨free, good, invalid, rfl⟩)⟩)
    · have written := configWrite_one s p n awaiting six holds r free good decoded
      obtain ⟨on, offOff, offOn⟩ := accept_accepts (s.channel n) r
      refine ⟨fun isOn => ?_, fun isOff wasOff => ?_, fun isOff wasOn => ?_⟩
      · rw [written, modChannel_congr (g := ({ · with pendingRecord := some r })) (on isOn)]
      · rw [written, modChannel_congr (g := ({ · with governing := r, pendingRecord := none })) (offOff isOff wasOff)]
      · exact ⟨(s.channel n).accept r, written.trans (by rw [modChannel_congr (g := fun _ => (s.channel n).accept r) rfl]),
          offOn isOff wasOn⟩
  · obtain ⟨-, accepted⟩ := Bool.and_eq_true_iff.1 wellFormed
    have access := checkAccess_of_writeAccepted accepted
    have bound := bound_of_checkAccess_channelConfig access
    have length : ((channelsFrom index.toNat count.toNat).zip (rawRecords data count.toNat)).length = count.toNat := by
      rw [List.length_zip, channelsFrom_length bound, rawRecords_length, Nat.min_self]
    have distinct := items_distinct index.toNat count.toNat (rawRecords data count.toNat)
    obtain ⟨refused, stored⟩ := checkRecords_spec s p
      ((channelsFrom index.toNat count.toNat).zip (rawRecords data count.toNat)) [] [] .nil distinct
    refine ⟨length, fun i x item => ?_, fun earlier x later st split passes refuses => ?_, fun passes => ?_⟩
    · have inside : i < count.toNat := by
        rw [← length]; exact (List.getElem?_eq_some_iff.1 item).1
      rw [List.getElem?_zip_eq_some, channelsFrom_getElem bound inside, rawRecords_getElem inside] at item
      obtain ⟨channel, record⟩ := item
      exact ⟨congrArg Fin.val (Option.some.inj channel).symm, (Option.some.inj record).symm⟩
    · exact exec_writeChannelConfig awaiting access
        (writeConfig_of_error (refused earlier x later st split (by simpa using passes) (by simpa using refuses)))
    · obtain ⟨records, checked, pairs⟩ := stored (by simpa using passes)
      have fst := checkRecords_fst checked
      rw [List.map_nil, List.nil_append] at fst
      refine ⟨s.acceptRecords records, exec_writeChannelConfig awaiting access (writeConfig_of_ok checked),
        acceptRecords_eq s records, fun x member => ?_, fun m apart => ?_⟩
      · obtain ⟨y, inside, same, decoded⟩ := pairs.of_mem member
        refine ⟨y.2, decoded, ?_⟩
        rw [acceptRecords_channel_of_mem (r := y.2) (by rw [fst]; exact distinct) (by rw [← same]; exact inside)]
        exact accept_accepts _ _
      · refine acceptRecords_channel_of_notMem fun y member same => ?_
        have inItems : y.1 ∈ ((channelsFrom index.toNat count.toNat).zip (rawRecords data count.toNat)).map Prod.fst :=
          fst ▸ List.mem_map_of_mem member
        obtain ⟨x, item, channel⟩ := List.mem_map.1 inItems
        exact apart x item (channel.trans same)

end Sys2Proof.Machine
end

section
/-! PROOF. No two channels name one timeslot in records whose mode is not OFF (R2, R3): the boundary and the resets only drop
names, and the checks of a WRITE keep the records it accepts apart. -/

namespace Sys2Proof.Machine

variable {s t : State} {c d : Channel} {x : Timeslot}

/-! ### Changes of one channel -/

theorem change_records (change : c.Change d) :
    (d.governing = c.governing ∧ d.pendingRecord = c.pendingRecord) ∨ d = c.recordApplied := by
  cases change with
  | recordApplied => exact .inr rfl
  | enterRestarting w f =>
    obtain ⟨a, b, x, y, written⟩ := enterRestarting_writes c w f
    rw [written]; exact .inl ⟨rfl, rfl⟩
  | leaveRestarting =>
    unfold Channel.leaveRestarting
    refine .inl ?_
    repeat' split
    all_goals exact ⟨rfl, rfl⟩
  | testDoubleTalk delays r =>
    obtain ⟨p, x, h, written⟩ := testDoubleTalk_writes c delays r
    rw [written]; exact .inl ⟨rfl, rfl⟩
  | decideTone n =>
    obtain ⟨t, k, x, q, written⟩ := decideTone_writes c n
    rw [written]; exact .inl ⟨rfl, rfl⟩
  | decideDivergence r => unfold Channel.decideDivergence; refine .inl ?_; split <;> exact ⟨rfl, rfl⟩
  | decideConvergence r =>
    obtain ⟨a, b, written⟩ := decideConvergence_writes c r
    rw [written]; exact .inl ⟨rfl, rfl⟩
  | suppressed r range =>
    obtain ⟨a, b, x, written⟩ := suppressor_writes c r
    rw [written]; exact .inl ⟨rfl, rfl⟩
  | blockOpened state => unfold Channel.blockOpened; refine .inl ?_; split <;> exact ⟨rfl, rfl⟩
  | _ => exact .inl ⟨rfl, rfl⟩

theorem names_of_records (governing : d.governing = c.governing) (pending : d.pendingRecord = c.pendingRecord)
    (named : d.Names x) : c.Names x := by
  unfold Channel.Names at named ⊢
  rw [governing, pending] at named
  exact named

theorem names_of_recordApplied (named : c.recordApplied.Names x) : c.Names x := by
  unfold Channel.recordApplied at named
  cases pending : c.pendingRecord with
  | none => rw [pending] at named; exact named
  | some r =>
    rw [pending] at named
    dsimp only at named
    have applied (d : Channel) (governing : d.governing = r) (none : d.pendingRecord = none) (named : d.Names x) :
        c.Names x := by
      obtain names | ⟨r', stored, -⟩ := named
      · exact .inr ⟨r, pending, governing ▸ names⟩
      · rw [none] at stored; cases stored
    split at named
    · exact applied (c.leaveOff r) rfl rfl named
    · exact applied (c.applyRunning r) rfl rfl named

/-- A change of a channel drops names only. -/
theorem change_names (change : c.Change d) (named : d.Names x) : c.Names x := by
  obtain ⟨governing, pending⟩ | applied := change_records change
  · exact names_of_records governing pending named
  · rw [applied] at named; exact names_of_recordApplied named

theorem changes_names (changes : c.Changes d) (named : d.Names x) : c.Names x := by
  induction changes with
  | refl => exact named
  | tail _ change ih => exact ih (change_names change named)

/-! ### The records of a WRITE (R3) -/

/-- A channel names a timeslot while the records in o count as pending records (R3). -/
def State.NamedIn (s : State) (o : Overlay) (n : ChannelNo) (x : Timeslot) : Prop :=
  (s.channel n).governing.names x.val = true ∨ ∃ r, s.pendingIn o n = some r ∧ r.names x.val = true

/-- No two channels name one timeslot while the records in o count as pending records. -/
def State.ApartIn (s : State) (o : Overlay) : Prop := ∀ n m x, s.NamedIn o n x → s.NamedIn o m x → n = m

theorem pendingIn_append (s : State) (o : Overlay) (n m : ChannelNo) (r : ConfigRecord) :
    s.pendingIn (o ++ [(n, r)]) m = s.pendingIn o m ∨ m = n ∧ s.pendingIn (o ++ [(n, r)]) m = some r := by
  unfold State.pendingIn
  rw [List.find?_append]
  cases o.find? fun y => decide (y.1 = m) with
  | some y => exact .inl rfl
  | none =>
    by_cases same : n = m
    · exact .inr ⟨same.symm, by simp [same]⟩
    · exact .inl (by simp [same])

theorem not_timeslotTaken_iff {o : Overlay} {n : ChannelNo} :
    ¬s.timeslotTaken o n x.val = true ↔ ∀ m, m ≠ n → ¬s.NamedIn o m x := by
  have named (m : ChannelNo) : s.NamedIn o m x ↔
      ((s.channel m).governing.names x.val || ((s.pendingIn o m).map (·.names x.val)).getD false) = true := by
    unfold State.NamedIn
    cases s.pendingIn o m <;> simp
  unfold State.timeslotTaken
  simp only [List.any_eq_true, List.mem_finRange, true_and, Bool.and_eq_true, decide_eq_true_eq, not_exists, not_and, named]

theorem apartIn_append {p : Plane} {o : Overlay} {n : ChannelNo} {raw : RawRecord} {r : ConfigRecord} (apart : s.ApartIn o)
    (accepted : s.checkRecord p o n raw = .ok r) : s.ApartIn (o ++ [(n, r)]) := by
  have decoded := checkRecord_decode accepted
  have free : ¬(raw.mode ≠ 0 ∧ s.timeslotTaken o n raw.timeslot = true) := by
    intro taken
    unfold State.checkRecord at accepted
    simp only [if_pos taken] at accepted
    split at accepted <;> cases accepted
  have news {m : ChannelNo} {x : Timeslot} (named : s.NamedIn (o ++ [(n, r)]) m x) :
      s.NamedIn o m x ∨ m = n ∧ r.names x.val = true := by
    obtain governs | ⟨r', pending, names⟩ := named
    · exact .inl (.inl governs)
    · obtain old | ⟨same, new⟩ := pendingIn_append s o n m r
      · exact .inl (.inr ⟨r', old ▸ pending, names⟩)
      · rw [new] at pending
        cases pending
        exact .inr ⟨same, names⟩
  have alone {x : Timeslot} (names : r.names x.val = true) {m : ChannelNo} (named : s.NamedIn o m x) : m = n := by
    obtain ⟨on, timeslot⟩ := (decode_names decoded x.val).1 names
    by_contra other
    have barred : ¬s.timeslotTaken o n x.val = true := by
      rw [← timeslot]; exact fun taken => free ⟨on, taken⟩
    exact not_timeslotTaken_iff.1 barred m other named
  intro m k x first second
  obtain old | ⟨rfl, names⟩ := news first <;> obtain old' | ⟨rfl, names'⟩ := news second
  · exact apart m k x old old'
  · exact alone names' old
  · exact (alone names old').symm
  · rfl

theorem checkRecords_apart {p : Plane} {items : List (ChannelNo × RawRecord)} {o records : Overlay} (apart : s.ApartIn o)
    (accepted : s.checkRecords p o items = .ok records) : s.ApartIn records := by
  induction items generalizing o with
  | nil => cases accepted; exact apart
  | cons item rest ih =>
    unfold State.checkRecords at accepted
    split at accepted
    · cases accepted
    · next record checked => exact ih (apartIn_append apart checked) accepted

theorem pendingIn_of_mem {o : Overlay} (distinct : (o.map Prod.fst).Nodup) {n : ChannelNo} {r : ConfigRecord}
    (member : (n, r) ∈ o) : s.pendingIn o n = some r := by
  unfold State.pendingIn
  have found : o.find? (fun y => decide (y.1 = n)) = some (n, r) := by
    cases first : o.find? fun y => decide (y.1 = n) with
    | none => exact absurd (decide_eq_true rfl) (List.find?_eq_none.1 first (n, r) member)
    | some y =>
      have same : y.1 = n := by simpa using List.find?_some first
      rw [List.inj_on_of_nodup_map distinct (List.mem_of_find?_eq_some first) member same]
  rw [found]

theorem pendingIn_of_notMem {o : Overlay} {n : ChannelNo} (apart : ∀ y ∈ o, y.1 ≠ n) :
    s.pendingIn o n = (s.channel n).pendingRecord := by
  unfold State.pendingIn
  rw [List.find?_eq_none.2 fun y member => by simpa using apart y member]

theorem names_of_accept {r : ConfigRecord} (named : (c.accept r).Names x) :
    c.governing.names x.val = true ∨ r.names x.val = true := by
  have onlyRecord (d : Channel) (governing : d.governing = r) (none : d.pendingRecord = none) (named : d.Names x) :
      r.names x.val = true := by
    obtain names | ⟨r', stored, -⟩ := named
    · exact governing ▸ names
    · rw [none] at stored; cases stored
  unfold Channel.accept at named
  split at named
  · obtain names | ⟨r', stored, names⟩ := named
    · exact .inl names
    · cases stored; exact .inr names
  split at named
  · exact .inr (onlyRecord _ rfl rfl named)
  · exact .inr (onlyRecord (c.enterOff r) rfl rfl named)

/-- After a WRITE a channel names what it named while the accepted records counted as pending ones. -/
theorem namedIn_of_acceptRecords {records : Overlay} (distinct : (records.map Prod.fst).Nodup) {n : ChannelNo}
    (named : ((s.acceptRecords records).channel n).Names x) : s.NamedIn records n x := by
  by_cases listed : ∃ r, (n, r) ∈ records
  · obtain ⟨r, member⟩ := listed
    rw [acceptRecords_channel_of_mem distinct member] at named
    obtain governs | names := names_of_accept named
    · exact .inl governs
    · exact .inr ⟨r, pendingIn_of_mem distinct member, names⟩
  · have apart : ∀ y ∈ records, y.1 ≠ n := by
      rintro y member rfl
      exact listed ⟨y.2, member⟩
    rw [acceptRecords_channel_of_notMem apart] at named
    unfold State.NamedIn
    rw [pendingIn_of_notMem apart]
    exact named

theorem writeConfig_timeslotsInv (kept : s.TimeslotsInv) (p : Plane) (index count : Nat) (data : List Word) :
    (s.writeConfig p index count data).1.TimeslotsInv := by
  unfold State.writeConfig
  split
  · exact kept
  · next records accepted =>
    have distinct : (records.map Prod.fst).Nodup := by
      rw [checkRecords_fst accepted]
      exact items_distinct _ _ _
    have apart : s.ApartIn records := checkRecords_apart (o := []) kept accepted
    intro n m x first second
    exact apart n m x (namedIn_of_acceptRecords distinct first) (namedIn_of_acceptRecords distinct second)

/-! ### Every effect -/

theorem timeslotsInv_of_channels (kept : s.TimeslotsInv) (channels : t.channels = s.channels) : t.TimeslotsInv := by
  have same (n : ChannelNo) : t.channel n = s.channel n := by simp only [State.channel, channels]
  intro n m x first second
  rw [same] at first second
  exact kept n m x first second

theorem effect_timeslotsInv (kept : s.TimeslotsInv) (c : Instr) : (s.effect c).TimeslotsInv := by
  by_cases sets : setsRecords c = true
  · cases c
    case powerOnReset law => exact powerOnReset_timeslotsInv s law
    case writeChannelConfig p index count data | writeCoeff p index count data | write p space index count data =>
      exact writeRequest_keeps kept (writeConfig_timeslotsInv kept _ _ _ _) (timeslotsInv_of_channels kept (by simp))
    all_goals exact absurd sets Bool.noConfusion
  · have changes := effect_changes (Bool.eq_false_iff.2 sets) s
    intro n m x first second
    exact kept n m x (changes_names (changes n) first) (changes_names (changes m) second)

theorem timeslotsInv_offLinks : OffLinks State.TimeslotsInv := fun s p f _ kept =>
  timeslotsInv_of_channels kept (modPort_channels s p f)

/-- Settles O58: check 2 of R3 keeps the records of a WRITE apart, and nothing else brings a name. -/
theorem stepKeepsTimeslots : Obligations.StepKeepsTimeslots := by
  unfold Obligations.StepKeepsTimeslots
  intro s t kept answer
  exact step_keeps timeslotsInv_offLinks (fun _ _ kept => kept) (fun _ c kept => effect_timeslotsInv kept c) kept answer

end Sys2Proof.Machine
end

section
/-! PROOF. A RESTARTING channel has its convergence flag clear and its block in progress HOLD (R75, R89, R96). Most effects bring
no channel into RESTARTING and set neither; the requests of the Purge Engine, which do bring channels there, clear the flag
and set HOLD. -/

namespace Sys2Proof.Machine

variable {s t u : State} {c d : Channel} {n : ChannelNo}

theorem restarting_iff (s : State) (n : ChannelNo) : s.canceller n = .restarting ↔
    (s.channel n).governing.mode ≠ .off ∧ (s.unfinished (channelCode n) = true ∨ (s.channel n).owed = true) := by
  unfold State.canceller
  dsimp only
  by_cases off : (s.channel n).governing.mode = .off
  · simp [off]
  · by_cases purging : s.unfinished (channelCode n) = true ∨ (s.channel n).owed = true
    · simp [off, purging]
    · rw [if_neg off, if_neg purging]
      split <;> simp [purging]

/-! ### Effects that bring no channel into RESTARTING -/

/-- A change of a channel that takes it neither out of OFF nor makes it owe a purge, nor sets its convergence flag or
ADAPT. -/
structure Channel.Calm (c d : Channel) : Prop where
  mode : d.governing.mode ≠ .off → c.governing.mode ≠ .off
  owed : d.owed = true → c.owed = true
  converged : c.converged = false → d.converged = false
  standing : c.standing = .hold → d.standing = .hold

theorem Channel.Calm.refl (c : Channel) : c.Calm c := ⟨id, id, id, id⟩

/-- No channel comes to be RESTARTING, and none gets its convergence flag or ADAPT while it is. -/
def State.Settles (s t : State) : Prop :=
  ∀ n, t.canceller n = .restarting → s.canceller n = .restarting ∧
    ((s.channel n).converged = false → (t.channel n).converged = false) ∧
    ((s.channel n).standing = .hold → (t.channel n).standing = .hold)

theorem State.Settles.of_calm (calm : ∀ n, (s.channel n).Calm (t.channel n))
    (batch : ∀ c, t.unfinished c = true → s.unfinished c = true) : s.Settles t := by
  intro n restarting
  rw [restarting_iff] at restarting ⊢
  obtain ⟨on, purging⟩ := restarting
  exact ⟨⟨(calm n).mode on, purging.imp (batch _) (calm n).owed⟩, (calm n).converged, (calm n).standing⟩

theorem State.Settles.of_channels (channels : t.channels = s.channels)
    (batch : ∀ c, t.unfinished c = true → s.unfinished c = true) : s.Settles t :=
  .of_calm (fun n => by
    have same : t.channel n = s.channel n := by simp only [State.channel, channels]
    rw [same]; exact .refl _) batch

theorem State.Settles.refl (s : State) : s.Settles s := fun _ restarting => ⟨restarting, id, id⟩

theorem State.Settles.trans (first : s.Settles t) (second : t.Settles u) : s.Settles u := by
  intro n restarting
  obtain ⟨between, converged, standing⟩ := second n restarting
  obtain ⟨before, converged', standing'⟩ := first n between
  exact ⟨before, converged ∘ converged', standing ∘ standing'⟩

theorem State.RestartingInv.settle (kept : s.RestartingInv) (settles : s.Settles t) : t.RestartingInv := by
  intro n restarting
  obtain ⟨before, converged, standing⟩ := settles n restarting
  obtain ⟨clear, hold⟩ := kept n before
  exact ⟨converged clear, standing hold⟩

theorem unfinished_of_pge (pge : t.pge = s.pge) (c : ChainCode) (unfinished : t.unfinished c = true) :
    s.unfinished c = true := by
  rw [← unfinished_congr (s := s) (t := t) (by rw [pge])]
  exact unfinished

theorem State.Settles.of_same (channels : t.channels = s.channels) (pge : t.pge = s.pge) : s.Settles t :=
  .of_channels channels (unfinished_of_pge pge)

theorem State.Settles.modChannel (s : State) (n : ChannelNo) {f : Channel → Channel} (calm : (s.channel n).Calm (f (s.channel n))) :
    s.Settles (s.modChannel n f) := by
  refine .of_calm (fun m => ?_) fun _ unfinished => unfinished
  rw [channel_modChannel_cases]
  split
  · next same => subst same; exact calm
  · exact .refl _

theorem State.Settles.raiseBoth (settles : s.Settles t) (e : Event) : s.Settles (t.raiseBoth e) :=
  settles.trans (.of_same (by simp) (by simp))

theorem State.Settles.modMark (settles : s.Settles t) (n : ChannelNo) (f : FrameMark → FrameMark) :
    s.Settles (t.modMark n f) := settles.trans (.of_same rfl rfl)

theorem State.Settles.sendCodes (settles : s.Settles t) (x : Timeslot) (rout sout : Byte) :
    s.Settles (t.sendCodes x rout sout) := settles.trans (.of_same rfl rfl)

theorem unfinished_iff (s : State) (c : ChainCode) :
    s.unfinished c = true ↔ ∃ x ∈ s.pge.batch, x.list = c ∧ x.finished = false := by
  simp [State.unfinished]

/-- A batch whose unfinished entries are among those before. -/
theorem unfinished_mono (batch : ∀ y ∈ t.pge.batch, y.finished = false → ∃ x ∈ s.pge.batch, x.list = y.list ∧ x.finished = false)
    (c : ChainCode) (unfinished : t.unfinished c = true) : s.unfinished c = true := by
  rw [unfinished_iff] at unfinished ⊢
  obtain ⟨y, member, rfl, left⟩ := unfinished
  exact batch y member left

/-! ### The Purge Engine -/

theorem channelAfter_calm (s : State) (n : ChannelNo) (done : List BatchEntry) :
    (s.channel n).Calm (s.channelAfter n done) := by
  unfold State.channelAfter
  split
  · split
    · exact ⟨id, id, fun _ => rfl, id⟩
    · exact ⟨id, id, fun _ => rfl, id⟩
  · exact .refl _

theorem finishEntry_settles (s : State) (e : BatchEntry) : s.Settles (s.finishEntry e) := by
  obtain ⟨-, channels, pge⟩ := finishEntry_finishes s e
  refine .of_calm (fun n => by rw [channels]; exact channelAfter_calm s n [e]) (unfinished_mono fun y member left => ?_)
  rw [pge] at member
  obtain ⟨x, old, rfl⟩ := List.mem_map.1 member
  refine ⟨x, old, ?_⟩
  split at left
  · cases left
  · next other => rw [if_neg other]; exact ⟨rfl, left⟩

theorem exhaust_settles (s : State) : s.Settles s.exhaust := by
  obtain ⟨none, some, channels⟩ := (exhaust_exhausts s).2
  intro n restarting
  rw [channels n, channelAfter_nil]
  have owed : (s.channel n).owed = true ∧ (s.channel n).governing.mode ≠ .off := by
    rw [restarting_iff, channels n, channelAfter_nil] at restarting
    obtain ⟨on, purging⟩ := restarting
    refine ⟨?_, on⟩
    obtain unfinished | owes := purging
    · rw [unfinished_iff] at unfinished
      obtain ⟨x, member, named, -⟩ := unfinished
      by_cases empty : (((List.finRange 128).filter fun n => (s.channel n).owed).take 16) = []
      · rw [none empty] at member; cases member
      · rw [some empty] at member
        obtain ⟨m, listed, rfl⟩ := List.mem_map.1 member
        have same : m = n := Fin.ext (congrArg (fun c : ChainCode => c.val) named)
        rw [← same]
        simpa using (List.mem_filter.1 (List.mem_of_mem_take listed)).2
    · exact (Bool.and_eq_true_iff.1 owes).1
  exact ⟨(restarting_iff s n).2 ⟨owed.2, .inr owed.1⟩, id, id⟩

theorem selectNext_settles (fuel : Nat) (s : State) : s.Settles (s.selectNext fuel) := by
  induction fuel generalizing s with
  | zero => exact .refl s
  | succ fuel ih =>
    unfold State.selectNext
    split
    · exact exhaust_settles s
    · split
      · exact (finishEntry_settles s _).trans (ih _)
      · exact .of_channels rfl fun _ unfinished => unfinished

theorem run_settles (s : State) : s.Settles s.run := by
  unfold State.run
  refine State.Settles.trans ?_ (selectNext_settles _ _)
  exact .of_channels rfl fun _ unfinished => unfinished

theorem gatherExpiry_settles (s : State) : s.Settles s.gatherExpiry := by
  unfold State.gatherExpiry
  split
  · exact run_settles s
  · exact .refl s

theorem suspendExpiry_settles (s : State) : s.Settles s.suspendExpiry := by
  unfold State.suspendExpiry
  split
  · exact (State.Settles.of_same (by simp) (by simp)).trans (run_settles _)
  · exact .refl s

theorem suspendCommand_settles (s : State) : s.Settles s.suspendCommand.1 := by
  unfold State.suspendCommand
  split
  · exact .of_channels rfl fun _ unfinished => unfinished
  all_goals exact .refl s

theorem resumeCommand_settles (s : State) : s.Settles s.resumeCommand.1 := by
  unfold State.resumeCommand
  split
  · exact run_settles s
  · exact .of_channels rfl fun _ unfinished => unfinished
  all_goals exact .refl s

theorem endClear_settles (s : State) (k : Clear) : s.Settles (s.endClear k) := by
  refine .of_channels (by simp) (unfinished_mono fun y member left => ?_)
  unfold State.endClear at member
  dsimp only at member
  split at member
  · exact ⟨y, member, rfl, left⟩
  · obtain ⟨x, old, rfl⟩ := List.mem_map.1 member
    refine ⟨x, old, ?_⟩
    split at left
    · next named => rw [if_pos named]; exact ⟨rfl, named.2⟩
    · next other => rw [if_neg other]; exact ⟨rfl, left⟩

theorem finishIfDone_settles (s : State) (c : ChainCode) : s.Settles (s.finishIfDone c) := by
  unfold State.finishIfDone
  split
  · split
    · exact finishEntry_settles s _
    · exact .refl s
  · exact .refl s

theorem afterClear_settles (s : State) : s.Settles s.afterClear := by
  unfold State.afterClear
  split
  · exact selectNext_settles _ s
  · split
    · exact .of_channels rfl fun _ unfinished => unfinished
    · exact exhaust_settles s
  all_goals exact .refl s

theorem clearEnd_settles (s : State) : s.Settles s.clearEnd := by
  unfold State.clearEnd
  split
  · exact .refl s
  · exact (endClear_settles s _).trans ((finishIfDone_settles _ _).trans (afterClear_settles _))

/-! ### Requests: the channels that enter RESTARTING (R75, R89) -/

/-- A channel whose mode is OFF, or whose convergence flag is clear and whose block in progress is HOLD. -/
def Channel.Held (c : Channel) : Prop := c.governing.mode = .off ∨ c.converged = false ∧ c.standing = .hold

theorem enterRestarting_held (c : Channel) (w : Bool) (f : Framing) : (c.enterRestarting w f).Held := by
  unfold Channel.enterRestarting
  split
  · next off => exact .inl off
  · exact .inr ⟨rfl, rfl⟩

/-- After a change of a channel and of its own list's place in the batch, the other channels are as before. -/
theorem restartingInv_of_held (kept : s.RestartingInv) (others : ∀ m, m ≠ n → t.channel m = s.channel m)
    (batch : ∀ m, m ≠ n → t.unfinished (channelCode m) = true → s.unfinished (channelCode m) = true)
    (held : (t.channel n).Held) : t.RestartingInv := by
  intro m restarting
  by_cases same : m = n
  · subst same
    obtain off | holds := held
    · exact absurd off ((restarting_iff t m).1 restarting).1
    · exact holds
  · rw [restarting_iff] at restarting
    rw [others m same] at restarting ⊢
    exact kept m ((restarting_iff s m).2 ⟨restarting.1, restarting.2.imp_left (batch m same)⟩)

theorem channelCode_injective {n m : ChannelNo} (same : channelCode n = channelCode m) : n = m :=
  Fin.ext (congrArg (fun c : ChainCode => c.val) same)

/-- The channels after the list of channel n has been requested, in the batch or owed. -/
theorem entered_channel_ne (s : State) (b : Bool) {m : ChannelNo} (other : m ≠ n) :
    ((s.enterRestarting (channelCode n)).setOwed (channelCode n) b).channel m = s.channel m := by
  simp only [State.setOwed, State.enterRestarting, codeChannel_channelCode]
  rw [channel_modChannel_ne _ other, channel_modChannel_ne _ other]

theorem unfinished_joinBatch {c e : ChainCode} {r : Requesters} {batch : List BatchEntry} (other : e ≠ c) {x : BatchEntry}
    (member : x ∈ joinBatch c r batch) (named : x.list = e) (left : x.finished = false) :
    ∃ y ∈ batch, y.list = e ∧ y.finished = false := by
  unfold joinBatch at member
  split at member
  · obtain ⟨y, old, rfl⟩ := List.mem_map.1 member
    refine ⟨y, old, ?_⟩
    split at named <;> split at left <;> exact ⟨named, left⟩
  · rw [List.mem_append, List.mem_singleton] at member
    obtain old | rfl := member
    · exact ⟨x, old, named, left⟩
    · exact absurd named.symm other

theorem joinPurge_unfinished (s : State) {c e : ChainCode} (r : Requesters) (other : e ≠ c)
    (unfinished : (s.joinPurge c r).unfinished e = true) :
    s.unfinished e = true := by
  rw [unfinished_iff] at unfinished ⊢
  obtain ⟨x, member, named, left⟩ := unfinished
  unfold State.joinPurge at member
  dsimp only at member
  split at member
  · rw [List.mem_singleton] at member
    subst member
    exact absurd named.symm other
  all_goals exact unfinished_joinBatch other member named left

theorem joinPurge_channel_ne (s : State) (r : Requesters) {m : ChannelNo} (other : m ≠ n) :
    (s.joinPurge (channelCode n) r).channel m = s.channel m := by
  unfold State.joinPurge
  dsimp only
  split <;> exact entered_channel_ne s false other

theorem joinPurge_restartingInv (kept : s.RestartingInv) (c : ChainCode) (r : Requesters) :
    (s.joinPurge c r).RestartingInv := by
  cases code : codeChannel c with
  | some n =>
    have named : c = channelCode n := by
      unfold codeChannel at code
      split at code <;> cases code
      rfl
    subst named
    refine restartingInv_of_held (n := n) kept (fun m other => joinPurge_channel_ne s r other) (fun m other => ?_) ?_
    · exact joinPurge_unfinished s r fun same => other (channelCode_injective same)
    · rw [joinPurge_channel]
      exact enterRestarting_held (s.channel n) _ _
  | none =>
    have channels : (s.joinPurge c r).channels = s.channels := by
      unfold State.joinPurge State.setOwed State.enterRestarting
      rw [code]
      dsimp only
      split <;> rfl
    have same (n : ChannelNo) : (s.joinPurge c r).channel n = s.channel n := by simp only [State.channel, channels]
    intro n restarting
    rw [restarting_iff] at restarting
    rw [same] at restarting ⊢
    refine kept n ((restarting_iff s n).2 ⟨restarting.1, restarting.2.imp_left (joinPurge_unfinished s r ?_)⟩)
    rintro rfl
    rw [codeChannel_channelCode] at code
    cases code

theorem owing_restartingInv (kept : s.RestartingInv) (n : ChannelNo) :
    ((s.enterRestarting (channelCode n)).setOwed (channelCode n) true).RestartingInv := by
  refine restartingInv_of_held (n := n) kept (fun m other => entered_channel_ne s true other) (fun m _ => ?_) ?_
  · exact unfinished_of_pge (setOwed_enterRestarting_pge s _ _ _) _
  · have read : ((s.enterRestarting (channelCode n)).setOwed (channelCode n) true).channel n =
        { (s.channel n).enterRestarting (decide (s.canceller n = .running)) s.hwi.framing with owed := true } := by
      simp [State.setOwed, State.enterRestarting]
    rw [read]
    exact enterRestarting_held (s.channel n) _ _

theorem requestPurge_restartingInv (kept : s.RestartingInv) (n : ChannelNo) (r : Requesters) :
    (s.requestPurge n r).RestartingInv := by
  unfold State.requestPurge
  dsimp only
  split
  · exact joinPurge_restartingInv kept _ r
  · split
    · exact owing_restartingInv kept n
    · exact joinPurge_restartingInv kept _ r
  all_goals exact owing_restartingInv kept n

theorem purgeCommand_restartingInv (kept : s.RestartingInv) (p : Plane) (c : Option ChainCode) :
    (s.purgeCommand p c).1.RestartingInv := by
  cases c with
  | none => exact kept
  | some c =>
    unfold State.purgeCommand
    dsimp only
    split
    · exact kept
    split
    case h_4 => exact joinPurge_restartingInv kept c _
    case h_5 =>
      split
      · exact kept
      · exact joinPurge_restartingInv kept c _
    all_goals exact kept

theorem restartChannel_restartingInv (kept : s.RestartingInv) (p : Plane) (n : ChannelNo) :
    (s.restartChannel p n).RestartingInv := by
  have reset : (s.modChannel n (·.restart)).RestartingInv := kept.settle (.modChannel s n ⟨id, id, fun _ => rfl, id⟩)
  have purged : (if (s.channelChain n).isEmpty then s.modChannel n (·.restart)
      else (s.modChannel n (·.restart)).requestPurge n (.ofPlane p)).RestartingInv := by
    split
    · exact reset
    · exact requestPurge_restartingInv reset n _
  have unmarked (u : State) (w : Bool) : u.Settles (u.markAtRestart n w) := by
    unfold State.markAtRestart
    split
    · exact .refl u
    · exact .modChannel u n ⟨id, id, id, id⟩
  have marked := purged.settle (unmarked _ (decide (s.canceller n = .running)))
  unfold State.restartChannel
  dsimp only
  split
  · exact marked
  · split
    case h_1 | h_2 => exact marked.settle (.of_same (by simp) (by simp))
    all_goals exact marked

theorem taken_restartingInv (kept : s.RestartingInv) (p : Plane) (a : Args) (code : CommandCode) :
    (s.taken p a code).RestartingInv := by
  cases code
  case purge => exact purgeCommand_restartingInv kept p _
  case suspend => exact kept.settle (suspendCommand_settles s)
  case resume => exact kept.settle (resumeCommand_settles s)
  case restart =>
    unfold State.taken State.restartCommand
    cases argChannel a with
    | none => exact kept
    | some n =>
      dsimp only
      split
      · exact restartChannel_restartingInv kept p n
      · exact kept
  all_goals exact kept.settle (.of_same (by simp [State.taken]) (by simp [State.taken]))

/-! ### The line -/

theorem arrival_settles (s : State) (n : ChannelNo) (rin sin : Byte) : s.Settles (s.arrival n rin sin) := by
  unfold State.arrival
  split
  · have stored (u : State) (channels : u.channels = s.channels) (pge : u.pge = s.pge) (f : Channel → Channel)
        (calm : (u.channel n).Calm (f (u.channel n))) : s.Settles (u.modChannel n f) :=
      (State.Settles.of_same channels pge).trans (.modChannel u n calm)
    unfold State.arrivalWork
    dsimp only
    refine State.Settles.modMark (State.Settles.sendCodes (stored _ ?_ ?_ _ ⟨id, id, id, id⟩) _ _ _) n _
    · split <;> simp
    · split <;> simp
  · exact .refl s

theorem missedSync_settles (s : State) : s.Settles s.missedSync := by
  have dropped (u : State) : u.Settles u.discardBlocks := by
    refine .of_calm (fun n => ?_) fun _ unfinished => unfinished
    have read : u.discardBlocks.channel n =
        if (u.channel n).governing.mode = .off then u.channel n else (u.channel n).dropBlock := by
      by_cases off : (u.channel n).governing.mode = .off <;> simp_all [State.discardBlocks, State.channel]
    rw [read]
    split
    · exact .refl _
    · exact ⟨id, id, id, id⟩
  unfold State.missedSync
  split
  · dsimp only
    split
    · refine State.Settles.raiseBoth (State.Settles.trans ?_ (dropped _)) _
      exact .of_same rfl rfl
    · exact .of_same rfl rfl
  · exact .of_same rfl rfl

/-! ### The block boundary -/

/-- A stage of the boundary that changes nothing but channel n, and it to d. -/
theorem settles_of_channel (others : ∀ m, m ≠ n → t.channel m = s.channel m) (pge : t.pge = s.pge)
    (calm : (s.channel n).Calm (t.channel n)) : s.Settles t := by
  refine .of_calm (fun m => ?_) (unfinished_of_pge pge)
  by_cases same : m = n
  · subst same; exact calm
  · rw [others m same]; exact .refl _

theorem toneBoundary_settles (s : State) (n : ChannelNo) : s.Settles (s.toneBoundary n) := by
  have decided : s.Settles (s.modChannel n fun _ => (s.channel n).decideTone n) := by
    obtain ⟨t, k, x, q, written⟩ := decideTone_writes (s.channel n) n
    exact .modChannel s n (by rw [written]; exact ⟨id, id, id, id⟩)
  unfold State.toneBoundary
  dsimp only
  split
  · exact decided.trans (.of_same (by simp) (by simp))
  · exact decided

/-- The blocks before DVW's decision. -/
theorem beforeDivergence_settles (s : State) (n : ChannelNo) (r r' : BlockRecord) :
    s.Settles ((((s.refreshWeights n).modChannel n ({ · with erle := r.erle, blockRecord := some r })).doubleTalkBoundary n
      r').toneBoundary n) := by
  refine State.Settles.trans ?_ (toneBoundary_settles _ n)
  refine State.Settles.trans ?_ (.modChannel _ n ?_)
  · exact (State.Settles.of_same (by simp) (by simp)).trans (.modChannel (s.refreshWeights n) n ⟨id, id, id, id⟩)
  · obtain ⟨p, x, h, written⟩ := testDoubleTalk_writes
      (((s.refreshWeights n).modChannel n ({ · with erle := r.erle, blockRecord := some r })).channel n) _ r'
    rw [written]
    exact ⟨id, id, id, id⟩

/-- After DVW's decision the invariant holds, and a channel that the decision has brought into RESTARTING is DIVERGED. -/
theorem divergenceBoundary_restartingInv (kept : s.RestartingInv) (n : ChannelNo) (r : BlockRecord) :
    (s.divergenceBoundary n r).RestartingInv ∧
      ((s.divergenceBoundary n r).canceller n = .restarting →
        s.canceller n = .restarting ∨ ((s.divergenceBoundary n r).channel n).divState = .diverged) := by
  have decided : s.Settles (s.modChannel n fun _ => (s.channel n).decideDivergence r) :=
    .modChannel s n (by unfold Channel.decideDivergence; split <;> exact ⟨id, id, id, id⟩)
  unfold State.divergenceBoundary
  dsimp only
  split
  · next enters =>
    have raised := (kept.settle decided).settle
      (State.Settles.of_same (t := (s.modChannel n fun _ => (s.channel n).decideDivergence r).raiseChannel n
        (.diverged n ((s.channel n).decideDivergence r).divCount r.erle)) (by simp) (by simp))
    refine ⟨requestPurge_restartingInv raised n _, fun _ => .inr ?_⟩
    rw [requestPurge_channel]
    obtain ⟨a, b, x, y, written⟩ := enterRestarting_writes
      (((s.modChannel n fun _ => (s.channel n).decideDivergence r).raiseChannel n
        (.diverged n ((s.channel n).decideDivergence r).divCount r.erle)).channel n) (decide
          (((s.modChannel n fun _ => (s.channel n).decideDivergence r).raiseChannel n
            (.diverged n ((s.channel n).decideDivergence r).divCount r.erle)).canceller n = .running))
        ((s.modChannel n fun _ => (s.channel n).decideDivergence r).raiseChannel n
          (.diverged n ((s.channel n).decideDivergence r).divCount r.erle)).hwi.framing
    rw [written]
    simpa using enters.2
  · exact ⟨kept.settle decided, fun restarting => .inl (decided n restarting).1⟩

/-- EEA sets no convergence flag of a channel that is DIVERGED or whose block was HOLD (R95). -/
theorem decideConvergence_converged {r : BlockRecord} (barred : r.adapt = false ∨ c.divState = .diverged)
    (clear : c.converged = false) : (c.decideConvergence r).converged = false := by
  unfold Channel.decideConvergence
  split
  · rfl
  · rfl
  · next steady =>
    obtain hold | diverged := barred
    · rw [hold]; exact clear
    · rw [diverged] at steady; cases steady

theorem convergenceBoundary_restartingInv (kept : s.RestartingInv) {r : BlockRecord}
    (barred : s.canceller n = .restarting → r.adapt = false ∨ (s.channel n).divState = .diverged) :
    (s.convergenceBoundary n r).RestartingInv := by
  have decided : (s.modChannel n fun _ => (s.channel n).decideConvergence r).RestartingInv := by
    obtain ⟨a, b, written⟩ := decideConvergence_writes (s.channel n) r
    intro m restarting
    by_cases same : m = n
    · subst same
      have before : s.canceller m = .restarting := by
        rw [restarting_iff] at restarting ⊢
        rw [channel_modChannel, written] at restarting
        exact restarting
      obtain ⟨clear, hold⟩ := kept m before
      rw [channel_modChannel]
      exact ⟨decideConvergence_converged (barred before) clear, by rw [written]; exact hold⟩
    · rw [restarting_iff] at restarting
      rw [channel_modChannel_ne s same] at restarting ⊢
      exact kept m ((restarting_iff s m).2 restarting)
  unfold State.convergenceBoundary
  dsimp only
  split
  · exact decided.settle (.of_same (by simp) (by simp))
  · exact decided

theorem standingBoundary_settles (s : State) (n : ChannelNo) (r : BlockRecord) (kept : s.RestartingInv) :
    (s.standingBoundary n r).RestartingInv := by
  intro m restarting
  have before : s.canceller m = .restarting := by
    rw [restarting_iff] at restarting ⊢
    unfold State.standingBoundary at restarting
    rw [channel_modChannel_cases] at restarting
    split at restarting
    · next same => subst same; exact restarting
    · exact restarting
  obtain ⟨clear, hold⟩ := kept m before
  unfold State.standingBoundary
  rw [channel_modChannel_cases]
  split
  · next same =>
    subst same
    rw [before]
    exact ⟨clear, by simp [Channel.decideStanding]⟩
  · exact ⟨clear, hold⟩

/-- The decisions after EEA's, which change neither a convergence flag nor a standing. -/
theorem afterStanding_settles (s : State) (n : ChannelNo) (r : BlockRecord) (f : Channel → Channel)
    (calm : ∀ c : Channel, c.Calm (f c)) :
    s.Settles ((((s.suppressorBoundary n r).trackingBoundary n r).levelBoundary n).modChannel n f) := by
  refine State.Settles.trans ?_ (.modChannel _ n (calm _))
  have suppressed : s.Settles (s.suppressorBoundary n r) := by
    obtain ⟨a, b, x, written⟩ := suppressor_writes (s.channel n) r
    exact .modChannel s n (by rw [written]; exact ⟨id, id, id, id⟩)
  have tracked (u : State) : u.Settles (u.trackingBoundary n r) :=
    settles_of_channel (fun m other => trackingBoundary_channel_ne other u r) (by simp)
      (by rw [trackingBoundary_channel]; exact ⟨id, id, id, id⟩)
  have levelled (u : State) : u.Settles (u.levelBoundary n) :=
    settles_of_channel (fun m other => levelBoundary_channel_ne other u) (by simp)
      (by rw [levelBoundary_channel]; exact ⟨id, id, id, id⟩)
  exact suppressed.trans ((tracked _).trans (levelled _))

theorem decisions_restartingInv (kept : s.RestartingInv) (n : ChannelNo) : (s.decisions n).RestartingInv := by
  have hold (restarting : s.canceller n = .restarting) : (s.channel n).measured.adapt = false :=
    measured_adapt_of_hold (kept n restarting).2
  unfold State.decisions
  dsimp only
  have before := beforeDivergence_settles s n (s.channel n).measured (s.channel n).measured
  obtain ⟨watched, enters⟩ := divergenceBoundary_restartingInv (kept.settle before) n (s.channel n).measured
  have converged := convergenceBoundary_restartingInv (n := n) watched (r := (s.channel n).measured) fun restarting =>
    (enters restarting).imp_left fun earlier => hold (before n earlier).1
  exact (standingBoundary_settles _ n _ converged).settle
    (afterStanding_settles _ n _ _ fun _ => ⟨id, id, id, id⟩)

theorem applyPending_restartingInv (kept : s.RestartingInv) (n : ChannelNo) : (s.applyPending n).RestartingInv := by
  have pge : (s.applyPending n).pge = s.pge := by simp
  cases pending : (s.channel n).pendingRecord with
  | none =>
    have same : s.applyPending n = s := by simp [State.applyPending, pending]
    rw [same]; exact kept
  | some r =>
    have read : (s.applyPending n).channel n =
        if (s.channel n).governing.mode = .off then (s.channel n).leaveOff r else (s.channel n).applyRunning r := by
      rw [applyPending_channel, Channel.recordApplied, pending]
    by_cases off : (s.channel n).governing.mode = .off
    · rw [if_pos off] at read
      exact restartingInv_of_held (n := n) kept (fun m other => applyPending_channel_ne other s)
        (fun m _ => unfinished_of_pge pge _) (by rw [read]; exact .inr ⟨rfl, rfl⟩)
    · rw [if_neg off] at read
      exact kept.settle (settles_of_channel (fun m other => applyPending_channel_ne other s) pge
        (by rw [read]; exact ⟨fun _ => off, id, id, id⟩))

theorem openBlock_settles (s : State) (n : ChannelNo) : s.Settles (s.openBlock n) := by
  unfold State.openBlock
  split
  · exact .refl s
  · exact .modChannel s n ⟨id, id, id, id⟩

theorem boundary_restartingInv (kept : s.RestartingInv) (n : ChannelNo) : (s.boundary n).RestartingInv := by
  unfold State.boundary State.boundaryWork
  dsimp only
  split
  · refine State.RestartingInv.settle ?_ ((openBlock_settles _ n).modMark n _)
    refine applyPending_restartingInv ?_ n
    split
    · exact kept
    · exact decisions_restartingInv kept n
  · exact kept

/-! ### LC -/

theorem unfinished_of_disturbances {e e' : Pge} (changes : e.Disturbances e') :
    ∀ y ∈ e'.batch, y.finished = false → ∃ x ∈ e.batch, x.list = y.list ∧ x.finished = false := by
  induction changes with
  | refl => exact fun y member left => ⟨y, member, rfl, left⟩
  | tail _ change ih =>
    obtain ⟨c, rfl⟩ := change
    intro z member left
    obtain ⟨y, old, named, finished⟩ := disturbed_finished member
    obtain ⟨x, oldest, named', left'⟩ := ih y old (finished ▸ left)
    exact ⟨x, oldest, named'.trans named.symm, left'⟩

theorem swapTake_calm (s : State) (n : ChannelNo) : (s.channel n).Calm (s.swapTake.channel n) := by
  obtain same | ⟨p, a, -, taken⟩ := takeCommand_cases s .swap State.swapTakeWork <;> unfold State.swapTake
  · rw [same]; exact .refl _
  rw [taken]
  unfold State.swapTakeWork
  split
  · next st _ =>
    have same : ((s.takenFrom p).refuseTake p st).channel n = s.channel n := by
      simp [State.takenFrom, State.refuseTake, State.channel]
    rw [same]; exact .refl _
  · next m w _ =>
    rw [channel_modPanel, channel_modChannel_cases]
    split
    · next same => subst same; exact ⟨id, id, fun _ => rfl, id⟩
    · exact .refl _

theorem relocationTakeWork_calm (s : State) (n : ChannelNo) : (s.channel n).Calm (s.relocationTakeWork.channel n) := by
  obtain same | ⟨m, i, moved⟩ := relocationTakeWork_channels s
  · have read : s.relocationTakeWork.channel n = s.channel n := by simp only [State.channel, same]
    rw [read]; exact .refl _
  · have read : s.relocationTakeWork.channel n =
        (s.modChannel m ({ · with cursor := (s.candidate m i + 64) % 2048 })).channel n := by
      simp only [State.channel, moved]
    rw [read, channel_modChannel_cases]
    split
    · next same => subst same; exact ⟨id, id, id, id⟩
    · exact .refl _

theorem listEffect_settles {c : Instr} (lists : changesLists c = true) (reset : ∀ law, c ≠ .powerOnReset law) (s : State) :
    s.Settles (s.effect c) := by
  have batch := unfinished_mono (unfinished_of_disturbances (listEffect_disturbs lists reset s))
  cases c
  case powerOnReset law => exact absurd rfl (reset law)
  case swapTake => exact .of_calm (swapTake_calm s) batch
  case relocationTake => exact .of_calm (relocationTakeWork_calm s) batch
  case allocateTake | allocateLink | releaseTake | releaseLinkIntoF | moveTake | moveLink | emptyTake | emptyLinkIntoF |
      emptyUnlink | relocationLink => exact .of_channels (by simp [State.effect]) batch
  all_goals exact absurd lists Bool.noConfusion

/-! ### Every effect -/

theorem accept_restartingInv (kept : s.RestartingInv) (n : ChannelNo) (r : ConfigRecord) :
    (s.modChannel n (·.accept r)).RestartingInv := by
  by_cases on : r.mode ≠ .off
  · refine kept.settle (.modChannel s n ?_)
    unfold Channel.accept
    rw [if_pos on]
    exact ⟨id, id, id, id⟩
  · have off : r.mode = .off := by simpa using on
    refine restartingInv_of_held (n := n) kept (fun m other => channel_modChannel_ne s other _)
      (fun _ _ unfinished => unfinished) (.inl ?_)
    rw [channel_modChannel]
    unfold Channel.accept
    rw [if_neg on]
    split <;> exact off

theorem effect_restartingInv (kept : s.RestartingInv) (c : Instr) : (s.effect c).RestartingInv := by
  have same (channels : (s.effect c).channels = s.channels) (pge : (s.effect c).pge = s.pge) :
      (s.effect c).RestartingInv := kept.settle (.of_same channels pge)
  by_cases lists : changesLists c = true
  · by_cases reset : ∃ law, c = .powerOnReset law
    · obtain ⟨law, rfl⟩ := reset
      exact powerOnReset_restartingInv s law
    · exact kept.settle (listEffect_settles lists (fun law same => reset ⟨law, same⟩) s)
  cases c
  case samplePairArrival n rin sin => exact kept.settle (arrival_settles s n rin sin)
  case missedSync => exact kept.settle (missedSync_settles s)
  case blockBoundary n => exact boundary_restartingInv kept n
  case gatherTimerExpiry => exact kept.settle (gatherExpiry_settles s)
  case suspendTimerExpiry => exact kept.settle (suspendExpiry_settles s)
  case segmentClearEnd => exact kept.settle (clearEnd_settles s)
  case purge p a | suspend p a | resume p a | claim p a | unclaim p a | seize p a | restart p a =>
    exact taken_restartingInv kept p a _
  case command p code a =>
    cases known : commandOfCode code with
    | none => exact same (by simp [State.effect, known]) (by simp [State.effect, known])
    | some named =>
      simp only [State.effect, known, Option.map_some, Option.getD_some]
      exact taken_restartingInv kept p a named
  case writeChannelConfig p index count data | writeCoeff p index count data | write p space index count data =>
    exact writeRequest_keeps (P := State.RestartingInv) kept
      (writeConfig_keeps (P := State.RestartingInv) (fun u n r _ kept => accept_restartingInv kept n r) kept _ _ _ _)
      (kept.settle (.of_same (by simp) (by simp)))
  case takeEvents p n =>
    obtain h | ⟨m, h⟩ := takeEventsRequest_queue s p n <;>
      exact same (by simp [State.effect, h]) (by simp [State.effect, h])
  case setTrigger p level =>
    obtain h | ⟨-, -, h⟩ := setTriggerRequest_queue s p level <;>
      exact same (by simp [State.effect, h]) (by simp [State.effect, h])
  case linkReset p =>
    exact same (by simp [State.effect, State.linkResetRequest]) (by simp [State.effect, State.linkResetRequest])
  case powerOnReset | allocateTake | allocateLink | releaseTake | releaseLinkIntoF | moveTake | moveLink | swapTake |
      emptyTake | emptyLinkIntoF | emptyUnlink | relocationTake | relocationLink => exact absurd rfl lists
  all_goals exact same (by simp [State.effect]) (by simp [State.effect])

/-- Settles O59: what brings a channel into RESTARTING clears its flag and sets HOLD, and EEA's decisions leave both so. -/
theorem stepKeepsRestarting : Obligations.StepKeepsRestarting := by
  unfold Obligations.StepKeepsRestarting
  intro s t kept answer
  exact step_keeps (P := State.RestartingInv)
    (fun u p f _ kept => kept.settle (.of_same (modPort_channels u p f) (modPort_pge u p f))) (fun _ _ kept => kept)
    (fun _ c kept => effect_restartingInv kept c) kept answer

end Sys2Proof.Machine
end

section
/-! PROOF. Framing pulses, missed pulses, and the arrivals, boundaries and transparent timeslots that do not occur (R2, R10, R11,
R15 to R17). -/

namespace Sys2Proof.Machine

variable {s : State}

/-- An event to both queues, in closed form (R172). -/
theorem raiseBoth_eq (s : State) (e : Event) : s.raiseBoth e = { s with
    portA := { s.portA with queue := s.portA.queue.arrive (s.stamped true e) }
    portB := { s.portB with queue := s.portB.queue.arrive (s.stamped true e) } } := rfl

theorem hunt_of_other {h : Hwi} {position : Fin Config.framePositions}
    (other : h.huntCount = 0 ∨ h.candidate ≠ some position) :
    h.hunt position = { h with huntCount := 1, candidate := some position } := by
  unfold Hwi.hunt
  rw [if_neg fun follows => other.elim follows.1 fun ne => ne follows.2]

theorem hunt_of_candidate {h : Hwi} {position : Fin Config.framePositions} (counting : 0 < h.huntCount)
    (candidate : h.candidate = some position) : h.hunt position = { h with huntCount := h.huntCount + 1 } := by
  unfold Hwi.hunt
  rw [if_pos ⟨Nat.ne_of_gt counting, candidate⟩]

theorem syncPulse_of_framed (framed : s.hwi.framing = .framed) (position : Fin Config.framePositions) :
    s.syncPulse position =
      if s.hwi.candidate = some position then { s with hwi := { s.hwi with missCount := 0 }.frameStart } else s := by
  unfold State.syncPulse; rw [framed]

theorem syncPulse_of_lost (lost : s.hwi.framing = .lost) (position : Fin Config.framePositions) :
    s.syncPulse position =
      if 4 ≤ (s.hwi.hunt position).huntCount then
        ({ s with hwi := (s.hwi.hunt position).recover } : State).raiseBoth .framingRestored
      else { s with hwi := s.hwi.hunt position } := by
  unfold State.syncPulse; rw [lost]

/-- Settles O5: a pulse in each framing, at the candidate and elsewhere. -/
theorem syncPulse : Obligations.SyncPulse := by
  unfold Obligations.SyncPulse
  intro s position
  refine ⟨fun framed => ⟨fun expected => ?_, fun other => ?_⟩, fun lost => ⟨fun other => ?_, fun counting few candidate => ?_,
    fun third candidate => ?_⟩⟩ <;> refine congrArg Host.Outcome.next ?_
  · rw [syncPulse_of_framed framed, if_pos expected]; rfl
  · rw [syncPulse_of_framed framed, if_neg other]
  · rw [syncPulse_of_lost lost, hunt_of_other other, if_neg (by simp)]
  · rw [syncPulse_of_lost lost, hunt_of_candidate counting candidate, if_neg (by dsimp only; omega)]
  · rw [syncPulse_of_lost lost, hunt_of_candidate (by omega) candidate, if_pos (by dsimp only; omega), raiseBoth_eq, third]
    rfl

theorem missedSync_of_framed (framed : s.hwi.framing = .framed) : s.missedSync =
    if 2 ≤ s.hwi.missCount + 1 then
      ({ s with hwi := { s.hwi with missCount := s.hwi.missCount + 1 }.lose } : State).discardBlocks.raiseBoth .framingLost
    else { s with hwi := { s.hwi with missCount := s.hwi.missCount + 1 }.frameStart } := by
  unfold State.missedSync; rw [framed]

theorem discardBlocks_channel (s : State) (n : ChannelNo) : s.discardBlocks.channel n =
    if (s.channel n).governing.mode = .off then s.channel n else (s.channel n).dropBlock := by
  by_cases off : (s.channel n).governing.mode = .off <;> simp_all [State.discardBlocks, State.channel]

/-- Settles O6: the first miss, the second, and one in LOST. -/
theorem missedSync : Obligations.MissedSync := by
  unfold Obligations.MissedSync
  refine fun s => ⟨fun framed none => ?_, fun framed one => ?_, fun lost => ?_⟩
  · refine congrArg Host.Outcome.next ?_
    rw [missedSync_of_framed framed, if_neg (by omega), none]
    rfl
  · have second : s.missedSync =
        ({ s with hwi := { s.hwi with missCount := 2 }.lose } : State).discardBlocks.raiseBoth .framingLost := by
      rw [missedSync_of_framed framed, if_pos (by omega), one]
    have channel (n : ChannelNo) : s.missedSync.channel n =
        if (s.channel n).governing.mode = .off then s.channel n else (s.channel n).dropBlock := by
      rw [second]; exact discardBlocks_channel s n
    refine ⟨s.missedSync, rfl, by rw [second]; rfl, by rw [second]; rfl, fun n off => by rw [channel, if_pos off],
      fun n on => by rw [channel, if_neg on]; rfl, fun p => ?_⟩
    rw [second]
    cases p <;> rfl
  · refine congrArg Host.Outcome.next ?_
    unfold State.missedSync
    rw [lost]

/-! ### What does not occur -/

theorem arrival_of_not_due {n : ChannelNo} (undue : s.arrivalDue n = false) (rin sin : Byte) : s.arrival n rin sin = s := by
  unfold State.arrival; rw [undue]; rfl

theorem boundary_of_not_due {n : ChannelNo} (undue : s.boundaryDue n = false) : s.boundary n = s := by
  unfold State.boundary; rw [undue]; rfl

theorem served_iff (s : State) (t : Timeslot) : s.served t = true ↔
    ∃ n, (s.channel n).governing.mode ≠ .off ∧ (s.channel n).governing.timeslot = t ∧ (s.mark n).joining = false := by
  simp [State.served, State.serves, and_assoc]

theorem arrivalDue_iff (s : State) (n : ChannelNo) : s.arrivalDue n = true ↔ s.TakesArrival n := by
  simp [State.arrivalDue, State.TakesArrival, and_assoc]

theorem boundaryDue_iff (s : State) (n : ChannelNo) : s.boundaryDue n = true ↔
    s.hwi.framing = .framed ∧ s.hwi.phase = 31 ∧ (s.mark n).boundary = false ∧
      ((s.channel n).governing.mode = .off ∨ (s.mark n).arrived = true) := by
  simp [State.boundaryDue, and_assoc]

theorem arrivalWork_arrived (s : State) (n : ChannelNo) (rin sin : Byte) :
    ((s.arrivalWork n rin sin).mark n).arrived = true := by
  unfold State.arrivalWork
  dsimp only
  rw [mark_modMark]

theorem boundaryWork_marked (s : State) (n : ChannelNo) : ((s.boundaryWork n).mark n).boundary = true := by
  unfold State.boundaryWork
  dsimp only
  rw [mark_modMark]

/-- Settles O8: the conditions under which an arrival, a boundary and a transparent timeslot occur, and the marks they leave. -/
theorem transparentTimeslotsAndLostFraming : Obligations.TransparentTimeslotsAndLostFraming := by
  unfold Obligations.TransparentTimeslotsAndLostFraming
  intro s
  have noArrival (n : ChannelNo) (rin sin : Byte) (undue : ¬s.TakesArrival n) :
      exec (.samplePairArrival n rin sin) s = .next s :=
    congrArg Host.Outcome.next
      (arrival_of_not_due (Bool.eq_false_iff.2 fun due => undue ((arrivalDue_iff s n).1 due)) rin sin)
  have noBoundary (n : ChannelNo) (undue : ¬s.boundaryDue n = true) : exec (.blockBoundary n) s = .next s :=
    congrArg Host.Outcome.next (boundary_of_not_due (Bool.eq_false_iff.2 undue))
  have noTransparent (t : Timeslot) (rin sin : Byte) (barred : ¬(s.hwi.framing = .framed ∧ s.served t = false)) :
      exec (.transparentTimeslot t rin sin) s = .next s := congrArg Host.Outcome.next (if_neg barred)
  refine ⟨fun t rin sin framed unserved => ?_, fun lost => ⟨fun n rin sin => ?_, fun n => ?_, fun t rin sin => ?_⟩,
    fun n rin sin barred => ?_, fun n barred => ?_, fun t n rin sin on timeslot serving => ?_, fun n rin sin takes => ?_,
    fun n closes => ?_, fun c t n pulse missed reset answer => ?_⟩
  · have free : s.served t = false := by
      refine Bool.eq_false_iff.2 fun served => ?_
      obtain ⟨n, on, timeslot, serving⟩ := (served_iff s t).1 served
      obtain off | other | joining := unserved n
      · exact on off
      · exact other timeslot
      · rw [joining] at serving; cases serving
    exact congrArg Host.Outcome.next (if_pos ⟨framed, free⟩)
  · exact noArrival n rin sin fun takes => by rw [takes.1] at lost; cases lost
  · exact noBoundary n fun due => by rw [((boundaryDue_iff s n).1 due).1] at lost; cases lost
  · exact noTransparent t rin sin fun passes => by rw [passes.1] at lost; cases lost
  · refine noArrival n rin sin fun takes => ?_
    obtain ⟨-, on, fresh, serving⟩ := takes
    obtain off | arrived | joining := barred
    · exact on off
    · rw [arrived] at fresh; cases fresh
    · rw [joining] at serving; cases serving
  · refine noBoundary n fun due => ?_
    obtain ⟨-, phase, fresh, closes⟩ := (boundaryDue_iff s n).1 due
    obtain other | done | ⟨on, lacks⟩ := barred
    · exact other phase
    · rw [done] at fresh; cases fresh
    · obtain off | arrived := closes
      · exact on off
      · rw [arrived] at lacks; cases lacks
  · refine noTransparent t rin sin fun passes => ?_
    have served := (served_iff s t).2 ⟨n, on, timeslot, serving⟩
    rw [passes.2] at served
    cases served
  · refine ⟨_, rfl, ?_⟩
    have taken : s.arrival n rin sin = s.arrivalWork n rin sin := if_pos ((arrivalDue_iff s n).2 takes)
    rw [taken]
    exact arrivalWork_arrived s n rin sin
  · refine ⟨_, rfl, ?_⟩
    obtain ⟨framed, phase, fresh, arrived, -⟩ := closes
    have taken : s.boundary n = s.boundaryWork n :=
      if_pos ((boundaryDue_iff s n).2 ⟨framed, phase, fresh, .inr arrived⟩)
    rw [taken]
    exact boundaryWork_marked s n
  · exact exec_marks c s t pulse missed reset answer n

end Sys2Proof.Machine
end

section
/-! PROOF. Requests at a link: commands at the panel, link resets and held replies (R37, R38, R57, R160 to R162, R168, R170,
R177). -/

namespace Sys2Proof.Machine

variable {s : State} {p : Plane}

/-! ### Commands at the panel (R37, R38) -/

theorem commandFrame_of_idle (awaits : (s.port p).iface = .awaitRequest) (idle : (s.port p).panel.state = .idle)
    (code : CommandCode) (a : Args) :
    s.commandFrame p code a = (s.route p { code := code, args := a }).answered p 0x03 .ok [] := by
  unfold State.commandFrame
  rw [request_awaiting _ _ _ _ _ awaits]
  unfold State.commandRequest
  rw [if_pos idle]

theorem commandFrame_of_busy (awaits : (s.port p).iface = .awaitRequest) (busy : (s.port p).panel.state ≠ .idle)
    (code : CommandCode) (a : Args) : s.commandFrame p code a = s.answered p 0x03 .panelBusy [] := by
  unfold State.commandFrame
  rw [request_awaiting _ _ _ _ _ awaits]
  unfold State.commandRequest
  rw [if_neg busy]
  rfl

/-- Settles O32: the panel takes a command while it is idle, and refuses one otherwise. -/
theorem commandsAtThePanel : Obligations.CommandsAtThePanel := by
  unfold Obligations.CommandsAtThePanel
  refine fun s p a awaits => ⟨fun idle => ?_, fun busy c member => ?_, fun code unnamed => ?_, fun kind rest => ?_⟩
  · have taken (code : CommandCode) : (.next (s.commandFrame p code a) : Host.Outcome State Fault Refusal) = _ :=
      congrArg _ (commandFrame_of_idle awaits idle code a)
    exact ⟨taken _, taken _, taken _, taken _, taken _⟩
  · have refused (code : CommandCode) : (.next (s.commandFrame p code a) : Host.Outcome State Fault Refusal) = _ :=
      congrArg _ (commandFrame_of_busy awaits busy code a)
    fin_cases member <;> exact refused _
  · rw [exec_command_of_none unnamed, request_awaiting _ _ _ _ _ awaits]
    rfl
  · exact congrArg Host.Outcome.next (request_awaiting s p kind _ (fun u => .refuse u .badFrame) awaits)

/-! ### Link resets (R57, R170, R177) -/

/-- Settles O45: the panel, the queue and the detached mark of LC's command. -/
theorem linkReset : Obligations.LinkReset := by
  unfold Obligations.LinkReset
  intro s p awaits issued reset
  have answered : exec (.linkReset p) s =
      .next (reset (s.lc.detached || (decide ((s.port p).panel.state = .running) &&
        decide (s.lc.current.map LcJob.issuer = some (.panel p))))) :=
    congrArg Host.Outcome.next (request_awaiting _ _ _ _ _ awaits)
  refine ⟨fun yes => ?_, fun no => ?_⟩ <;> rw [answered, ← Bool.decide_and]
  · rw [decide_eq_true yes, Bool.or_true]
  · rw [decide_eq_false no, Bool.or_false]

/-! ### Held replies (R160) -/

theorem clockReply_of_awaiting (awaits : (s.port p).iface = .awaitRequest) (bytes : Nat) : s.clockReply p bytes = s := by
  unfold State.clockReply; rw [awaits]

theorem clockReply_of_ready {reply : List Byte} (ready : (s.port p).iface = .replyReady reply) (bytes : Nat) :
    s.clockReply p bytes = s.modPort p ({ · with iface := .awaitRequest, sent := drivenBytes reply bytes }) := by
  unfold State.clockReply; rw [ready]

theorem wordsToBytes_length (l : List Word) : (wordsToBytes l).length = 2 * l.length := by
  induction l with
  | nil => rfl
  | cons w rest ih => simp [wordsToBytes] at ih ⊢; omega

/-- The frame of a WRITE has the length that its count and its space say (R161). -/
theorem length_write_frame {space count : Byte} {data : List Word} (fits : writeDataFits space count data = true)
    (index : Word) : (withCheck (writeBytes space index count data)).length = writeLength space count := by
  have words : data.length = count.toNat * itemSizeOfCode space := of_decide_eq_true fits
  simp only [withCheck, writeBytes, List.length_append, List.length_cons, List.length_nil, wordsToBytes_length, writeLength]
  omega

theorem length_command_frame (code : Byte) (a : Args) : (withCheck (commandBytes code a)).length = 8 := rfl

/-- A request's frame clocked while a reply is held drives that reply. -/
theorem exec_request_of_ready {reply : List Byte} (ready : (s.port p).iface = .replyReady reply) {c : Instr}
    {frame : List Byte} (plane : planeOf c = some p) (good : c.wellFormed = true) (frames : requestFrame c = some frame) :
    exec c s = .next (s.modPort p ({ · with iface := .awaitRequest, sent := drivenBytes reply frame.length })) := by
  have driven (kind : Byte) (execute : State → Reply) : .next (s.request p kind frame.length execute) =
      (.next (s.modPort p ({ · with iface := .awaitRequest, sent := drivenBytes reply frame.length })) :
        Host.Outcome State Fault Refusal) := congrArg _ (request_ready s p kind _ execute reply ready)
  cases c with
  | writeChannelConfig =>
    cases plane; cases frames
    simp only [Instr.wellFormed, Bool.and_eq_true] at good
    rw [← driven 2, length_write_frame good.1]; rfl
  | writeCoeff =>
    cases plane; cases frames
    simp only [Instr.wellFormed, Bool.and_eq_true] at good
    rw [← driven 2, length_write_frame good.1]; rfl
  | write =>
    cases plane; cases frames
    simp only [Instr.wellFormed, Bool.and_eq_true] at good
    rw [← driven 2, length_write_frame good.1.1]; rfl
  | badFrame =>
    cases plane; cases frames
    cases frame with
    | nil => exact congrArg _ (clockReply_of_ready ready 0)
    | cons kind rest => exact driven kind fun u => .refuse u .badFrame
  | command =>
    cases plane; cases frames
    rw [exec_command_of_none (Option.isNone_iff_eq_none.mp good)]
    exact driven 3 _
  | read | status | takeEvents | setTrigger | linkReset | allocate | release | move | swap | empty | purge | suspend
    | resume | claim | unclaim | seize | restart => cases plane; cases frames; exact driven _ _
  | replyFrame | quietTimerExpiry => cases frames
  | powerOnReset | syncPulse | missedSync | samplePairArrival | blockBoundary | stampTick | allocateTake | allocateLink
    | releaseTake | releaseLinkIntoF | moveTake | moveLink | swapTake | emptyTake | emptyLinkIntoF | emptyUnlink
    | relocationTake | relocationLink | gatherTimerExpiry | segmentClearEnd | suspendTimerExpiry | transparentTimeslot =>
    cases plane

/-- Settles O46: with a reply held, a reply frame and every request frame drive it; with none, a reply frame does
nothing. -/
theorem heldReplyIsDrivenAndDiscarded : Obligations.HeldReplyIsDrivenAndDiscarded := by
  unfold Obligations.HeldReplyIsDrivenAndDiscarded
  exact fun s p reply => ⟨fun ready => ⟨fun bytes => congrArg _ (clockReply_of_ready ready bytes),
    fun c frame plane good frames => exec_request_of_ready ready plane good frames⟩,
    fun awaits bytes => congrArg _ (clockReply_of_awaiting awaits bytes)⟩

end Sys2Proof.Machine
end

section
/-! PROOF. What arrives at an event queue, its ATTN signal, and the expiries of the timers (R63, R72, R172, R173, R175,
R176). -/

namespace Sys2Proof.Machine

/-! ### Event queues (R172, R173, R175, R176) -/

theorem storeRecord_of_room {l : List EventRecord} (room : l.length ≤ 62) (r : EventRecord) :
    storeRecord r l = l ++ [r] := by
  unfold storeRecord; rw [if_pos (by omega)]

theorem storeRecord_of_full {l : List EventRecord} (full : 64 ≤ l.length) (r : EventRecord) : storeRecord r l = l := by
  unfold storeRecord; rw [if_neg (by omega), if_neg (by omega)]

/-- With one place left, the record is replaced by an OVERRUN unless one stands there already. -/
theorem storeRecord_of_last {l : List EventRecord} {last : EventRecord} (length : l.length = 63)
    (at_last : l.getLast? = some last) (r : EventRecord) :
    storeRecord r l = if eventKind last.event = .overrun then l else l ++ [overrunOf r] := by
  unfold storeRecord
  rw [if_neg (by omega), at_last]
  by_cases overrun : eventKind last.event = .overrun <;> simp [length, overrun, EventRecord.isOverrun]

theorem urgent_iff (r : EventRecord) : r.urgent = true ↔
    eventKind r.event = .claimLost ∨ eventKind r.event = .diverged ∨ eventKind r.event = .framingLost := by
  unfold EventRecord.urgent
  cases r.event <;> simp [eventKind]

theorem attn_iff (q : Queue) : q.attn = true ↔
    q.trigger ≤ q.entries.length ∨ (0 < q.entries.length ∧ q.quietMark = true) ∨ ∃ x ∈ q.entries, x.urgent = true := by
  unfold Queue.attn
  simp only [Bool.or_eq_true, Bool.and_eq_true, decide_eq_true_eq, List.any_eq_true, or_assoc]

/-- Settles O44: a record is stored, replaced by an OVERRUN or dropped, and ATTN has its three causes. -/
theorem queueArrivalAndAttention : Obligations.QueueArrivalAndAttention := by
  unfold Obligations.QueueArrivalAndAttention
  refine fun q r => ⟨⟨rfl, rfl, rfl⟩, fun room => storeRecord_of_room room r, fun last length at_last =>
    ⟨fun other => ?_, fun overrun => ?_⟩, fun full => storeRecord_of_full full r, ?_⟩
  · exact (storeRecord_of_last length at_last r).trans (if_neg other)
  · exact (storeRecord_of_last length at_last r).trans (if_pos overrun)
  · simp only [attn_iff, urgent_iff]

/-! ### Expiries (R63, R72, R175) -/

variable {s : State}

theorem gatherExpiry_of_running (gathering : s.pge.engine = .gathering) (running : s.pge.gatherTimer = true) :
    s.gatherExpiry = s.run := by
  unfold State.gatherExpiry; rw [if_pos ⟨gathering, running⟩]

theorem suspendExpiry_of_running (suspended : s.pge.engine = .suspended) (running : s.pge.suspendTimer = true) :
    s.suspendExpiry = (s.raiseBoth .purgeResumed).run := by
  unfold State.suspendExpiry; rw [if_pos ⟨suspended, running⟩]

theorem gatherExpiry_of_stopped (stopped : s.pge.gatherTimer = false) : s.gatherExpiry = s := by
  unfold State.gatherExpiry; rw [if_neg (by simp [stopped])]

theorem suspendExpiry_of_stopped (stopped : s.pge.suspendTimer = false) : s.suspendExpiry = s := by
  unfold State.suspendExpiry; rw [if_neg (by simp [stopped])]

/-- RUNNING is entered with a selection, of the batch as it stands. -/
theorem run_selects (s : State) (nodup : (s.pge.batch.map BatchEntry.list).Nodup) : State.Selects { s with pge :=
    { s.pge with engine := .running, gatherTimer := false, suspendTimer := false } } s.run :=
  select_selects { s with pge := { s.pge with engine := .running, gatherTimer := false, suspendTimer := false } } nodup

theorem modQueue_id (s : State) (p : Plane) {f : Queue → Queue} (same : f (s.port p).queue = (s.port p).queue) :
    s.modQueue p f = s := by
  cases p <;> simp only [State.port] at same <;> simp [State.modQueue, State.modPort, same]

theorem quietExpiry_of_running {p : Plane} (running : (s.port p).queue.quietTimer = true) :
    s.quietExpiry p = s.modQueue p ({ · with quietTimer := false, quietMark := true }) := by
  unfold State.quietExpiry
  cases p <;> simp only [State.port] at running <;> simp [State.modQueue, State.modPort, running]

theorem quietExpiry_of_stopped {p : Plane} (stopped : (s.port p).queue.quietTimer = false) : s.quietExpiry p = s :=
  modQueue_id s p (by simp [stopped])

/-- Settles O47: the gather, suspend and quiet timers, running and stopped. -/
theorem timerExpiries : Obligations.TimerExpiries := by
  unfold Obligations.TimerExpiries
  refine fun s => ⟨fun e g first segment => ⟨fun gathering running => ?_, fun suspended running => ?_⟩,
    fun nodup => ⟨fun gathering running => ?_, fun suspended running => ?_⟩,
    fun stopped => congrArg _ (gatherExpiry_of_stopped stopped),
    fun stopped => congrArg _ (suspendExpiry_of_stopped stopped), fun p =>
    ⟨fun running => congrArg _ (quietExpiry_of_running running), fun stopped => congrArg _ (quietExpiry_of_stopped stopped)⟩⟩
  · exact congrArg Host.Outcome.next ((gatherExpiry_of_running gathering running).trans (run_found s e g first segment))
  · exact congrArg Host.Outcome.next ((suspendExpiry_of_running suspended running).trans
      (run_found (s.raiseBoth .purgeResumed) e g first segment))
  · exact ⟨_, congrArg Host.Outcome.next (gatherExpiry_of_running gathering running), run_selects s nodup⟩
  · exact ⟨_, congrArg Host.Outcome.next (suspendExpiry_of_running suspended running), run_selects (s.raiseBoth .purgeResumed) nodup⟩

end Sys2Proof.Machine
end

section
/-! SUPPORT. The Purge Engine's operations ignore the command panels: a change of a panel before one of them is a change
after it (R38). -/

namespace Sys2Proof.Machine

variable (s : State) (p : Plane) (f : Panel → Panel)

theorem modChannel_modPanel (n : ChannelNo) (g : Channel → Channel) :
    (s.modPanel p f).modChannel n g = (s.modChannel n g).modPanel p f := by
  cases p <;> rfl

theorem withPge_modPanel (e : Pge) : { s.modPanel p f with pge := e } = ({ s with pge := e } : State).modPanel p f := by
  cases p <;> rfl

theorem raise_modPanel (toA toB : Bool) (e : Event) :
    (s.modPanel p f).raise toA toB e = (s.raise toA toB e).modPanel p f := by
  cases toA <;> cases toB <;> cases p <;> rfl

theorem canceller_modPanel (n : ChannelNo) : (s.modPanel p f).canceller n = s.canceller n := by
  cases p <;> rfl

theorem raiseChannel_modPanel (n : ChannelNo) (e : Event) :
    (s.modPanel p f).raiseChannel n e = (s.raiseChannel n e).modPanel p f := by
  unfold State.raiseChannel
  rw [← raise_modPanel]
  cases p <;> rfl

theorem enterRestarting_modPanel (c : ChainCode) :
    (s.modPanel p f).enterRestarting c = (s.enterRestarting c).modPanel p f := by
  unfold State.enterRestarting
  cases codeChannel c with
  | none => rfl
  | some n => dsimp only; rw [canceller_modPanel, modPanel_hwi]; exact modChannel_modPanel s p f n _

theorem setOwed_modPanel (c : ChainCode) (b : Bool) :
    (s.modPanel p f).setOwed c b = (s.setOwed c b).modPanel p f := by
  unfold State.setOwed
  cases codeChannel c with
  | none => rfl
  | some n => exact modChannel_modPanel s p f n _

theorem joinPurge_modPanel (c : ChainCode) (r : Requesters) :
    (s.modPanel p f).joinPurge c r = (s.joinPurge c r).modPanel p f := by
  unfold State.joinPurge
  rw [enterRestarting_modPanel, setOwed_modPanel, modPanel_pge]
  cases s.pge.engine <;> exact withPge_modPanel _ p f _

theorem requestPurge_modPanel (n : ChannelNo) (r : Requesters) :
    (s.modPanel p f).requestPurge n r = (s.requestPurge n r).modPanel p f := by
  unfold State.requestPurge
  dsimp only
  rw [enterRestarting_modPanel, setOwed_modPanel, modPanel_pge, joinPurge_modPanel]
  cases s.pge.engine with
  | idle | running | suspending | suspended => rfl
  | gathering => exact (apply_ite (State.modPanel · p f) _ _ _).symm

theorem finishEntry_modPanel (e : BatchEntry) :
    (s.modPanel p f).finishEntry e = (s.finishEntry e).modPanel p f := by
  unfold State.finishEntry
  dsimp only
  rw [modPanel_pge, withPge_modPanel, raise_modPanel, holder_modPanel]
  cases codeChannel e.list with
  | none => rfl
  | some n => exact modChannel_modPanel _ p f n _

theorem foldl_modChannel_modPanel (l : List ChannelNo) (g : Channel → Channel) :
    l.foldl (fun t m => t.modChannel m g) (s.modPanel p f) = (l.foldl (fun t m => t.modChannel m g) s).modPanel p f := by
  induction l generalizing s with
  | nil => rfl
  | cons m rest ih => rw [List.foldl_cons, modChannel_modPanel, ih, List.foldl_cons]

theorem owedChannels_modPanel : (s.modPanel p f).owedChannels = s.owedChannels := by
  cases p <;> rfl

theorem exhaust_modPanel : (s.modPanel p f).exhaust = s.exhaust.modPanel p f := by
  unfold State.exhaust
  rw [owedChannels_modPanel, modPanel_pge]
  cases s.owedChannels with
  | nil => exact withPge_modPanel s p f _
  | cons n rest => dsimp only; rw [foldl_modChannel_modPanel]; exact withPge_modPanel _ p f _

theorem selectNext_modPanel (fuel : Nat) : State.selectNext fuel (s.modPanel p f) = (State.selectNext fuel s).modPanel p f := by
  induction fuel generalizing s with
  | zero => rfl
  | succ fuel ih =>
    unfold State.selectNext State.firstUnfinished
    rw [modPanel_pge]
    cases s.pge.batch.find? fun e => !e.finished with
    | none => exact exhaust_modPanel s p f
    | some e =>
      dsimp only
      rw [chain_modPanel]
      cases (s.chain e.list)[e.progress]? with
      | none => dsimp only; rw [finishEntry_modPanel, ih]
      | some g => exact withPge_modPanel s p f _

theorem run_modPanel : (s.modPanel p f).run = s.run.modPanel p f := by
  unfold State.run State.select
  rw [modPanel_pge, withPge_modPanel, selectNext_modPanel, modPanel_pge]

theorem markAtRestart_modPanel (n : ChannelNo) (w : Bool) :
    (s.modPanel p f).markAtRestart n w = (s.markAtRestart n w).modPanel p f := by
  unfold State.markAtRestart
  rw [canceller_modPanel, modChannel_modPanel]
  exact (apply_ite (State.modPanel · p f) _ _ _).symm

end Sys2Proof.Machine
end

section
/-! SUPPORT. Requests to the Purge Engine: what joining a batch does to PGE, to the list's channel and to nothing else (R60 to
R62, R73, R75). -/

namespace Sys2Proof.Machine

variable {s t : State} {n : ChannelNo}

theorem State.eq_withPurge (hwi : t.hwi = s.hwi) (segments : t.segments = s.segments) (free : t.free = s.free)
    (chains : t.chains = s.chains) (transit : t.transit = s.transit) (lc : t.lc = s.lc)
    (relocation : t.relocation = s.relocation) (claims : t.claims = s.claims) (pending : t.pending = s.pending) :
    t = { s with pge := t.pge, channels := t.channels, portA := t.portA, portB := t.portB } := by
  cases t; cases s; simp_all

theorem requesters_ofPlane (p : Plane) :
    Requesters.ofPlane p = { a := decide (p = .a), b := decide (p = .b), internal := false } := by
  cases p <;> rfl

theorem joinPurge_eq_withPge (s : State) (c : ChainCode) (r : Requesters) :
    s.joinPurge c r = { s with pge := (s.joinPurge c r).pge, channels := (s.joinPurge c r).channels } := by
  unfold State.joinPurge State.setOwed State.enterRestarting
  cases s.pge.engine <;> cases codeChannel c <;> rfl

theorem joinPurge_pge_of_idle (idle : s.pge.engine = .idle) (c : ChainCode) (r : Requesters) :
    (s.joinPurge c r).pge =
      { s.pge with engine := .gathering, batch := [.joining c r], gatherTimer := true } := by
  unfold State.joinPurge; rw [idle]

theorem joinPurge_pge_of_gathering (gathering : s.pge.engine = .gathering) (c : ChainCode) (r : Requesters) :
    (s.joinPurge c r).pge = { s.pge with batch := joinBatch c r s.pge.batch } := by
  unfold State.joinPurge; rw [gathering]

theorem joinBatch_of_new {c : ChainCode} {batch : List BatchEntry} (fresh : ∀ e ∈ batch, e.list ≠ c) (r : Requesters) :
    joinBatch c r batch = batch ++ [.joining c r] := by
  unfold joinBatch; rw [if_neg (by simpa using fresh)]

theorem joinBatch_of_member {c : ChainCode} {batch : List BatchEntry} (member : ∃ e ∈ batch, e.list = c)
    (r : Requesters) : joinBatch c r batch =
      batch.map fun e => if e.list = c then { e with requesters := e.requesters.union r } else e := by
  unfold joinBatch; rw [if_pos (by simpa using member)]

theorem channelCode_ne {m : ChannelNo} (other : m ≠ n) : channelCode m ≠ channelCode n :=
  mt channelCode_injective other

theorem codeChannel_eq_some {c : ChainCode} (code : codeChannel c = some n) : c = channelCode n := by
  unfold codeChannel at code
  split at code
  · cases code; rfl
  · cases code

/-- Joining a list changes no channel but its own. -/
theorem joinPurge_channel_of_ne {c : ChainCode} (r : Requesters) (other : channelCode n ≠ c) :
    (s.joinPurge c r).channel n = s.channel n := by
  cases code : codeChannel c with
  | some m =>
    have named := codeChannel_eq_some code
    subst named
    exact joinPurge_channel_ne s r fun same => other (congrArg channelCode same)
  | none =>
    have same : (s.joinPurge c r).channels = s.channels := by
      unfold State.joinPurge State.setOwed State.enterRestarting
      rw [code]
      cases s.pge.engine <;> rfl
    simp only [State.channel, same]

/-- A list that joins a batch that is idle or gathering is unfinished in it. -/
theorem joinPurge_unfinished_self (inv : s.pge.Inv) (engine : s.pge.engine = .idle ∨ s.pge.engine = .gathering)
    (c : ChainCode) (r : Requesters) : (s.joinPurge c r).unfinished c = true := by
  rw [unfinished_iff]
  obtain idle | gathering := engine
  · rw [joinPurge_pge_of_idle idle]
    exact ⟨_, List.mem_singleton.2 rfl, rfl, rfl⟩
  · rw [joinPurge_pge_of_gathering gathering]
    by_cases member : ∃ e ∈ s.pge.batch, e.list = c
    · obtain ⟨e, old, named⟩ := member
      have left : e.finished = false := by
        unfold Pge.Inv at inv
        rw [gathering] at inv
        exact inv.2.2.2.1 e old
      refine ⟨{ e with requesters := e.requesters.union r }, ?_, named, left⟩
      dsimp only
      rw [joinBatch_of_member ⟨e, old, named⟩]
      exact List.mem_map.2 ⟨e, old, if_pos named⟩
    · dsimp only
      rw [joinBatch_of_new fun e old named => member ⟨e, old, named⟩]
      exact ⟨_, List.mem_append_right _ (List.mem_singleton.2 rfl), rfl, rfl⟩

theorem enterRestarting_governing (c : Channel) (w : Bool) (f : Framing) :
    (c.enterRestarting w f).governing = c.governing := by
  unfold Channel.enterRestarting; split <;> rfl

theorem enterRestarting_of_off {c : Channel} (off : c.governing.mode = .off) (w : Bool) (f : Framing) :
    c.enterRestarting w f = c := by
  unfold Channel.enterRestarting; rw [if_pos off]

theorem enterRestarting_of_not_off {c : Channel} (mode : c.governing.mode ≠ .off) (w : Bool) (f : Framing) :
    c.enterRestarting w f =
      { c with converged := false, runCount := 0, standing := .hold,
               whollyRunning := if w ∧ f = .lost then false else c.whollyRunning } := by
  unfold Channel.enterRestarting; rw [if_neg mode]

/-- The channel of a list that joins a batch is RESTARTING. -/
theorem joinPurge_restarting (inv : s.pge.Inv) (engine : s.pge.engine = .idle ∨ s.pge.engine = .gathering)
    (mode : (s.channel n).governing.mode ≠ .off) (r : Requesters) :
    (s.joinPurge (channelCode n) r).canceller n = .restarting := by
  rw [restarting_iff, joinPurge_channel]
  dsimp only
  rw [enterRestarting_governing]
  exact ⟨mode, .inl (joinPurge_unfinished_self inv engine _ r)⟩

/-! ### Internal requests (R73) -/

theorem requestPurge_of_owes (owes : s.pge.owes = true) (n : ChannelNo) (r : Requesters) :
    s.requestPurge n r = (s.enterRestarting (channelCode n)).setOwed (channelCode n) true := by
  unfold Pge.owes at owes
  unfold State.requestPurge
  cases engine : s.pge.engine with
  | idle => simp [engine] at owes
  | gathering =>
    have full : Config.maxBatch ≤ s.pge.batch.length := by simpa [engine] using owes
    exact if_pos full
  | running | suspending | suspended => rfl

theorem requestPurge_of_joins (joins : s.pge.owes = false) (n : ChannelNo) (r : Requesters) :
    s.requestPurge n r = s.joinPurge (channelCode n) r := by
  unfold Pge.owes at joins
  unfold State.requestPurge
  cases engine : s.pge.engine with
  | idle => rfl
  | gathering =>
    have room : ¬Config.maxBatch ≤ s.pge.batch.length := by simpa [engine] using joins
    exact if_neg room
  | running | suspending | suspended => simp [engine] at joins

theorem owes_of_idle {e : Pge} (idle : e.engine = .idle) : e.owes = false := by
  unfold Pge.owes; rw [idle]

theorem owes_of_room {e : Pge} (gathering : e.engine = .gathering) (room : e.batch.length < 16) : e.owes = false := by
  unfold Pge.owes; rw [gathering]; exact decide_eq_false (Nat.not_le.2 room)

theorem owes_of_full {e : Pge} (gathering : e.engine = .gathering) (full : 16 ≤ e.batch.length) : e.owes = true := by
  unfold Pge.owes; rw [gathering]; exact decide_eq_true full

theorem joins_engine {e : Pge} (joins : e.owes = false) : e.engine = .idle ∨ e.engine = .gathering := by
  unfold Pge.owes at joins
  cases engine : e.engine <;> simp_all

theorem requestPurge_owed (s : State) (n : ChannelNo) (r : Requesters) :
    ((s.requestPurge n r).channel n).owed = s.pge.owes := by
  rw [requestPurge_channel]

/-- What a request does to PGE and to the owed flag, in the cases of R73. -/
theorem requestPurge_requested (s : State) (n : ChannelNo) (r : Requesters) :
    s.PurgeRequested (s.requestPurge n r) n r := by
  refine ⟨fun idle => ?_, fun gathering room fresh => ?_, fun gathering room member => ?_, fun past => ?_⟩
    <;> rw [requestPurge_owed]
  · rw [requestPurge_of_joins (owes_of_idle idle), joinPurge_pge_of_idle idle]
    exact ⟨rfl, owes_of_idle idle⟩
  · rw [requestPurge_of_joins (owes_of_room gathering room), joinPurge_pge_of_gathering gathering, joinBatch_of_new fresh]
    exact ⟨rfl, owes_of_room gathering room⟩
  · rw [requestPurge_of_joins (owes_of_room gathering room), joinPurge_pge_of_gathering gathering, joinBatch_of_member member]
    exact ⟨rfl, owes_of_room gathering room⟩
  · have owes : s.pge.owes = true := past.elim (fun full => owes_of_full full.1 full.2) owes_of_past_gathering
    exact ⟨requestPurge_pge_of_owes owes n r, owes⟩

theorem State.PurgeRequested.congr {u v : State} {r : Requesters} (requested : s.PurgeRequested t n r)
    (before : u.pge = s.pge) (after : v.pge = t.pge) (owed : (v.channel n).owed = (t.channel n).owed) :
    u.PurgeRequested v n r := by
  unfold State.PurgeRequested at requested ⊢
  rw [before, after, owed]
  exact requested

theorem requestPurge_restarting (inv : s.pge.Inv) (mode : (s.channel n).governing.mode ≠ .off) (r : Requesters) :
    (s.requestPurge n r).canceller n = .restarting := by
  cases owes : s.pge.owes with
  | true =>
    rw [restarting_iff, requestPurge_owed, requestPurge_channel]
    dsimp only
    rw [enterRestarting_governing]
    exact ⟨mode, .inr owes⟩
  | false =>
    rw [requestPurge_of_joins owes]
    exact joinPurge_restarting inv (joins_engine owes) mode r

theorem requestPurge_channel_ne (s : State) (r : Requesters) {m : ChannelNo} (other : m ≠ n) :
    (s.requestPurge n r).channel m = s.channel m := by
  cases owes : s.pge.owes with
  | true => rw [requestPurge_of_owes owes, entered_channel_ne s true other]
  | false => rw [requestPurge_of_joins owes, joinPurge_channel_ne s r other]

end Sys2Proof.Machine
end

section
/-! PROOF. RESUME and PURGE (R61, R71, R75). -/

namespace Sys2Proof.Machine

variable {s : State} {p : Plane} {a : Args} {c : ChainCode}

/-! ### RESUME (R71) -/

theorem resumeCommand_ignoresPanel (p : Plane) : IgnoresPanel p (·.resumeCommand) := by
  intro s f
  dsimp only
  unfold State.resumeCommand
  rw [modPanel_pge]
  cases s.pge.engine with
  | idle | gathering | running => rfl
  | suspending => exact congrArg (·, Status.ok) (withPge_modPanel s p f _)
  | suspended => exact congrArg (·, Status.ok) (run_modPanel s p f)

theorem exec_resume {t : State} {st : Status} (ready : s.Ready p) (executed : s.resumeCommand = (t, st)) :
    exec (.resume p a) s = .next (t.completed p .resume a st) :=
  congrArg Host.Outcome.next (commandFrame_of_ignoresPanel ready rfl (resumeCommand_ignoresPanel p) executed)

theorem resumeCommand_of_suspended (engine : s.pge.engine = .suspended) : s.resumeCommand = (s.run, .ok) := by
  unfold State.resumeCommand; rw [engine]

/-- Settles O36: RESUME in SUSPENDING, where nothing is suspended, and with a selection in SUSPENDED. -/
theorem resumeCommand : Obligations.ResumeCommand := by
  unfold Obligations.ResumeCommand
  refine fun s p a ready => ⟨fun suspending => exec_resume ready ?_, fun others => exec_resume ready ?_,
    fun suspended e g first segment => ?_, fun suspended nodup => ?_⟩
  · unfold State.resumeCommand; rw [suspending]
  · unfold State.resumeCommand
    obtain engine | engine | engine := others <;> rw [engine]
  · rw [← run_found s e g first segment]
    exact exec_resume ready (resumeCommand_of_suspended suspended)
  · exact ⟨s.run, exec_resume ready (resumeCommand_of_suspended suspended), run_selects s nodup⟩

/-! ### PURGE (R61) -/

theorem purgeCommand_of_not_holder (holder : s.holder c ≠ some p) : s.purgeCommand p (some c) = (s, .notHolder) := by
  have other : (!s.holds p c) = true := by simpa [State.holds] using holder
  exact if_pos other

theorem purgeCommand_of_holder (holder : s.holder c = some p) : s.purgeCommand p (some c) =
    match s.pge.engine with
      | .running | .suspending | .suspended => (s, .purgeBusy)
      | .idle => (s.joinPurge c (.ofPlane p), .ok)
      | .gathering =>
        if Config.maxBatch ≤ s.pge.batch.length then (s, .batchFull) else (s.joinPurge c (.ofPlane p), .ok) := by
  have held : ¬(!s.holds p c) = true := by simpa [State.holds] using holder
  exact if_neg held

theorem purgeCommand_ignoresPanel (p : Plane) (list : Option ChainCode) : IgnoresPanel p (·.purgeCommand p list) := by
  intro s f
  cases list with
  | none => rfl
  | some c =>
    dsimp only
    by_cases holder : s.holder c = some p
    · rw [purgeCommand_of_holder ((holder_modPanel s p f c).trans holder), purgeCommand_of_holder holder, modPanel_pge,
        joinPurge_modPanel]
      cases s.pge.engine with
      | gathering => dsimp only; split <;> rfl
      | idle | running | suspending | suspended => rfl
    · rw [purgeCommand_of_not_holder fun same => holder ((holder_modPanel s p f c).symm.trans same),
        purgeCommand_of_not_holder holder]

theorem exec_purge {t : State} {st : Status} (ready : s.Ready p) (executed : s.purgeCommand p (argChain a) = (t, st)) :
    exec (.purge p a) s = .next (t.completed p .purge a st) :=
  congrArg Host.Outcome.next (commandFrame_of_ignoresPanel (execute := (·.purgeCommand p (argChain a))) ready rfl
    (purgeCommand_ignoresPanel p _) executed)

theorem purgeCommand_of_full (holder : s.holder c = some p) (gathering : s.pge.engine = .gathering)
    (full : 16 ≤ s.pge.batch.length) : s.purgeCommand p (some c) = (s, .batchFull) := by
  rw [purgeCommand_of_holder holder, gathering]
  exact if_pos full

theorem purgeCommand_of_joins (holder : s.holder c = some p)
    (joins : s.pge.engine = .idle ∨ s.pge.engine = .gathering ∧ s.pge.batch.length < 16) :
    s.purgeCommand p (some c) = (s.joinPurge c (.ofPlane p), .ok) := by
  rw [purgeCommand_of_holder holder]
  obtain idle | ⟨gathering, room⟩ := joins
  · rw [idle]
  · rw [gathering]
    exact if_neg (Nat.not_le.2 room)

/-- Settles O37: PURGE refused, and accepted with what joining the batch does. -/
theorem purgeCommand : Obligations.PurgeCommand := by
  unfold Obligations.PurgeCommand
  intro s p a ready refused plane
  have refuses {st : Status} (executed : s.purgeCommand p (argChain a) = (s, st)) : refused st := exec_purge ready executed
  refine ⟨fun none => refuses (by rw [none]; rfl), fun c list => ?_⟩
  refine ⟨fun other => refuses (by rw [list, purgeCommand_of_not_holder other]), fun holder =>
    ⟨fun busy => refuses (by rw [list, purgeCommand_busy holder busy]),
    fun gathering full => refuses (by rw [list, purgeCommand_of_full holder gathering full]), fun joins => ?_⟩⟩
  refine ⟨s.joinPurge c (.ofPlane p), exec_purge ready (by rw [list, purgeCommand_of_joins holder joins]),
    joinPurge_eq_withPge s c _, fun n other => joinPurge_channel_of_ne _ other, fun n named mode => ?_,
    fun n named off => ?_, fun idle => ?_, fun gathering fresh => ?_, fun gathering member => ?_⟩
  · subst named
    rw [joinPurge_channel, enterRestarting_of_not_off mode]
    refine ⟨fun framed => ?_, fun lost => ?_, fun inv => joinPurge_restarting inv (joins.imp_right And.left) mode _⟩
    · rw [if_neg (by simp [framed])]
    · cases running : decide (s.canceller n = .running) <;> simp_all
  · subst named
    rw [joinPurge_channel, enterRestarting_of_off off]
  · rw [joinPurge_pge_of_idle idle, requesters_ofPlane]; rfl
  · rw [joinPurge_pge_of_gathering gathering, joinBatch_of_new fresh, requesters_ofPlane]; rfl
  · rw [joinPurge_pge_of_gathering gathering, joinBatch_of_member member, requesters_ofPlane]
    simp only [Requesters.union, Bool.or_false]

end Sys2Proof.Machine
end

section
/-! PROOF. RESTART: the channel's status and hidden state, its purge, the wholly running mark and TONE_BYPASS (R13, R14, R88,
R108, R149). -/

namespace Sys2Proof.Machine

variable {s : State} {p : Plane} {a : Args} {n : ChannelNo}

/-! ### The channel (R13) -/

/-- A channel after RESTART, but for what the purge and the mark of the block in progress make of it. -/
def Channel.RestartedFrom (d c : Channel) : Prop :=
  ∃ standing wholly owed, d = { c.restart with standing := standing, whollyRunning := wholly, owed := owed }

theorem Channel.RestartedFrom.restarted {c d : Channel} (restarts : d.RestartedFrom c) : d.Restarted := by
  obtain ⟨standing, wholly, owed, rfl⟩ := restarts
  exact ⟨rfl, rfl, rfl, rfl, rfl, rfl, rfl, rfl, ⟨rfl, rfl, rfl, rfl, rfl⟩, ⟨rfl, rfl, rfl, rfl, rfl⟩, rfl, rfl, rfl, rfl, rfl,
    rfl, rfl, rfl, rfl, rfl, rfl⟩

theorem enterRestarting_restart (c : Channel) (w : Bool) (f : Framing) :
    (c.restart.enterRestarting w f).RestartedFrom c := by
  unfold Channel.enterRestarting
  split
  · exact ⟨_, _, _, rfl⟩
  · exact ⟨_, _, _, rfl⟩

/-! ### The purge and the mark (R14, R88) -/

/-- A RESTART up to its internal purge request, which it makes for a chain with segments. -/
def State.restartPurged (s : State) (p : Plane) (n : ChannelNo) : State :=
  if (s.channelChain n).isEmpty then s.modChannel n (·.restart)
  else (s.modChannel n (·.restart)).requestPurge n (.ofPlane p)

theorem restartPurged_of_empty (empty : s.channelChain n = []) (p : Plane) :
    s.restartPurged p n = s.modChannel n (·.restart) := by
  unfold State.restartPurged; rw [empty]; rfl

theorem restartPurged_of_nonempty (nonempty : s.channelChain n ≠ []) (p : Plane) :
    s.restartPurged p n = (s.modChannel n (·.restart)).requestPurge n (.ofPlane p) := by
  unfold State.restartPurged; rw [if_neg (by simpa using nonempty)]

theorem restartPurged_restartedFrom (s : State) (p : Plane) (n : ChannelNo) :
    ((s.restartPurged p n).channel n).RestartedFrom (s.channel n) := by
  by_cases empty : s.channelChain n = []
  · rw [restartPurged_of_empty empty, channel_modChannel]
    exact ⟨_, _, _, rfl⟩
  · rw [restartPurged_of_nonempty empty, requestPurge_channel, channel_modChannel]
    obtain ⟨standing, wholly, owed, same⟩ := enterRestarting_restart (s.channel n)
      (decide ((s.modChannel n (·.restart)).canceller n = .running)) (s.modChannel n (·.restart)).hwi.framing
    exact ⟨standing, wholly, _, by rw [same]⟩

theorem restartPurged_channel_ne (s : State) (p : Plane) {m : ChannelNo} (other : m ≠ n) :
    (s.restartPurged p n).channel m = s.channel m := by
  unfold State.restartPurged
  split
  · exact channel_modChannel_ne s other _
  · rw [requestPurge_channel_ne _ _ other, channel_modChannel_ne s other]

/-- The purge request of a RESTART, for a channel whose mode is not OFF. -/
theorem restartPurged_restarting (nonempty : s.channelChain n ≠ []) (inv : s.pge.Inv)
    (mode : (s.channel n).governing.mode ≠ .off) (p : Plane) : (s.restartPurged p n).canceller n = .restarting := by
  rw [restartPurged_of_nonempty nonempty]
  have reset : ((s.modChannel n (·.restart)).channel n).governing.mode ≠ .off := by
    rw [channel_modChannel]; exact mode
  exact requestPurge_restarting (s := s.modChannel n (·.restart)) inv reset _

theorem markAtRestart_channel (s : State) (n : ChannelNo) (w : Bool) : (s.markAtRestart n w).channel n =
    { s.channel n with
        whollyRunning := (s.channel n).whollyRunning && (w && decide (s.canceller n = .running)) } := by
  unfold State.markAtRestart
  split
  · next stays => simp [stays]
  · next leaves =>
    have clear : (w && decide (s.canceller n = .running)) = false := by
      simpa only [Bool.and_eq_false_iff, decide_eq_false_iff_not, not_and_or, Bool.not_eq_true] using leaves
    rw [channel_modChannel, clear, Bool.and_false]

theorem markAtRestart_channel_ne (s : State) (w : Bool) {m : ChannelNo} (other : m ≠ n) :
    (s.markAtRestart n w).channel m = s.channel m := by
  unfold State.markAtRestart
  split
  · rfl
  · exact channel_modChannel_ne s other _

/-- A RESTART up to its report. -/
def State.restartMarked (s : State) (p : Plane) (n : ChannelNo) : State :=
  (s.restartPurged p n).markAtRestart n (decide (s.canceller n = .running))

theorem restartMarked_pge (s : State) (p : Plane) (n : ChannelNo) :
    (s.restartMarked p n).pge = (s.restartPurged p n).pge := by
  unfold State.restartMarked State.markAtRestart; split <;> rfl

theorem restartMarked_channel (s : State) (p : Plane) (n : ChannelNo) : (s.restartMarked p n).channel n =
    { (s.restartPurged p n).channel n with
        whollyRunning := ((s.restartPurged p n).channel n).whollyRunning &&
          (decide (s.canceller n = .running) && decide ((s.restartPurged p n).canceller n = .running)) } :=
  markAtRestart_channel _ _ _

theorem restartMarked_canceller (s : State) (p : Plane) (n : ChannelNo) :
    (s.restartMarked p n).canceller n = (s.restartPurged p n).canceller n := by
  unfold State.canceller State.unfinished
  rw [restartMarked_channel, restartMarked_pge]

theorem restartMarked_restartedFrom (s : State) (p : Plane) (n : ChannelNo) :
    ((s.restartMarked p n).channel n).RestartedFrom (s.channel n) := by
  obtain ⟨standing, wholly, owed, same⟩ := restartPurged_restartedFrom s p n
  rw [restartMarked_channel, same]
  exact ⟨_, _, _, rfl⟩

theorem restartMarked_frame (s : State) (p : Plane) (n : ChannelNo) : (s.restartMarked p n).hwi = s.hwi ∧
    (s.restartMarked p n).claims = s.claims ∧ ∀ q, (s.restartMarked p n).port q = s.port q := by
  have purged : (s.restartPurged p n).hwi = s.hwi ∧ (s.restartPurged p n).claims = s.claims ∧
      ∀ q, (s.restartPurged p n).port q = s.port q := by
    unfold State.restartPurged
    split
    · exact ⟨rfl, rfl, fun _ => rfl⟩
    · refine ⟨by simp, by simp, fun q => ?_⟩
      cases q <;> simp [State.port]
  unfold State.restartMarked State.markAtRestart
  split
  · exact purged
  · exact purged

/-- The wholly running mark stays while the channel is RUNNING before and after. -/
theorem restartMarked_whollyRunning (inv : s.pge.Inv) (p : Plane) (n : ChannelNo) :
    ((s.restartMarked p n).channel n).whollyRunning = ((s.channel n).whollyRunning &&
      decide (s.canceller n = .running ∧ (s.restartMarked p n).canceller n = .running)) := by
  rw [restartMarked_canceller, restartMarked_channel, Bool.decide_and]
  by_cases before : s.canceller n = .running
  · by_cases after : (s.restartPurged p n).canceller n = .running
    · have empty : s.channelChain n = [] := by
        by_contra nonempty
        have restarting := restartPurged_restarting nonempty inv ((canceller_running_iff s n).1 before).1 p
        rw [after] at restarting
        cases restarting
      rw [restartPurged_of_empty empty, channel_modChannel] at *
      rfl
    · simp [after]
  · simp [before]

/-! ### The report (R108) -/

theorem restartChannel_of_quiet
    (quiet : ¬((s.channel n).governing.mode ≠ .off ∧ Tone.isBypass (s.channel n).tone = true)) (p : Plane) :
    s.restartChannel p n = s.restartMarked p n := by
  unfold State.restartChannel
  dsimp only
  split
  · rfl
  · next mode =>
    cases tone : (s.channel n).tone with
    | listening | tone => rfl
    | bypassSuppressor | bypassFull => exact absurd ⟨mode, by rw [tone]; rfl⟩ quiet

theorem restartChannel_of_reports
    (reports : (s.channel n).governing.mode ≠ .off ∧ Tone.isBypass (s.channel n).tone = true) (p : Plane) :
    s.restartChannel p n = (s.restartMarked p n).raiseChannel n (.toneBypass n .listening) := by
  obtain ⟨mode, bypass⟩ := reports
  unfold State.restartChannel
  dsimp only
  rw [if_neg mode]
  cases tone : (s.channel n).tone with
  | listening | tone => rw [tone] at bypass; cases bypass
  | bypassSuppressor | bypassFull => rfl

/-- The report changes no channel and not PGE. -/
theorem restartChannel_reads (s : State) (p : Plane) (n : ChannelNo) :
    (s.restartChannel p n).channels = (s.restartMarked p n).channels ∧
      (s.restartChannel p n).pge = (s.restartMarked p n).pge := by
  by_cases reports : (s.channel n).governing.mode ≠ .off ∧ Tone.isBypass (s.channel n).tone = true
  · rw [restartChannel_of_reports reports]; simp
  · rw [restartChannel_of_quiet reports]; exact ⟨rfl, rfl⟩

theorem restartChannel_channel (s : State) (p : Plane) (n m : ChannelNo) :
    (s.restartChannel p n).channel m = (s.restartMarked p n).channel m := by
  simp only [State.channel, (restartChannel_reads s p n).1]

theorem restartChannel_canceller (s : State) (p : Plane) (n : ChannelNo) :
    (s.restartChannel p n).canceller n = (s.restartMarked p n).canceller n := by
  unfold State.canceller State.unfinished
  rw [restartChannel_channel, (restartChannel_reads s p n).2]

/-! ### The command (R13, R37, R38) -/

theorem restartPurged_modPanel (s : State) (p q : Plane) (f : Panel → Panel) (n : ChannelNo) :
    (s.modPanel p f).restartPurged q n = (s.restartPurged q n).modPanel p f := by
  unfold State.restartPurged
  rw [channelChain_modPanel, modChannel_modPanel, requestPurge_modPanel]
  exact (apply_ite (State.modPanel · p f) _ _ _).symm

theorem restartMarked_modPanel (s : State) (p q : Plane) (f : Panel → Panel) (n : ChannelNo) :
    (s.modPanel p f).restartMarked q n = (s.restartMarked q n).modPanel p f := by
  unfold State.restartMarked
  rw [restartPurged_modPanel, canceller_modPanel, markAtRestart_modPanel]

theorem restartChannel_modPanel (s : State) (p q : Plane) (f : Panel → Panel) (n : ChannelNo) :
    (s.modPanel p f).restartChannel q n = (s.restartChannel q n).modPanel p f := by
  by_cases reports : (s.channel n).governing.mode ≠ .off ∧ Tone.isBypass (s.channel n).tone = true
  · rw [restartChannel_of_reports reports, restartChannel_of_reports (by rw [channel_modPanel]; exact reports),
      restartMarked_modPanel, raiseChannel_modPanel]
  · rw [restartChannel_of_quiet reports, restartChannel_of_quiet (by rw [channel_modPanel]; exact reports),
      restartMarked_modPanel]

theorem restartCommand_of_holder (holder : s.holder (channelCode n) = some p) :
    s.restartCommand p (some n) = (s.restartChannel p n, .ok) :=
  if_pos (decide_eq_true holder)

theorem restartCommand_of_not_holder (other : s.holder (channelCode n) ≠ some p) :
    s.restartCommand p (some n) = (s, .notHolder) :=
  if_neg (by simpa [State.holds] using other)

theorem restartCommand_ignoresPanel (p : Plane) (channel : Option ChannelNo) :
    IgnoresPanel p (·.restartCommand p channel) := by
  intro s f
  cases channel with
  | none => rfl
  | some n =>
    dsimp only
    by_cases holder : s.holder (channelCode n) = some p
    · rw [restartCommand_of_holder ((holder_modPanel s p f _).trans holder), restartCommand_of_holder holder,
        restartChannel_modPanel]
    · rw [restartCommand_of_not_holder fun same => holder ((holder_modPanel s p f _).symm.trans same),
        restartCommand_of_not_holder holder]

theorem exec_restart {t : State} {st : Status} (ready : s.Ready p)
    (executed : s.restartCommand p (argChannel a) = (t, st)) :
    exec (.restart p a) s = .next (t.completed p .restart a st) :=
  congrArg Host.Outcome.next (commandFrame_of_ignoresPanel (execute := (·.restartCommand p (argChannel a))) ready rfl
    (restartCommand_ignoresPanel p _) executed)

theorem restartChannel_eq_withPurge (s : State) (p : Plane) (n : ChannelNo) :
    s.restartChannel p n = { s with
      pge := (s.restartChannel p n).pge, channels := (s.restartChannel p n).channels
      portA := (s.restartChannel p n).portA, portB := (s.restartChannel p n).portB } := by
  obtain ⟨hwi, segments, free, chains, transit, lc, relocation, claims, pending⟩ := restartChannel_frame s p n
  exact State.eq_withPurge hwi segments free chains transit lc relocation claims pending

/-- What RESTART leaves of the purge and the block in progress where the chain has no segment. -/
theorem restartChannel_of_empty (empty : s.channelChain n = []) (p : Plane) :
    (s.restartChannel p n).pge = s.pge ∧ ((s.restartChannel p n).channel n).owed = (s.channel n).owed ∧
      ((s.restartChannel p n).channel n).standing = (s.channel n).standing := by
  rw [(restartChannel_reads s p n).2, restartMarked_pge, restartChannel_channel, restartMarked_channel,
    restartPurged_of_empty empty, channel_modChannel]
  exact ⟨rfl, rfl, rfl⟩

/-- The purge that RESTART requests for a chain with segments. -/
theorem restartChannel_of_nonempty (nonempty : s.channelChain n ≠ []) (p : Plane) :
    s.PurgeRequested (s.restartChannel p n) n { a := decide (p = .a), b := decide (p = .b), internal := false } ∧
      ((s.channel n).governing.mode ≠ .off → ((s.restartChannel p n).channel n).standing = .hold ∧
        (s.pge.Inv → (s.restartChannel p n).canceller n = .restarting)) := by
  rw [restartChannel_channel, restartChannel_canceller, restartMarked_canceller]
  refine ⟨?_, fun mode => ⟨?_, fun inv => restartPurged_restarting nonempty inv mode p⟩⟩
  · rw [← requesters_ofPlane]
    refine (requestPurge_requested (s.modChannel n (·.restart)) n (.ofPlane p)).congr rfl ?_ ?_
    · rw [(restartChannel_reads s p n).2, restartMarked_pge, restartPurged_of_nonempty nonempty]
    · rw [restartChannel_channel, restartMarked_channel, restartPurged_of_nonempty nonempty]
  · rw [restartMarked_channel, restartPurged_of_nonempty nonempty, requestPurge_channel, channel_modChannel,
      enterRestarting_of_not_off (c := (s.channel n).restart) mode]

/-- The report of a bypass state left, to the holder's own queue. -/
theorem restartChannel_port_of_reports (holder : s.holder (channelCode n) = some p)
    (reports : (s.channel n).governing.mode ≠ .off ∧ Tone.isBypass (s.channel n).tone = true) :
    (s.restartChannel p n).port p =
        { s.port p with queue := (s.port p).queue.arrive (s.stamped false (.toneBypass n .listening)) } ∧
      (s.restartChannel p n).port p.other = s.port p.other := by
  obtain ⟨line, claims, ports⟩ := restartMarked_frame s p n
  have marked : (s.restartMarked p n).holder (channelCode n) = some p := by
    rw [State.holder, claims]; exact holder
  have stamp (e : Event) : (s.restartMarked p n).stamped false e = s.stamped false e := by
    simp only [State.stamped, line]
  rw [restartChannel_of_reports reports, raiseChannel_port, raiseChannel_port, marked, ports, ports]
  refine ⟨?_, if_neg (by cases p <;> decide)⟩
  rw [if_pos (by cases p <;> rfl)]
  exact congrArg (fun r => { s.port p with queue := (s.port p).queue.arrive r }) (stamp _)

/-- Settles O38: RESTART refused, and its channel, purge, mark and report. -/
theorem restartCommand : Obligations.RestartCommand := by
  unfold Obligations.RestartCommand
  intro s p a ready
  refine ⟨fun none => exec_restart ready (by rw [none]; rfl), fun n channel => ⟨fun other => exec_restart ready (by
    rw [channel, restartCommand_of_not_holder other]), fun holder => ?_⟩⟩
  obtain ⟨standing, wholly, owed, restarts⟩ : ((s.restartChannel p n).channel n).RestartedFrom (s.channel n) := by
    rw [restartChannel_channel]; exact restartMarked_restartedFrom s p n
  refine ⟨s.restartChannel p n, exec_restart ready (by rw [channel, restartCommand_of_holder holder]),
    restartChannel_eq_withPurge s p n, fun m other => ?_, Channel.RestartedFrom.restarted ⟨_, _, _, restarts⟩,
    by rw [restarts]; rfl, by rw [restarts]; rfl, by rw [restarts]; rfl, by rw [restarts]; rfl, by rw [restarts]; rfl,
    by rw [restarts]; rfl, by rw [restarts]; rfl, by rw [restarts]; rfl, fun inv => ?_,
    fun empty => restartChannel_of_empty empty p, fun nonempty => restartChannel_of_nonempty nonempty p, fun quiet q => ?_,
    fun reports => restartChannel_port_of_reports holder reports⟩
  · rw [restartChannel_channel]
    exact (markAtRestart_channel_ne _ _ other).trans (restartPurged_channel_ne s p other)
  · rw [restartChannel_canceller, restartChannel_channel]
    exact restartMarked_whollyRunning inv p n
  · rw [restartChannel_of_quiet quiet]; exact (restartMarked_frame s p n).2.2 q

end Sys2Proof.Machine
end

section
/-! SUPPORT. Words and the bytes they are sent in (R160), and absent segment numbers (R171). -/

namespace Sys2Proof.Machine

theorem highByte_ofNat {v : Nat} (small : v < 65536) : highByte (BitVec.ofNat 16 v) = BitVec.ofNat 8 (v / 256) := by
  unfold highByte
  rw [BitVec.toNat_ofNat, Nat.mod_eq_of_lt small]

theorem lowByte_ofNat {v : Nat} (small : v < 65536) : lowByte (BitVec.ofNat 16 v) = BitVec.ofNat 8 v := by
  unfold lowByte
  rw [BitVec.toNat_ofNat, Nat.mod_eq_of_lt small]

theorem wordOf_highByte_lowByte (w : Word) : wordOf (highByte w) (lowByte w) = w := by
  apply BitVec.eq_of_toNat_eq
  have := w.isLt
  simp only [wordOf, highByte, lowByte, BitVec.toNat_ofNat]
  omega

theorem highByte_wordOf (x y : Byte) : highByte (wordOf x y) = x := by
  apply BitVec.eq_of_toNat_eq
  have := x.isLt
  have := y.isLt
  simp only [wordOf, highByte, BitVec.toNat_ofNat]
  omega

theorem lowByte_wordOf (x y : Byte) : lowByte (wordOf x y) = y := by
  apply BitVec.eq_of_toNat_eq
  have := x.isLt
  have := y.isLt
  simp only [wordOf, lowByte, BitVec.toNat_ofNat]
  omega

/-- Words are read back from the bytes they are sent in. -/
theorem bytesToWords_wordsToBytes (words : List Word) : bytesToWords (wordsToBytes words) = words := by
  induction words with
  | nil => rfl
  | cons w rest ih => rw [wordsToBytes, bytesToWords, wordOf_highByte_lowByte, ih]

/-- Bytes in pairs are read back from the words they are packed into. -/
theorem wordsToBytes_bytesToWords_cons (x y : Byte) (rest : List Byte) :
    wordsToBytes (bytesToWords (x :: y :: rest)) = x :: y :: wordsToBytes (bytesToWords rest) := by
  rw [bytesToWords, wordsToBytes, highByte_wordOf, lowByte_wordOf]

theorem optSegment_eq_segmentWord (g : Option SegNo) : optSegment g = segmentWord g := by
  cases g <;> rfl

/-- The two bytes of a segment number. -/
theorem bytes_optSegment_some (g : SegNo) :
    highByte (optSegment (some g)) = inByte (g.val / 256) ∧ lowByte (optSegment (some g)) = inByte g.val := by
  have small : g.val < 65536 := Nat.lt_trans g.isLt (by decide)
  exact ⟨highByte_ofNat small, lowByte_ofNat small⟩

theorem bytes_optSegment_none : highByte (optSegment none) = 0xFF ∧ lowByte (optSegment none) = 0xFF := by decide

end Sys2Proof.Machine
end

section
/-! PROOF. STATUS, reads and refused writes (R165, R166, R168). -/

namespace Sys2Proof.Machine

variable {s : State} {p : Plane} {space count : Byte} {index : Word} {data : List Word} {sp : Space}

/-! ### STATUS (R168) -/

theorem panelBytes_eq_panelLayout (x : Panel) : panelBytes x = panelLayout x := by
  obtain ⟨state, command, valid, status, segment, count⟩ := x
  cases segment with
  | none =>
    dsimp only [panelBytes]
    rw [bytes_optSegment_none.1, bytes_optSegment_none.2]
    cases command <;> cases status <;> cases count <;> rfl
  | some g =>
    dsimp only [panelBytes]
    rw [(bytes_optSegment_some g).1, (bytes_optSegment_some g).2]
    cases command <;> cases status <;> cases count <;> rfl

/-! ### The checks of an access (R165, R166) -/

theorem checkAccess_of_no_space (unnamed : spaceOfCode space = none) (index : Word) (count : Byte) :
    checkAccess space index count = .error .badAddress := by
  unfold checkAccess; rw [unnamed]

theorem checkAccess_of_bad_count (named : spaceOfCode space = some sp) (bad : count.toNat = 0 ∨ 64 < count.toNat)
    (index : Word) : checkAccess space index count = .error .badValue := by
  unfold checkAccess; rw [named]; exact if_pos bad

theorem checkAccess_of_good_count (named : spaceOfCode space = some sp) (one : 1 ≤ count.toNat) (most : count.toNat ≤ 64)
    (index : Word) : checkAccess space index count =
      if ∀ i, i < count.toNat → validIndex sp (index.toNat + i) = true then .ok sp else .error .badAddress := by
  unfold checkAccess
  rw [named]
  dsimp only
  rw [if_neg (by omega)]
  by_cases valid : ∀ i, i < count.toNat → validIndex sp (index.toNat + i) = true
  · rw [if_pos valid, if_pos (by simpa using valid)]
  · rw [if_neg valid, if_neg (by simpa using valid)]

theorem spaceOfCode_of_other (other : space = 0 ∨ 8 ≤ space.toNat) : spaceOfCode space = none := by
  unfold spaceOfCode
  obtain rfl | high := other
  · rfl
  · split
    case h_8 => rfl
    all_goals omega

/-! ### Reads and writes under those checks -/

theorem exec_read_of_error {st : Status} (awaits : (s.port p).iface = .awaitRequest)
    (refused : checkAccess space index count = .error st) :
    exec (.read p space index count) s = .next (s.answered p 0x01 st []) := by
  have request : s.readRequest p space index count = .refuse s st := by unfold State.readRequest; rw [refused]
  refine congrArg Host.Outcome.next ?_
  rw [request_awaiting _ _ _ _ _ awaits, request]
  rfl

theorem exec_read_of_ok (awaits : (s.port p).iface = .awaitRequest) (good : checkAccess space index count = .ok sp) :
    exec (.read p space index count) s = .next (s.answered p 0x01 .ok
      (wordsToBytes ((List.range count.toNat).flatMap fun i => s.item p sp (index.toNat + i)))) := by
  refine congrArg Host.Outcome.next ?_
  rw [request_awaiting _ _ _ _ _ awaits, State.readRequest, good]

theorem exec_write_of_refuse {st : Status} (awaits : (s.port p).iface = .awaitRequest)
    (refused : s.writeRequest p space index count data = .refuse s st) :
    exec (.write p space index count data) s = .next (s.answered p 0x02 st []) := by
  refine congrArg Host.Outcome.next ?_
  rw [request_awaiting _ _ _ _ _ awaits, refused]
  rfl

theorem writeRequest_of_error {st : Status} (refused : checkAccess space index count = .error st) :
    s.writeRequest p space index count data = .refuse s st := by
  unfold State.writeRequest; rw [refused]

/-- The WRITE row of a space with good arguments stands for the spaces that are not writable. -/
theorem writeRequest_of_wellFormed (good : checkAccess space index count = .ok sp)
    (wellFormed : (Instr.write p space index count data).wellFormed = true) :
    s.writeRequest p space index count data = .refuse s .notWritable := by
  unfold State.writeRequest
  simp only [Instr.wellFormed, writeAccepted, good, Bool.and_eq_true, Bool.not_eq_true', decide_eq_false_iff_not]
    at wellFormed
  rw [good]
  cases sp with
  | channelConfig => exact absurd rfl wellFormed.1.2
  | coeff => exact absurd rfl wellFormed.2
  | channelStatus | segment | list | claims | device => rfl

/-- Settles O41: STATUS, the codes, and every access by its checks. -/
theorem readsAndRefusedWrites : Obligations.ReadsAndRefusedWrites := by
  unfold Obligations.ReadsAndRefusedWrites
  refine fun s p awaits => ⟨?_, by decide, by decide, ?_⟩
  · rw [← panelBytes_eq_panelLayout]
    exact congrArg Host.Outcome.next (request_awaiting _ _ _ _ _ awaits)
  intro space index count data refused valid
  have refuses {st : Status} (checked : checkAccess space index count = .error st) : refused st :=
    ⟨exec_read_of_error awaits checked, fun _ => exec_write_of_refuse awaits (writeRequest_of_error checked)⟩
  have valid_iff (sp : Space) (i : Nat) : validIndex sp i = true ↔ valid sp i := by
    cases sp <;> simp [validIndex, valid] <;> omega
  refine ⟨fun other => refuses (checkAccess_of_no_space (spaceOfCode_of_other other) _ _), fun sp member => ?_⟩
  have named : spaceOfCode space = some sp := by
    simp only [List.mem_cons, Prod.mk.injEq, List.not_mem_nil, or_false] at member
    rcases member with h | h | h | h | h | h | h <;> obtain ⟨rfl, rfl⟩ := h <;> rfl
  refine ⟨fun bad => refuses (checkAccess_of_bad_count named bad _), fun one most =>
    ⟨fun ⟨i, below, invalid⟩ => refuses ?_, fun indices => ?_⟩⟩
  · rw [checkAccess_of_good_count named one most, if_neg fun all => invalid ((valid_iff _ _).1 (all i below))]
  · have good : checkAccess space index count = .ok sp := by
      rw [checkAccess_of_good_count named one most, if_pos fun i below => (valid_iff _ _).2 (indices i below)]
    exact ⟨exec_read_of_ok awaits good, fun wellFormed => exec_write_of_refuse awaits
      (writeRequest_of_wellFormed good wellFormed)⟩

end Sys2Proof.Machine
end

section
/-! PROOF. The items of the seven spaces (R19, R23, R33, R35, R165, R171). -/

namespace Sys2Proof.Machine

variable {s : State} {g : SegNo}

/-! ### Channels -/

theorem channelOfCode_val (n : ChannelNo) : channelOfCode n.val = some n := dif_pos n.isLt

theorem chainOfCode_val (c : ChainCode) : chainOfCode c.val = some c := dif_pos c.isLt

theorem flagByte_nil : flagByte [] = 0 := rfl

theorem flagByte_cons (x : Bool) (rest : List Bool) : flagByte (x :: rest) = bitIf x 1 + 2 * flagByte rest := rfl

theorem two_mul_bitIf (x : Bool) (weight : Nat) : 2 * bitIf x weight = bitIf x (2 * weight) := by
  cases x <;> rfl

/-- A bit field as the sum of its flags' weights. -/
theorem flagByte_three (a b c : Bool) : flagByte [a, b, c] = bitIf a 1 + bitIf b 2 + bitIf c 4 := by
  simp only [flagByte_cons, flagByte_nil, Nat.mul_add, two_mul_bitIf, Nat.mul_zero, Nat.add_zero, Nat.add_assoc, Nat.reduceMul]

theorem flagByte_two (a b : Bool) : flagByte [a, b] = bitIf a 1 + bitIf b 2 := by
  simp only [flagByte_cons, flagByte_nil, two_mul_bitIf, Nat.mul_zero, Nat.add_zero, Nat.reduceMul]

theorem flagByte_six (a b c d e f : Bool) :
    flagByte [a, b, c, d, e, f] = bitIf a 1 + bitIf b 2 + bitIf c 4 + bitIf d 8 + bitIf e 16 + bitIf f 32 := by
  simp only [flagByte_cons, flagByte_nil, Nat.mul_add, two_mul_bitIf, Nat.mul_zero, Nat.add_zero, Nat.add_assoc, Nat.reduceMul]

theorem wordsToBytes_configItem (c : Channel) : wordsToBytes (configItem c) = recordBytes c.governing := by
  simp only [configItem, recordBytes, wordsToBytes_bytesToWords_cons]
  rfl

theorem recordBytes_eq_configLayout (r : ConfigRecord) : recordBytes r = configLayout r := by
  unfold recordBytes configLayout
  rw [flagByte_three, flagByte_two]
  rfl

theorem wordsToBytes_statusItem (s : State) (n : ChannelNo) : wordsToBytes (s.statusItem n) = s.statusLayout n := by
  simp only [State.statusItem, wordsToBytes_bytesToWords_cons, flagByte_six]
  rfl

/-! ### Segments (R19) -/

theorem before_of_notMem {l : List SegNo} (outside : g ∉ l.tail) : before g l = none := by
  induction l with
  | nil => rfl
  | cons x rest ih =>
    cases rest with
    | nil => rfl
    | cons y rest =>
      obtain ⟨ne, later⟩ := not_or.1 (mt List.mem_cons.2 outside)
      rw [before, if_neg (Ne.symm ne)]
      exact ih later

theorem before_append_cons {pre post : List SegNo} (nodup : (pre ++ g :: post).Nodup) :
    before g (pre ++ g :: post) = pre.getLast? := by
  induction pre with
  | nil => exact before_of_notMem (List.nodup_cons.1 nodup).1
  | cons x pre ih =>
    cases pre with
    | nil => exact if_pos rfl
    | cons y pre =>
      have rest := (List.nodup_cons.1 nodup).2
      have ne : y ≠ g := fun same => (List.nodup_cons.1 rest).1 (by simp [same])
      rw [List.getLast?_cons_cons, ← ih rest]
      exact if_neg ne

theorem after_append_cons {pre post : List SegNo} (nodup : (pre ++ g :: post).Nodup) :
    after g (pre ++ g :: post) = post.head? := by
  induction pre with
  | nil =>
    cases post with
    | nil => rfl
    | cons y post => exact if_pos rfl
  | cons x pre ih =>
    obtain ⟨outside, rest⟩ := List.nodup_cons.1 nodup
    have ne : x ≠ g := fun same => outside (by simp [same])
    rw [← ih rest]
    cases pre with
    | nil => exact if_neg ne
    | cons y pre => exact if_neg ne

/-- The fields of R19 that do not depend on the segment's place. -/
def segmentRest (x : Segment) : List Word :=
  [(x.startDelay.map fun d => BitVec.ofNat 16 d).getD 0xFFFF, BitVec.ofNat 16 (min 65534 (x.weight / 2 ^ 20)),
    BitVec.ofNat 16 x.vacancy]

theorem segmentItem_eq (s : State) (g : SegNo) : s.segmentItem g =
    [BitVec.ofNat 16 (placeCode (s.place g)), segmentWord (before g (s.listOf g)), segmentWord (after g (s.listOf g))] ++
      segmentRest (s.segment g) := by
  have delay : optWord (s.segment g).startDelay =
      ((s.segment g).startDelay.map fun d => BitVec.ofNat 16 d).getD 0xFFFF := by
    cases (s.segment g).startDelay <;> rfl
  simp only [State.segmentItem, delay, optSegment_eq_segmentWord]
  rfl

theorem item_segment (s : State) (p : Plane) (g : SegNo) : s.item p .segment g.val = s.segmentItem g := dif_pos g.isLt

theorem segmentItem_of_transit (transit : s.transit = some g) :
    s.segmentItem g = [256, 0xFFFF, 0xFFFF] ++ segmentRest (s.segment g) := by
  have place : s.place g = .transit := if_pos transit
  rw [segmentItem_eq, State.listOf, place]
  rfl

theorem State.PoolInv.free_nodup (pool : s.PoolInv) : s.free.Nodup := by
  have nodup := pool.nodup
  rw [List.append_assoc] at nodup
  exact nodup.of_append_left

theorem segmentItem_of_free (pool : s.PoolInv) {pre post : List SegNo} (split : s.free = pre ++ g :: post) :
    s.segmentItem g = [255, segmentWord pre.getLast?, segmentWord post.head?] ++ segmentRest (s.segment g) := by
  have nodup : (pre ++ g :: post).Nodup := split ▸ pool.free_nodup
  have place : s.place g = .free := pool.place_of_mem_free (by simp [split])
  rw [segmentItem_eq, State.listOf, place]
  dsimp only
  rw [split, before_append_cons nodup, after_append_cons nodup]
  rfl

theorem segmentItem_of_chain (pool : s.PoolInv) {c : ChainCode} {pre post : List SegNo}
    (split : s.chain c = pre ++ g :: post) : s.segmentItem g =
      [BitVec.ofNat 16 c.val, segmentWord pre.getLast?, segmentWord post.head?] ++ segmentRest (s.segment g) := by
  have nodup : (pre ++ g :: post).Nodup := split ▸ pool.chain_nodup c
  have place : s.place g = .chain c := pool.place_of_mem_chain (by simp [split])
  rw [segmentItem_eq, State.listOf, place]
  dsimp only
  rw [split, before_append_cons nodup, after_append_cons nodup]
  rfl

/-- Every segment is counted once, in F, in a list or in transit (R24). -/
theorem State.PoolInv.count (pool : s.PoolInv) :
    s.free.length + ((List.finRange 136).map fun c => (s.chain c).length).sum =
      if s.transit = none then 1024 else 1023 := by
  have total := pool.1.length_eq
  rw [List.length_append, List.length_append, List.length_flatMap, List.length_finRange] at total
  have chains : ((List.finRange Config.chains).map fun c => (s.chain c).length).sum =
    ((List.finRange 136).map fun c => (s.chain c).length).sum := rfl
  have segments : Config.segments = 1024 := rfl
  rw [chains, segments] at total
  cases transit : s.transit with
  | none =>
    rw [transit, Option.toList_none, List.length_nil] at total
    rw [if_pos rfl, ← total, Nat.add_zero]
  | some g =>
    rw [transit, Option.toList_some, List.length_singleton] at total
    rw [if_neg (by simp)]
    omega

/-! ### Coefficients, lists, claims and the device -/

theorem item_coeff (s : State) (p : Plane) (g : SegNo) (k : Fin 64) :
    s.item p .coeff (64 * g.val + k.val) = [(s.segment g).coeffs[k.val]] := by
  have named : coeffSegment (64 * g.val + k.val) = some g := by
    have quotient : (64 * g.val + k.val) / 64 = g.val := by omega
    unfold coeffSegment
    simp only [quotient]
    exact dif_pos g.isLt
  have tap : (64 * g.val + k.val) % 64 = k.val := by omega
  simp [State.item, named, tap]

theorem headerItem_eq_headerLayout (l : List SegNo) : headerItem l = headerLayout l := by
  unfold headerItem headerLayout
  rw [optSegment_eq_segmentWord, optSegment_eq_segmentWord]

theorem item_list (s : State) (p : Plane) (c : ChainCode) : s.item p .list c.val = headerLayout (s.chain c) := by
  have chain : c.val ≠ 255 := Nat.ne_of_lt (Nat.lt_trans c.isLt (by decide))
  rw [← headerItem_eq_headerLayout]
  simp only [State.item, if_neg chain, chainOfCode_val]
  rfl

theorem item_claims (s : State) (p : Plane) (c : ChainCode) :
    s.item p .claims c.val = [BitVec.ofNat 16 (holderCode (s.holder c))] := by
  simp only [State.item, chainOfCode_val]
  rfl

/-- Settles O42: the items of each space. -/
theorem itemsOfTheSpaces : Obligations.ItemsOfTheSpaces := by
  unfold Obligations.ItemsOfTheSpaces
  refine ⟨fun s p => ⟨fun n => ⟨?_, ?_⟩, item_coeff s p, fun c => ⟨item_list s p c, ?_⟩, headerItem_eq_headerLayout s.free,
    rfl, ?_, rfl, ?_, rfl, rfl, rfl, rfl⟩, fun s p pool => ⟨fun g => ?_, pool.count⟩⟩
  · simp only [State.item, channelOfCode_val]
    exact (wordsToBytes_configItem _).trans (recordBytes_eq_configLayout _)
  · simp only [State.item, channelOfCode_val]
    exact wordsToBytes_statusItem s n
  · rw [item_claims]
    cases s.holder c with
    | none => rfl
    | some p => cases p <;> rfl
  · simp only [State.item, State.deviceItem]
    cases s.pge.engine <;> rfl
  · simp only [State.item, State.deviceItem]
    cases s.hwi.framing <;> rfl
  · rw [item_segment]
    exact ⟨segmentItem_of_transit, fun pre post => segmentItem_of_free pool, fun c pre post => segmentItem_of_chain pool⟩

end Sys2Proof.Machine
end

section
/-! PROOF. Every request is read back from the frame it is sent in (R161, R162). -/

namespace Sys2Proof.Machine

variable {p : Plane} {space count : Byte} {index : Word} {data : List Word}

/-- A frame of its length, whose check byte is right, is judged by the request its other bytes stand for. -/
theorem judgeFrame_of_length {kind : Byte} {rest : List Byte} {length : Nat}
    (length_eq : frameLength (kind :: rest) = some length) (bytes : (kind :: rest).length = length)
    (check : ((kind :: rest).drop (length - 1)).head? = some (checkByte ((kind :: rest).take (length - 1)))) {i : Instr}
    (request : requestOf p ((kind :: rest).take (length - 1)) = some i) : judgeFrame p (kind :: rest) = .request i := by
  unfold judgeFrame
  simp only [length_eq]
  rw [if_neg (Nat.not_lt.2 bytes.ge), if_pos check, request]

theorem judgeFrame_withCheck {bytes : List Byte} {i : Instr} (nonempty : bytes ≠ [])
    (length : frameLength (withCheck bytes) = some (withCheck bytes).length) (request : requestOf p bytes = some i) :
    judgeFrame p (withCheck bytes) = .request i := by
  cases bytes with
  | nil => exact absurd rfl nonempty
  | cons kind rest =>
    have body : (withCheck (kind :: rest)).length - 1 = (kind :: rest).length := by simp [withCheck]
    refine judgeFrame_of_length length rfl ?_ ?_ <;> rw [body]
    · exact (congrArg List.head? List.drop_left).trans (congrArg (some ∘ checkByte) List.take_left.symm)
    · exact (congrArg (requestOf p) List.take_left).trans request

/-! ### The requests behind the bytes -/

theorem requestOf_writeBytes (p : Plane) (space : Byte) (index : Word) (count : Byte) (data : List Word) :
    requestOf p (writeBytes space index count data) = some (writeInstr p space index count data) := by
  have read : requestOf p (writeBytes space index count data) =
      some (writeInstr p space (wordOf (highByte index) (lowByte index)) count (bytesToWords (wordsToBytes data))) := rfl
  rw [read, wordOf_highByte_lowByte, bytesToWords_wordsToBytes]

theorem requestOf_commandBytes (p : Plane) (code : Byte) (a : Args) :
    requestOf p (commandBytes code a) = some (commandInstr p code a) := by
  have read : requestOf p (commandBytes code a) = some (commandInstr p code
      { arg1 := wordOf (highByte a.arg1) (lowByte a.arg1), listField := a.listField,
        delayField := wordOf (highByte a.delayField) (lowByte a.delayField) }) := rfl
  rw [read, wordOf_highByte_lowByte, wordOf_highByte_lowByte]

theorem judgeFrame_write {i : Instr} (fits : writeDataFits space count data = true)
    (row : writeInstr p space index count data = i) :
    judgeFrame p (withCheck (writeBytes space index count data)) = .request i := by
  refine judgeFrame_withCheck (List.cons_ne_nil _ _) ?_ (row ▸ requestOf_writeBytes p space index count data)
  rw [length_write_frame fits]
  rfl

theorem judgeFrame_command {code : Byte} {a : Args} {i : Instr} (row : commandInstr p code a = i) :
    judgeFrame p (withCheck (commandBytes code a)) = .request i :=
  judgeFrame_withCheck (List.cons_ne_nil _ _) rfl (row ▸ requestOf_commandBytes p code a)

theorem judgeFrame_read (p : Plane) (space : Byte) (index : Word) (count : Byte) :
    judgeFrame p (withCheck [0x01, space, highByte index, lowByte index, count]) =
      .request (.read p space index count) := by
  refine judgeFrame_withCheck (List.cons_ne_nil _ _) rfl ?_
  have read : requestOf p [0x01, space, highByte index, lowByte index, count] =
      some (.read p space (wordOf (highByte index) (lowByte index)) count) := rfl
  rw [read, wordOf_highByte_lowByte]

/-! ### The rows of a WRITE (R3, R166, R167) -/

theorem writeInstr_of_channelConfig (accepted : writeAccepted .channelConfig space index count = true) :
    writeInstr p space index count data = .writeChannelConfig p index count data := by
  unfold writeInstr
  rw [checkAccess_of_writeAccepted accepted]

theorem writeInstr_of_coeff (accepted : writeAccepted .coeff space index count = true) :
    writeInstr p space index count data = .writeCoeff p index count data := by
  unfold writeInstr
  rw [checkAccess_of_writeAccepted accepted]

theorem writeInstr_of_other (config : writeAccepted .channelConfig space index count = false)
    (coeff : writeAccepted .coeff space index count = false) :
    writeInstr p space index count data = .write p space index count data := by
  unfold writeInstr
  unfold writeAccepted at config coeff
  split at config
  next sp access =>
    rw [access] at coeff ⊢
    cases sp with
    | channelConfig => cases of_decide_eq_false config rfl
    | coeff => cases of_decide_eq_false coeff rfl
    | channelStatus | segment | list | claims | device => rfl
  next access => rw [access]

theorem judgeFrame_requestFrame {c : Instr} {frame : List Byte} (good : c.wellFormed = true) (plane : planeOf c = some p)
    (frames : requestFrame c = some frame) (whole : ∀ f, c ≠ .badFrame p f) : judgeFrame p frame = .request c := by
  cases c with
  | writeChannelConfig =>
    cases plane; cases frames
    simp only [Instr.wellFormed, Bool.and_eq_true] at good
    exact judgeFrame_write good.1 (writeInstr_of_channelConfig good.2)
  | writeCoeff =>
    cases plane; cases frames
    simp only [Instr.wellFormed, Bool.and_eq_true] at good
    exact judgeFrame_write good.1 (writeInstr_of_coeff good.2)
  | write =>
    cases plane; cases frames
    simp only [Instr.wellFormed, Bool.and_eq_true, Bool.not_eq_true'] at good
    exact judgeFrame_write good.1.1 (writeInstr_of_other good.1.2 good.2)
  | badFrame => cases plane; cases whole _ rfl
  | command _ code a =>
    cases plane; cases frames
    have unnamed : commandOfCode code = none := Option.isNone_iff_eq_none.mp good
    exact judgeFrame_command (by unfold commandInstr; rw [unnamed])
  | read => cases plane; cases frames; exact judgeFrame_read p _ _ _
  | status | takeEvents | setTrigger | linkReset =>
    cases plane; cases frames
    exact judgeFrame_withCheck (List.cons_ne_nil _ _) rfl rfl
  | allocate | release | move | swap | empty | purge | suspend | resume | claim | unclaim | seize | restart =>
    cases plane; cases frames
    exact judgeFrame_command rfl
  | replyFrame | quietTimerExpiry => cases frames
  | powerOnReset | syncPulse | missedSync | samplePairArrival | blockBoundary | stampTick | allocateTake | allocateLink
    | releaseTake | releaseLinkIntoF | moveTake | moveLink | swapTake | emptyTake | emptyLinkIntoF | emptyUnlink
    | relocationTake | relocationLink | gatherTimerExpiry | segmentClearEnd | suspendTimerExpiry | transparentTimeslot =>
    cases plane

/-- Settles O50: the frame of a request is judged to be that request, and a bad frame bad. -/
theorem requestFramesRoundTrip : Obligations.RequestFramesRoundTrip := by
  unfold Obligations.RequestFramesRoundTrip
  refine fun p c frame good plane frames => ⟨judgeFrame_requestFrame good plane frames, ?_⟩
  rintro f rfl
  cases frames
  exact of_decide_eq_true good

end Sys2Proof.Machine
end

section
/-! PROOF. The configuration record and its item (R1, R166, R171). -/

namespace Sys2Proof.Machine

variable {raw : RawRecord} {r : ConfigRecord} {auto : Bool} {gain upper lower : Int}

/-! ### The fields of a record -/

theorem modeOfCode_eq_some {code : Nat} {mode : Mode} : modeOfCode code = some mode ↔ code = codeOfMode mode := by
  unfold modeOfCode
  split <;> cases mode <;> simp [codeOfMode] <;> omega

theorem stepOfCode_eq_some {code : Nat} {step : StepSize} : stepOfCode code = some step ↔ code = codeOfStep step := by
  unfold stepOfCode
  split <;> cases step <;> simp [codeOfStep] <;> omega

theorem marginOfCode_eq_some {code : Nat} {margin : Margin} :
    marginOfCode code = some margin ↔ code = codeOfMargin margin := by
  unfold marginOfCode
  split <;> cases margin <;> simp [codeOfMargin] <;> omega

theorem channelOfCode_eq_some {code : Nat} {n : ChannelNo} : channelOfCode code = some n ↔ code = n.val := by
  refine ⟨fun named => ?_, fun same => same ▸ channelOfCode_val n⟩
  unfold channelOfCode at named
  split at named
  · cases named; rfl
  · cases named

theorem exists_codeOfMode {code : Nat} (small : code ≤ 2) : ∃ mode, code = codeOfMode mode := by
  interval_cases code
  exacts [⟨.off, rfl⟩, ⟨.observe, rfl⟩, ⟨.active, rfl⟩]

theorem exists_codeOfStep {code : Nat} (small : code ≤ 3) : ∃ step, code = codeOfStep step := by
  interval_cases code
  exacts [⟨.half, rfl⟩, ⟨.quarter, rfl⟩, ⟨.eighth, rfl⟩, ⟨.sixteenth, rfl⟩]

theorem exists_codeOfMargin {code : Nat} (small : code ≤ 2) : ∃ margin, code = codeOfMargin margin := by
  interval_cases code
  exacts [⟨.db0, rfl⟩, ⟨.db3, rfl⟩, ⟨.db6, rfl⟩]

theorem codeOfMode_le (mode : Mode) : codeOfMode mode ≤ 2 := by cases mode <;> decide

theorem codeOfStep_le (step : StepSize) : codeOfStep step ≤ 3 := by cases step <;> decide

theorem codeOfMargin_le (margin : Margin) : codeOfMargin margin ≤ 2 := by cases margin <;> decide

/-- The gain and the levels of a direction are options of R1. -/
def AlcInOptions (gain upper lower : Int) : Prop :=
  (-24 ≤ gain ∧ gain ≤ 24) ∧ (-40 ≤ upper ∧ upper ≤ 0) ∧ -40 ≤ lower ∧ lower ≤ 0

theorem alcOf_eq_some {a : AlcConfig} : alcOf auto gain upper lower = some a ↔
    AlcInOptions gain upper lower ∧ a = { auto := auto, fixedGain := gain, upper := upper, lower := lower } := by
  unfold alcOf AlcInOptions
  split
  · next good =>
    simp only [goodGain, goodLevel, Bool.and_eq_true, decide_eq_true_eq] at good
    simp only [Option.some.injEq, good, and_self, true_and]
    exact eq_comm
  · next bad =>
    simp only [goodGain, goodLevel, Bool.and_eq_true, decide_eq_true_eq] at bad
    simp only [reduceCtorEq, false_iff, not_and]
    exact fun ⟨g, u, l⟩ _ => bad ⟨⟨g, u⟩, l⟩

theorem eq_bits_of_lt_eight {v : Nat} (small : v < 8) :
    v = (if v.testBit 0 then 1 else 0) + (if v.testBit 1 then 2 else 0) + if v.testBit 2 then 4 else 0 := by
  interval_cases v <;> decide

theorem eq_bits_of_lt_four {v : Nat} (small : v < 4) : v = (if v.testBit 0 then 1 else 0) + if v.testBit 1 then 2 else 0 := by
  interval_cases v <;> decide

/-- A record is read from raw fields exactly when they hold its fields, each in its options. -/
theorem decode_eq_some : raw.decode = some r ↔
    raw.mode = codeOfMode r.mode ∧ raw.timeslot = r.timeslot.val ∧ raw.step = codeOfStep r.step ∧
    raw.margin = codeOfMargin r.margin ∧ AlcInOptions raw.receiveGain raw.receiveUpper raw.receiveLower ∧
    AlcInOptions raw.sendGain raw.sendUpper raw.sendLower ∧ (raw.enables < 8 ∧ raw.alcModes < 4) ∧
    r.suppressor = raw.enables.testBit 0 ∧ r.toneBypass = raw.enables.testBit 1 ∧ r.tracking = raw.enables.testBit 2 ∧
    r.receive = { auto := raw.alcModes.testBit 0, fixedGain := raw.receiveGain, upper := raw.receiveUpper,
                  lower := raw.receiveLower } ∧
    r.send = { auto := raw.alcModes.testBit 1, fixedGain := raw.sendGain, upper := raw.sendUpper,
               lower := raw.sendLower } := by
  unfold RawRecord.decode
  constructor
  · intro decoded
    split at decoded
    · next mode timeslot step margin receive send =>
      rw [modeOfCode_eq_some] at mode
      rw [channelOfCode_eq_some] at timeslot
      rw [stepOfCode_eq_some] at step
      rw [marginOfCode_eq_some] at margin
      rw [alcOf_eq_some] at receive send
      split at decoded
      · next small =>
        cases decoded
        exact ⟨mode, timeslot, step, margin, receive.1, send.1, small, rfl, rfl, rfl, receive.2, send.2⟩
      · cases decoded
    · cases decoded
  · rintro ⟨mode, timeslot, step, margin, receive, send, small, suppressor, toneBypass, tracking, receives, sends⟩
    rw [modeOfCode_eq_some.2 mode, channelOfCode_eq_some.2 timeslot, stepOfCode_eq_some.2 step, marginOfCode_eq_some.2 margin,
      alcOf_eq_some.2 ⟨receive, receives⟩, alcOf_eq_some.2 ⟨send, sends⟩]
    dsimp only
    rw [if_pos small, ← suppressor, ← toneBypass, ← tracking]

/-- Every raw field is in the options of R1. -/
def RawRecord.InOptions (raw : RawRecord) : Prop :=
  raw.mode ≤ 2 ∧ raw.timeslot ≤ 127 ∧ raw.step ≤ 3 ∧ raw.margin ≤ 2 ∧ raw.enables ≤ 7 ∧ raw.alcModes ≤ 3 ∧
    AlcInOptions raw.receiveGain raw.receiveUpper raw.receiveLower ∧
    AlcInOptions raw.sendGain raw.sendUpper raw.sendLower

theorem inOptions_of_decode (decoded : raw.decode = some r) : raw.InOptions := by
  obtain ⟨mode, timeslot, step, margin, receive, send, small, -⟩ := decode_eq_some.1 decoded
  exact ⟨mode ▸ codeOfMode_le _, timeslot ▸ Nat.le_of_lt_succ r.timeslot.isLt, step ▸ codeOfStep_le _,
    margin ▸ codeOfMargin_le _, Nat.le_of_lt_succ small.1, Nat.le_of_lt_succ small.2, receive, send⟩

theorem decode_of_inOptions (good : raw.InOptions) : ∃ r, raw.decode = some r := by
  obtain ⟨mode, timeslot, step, margin, enables, alcModes, receive, send⟩ := good
  obtain ⟨mode, hm⟩ := exists_codeOfMode mode
  obtain ⟨step, hs⟩ := exists_codeOfStep step
  obtain ⟨margin, hg⟩ := exists_codeOfMargin margin
  exact ⟨⟨mode, ⟨raw.timeslot, Nat.lt_succ_of_le timeslot⟩, step, margin, _, _, _, _, _⟩, decode_eq_some.2 ⟨hm, rfl, hs, hg,
    receive, send, ⟨Nat.lt_succ_of_le enables, Nat.lt_succ_of_le alcModes⟩, rfl, rfl, rfl, rfl, rfl⟩⟩

theorem decode_eq_none : raw.decode = none ↔ ¬raw.InOptions := by
  refine ⟨fun none good => ?_, fun bad => ?_⟩
  · obtain ⟨r, decoded⟩ := decode_of_inOptions good
    rw [none] at decoded
    cases decoded
  · cases decoded : raw.decode with
    | none => rfl
    | some r => exact absurd (inOptions_of_decode decoded) bad

/-! ### The item of a record -/

theorem toNat_ofNat_byte {v : Nat} (small : v < 256) : (BitVec.ofNat 8 v).toNat = v := by
  rw [BitVec.toNat_ofNat]; exact Nat.mod_eq_of_lt small

theorem toInt_ofInt_byte {v : Int} (low : -128 ≤ v) (high : v < 128) : (BitVec.ofInt 8 v).toInt = v := by
  rw [BitVec.toInt_ofInt]
  exact Int.bmod_eq_of_le (by omega) (by omega)

theorem bitIf_le (x : Bool) (weight : Nat) : bitIf x weight ≤ weight := by
  cases x <;> simp [bitIf]

theorem flagByte_three_lt (a b c : Bool) : flagByte [a, b, c] < 8 := by
  have := bitIf_le a 1
  have := bitIf_le b 2
  have := bitIf_le c 4
  rw [flagByte_three]
  omega

theorem flagByte_two_lt (a b : Bool) : flagByte [a, b] < 4 := by
  have := bitIf_le a 1
  have := bitIf_le b 2
  rw [flagByte_two]
  omega

theorem flagByte_testBit_zero (x : Bool) (rest : List Bool) : (flagByte (x :: rest)).testBit 0 = x := by
  rw [flagByte_cons]
  cases x <;> simp [bitIf, Nat.testBit_zero]

theorem flagByte_testBit_succ (x : Bool) (rest : List Bool) (i : Nat) :
    (flagByte (x :: rest)).testBit (i + 1) = (flagByte rest).testBit i := by
  rw [flagByte_cons, Nat.testBit_succ]
  have half : (bitIf x 1 + 2 * flagByte rest) / 2 = flagByte rest := by
    have := bitIf_le x 1
    omega
  rw [half]

/-- The record a direction holds has its gain and levels in the options of R1. -/
def AlcConfig.InOptions (a : AlcConfig) : Prop := AlcInOptions a.fixedGain a.upper a.lower

theorem AlcConfig.InOptions.bytes {a : AlcConfig} (good : a.InOptions) :
    (BitVec.ofInt 8 a.fixedGain).toInt = a.fixedGain ∧ (BitVec.ofInt 8 a.upper).toInt = a.upper ∧
      (BitVec.ofInt 8 a.lower).toInt = a.lower := by
  obtain ⟨gain, upper, lower⟩ := good
  exact ⟨toInt_ofInt_byte (by omega) (by omega), toInt_ofInt_byte (by omega) (by omega),
    toInt_ofInt_byte (by omega) (by omega)⟩

theorem rawRecord_recordBytes (receive : r.receive.InOptions) (send : r.send.InOptions) : rawRecord (recordBytes r) =
    { mode := codeOfMode r.mode, timeslot := r.timeslot.val, step := codeOfStep r.step, margin := codeOfMargin r.margin
      enables := flagByte [r.suppressor, r.toneBypass, r.tracking], alcModes := flagByte [r.receive.auto, r.send.auto]
      receiveGain := r.receive.fixedGain, receiveUpper := r.receive.upper, receiveLower := r.receive.lower
      sendGain := r.send.fixedGain, sendUpper := r.send.upper, sendLower := r.send.lower } := by
  have mode := codeOfMode_le r.mode
  have step := codeOfStep_le r.step
  have margin := codeOfMargin_le r.margin
  have enables := flagByte_three_lt r.suppressor r.toneBypass r.tracking
  have alcModes := flagByte_two_lt r.receive.auto r.send.auto
  have timeslot : r.timeslot.val < 256 := Nat.lt_trans r.timeslot.isLt (by decide)
  have fields : rawRecord (recordBytes r) =
      { mode := (BitVec.ofNat 8 (codeOfMode r.mode)).toNat, timeslot := (BitVec.ofNat 8 r.timeslot.val).toNat
        step := (BitVec.ofNat 8 (codeOfStep r.step)).toNat, margin := (BitVec.ofNat 8 (codeOfMargin r.margin)).toNat
        enables := (BitVec.ofNat 8 (flagByte [r.suppressor, r.toneBypass, r.tracking])).toNat
        alcModes := (BitVec.ofNat 8 (flagByte [r.receive.auto, r.send.auto])).toNat
        receiveGain := (BitVec.ofInt 8 r.receive.fixedGain).toInt, receiveUpper := (BitVec.ofInt 8 r.receive.upper).toInt
        receiveLower := (BitVec.ofInt 8 r.receive.lower).toInt, sendGain := (BitVec.ofInt 8 r.send.fixedGain).toInt
        sendUpper := (BitVec.ofInt 8 r.send.upper).toInt, sendLower := (BitVec.ofInt 8 r.send.lower).toInt } := rfl
  rw [fields, toNat_ofNat_byte (by omega), toNat_ofNat_byte timeslot, toNat_ofNat_byte (by omega),
    toNat_ofNat_byte (by omega), toNat_ofNat_byte (by omega), toNat_ofNat_byte (by omega), receive.bytes.1,
    receive.bytes.2.1, receive.bytes.2.2, send.bytes.1, send.bytes.2.1, send.bytes.2.2]

/-- A record is read back from its bytes. -/
theorem decode_rawRecord_recordBytes (receive : r.receive.InOptions) (send : r.send.InOptions) :
    (rawRecord (recordBytes r)).decode = some r := by
  rw [rawRecord_recordBytes receive send, decode_eq_some]
  simp only [flagByte_testBit_zero, flagByte_testBit_succ, flagByte_three_lt, flagByte_two_lt, and_self, true_and]
  exact ⟨receive, send, trivial⟩

/-- Settles O51: which raw records are refused, what an accepted one holds, and the item read back. -/
theorem configRecordRoundTrip : Obligations.ConfigRecordRoundTrip := by
  unfold Obligations.ConfigRecordRoundTrip
  constructor
  · intro raw gain level
    refine ⟨?_, fun r decoded => ?_⟩
    · rw [decode_eq_none]
      simp only [RawRecord.InOptions, AlcInOptions, gain, level]
      omega
    · obtain ⟨mode, timeslot, step, margin, -, -, small, suppressor, toneBypass, tracking, receive, send⟩ :=
        decode_eq_some.1 decoded
      refine ⟨?_, timeslot, ?_, ?_, ?_, ?_, by rw [receive], by rw [receive], by rw [receive], by rw [send], by rw [send],
        by rw [send]⟩
      · rw [mode]; cases r.mode <;> rfl
      · rw [step]; cases r.step <;> rfl
      · rw [margin]; cases r.margin <;> rfl
      · rw [suppressor, toneBypass, tracking]; exact eq_bits_of_lt_eight small.1
      · rw [receive, send]; exact eq_bits_of_lt_four small.2
  · intro c gains receiveUpper receiveLower sendUpper sendLower
    rw [wordsToBytes_configItem]
    exact decode_rawRecord_recordBytes ⟨gains.1, receiveUpper, receiveLower⟩ ⟨gains.2, sendUpper, sendLower⟩

end Sys2Proof.Machine
end

section
/-! SUPPORT. What the exact arithmetic of the signal path stands for: the real value of a sum of rational multiples of powers of
10^(1/200), and what its sign search finds about that value (R77, R78; log entry 6). -/

namespace Sys2Proof.Machine

/-! ### The search for a largest number -/

/-- A search finds the last number on which the test holds. -/
theorem searchTop_eq {test : Nat → Bool} {m : Nat} : ∀ {bits low : Nat},
    (∀ n, low < n → n < low + 2 ^ bits → (test n = true ↔ n ≤ m)) → low ≤ m → m < low + 2 ^ bits →
      searchTop test bits low = m
  | 0, low, _, least, most => by
    rw [pow_zero] at most
    exact Nat.le_antisymm least (Nat.le_of_lt_succ most)
  | bits + 1, low, holds, least, most => by
    have positive : 0 < 2 ^ bits := by positivity
    have middle := holds (low + 2 ^ bits) (by omega) (by rw [pow_succ]; omega)
    rw [pow_succ] at holds most
    unfold searchTop
    split
    · next above => exact searchTop_eq (fun n _ _ => holds n (by omega) (by omega)) (middle.1 above) (by omega)
    · next below => exact searchTop_eq (fun n _ _ => holds n (by omega) (by omega)) least (by
        have := mt middle.2 below
        omega)

/-! ### The root of the representation -/

/-- 10^(1/200). -/
noncomputable def root : ℝ := (10 : ℝ) ^ ((1 : ℝ) / 200)

theorem root_pos : 0 < root := Real.rpow_pos_of_pos (by norm_num) _

theorem root_ne_zero : root ≠ 0 := root_pos.ne'

theorem root_pow : root ^ 200 = 10 := by
  unfold root
  rw [← Real.rpow_natCast, ← Real.rpow_mul (by norm_num)]
  norm_num

/-- A bound below on the root, from its 200th power. -/
theorem lt_root_of_pow_lt {x : ℝ} (power : x ^ 200 < 10) : x < root := by
  by_contra above
  have := pow_le_pow_left₀ root_pos.le (not_lt.1 above) 200
  rw [root_pow] at this
  linarith

theorem root_lt_of_lt_pow {x : ℝ} (nonneg : 0 ≤ x) (power : 10 < x ^ 200) : root < x := by
  by_contra below
  have := pow_le_pow_left₀ nonneg (not_lt.1 below) 200
  rw [root_pow] at this
  linarith

theorem one_lt_root : 1 < root := lt_root_of_pow_lt (by norm_num)

theorem root_zpow_pos (k : ℤ) : 0 < root ^ k := zpow_pos root_pos k

/-! ### Values -/

/-- The value of a sum. -/
noncomputable def linVal : Lin → ℝ
  | [] => 0
  | t :: rest => (t.2 : ℝ) * root ^ t.1 + linVal rest

/-- The sum of the magnitudes of the rational factors, by which the precision of a bound is measured. -/
def linMass : Lin → ℚ
  | [] => 0
  | t :: rest => |t.2| + linMass rest

/-- Every power of 10^(1/200) in a sum is below the 200th. -/
def LinProper (a : Lin) : Prop := ∀ t ∈ a, t.1 < 200

theorem linVal_insert (e : Nat) (q : Rat) (a : Lin) : linVal (linInsert e q a) = q * root ^ e + linVal a := by
  induction a with
  | nil =>
    unfold linInsert
    split
    · next zero => simp [linVal, zero]
    · rfl
  | cons t rest ih =>
    unfold linInsert
    split
    · split
      · next zero => simp [linVal, zero]
      · rfl
    · split
      · next same =>
        subst same
        split
        · next zero =>
          have cancel : (q : ℝ) + t.2 = 0 := by exact_mod_cast zero
          rw [linVal, ← add_assoc, ← add_mul, cancel, zero_mul, zero_add]
        · simp only [linVal]; push_cast; ring
      · simp only [linVal, ih]; ring

theorem linMass_nonneg (a : Lin) : 0 ≤ linMass a := by
  induction a with
  | nil => exact le_rfl
  | cons t rest ih => exact add_nonneg (abs_nonneg _) ih

theorem linMass_insert_le (e : Nat) (q : Rat) (a : Lin) : linMass (linInsert e q a) ≤ |q| + linMass a := by
  induction a with
  | nil =>
    unfold linInsert
    split
    · exact add_nonneg (abs_nonneg _) le_rfl
    · exact le_rfl
  | cons t rest ih =>
    unfold linInsert
    split
    · split
      · exact le_add_of_nonneg_left (abs_nonneg _)
      · exact le_rfl
    · split
      · split
        · simp only [linMass]
          linarith [abs_nonneg q, abs_nonneg t.2]
        · simp only [linMass]
          linarith [abs_add_le q t.2]
      · simp only [linMass] at ih ⊢
        linarith

theorem LinProper.insert {e : Nat} (small : e < 200) (q : Rat) {a : Lin} (proper : LinProper a) :
    LinProper (linInsert e q a) := by
  induction a with
  | nil =>
    unfold linInsert
    split
    · exact proper
    · exact fun t member => List.mem_singleton.1 member ▸ small
  | cons u rest ih =>
    obtain ⟨first, later⟩ := List.forall_mem_cons.1 proper
    unfold linInsert
    split
    · split
      · exact proper
      · exact List.forall_mem_cons.2 ⟨small, proper⟩
    · split
      · split
        · exact later
        · exact List.forall_mem_cons.2 ⟨small, later⟩
      · exact List.forall_mem_cons.2 ⟨first, ih later⟩

theorem LinProper.nil : LinProper [] := fun _ member => absurd member List.not_mem_nil

theorem pow10_cast (k : ℤ) : ((pow10 k : ℚ) : ℝ) = (10 : ℝ) ^ k := by
  unfold pow10
  split
  · push_cast; rw [Int.ofNat_eq_natCast, zpow_natCast]
  · push_cast; rw [zpow_negSucc, one_div]

theorem pow10_root (k : ℤ) : ((pow10 (k / 200) : ℚ) : ℝ) * root ^ (k % 200).toNat = root ^ k := by
  have positive : (0 : ℤ) ≤ k % 200 := Int.emod_nonneg k (by decide)
  rw [pow10_cast, ← zpow_natCast root, Int.toNat_of_nonneg positive, ← root_pow, ← zpow_natCast root, ← zpow_mul,
    ← zpow_add₀ root_ne_zero]
  congr 1
  exact Int.mul_ediv_add_emod k 200

theorem linVal_mono (k : ℤ) (q : Rat) : linVal (linMono k q) = q * root ^ k := by
  unfold linMono
  rw [linVal_insert, linVal, add_zero, ← pow10_root k]
  push_cast
  ring

theorem LinProper.mono (k : ℤ) (q : Rat) : LinProper (linMono k q) :=
  .insert (by omega) _ .nil

/-- The factor of one multiple of a power is no larger than its value. -/
theorem linMass_mono_le (k : ℤ) (q : Rat) : ((linMass (linMono k q) : ℚ) : ℝ) ≤ |(q : ℝ)| * root ^ k := by
  have bound := linMass_insert_le (k % 200).toNat (q * pow10 (k / 200)) []
  have cast : ((linMass (linMono k q) : ℚ) : ℝ) ≤ ((|q * pow10 (k / 200)| + linMass [] : ℚ) : ℝ) := by
    exact_mod_cast bound
  have positive : (0 : ℝ) < (10 : ℝ) ^ (k / 200) := by positivity
  have factor : (1 : ℝ) ≤ root ^ (k % 200).toNat := one_le_pow₀ one_lt_root.le
  calc ((linMass (linMono k q) : ℚ) : ℝ) ≤ |(q : ℝ)| * (10 : ℝ) ^ (k / 200) := by
        refine cast.trans (le_of_eq ?_)
        push_cast [linMass]
        rw [add_zero, abs_mul, pow10_cast, abs_of_pos positive]
    _ ≤ |(q : ℝ)| * ((10 : ℝ) ^ (k / 200) * root ^ (k % 200).toNat) :=
        mul_le_mul_of_nonneg_left (le_mul_of_one_le_right positive.le factor) (abs_nonneg _)
    _ = |(q : ℝ)| * root ^ k := by rw [← pow10_root k, pow10_cast]

theorem linVal_rat (q : Rat) : linVal (linRat q) = q := by
  unfold linRat
  rw [linVal_mono, zpow_zero, mul_one]

theorem linVal_add (a b : Lin) : linVal (linAdd a b) = linVal a + linVal b := by
  induction a with
  | nil => exact (zero_add _).symm
  | cons t rest ih => exact (linVal_insert _ _ _).trans (by rw [← linAdd, ih, linVal, add_assoc])

theorem linMass_add_le (a b : Lin) : linMass (linAdd a b) ≤ linMass a + linMass b := by
  induction a with
  | nil => exact (zero_add _).ge
  | cons t rest ih =>
    refine (linMass_insert_le _ _ _).trans ?_
    rw [← linAdd, linMass]
    linarith

theorem LinProper.add {a b : Lin} (proper : LinProper a) (proper' : LinProper b) : LinProper (linAdd a b) := by
  induction a with
  | nil => exact proper'
  | cons t rest ih =>
    obtain ⟨first, later⟩ := List.forall_mem_cons.1 proper
    exact .insert first _ (ih later)

theorem linVal_scale (q : Rat) (a : Lin) : linVal (linScale q a) = q * linVal a := by
  unfold linScale
  split
  · next zero => rw [zero, Rat.cast_zero, zero_mul, linVal]
  · induction a with
    | nil => exact (mul_zero _).symm
    | cons t rest ih =>
      simp only [List.map_cons, linVal, ih]
      push_cast
      ring

theorem linMass_scale_le (q : Rat) (a : Lin) : linMass (linScale q a) ≤ |q| * linMass a := by
  unfold linScale
  split
  · exact mul_nonneg (abs_nonneg _) (linMass_nonneg a)
  · induction a with
    | nil => exact (mul_zero _).ge
    | cons t rest ih =>
      simp only [List.map_cons, linMass, abs_mul]
      linarith

theorem LinProper.scale {a : Lin} (proper : LinProper a) (q : Rat) : LinProper (linScale q a) := by
  unfold linScale
  split
  · exact .nil
  · intro t member
    obtain ⟨u, old, rfl⟩ := List.mem_map.1 member
    exact proper u old

theorem linVal_sub (a b : Lin) : linVal (linSub a b) = linVal a - linVal b := by
  unfold linSub linNeg
  rw [linVal_add, linVal_scale]
  push_cast
  ring

theorem linMass_sub_le (a b : Lin) : linMass (linSub a b) ≤ linMass a + linMass b := by
  unfold linSub linNeg
  have scaled := linMass_scale_le (-1) b
  rw [abs_neg, abs_one, one_mul] at scaled
  exact (linMass_add_le _ _).trans (add_le_add_right scaled _)

theorem LinProper.sub {a b : Lin} (proper : LinProper a) (proper' : LinProper b) : LinProper (linSub a b) :=
  proper.add (proper'.scale _)

/-- The product of one term with a sum, added to a sum. -/
theorem linVal_mul_term (t : Nat × Rat) (b acc : Lin) :
    linVal (b.foldr (fun u acc => linAdd (linMono (t.1 + u.1) (t.2 * u.2)) acc) acc) =
      t.2 * root ^ t.1 * linVal b + linVal acc := by
  induction b with
  | nil => rw [linVal, mul_zero, zero_add]; rfl
  | cons u rest ih =>
    rw [List.foldr_cons, linVal_add, ih, linVal_mono, linVal, zpow_add₀ root_ne_zero, zpow_natCast, zpow_natCast]
    push_cast
    ring

theorem linVal_mul (a b : Lin) : linVal (linMul a b) = linVal a * linVal b := by
  unfold linMul
  induction a with
  | nil => exact (zero_mul _).symm
  | cons t rest ih => rw [List.foldr_cons, linVal_mul_term, ih, linVal]; ring

theorem LinProper.mul_term (t : Nat × Rat) (b : Lin) {acc : Lin} (proper : LinProper acc) :
    LinProper (b.foldr (fun u acc => linAdd (linMono (t.1 + u.1) (t.2 * u.2)) acc) acc) := by
  induction b with
  | nil => exact proper
  | cons u rest ih => exact (LinProper.mono _ _).add ih

theorem LinProper.mul (a b : Lin) : LinProper (linMul a b) := by
  unfold linMul
  induction a with
  | nil => exact .nil
  | cons t rest ih => exact .mul_term t b ih

theorem linVal_square (a : Lin) : linVal (linSquare a) = linVal a ^ 2 := (linVal_mul a a).trans (sq _).symm

theorem linVal_sum (l : List Lin) : linVal (linSum l) = (l.map linVal).sum := by
  induction l with
  | nil => rfl
  | cons a rest ih => exact (linVal_add a (linSum rest)).trans (by rw [ih, List.map_cons, List.sum_cons])

theorem LinProper.sum {l : List Lin} (proper : ∀ a ∈ l, LinProper a) : LinProper (linSum l) := by
  induction l with
  | nil => exact .nil
  | cons a rest ih =>
    obtain ⟨first, later⟩ := List.forall_mem_cons.1 proper
    exact first.add (ih later)

/-! ### Signs -/

theorem root_pow_lt_ten {e : Nat} (small : e < 200) : root ^ e < 10 := by
  rw [← root_pow]
  exact pow_lt_pow_right₀ one_lt_root small

/-- The search for a root finds its whole part. -/
theorem rootFloor_eq {e : Nat} (small : e < 200) (p : Nat) : rootFloor e p = ⌊root ^ e * 2 ^ p⌋₊ := by
  have positive : (0 : ℝ) < root ^ e * 2 ^ p := mul_pos (pow_pos root_pos e) (by positivity)
  refine searchTop_eq (fun t _ _ => ?_) (Nat.zero_le _) ?_
  · rw [decide_eq_true_iff, Nat.le_floor_iff positive.le]
    have power : (root ^ e * 2 ^ p) ^ 200 = ((10 ^ e * 2 ^ (200 * p) : ℕ) : ℝ) := by
      push_cast
      rw [mul_pow, ← pow_mul, mul_comm e, pow_mul, root_pow, ← pow_mul, mul_comm p]
    rw [← pow_le_pow_iff_left₀ (Nat.cast_nonneg t) positive.le (by decide : (200 : ℕ) ≠ 0), power]
    exact_mod_cast Iff.rfl
  · rw [zero_add, Nat.floor_lt positive.le]
    have := root_pow_lt_ten small
    have two : (0 : ℝ) < 2 ^ p := by positivity
    push_cast
    rw [pow_add]
    nlinarith

/-- The bounds stand on either side of the value, no further apart than the mass. -/
theorem linBounds_spec (p : Nat) {a : Lin} (proper : LinProper a) :
    ((linBounds p a).1 : ℝ) ≤ 2 ^ p * linVal a ∧ 2 ^ p * linVal a ≤ (linBounds p a).2 ∧
      2 ^ p * linVal a - linMass a ≤ (linBounds p a).1 ∧ (linBounds p a).2 ≤ 2 ^ p * linVal a + linMass a := by
  induction a with
  | nil => simp [linBounds, linVal, linMass]
  | cons t rest ih =>
    obtain ⟨first, later⟩ := List.forall_mem_cons.1 proper
    obtain ⟨low, high, near, nearHigh⟩ := ih later
    have positive : (0 : ℝ) < root ^ t.1 * 2 ^ p := mul_pos (pow_pos root_pos _) (by positivity)
    have below : ((rootFloor t.1 p : ℕ) : ℝ) ≤ root ^ t.1 * 2 ^ p := by
      rw [rootFloor_eq first]; exact Nat.floor_le positive.le
    have above : root ^ t.1 * 2 ^ p < (rootFloor t.1 p : ℕ) + 1 := by
      rw [rootFloor_eq first]; exact Nat.lt_floor_add_one _
    have head : linBounds p (t :: rest) = if 0 < t.2
        then ((linBounds p rest).1 + t.2 * (rootFloor t.1 p : ℕ), (linBounds p rest).2 + t.2 * ((rootFloor t.1 p : ℕ) + 1))
        else ((linBounds p rest).1 + t.2 * ((rootFloor t.1 p : ℕ) + 1), (linBounds p rest).2 + t.2 * (rootFloor t.1 p : ℕ)) := rfl
    rw [head]
    simp only [linVal, linMass]
    split
    · next sign =>
      have factor : (0 : ℝ) < t.2 := by exact_mod_cast sign
      have magnitude : |(t.2 : ℝ)| = t.2 := abs_of_pos factor
      push_cast
      rw [magnitude]
      refine ⟨?_, ?_, ?_, ?_⟩ <;> nlinarith
    · next sign =>
      have factor : (t.2 : ℝ) ≤ 0 := by exact_mod_cast not_lt.1 sign
      have magnitude : |(t.2 : ℝ)| = -t.2 := abs_of_nonpos factor
      push_cast
      rw [magnitude]
      refine ⟨?_, ?_, ?_, ?_⟩ <;> nlinarith

theorem linSign_singleton (t : Nat × Rat) : linSign [t] = if 0 < t.2 then 1 else if t.2 < 0 then -1 else 0 := rfl

/-- A value that is not below zero is not found below zero. -/
theorem linSign_nonneg {a : Lin} (proper : LinProper a) (nonneg : 0 ≤ linVal a) : 0 ≤ linSign a := by
  have search (fuel : Nat) : ∀ p, 0 ≤ signSearch a fuel p := by
    induction fuel with
    | zero => exact fun _ => le_rfl
    | succ fuel ih =>
      intro p
      obtain ⟨-, high, -, -⟩ := linBounds_spec p proper
      have upper : ¬(linBounds p a).2 < 0 := by
        intro negative
        have : ((linBounds p a).2 : ℝ) < 0 := by exact_mod_cast negative
        have : (0 : ℝ) ≤ 2 ^ p * linVal a := mul_nonneg (by positivity) nonneg
        linarith
      unfold signSearch
      dsimp only
      rw [if_neg upper]
      split
      · exact zero_le_one
      · exact ih _
  match a, proper, nonneg, search with
  | [], _, _, _ => exact le_rfl
  | [t], _, nonneg, _ =>
    rw [linSign_singleton]
    split
    · exact zero_le_one
    · split
      · next negative =>
        have : (t.2 : ℝ) < 0 := by exact_mod_cast negative
        have := pow_pos root_pos t.1
        simp only [linVal, add_zero] at nonneg
        nlinarith
      · exact le_rfl
  | t :: u :: rest, _, _, search => exact search _ 64

/-- A value above zero by more than the mass at 64 bits is found above zero. -/
theorem linSign_eq_one {a : Lin} (proper : LinProper a) (clear : (linMass a : ℝ) < 2 ^ 64 * linVal a) : linSign a = 1 := by
  match a, proper, clear with
  | [], _, clear => simp [linVal, linMass] at clear
  | [t], _, clear =>
    have mass : (0 : ℝ) ≤ (linMass [t] : ℚ) := by exact_mod_cast linMass_nonneg [t]
    have positive : 0 < (t.2 : ℝ) * root ^ t.1 := by
      simp only [linVal, add_zero] at clear
      linarith
    have factor : 0 < t.2 := by exact_mod_cast pos_of_mul_pos_left positive (pow_pos root_pos _).le
    exact if_pos factor
  | t :: u :: rest, proper, clear =>
    obtain ⟨-, -, near, -⟩ := linBounds_spec 64 proper
    have lower : 0 < (linBounds 64 (t :: u :: rest)).1 := by
      have : (0 : ℝ) < (linBounds 64 (t :: u :: rest)).1 := by linarith
      exact_mod_cast this
    exact if_pos lower

/-- A value below zero by more than the mass at 64 bits is found below zero. -/
theorem linSign_eq_neg_one {a : Lin} (proper : LinProper a) (clear : (linMass a : ℝ) < 2 ^ 64 * -linVal a) :
    linSign a = -1 := by
  match a, proper, clear with
  | [], _, clear => simp [linVal, linMass] at clear
  | [t], _, clear =>
    have mass : (0 : ℝ) ≤ (linMass [t] : ℚ) := by exact_mod_cast linMass_nonneg [t]
    have negative : (t.2 : ℝ) * root ^ t.1 < 0 := by
      simp only [linVal, add_zero] at clear
      linarith
    have factor : t.2 < 0 := by exact_mod_cast neg_of_mul_neg_left negative (pow_pos root_pos _).le
    rw [linSign_singleton, if_neg (not_lt.2 factor.le), if_pos factor]
  | t :: u :: rest, proper, clear =>
    obtain ⟨low, -, -, near⟩ := linBounds_spec 64 proper
    have mass : (0 : ℝ) ≤ (linMass (t :: u :: rest) : ℚ) := by exact_mod_cast linMass_nonneg _
    have lower : ¬0 < (linBounds 64 (t :: u :: rest)).1 := by
      intro positive
      have : (0 : ℝ) < (linBounds 64 (t :: u :: rest)).1 := by exact_mod_cast positive
      linarith
    have upper : (linBounds 64 (t :: u :: rest)).2 < 0 := by
      have : ((linBounds 64 (t :: u :: rest)).2 : ℝ) < 0 := by linarith
      exact_mod_cast this
    exact (if_neg lower).trans (if_pos upper)

/-- A value no larger than another compares so. -/
theorem linLe_of_linVal_le {a b : Lin} (proper : LinProper a) (proper' : LinProper b) (le : linVal a ≤ linVal b) :
    linLe a b = true := by
  refine decide_eq_true (linSign_nonneg (proper'.sub proper) ?_)
  rw [linVal_sub]
  linarith

end Sys2Proof.Machine
end

section
/-! SUPPORT. The level of a mean power (R78): every power that stands clear of the thresholds half a tenth of a dB from its
level. -/

namespace Sys2Proof.Machine

variable {power : Lin} {level : Int}

/-- A search comes at least as far as the test holds. -/
theorem le_searchTop {test : Nat → Bool} : ∀ {bits low m : Nat},
    (∀ n, low < n → n ≤ m → test n = true) → m < low + 2 ^ bits → m ≤ searchTop test bits low
  | 0, low, m, _, most => by
    rw [pow_zero] at most
    exact Nat.le_of_lt_succ most
  | bits + 1, low, m, holds, most => by
    have positive : 0 < 2 ^ bits := by positivity
    rw [pow_succ] at most
    unfold searchTop
    split
    · by_cases far : low + 2 ^ bits ≤ m
      · exact le_searchTop (fun n _ _ => holds n (by omega) (by omega)) (by omega)
      · exact (Nat.le_of_lt (not_le.1 far)).trans (le_searchTop (fun n above below => absurd above (by omega)) (by omega))
    · next below =>
      have near : m < low + 2 ^ bits := by
        by_contra far
        exact below (holds _ (by omega) (not_lt.1 far))
      exact le_searchTop (fun n _ _ => holds n (by omega) (by omega)) near

theorem root_bounds : (10115 / 10000 : ℝ) < root ∧ root < 10116 / 10000 :=
  ⟨lt_root_of_pow_lt (by norm_num), root_lt_of_lt_pow (by norm_num) (by norm_num)⟩

/-! ### Powers -/

/-- A power whose factors are all on one side: its mass is no larger than its value. -/
structure IsPower (power : Lin) : Prop where
  proper : LinProper power
  mass : ((linMass power : ℚ) : ℝ) ≤ linVal power
  positive : 0 < linVal power

theorem IsPower.mono (k : ℤ) {q : Rat} (positive : 0 < q) : IsPower (linMono k q) where
  proper := .mono k q
  mass := by
    have factor : (0 : ℝ) < q := by exact_mod_cast positive
    refine (linMass_mono_le k q).trans (le_of_eq ?_)
    rw [linVal_mono, abs_of_pos factor]
  positive := by
    rw [linVal_mono]
    exact mul_pos (by exact_mod_cast positive) (root_zpow_pos k)

theorem IsPower.scale (isPower : IsPower power) {q : Rat} (positive : 0 < q) : IsPower (linScale q power) where
  proper := isPower.proper.scale q
  mass := by
    have factor : (0 : ℝ) < q := by exact_mod_cast positive
    have bound : ((linMass (linScale q power) : ℚ) : ℝ) ≤ ((|q| * linMass power : ℚ) : ℝ) := by
      exact_mod_cast linMass_scale_le q power
    rw [abs_of_pos positive] at bound
    push_cast at bound
    rw [linVal_scale]
    exact bound.trans (mul_le_mul_of_nonneg_left isPower.mass factor.le)
  positive := by
    rw [linVal_scale]
    exact mul_pos (by exact_mod_cast positive) isPower.positive

/-- The power above which a level is reached, half a tenth of a dB below it. -/
def levelThreshold (tenths : Int) : Lin := linMono (2 * tenths - 61) (1 / 2)

theorem linVal_levelThreshold (tenths : Int) : linVal (levelThreshold tenths) = 1 / 2 * root ^ (2 * tenths - 61) := by
  unfold levelThreshold
  rw [linVal_mono]
  norm_num

theorem levelThreshold_isPower (tenths : Int) : IsPower (levelThreshold tenths) := .mono _ (by norm_num)

theorem levelThreshold_le {x y : Int} (le : x ≤ y) : linVal (levelThreshold x) ≤ linVal (levelThreshold y) := by
  rw [linVal_levelThreshold, linVal_levelThreshold]
  exact mul_le_mul_of_nonneg_left (zpow_le_zpow_right₀ one_lt_root.le (by omega)) (by norm_num)

/-- Two powers a thousandth apart are told apart. -/
theorem linSign_sub_of_lt {x y : Lin} (larger : IsPower x) (smaller : IsPower y)
    (apart : 1001 / 1000 * linVal y ≤ linVal x) : linSign (linSub x y) = 1 ∧ linSign (linSub y x) = -1 := by
  have mass (a b : Lin) (pa : IsPower a) (pb : IsPower b) :
      ((linMass (linSub a b) : ℚ) : ℝ) ≤ linVal a + linVal b := by
    have bound : ((linMass (linSub a b) : ℚ) : ℝ) ≤ ((linMass a + linMass b : ℚ) : ℝ) := by
      exact_mod_cast linMass_sub_le a b
    push_cast at bound
    linarith [pa.mass, pb.mass]
  have first := mass x y larger smaller
  have second := mass y x smaller larger
  have positive := larger.positive
  constructor
  · refine linSign_eq_one (larger.proper.sub smaller.proper) ?_
    rw [linVal_sub]
    norm_num
    linarith
  · refine linSign_eq_neg_one (smaller.proper.sub larger.proper) ?_
    rw [linVal_sub]
    norm_num
    linarith

theorem reachesLevel_of_above {tenths : Int} (isPower : IsPower power)
    (above : 1001 / 1000 * linVal (levelThreshold tenths) ≤ linVal power) : reachesLevel power tenths = true := by
  unfold reachesLevel
  rw [← levelThreshold, (linSign_sub_of_lt isPower (levelThreshold_isPower tenths) above).1]

theorem reachesLevel_of_below {tenths : Int} (isPower : IsPower power)
    (below : 1001 / 1000 * linVal power ≤ linVal (levelThreshold tenths)) : reachesLevel power tenths = false := by
  unfold reachesLevel
  rw [← levelThreshold, (linSign_sub_of_lt (levelThreshold_isPower tenths) isPower below).2]
  rfl

theorem ne_nil_of_isPower (isPower : IsPower power) : power ≠ [] := by
  rintro rfl
  exact lt_irrefl _ isPower.positive

/-- A power between the thresholds of a level and of the next has that level; at −70 dBm0 it may lie below. -/
theorem levelOf_eq (isPower : IsPower power) (range : -700 ≤ level ∧ level ≤ 30)
    (low : -700 < level → 1001 / 1000 * linVal (levelThreshold level) ≤ linVal power)
    (high : 1001 / 1000 * linVal power ≤ linVal (levelThreshold (level + 1))) : levelOf power = level := by
  have top : searchTop (fun n => reachesLevel power ((n : Int) - 700)) 10 0 = (level + 700).toNat := by
    refine searchTop_eq (fun n positive most => ⟨fun reaches => ?_, fun below => ?_⟩) (Nat.zero_le _) (by omega)
    · by_contra above
      have next : linVal (levelThreshold (level + 1)) ≤ linVal (levelThreshold ((n : Int) - 700)) :=
        levelThreshold_le (by omega)
      rw [reachesLevel_of_below isPower (high.trans next)] at reaches
      cases reaches
    · have earlier : linVal (levelThreshold ((n : Int) - 700)) ≤ linVal (levelThreshold level) :=
        levelThreshold_le (by omega)
      have := low (by omega)
      exact reachesLevel_of_above isPower (by linarith)
  unfold levelOf
  rw [if_neg (ne_nil_of_isPower isPower), top]
  omega

/-- A power above the last threshold has the highest level. -/
theorem levelOf_of_top (isPower : IsPower power) (top : 1001 / 1000 * linVal (levelThreshold 30) ≤ linVal power) :
    levelOf power = 30 := by
  have far : 730 ≤ searchTop (fun n => reachesLevel power ((n : Int) - 700)) 10 0 := by
    refine le_searchTop (fun n positive most => reachesLevel_of_above isPower ?_) (by norm_num)
    have earlier : linVal (levelThreshold ((n : Int) - 700)) ≤ linVal (levelThreshold 30) :=
      levelThreshold_le (by omega)
    linarith
  unfold levelOf
  rw [if_neg (ne_nil_of_isPower isPower), Nat.min_eq_right far]
  rfl

/-! ### The powers of levels -/

theorem levelPower_isPower (tenths : Int) : IsPower (levelPower tenths) := .mono _ (by norm_num)

theorem linVal_levelPower (tenths : Int) : linVal (levelPower tenths) = 1 / 2 * root ^ (2 * tenths - 60) := by
  unfold levelPower
  rw [linVal_mono]
  norm_num

/-- A threshold against the power of a level, in half tenths of a dB. -/
theorem linVal_levelThreshold_add (tenths d : Int) :
    linVal (levelThreshold (tenths + d)) = root ^ (2 * d - 1) * linVal (levelPower tenths) := by
  rw [linVal_levelThreshold, linVal_levelPower, ← mul_assoc, mul_comm (root ^ _), mul_assoc, ← zpow_add₀ root_ne_zero]
  congr 2
  ring

/-- A multiple of the power of a level, between the thresholds of a level `d` tenths of a dB above it. -/
theorem levelOf_scale {q : Rat} {d : Int} (positive : 0 < q) (range : -700 ≤ level + d ∧ level + d ≤ 30)
    (low : 1001 / 1000 * root ^ (2 * d - 1) ≤ (q : ℝ)) (high : 1001 / 1000 * (q : ℝ) ≤ root ^ (2 * d + 1)) :
    levelOf (linScale q (levelPower level)) = level + d := by
  have power := (levelPower_isPower level).positive
  refine levelOf_eq ((levelPower_isPower level).scale positive) range (fun _ => ?_) ?_ <;> rw [linVal_scale]
  · rw [linVal_levelThreshold_add, ← mul_assoc]
    exact mul_le_mul_of_nonneg_right low power.le
  · rw [add_assoc, linVal_levelThreshold_add, ← mul_assoc, show 2 * (d + 1) - 1 = 2 * d + 1 by ring]
    exact mul_le_mul_of_nonneg_right high power.le

theorem levelOf_levelPower (range : -700 ≤ level ∧ level ≤ 30) : levelOf (levelPower level) = level := by
  obtain ⟨low, -⟩ := root_bounds
  have power := (levelPower_isPower level).positive
  refine levelOf_eq (levelPower_isPower level) range (fun _ => ?_) ?_
  · have threshold := linVal_levelThreshold_add level 0
    rw [add_zero, show (2 * 0 - 1 : ℤ) = -1 by norm_num, zpow_neg_one] at threshold
    have inverse : root * root⁻¹ = 1 := mul_inv_cancel₀ root_ne_zero
    have positive : 0 < root⁻¹ := inv_pos.2 root_pos
    rw [threshold, ← mul_assoc]
    exact mul_le_of_le_one_left power.le (by nlinarith)
  · rw [linVal_levelThreshold_add, show (2 * 1 - 1 : ℤ) = 1 by norm_num, zpow_one]
    exact mul_le_mul_of_nonneg_right (by linarith) power.le

/-- One and two hundredths off the power of a level stand on the two sides of its thresholds. -/
theorem levelOf_near (range : -690 ≤ level ∧ level ≤ 20) :
    levelOf (linScale (99 / 100) (levelPower level)) = level ∧
    levelOf (linScale (101 / 100) (levelPower level)) = level ∧
    levelOf (linScale (98 / 100) (levelPower level)) = level - 1 ∧
    levelOf (linScale (102 / 100) (levelPower level)) = level + 1 := by
  obtain ⟨low, high⟩ := root_bounds
  have inverse : root * root⁻¹ = 1 := mul_inv_cancel₀ root_ne_zero
  have inverse_pos : 0 < root⁻¹ := inv_pos.2 root_pos
  have minus_one : root ^ (-1 : ℤ) = root⁻¹ := zpow_neg_one root
  have three : root ^ (3 : ℤ) = root ^ 3 := by norm_cast
  have inverse_lt : root⁻¹ < 98864 / 100000 := by nlinarith
  have lt_inverse : 98853 / 100000 < root⁻¹ := by nlinarith
  have lt_cube : 103 / 100 < root ^ 3 := by
    calc (103 / 100 : ℝ) < (10115 / 10000) ^ 3 := by norm_num
      _ < root ^ 3 := pow_lt_pow_left₀ low (by norm_num) (by decide)
  have cube_lt : (root ^ 3)⁻¹ < (103 / 100)⁻¹ := inv_strictAnti₀ (by norm_num) lt_cube
  norm_num at cube_lt
  refine ⟨?_, ?_, ?_, ?_⟩
  · rw [levelOf_scale (d := 0) (by norm_num) (by omega) (by norm_num; linarith) (by norm_num; linarith), add_zero]
  · rw [levelOf_scale (d := 0) (by norm_num) (by omega) (by norm_num; linarith) (by norm_num; linarith), add_zero]
  · rw [levelOf_scale (d := -1) (by norm_num) (by omega) (by norm_num; linarith)
      (by norm_num [minus_one]; linarith)]
    rfl
  · exact levelOf_scale (d := 1) (by norm_num) (by omega) (by norm_num; linarith) (by norm_num [three]; linarith)

end Sys2Proof.Machine
end

section
/-! PROOF. The sample-pair arrival: what it stores and sends, the taps it adapts, and the comfort noise (R10, R79 to R86, R114,
R115, R138 to R140). -/

namespace Sys2Proof.Machine

variable {s : State} {n : ChannelNo}

/-! ### What an arrival stores and sends (R10, R79, R90, R138 to R140) -/

/-- The update of the taps changes segments of the chain, and nothing else. -/
theorem adaptedAt_eq_withSegments (s : State) (n : ChannelNo) (rin sin : Byte) :
    s.adaptedAt n rin sin = { s with segments := (s.adaptedAt n rin sin).segments } := by
  unfold State.adaptedAt
  split
  · exact State.eq_of_fields (by simp) (by simp) rfl (by simp) (by simp) (by simp) (by simp) (by simp) (by simp) (by simp)
      (by simp) (by simp) (by simp)
  · rfl

theorem adaptedAt_segment_of_notMem {g : SegNo} (outside : g ∉ s.channelChain n) (rin sin : Byte) :
    (s.adaptedAt n rin sin).segment g = s.segment g := by
  unfold State.adaptedAt
  split
  · unfold State.adapt
    exact segment_foldModSegment_of_notMem
      (fun g x => { x with coeffs := adaptCoeffs x.coeffs (tapSamples (s.historyAt n rin) (s.delay g)) _ _ }) outside s
  · rfl

theorem arrivalWork_segments (s : State) (n : ChannelNo) (rin sin : Byte) :
    (s.arrivalWork n rin sin).segments = (s.adaptedAt n rin sin).segments := by
  rw [arrivalWork_eq]
  rfl

theorem arrivalWork_segment (s : State) (n : ChannelNo) (rin sin : Byte) (g : SegNo) :
    (s.arrivalWork n rin sin).segment g = (s.adaptedAt n rin sin).segment g := by
  simp only [State.segment, arrivalWork_segments]

theorem arrivalWork_channel_ne (rin sin : Byte) {m : ChannelNo} (other : m ≠ n) :
    (s.arrivalWork n rin sin).channel m = s.channel m := by
  rw [arrivalWork_eq, channel_modMark, channel_sendCodes, channel_modChannel_ne _ other, adaptedAt_eq_withSegments]
  rfl

theorem arrivalWork_mark (s : State) (n m : ChannelNo) (rin sin : Byte) :
    (s.arrivalWork n rin sin).mark m = if m = n then { s.mark n with arrived := true } else s.mark m := by
  have before (m : ChannelNo) : (s.adaptedAt n rin sin).mark m = s.mark m := by
    simp only [State.mark, (adaptedAt_frame s n rin sin).1]
  rw [arrivalWork_eq]
  split
  · next same =>
    subst same
    rw [mark_modMark]
    exact congrArg (fun m : FrameMark => { m with arrived := true }) (before m)
  · next other => exact (mark_modMark_ne _ other _).trans (before m)

/-- Settles O9: the codes sent, the channel's stores, and what is left unchanged. -/
theorem arrivalReceiveAndSendPath : Obligations.ArrivalReceiveAndSendPath := by
  unfold Obligations.ArrivalReceiveAndSendPath
  intro s n rin sin arrives
  refine ⟨_, exec_samplePairArrival arrives rin sin, ?_, arrivalWork_sout s n rin sin, ?_, ?_, ?_, ?_, fun m other => ?_,
    fun m other => arrivalWork_channel_ne rin sin other, fun g outside => ?_⟩
  · rw [arrivalWork_eq, adaptedAt_eq_withSegments]
    rfl
  · rw [arrivalWork_eq, channel_modMark, channel_sendCodes, channel_modChannel, (adaptedAt_frame s n rin sin).2]
    rfl
  · rw [arrivalWork_eq, adaptedAt_eq_withSegments]
    rfl
  · rw [arrivalWork_eq, adaptedAt_eq_withSegments]
    rfl
  · rw [arrivalWork_mark, if_pos rfl]
  · rw [arrivalWork_mark, if_neg other]
  · rw [arrivalWork_segment, adaptedAt_segment_of_notMem outside]

/-! ### The taps (R82 to R85) -/

theorem adaptedAt_of_still (still : ¬((s.channel n).standing = .adapt ∧ s.canceller n = .running)) (rin sin : Byte) :
    s.adaptedAt n rin sin = s := if_neg still

/-- A segment of the chain after an update: its taps alone are changed. -/
theorem adapt_segment (nodup : (s.channelChain n).Nodup) {g : SegNo} (member : g ∈ s.channelChain n) (history : List Lin)
    (error : Lin) : (s.adapt n history error).segment g =
      { s.segment g with
        coeffs := (adaptCoeffs (s.segment g).coeffs (tapSamples history (s.delay g))
          (linScale (stepValue (s.channel n).governing.step (s.channel n).divState) error) (s.normaliserAt n history)) } := by
  rw [← normaliser_eq]
  unfold State.adapt
  exact segment_foldModSegment_of_mem
    (fun g x => { x with coeffs := adaptCoeffs x.coeffs (tapSamples history (s.delay g)) _ _ }) nodup member s

theorem headD_drop (l : List Lin) (i : Nat) : (l.drop i).headD [] = l.getD i [] := by
  rw [List.headD_eq_head?_getD, List.head?_drop, List.getD_eq_getElem?_getD]

/-- Settles O11: no tap moves outside an ADAPT block of a RUNNING channel, and in one each tap moves by its whole steps. -/
theorem arrivalAdaptsTheChain : Obligations.ArrivalAdaptsTheChain := by
  unfold Obligations.ArrivalAdaptsTheChain
  intro s n rin sin arrives nodup
  refine ⟨_, exec_samplePairArrival arrives rin sin, fun still => ?_, fun standing running g member => ?_⟩
  · rw [arrivalWork_segments, adaptedAt_of_still still]
  · rw [arrivalWork_segment_of_adapt standing running, adapt_segment nodup member]
    refine ⟨rfl, rfl, rfl, fun k => ?_⟩
    dsimp only
    unfold adaptCoeffs
    rw [Vector.getElem_ofFn, tapSamples_getD _ _ _ k.isLt, headD_drop]
    cases (s.channel n).governing.step <;> rfl

/-! ### Comfort noise (R114, R115) -/

theorem pathAt_of_active_closed (mode : (s.channel n).governing.mode = .active)
    (suppressor : (s.channel n).suppressor = .closed) (rin sin : Byte) : s.pathAt n rin sin =
      (noiseBlock n (s.channel n).freeBlock (s.channel n).background).getD s.hwi.phase [] := by
  unfold State.pathAt
  rw [if_pos mode, if_neg (by simp [suppressor])]

theorem flatSpectrum_iff (sequence : List Rat) : flatSpectrum sequence = true ↔
    32 ≤ sequence.length ∧ autocorrelation sequence 1 ≤ 0 ∧
      ∀ lag, 0 < lag → lag < sequence.length → autocorrelation sequence lag = autocorrelation sequence 1 := by
  simp only [flatSpectrum, Bool.and_eq_true, decide_eq_true_eq, List.all_eq_true, List.mem_range, Bool.or_eq_true, and_assoc]
  refine and_congr_right fun _ => and_congr_right fun _ => ⟨fun flat lag positive below => ?_, fun flat lag below => ?_⟩
  · exact (flat lag below).resolve_left positive.ne'
  · exact (Nat.eq_zero_or_pos lag).imp_right fun positive => flat lag positive below

theorem noiseWindow_mod (sequence : List Rat) (start : Nat) (background : Int) :
    noiseWindow sequence (start % sequence.length) background = noiseWindow sequence start background := by
  simp only [noiseWindow, Nat.mod_add_mod]

theorem noiseInBound_iff (samples : List Lin) (background : Int) : noiseInBound samples background = true ↔
    linLe (linScale 32 (levelPower (background - 5))) (linSum (samples.map linSquare)) = true ∧
      linLe (linSum (samples.map linSquare)) (linScale 32 (levelPower (background + 5))) = true := by
  have below : 2 * background - 70 = 2 * (background - 5) - 60 := by ring
  have above : 2 * background - 50 = 2 * (background + 5) - 60 := by ring
  unfold noiseInBound levelPower
  rw [below, above, Bool.and_eq_true]

/-- The noise of an allowed sequence is in bound from every place on. -/
theorem noiseInBound_of_allowed {sequence : List Rat} (allowed : allowedNoise sequence = true) (start : Nat)
    {background : Int} (range : -700 ≤ background ∧ background ≤ 30) :
    noiseInBound (noiseWindow sequence start background) background = true := by
  simp only [allowedNoise, Bool.and_eq_true, List.all_eq_true, List.mem_range] at allowed
  obtain ⟨flat, bounds⟩ := allowed
  have long := ((flatSpectrum_iff sequence).1 flat).1
  have bound := bounds (start % sequence.length) (Nat.mod_lt _ (by omega)) (background + 700).toNat (by omega)
  have named : ((background + 700).toNat : Int) - 700 = background := by omega
  rw [noiseWindow_mod, named] at bound
  exact bound

/-- The residue sequence's power stands within 0.1 dB of the estimate's. -/
theorem noiseInBound_residueNoise (start : Nat) (background : Int) :
    noiseInBound (noiseWindow residueNoise start background) background = true := by
  have ten : (50 / 49 : ℝ) < root ^ 10 := by
    have := pow_lt_pow_left₀ root_bounds.1 (by norm_num) (by decide : (10 : ℕ) ≠ 0)
    norm_num at this ⊢
    linarith
  have positive := root_zpow_pos (2 * background - 70)
  have sample : (linVal (linMono (background - 30) (7 / 10))) ^ 2 = 49 / 100 * root ^ (2 * background - 60) := by
    rw [linVal_mono, mul_pow, ← zpow_natCast (root ^ _), ← zpow_mul]
    congr 1
    · norm_num
    · congr 1
      push_cast
      ring
  have total : linVal (linSum ((noiseWindow residueNoise start background).map linSquare)) =
      32 * (49 / 100 * root ^ (2 * background - 60)) := by
    rw [residueNoise_squares, linVal_sum, List.map_replicate, List.sum_replicate, linVal_square, sample]
    norm_num
  have proper : LinProper (linSum ((noiseWindow residueNoise start background).map linSquare)) := by
    refine .sum fun a member => ?_
    obtain ⟨x, -, rfl⟩ := List.mem_map.1 member
    exact .mul x x
  have lower : root ^ (2 * background - 60) = root ^ (2 * background - 70) * root ^ 10 := by
    rw [← zpow_natCast root 10, ← zpow_add₀ root_ne_zero]
    congr 1
    push_cast
    ring
  have upper : root ^ (2 * background - 50) = root ^ (2 * background - 60) * root ^ 10 := by
    rw [← zpow_natCast root 10, ← zpow_add₀ root_ne_zero]
    congr 1
    push_cast
    ring
  rw [noiseInBound_iff]
  refine ⟨linLe_of_linVal_le ((levelPower_isPower _).proper.scale _) proper ?_,
    linLe_of_linVal_le proper ((levelPower_isPower _).proper.scale _) ?_⟩
  · rw [total, linVal_scale, linVal_levelPower, show 2 * (background - 5) - 60 = 2 * background - 70 by ring, lower]
    push_cast
    nlinarith
  · rw [total, linVal_scale, linVal_levelPower, show 2 * (background + 5) - 60 = 2 * background - 50 by ring, upper]
    have := root_zpow_pos (2 * background - 60)
    push_cast
    nlinarith

theorem noiseInBound_noiseBlock (n : ChannelNo) (block : Nat) {background : Int}
    (range : -700 ≤ background ∧ background ≤ 30) : noiseInBound (noiseBlock n block background) background = true := by
  unfold noiseBlock noiseSequence
  split
  · next allowed => exact noiseInBound_of_allowed allowed _ range
  · exact noiseInBound_residueNoise _ _

/-- Settles O12: the sample sent with the suppressor closed, and the spectrum and the power of the noise. -/
theorem comfortNoise : Obligations.ComfortNoise := by
  unfold Obligations.ComfortNoise
  refine ⟨fun s n rin sin arrives mode suppressor => ⟨_, exec_samplePairArrival arrives rin sin, ?_⟩, ?_⟩
  · simp only [arrivalWork_sout, Vector.getElem_set_self, pathAt_of_active_closed mode suppressor]
  · intro n sequence period correlation
    refine ⟨(flatSpectrum_iff _).1 (noiseSequence_flat n), fun block background low high => ?_⟩
    obtain ⟨below, above⟩ := (noiseInBound_iff _ _).1 (noiseInBound_noiseBlock n block ⟨low, high⟩)
    refine ⟨by simp [noiseBlock, noiseWindow], fun phase inside => ?_, below, above⟩
    exact noiseWindow_getD _ _ _ phase inside

end Sys2Proof.Machine
end

section
/-! PROOF. A block boundary touches its own channel, the segments of its list and the queues alone (R12, R17). -/

namespace Sys2Proof.Machine

/-! ### What the stages of a boundary leave unchanged -/

/-- What every stage of channel n's boundary leaves unchanged, beside the stores it does not write. -/
structure State.ChannelOnly (s t : State) (n : ChannelNo) : Prop where
  chains : t.chains = s.chains
  channels : ∀ m, m ≠ n → t.channel m = s.channel m
  outside : ∀ g, g ∉ s.channelChain n → t.segment g = s.segment g
  taps : ∀ g, (t.segment g).coeffs = (s.segment g).coeffs ∧ (t.segment g).startDelay = (s.segment g).startDelay
  hwi : t.hwi = { s.hwi with marks := t.hwi.marks }
  marks : ∀ m, m ≠ n → t.mark m = s.mark m
  ports : ∀ p, t.port p = { s.port p with queue := (t.port p).queue }

variable {s t u : State} {n : ChannelNo}

theorem State.ChannelOnly.trans (first : s.ChannelOnly t n) (second : t.ChannelOnly u n) : s.ChannelOnly u n where
  chains := second.chains.trans first.chains
  channels m other := (second.channels m other).trans (first.channels m other)
  outside g outside := by
    have same : g ∉ t.channelChain n := by rw [State.channelChain, State.chain, first.chains]; exact outside
    exact (second.outside g same).trans (first.outside g outside)
  taps g := ⟨(second.taps g).1.trans (first.taps g).1, (second.taps g).2.trans (first.taps g).2⟩
  hwi := by rw [second.hwi, first.hwi]
  marks m other := (second.marks m other).trans (first.marks m other)
  ports p := by rw [second.ports p, first.ports p]

/-- A stage that changes channel n and raises its events. -/
theorem State.ChannelOnly.of_channel (chains : t.chains = s.chains) (segments : t.segments = s.segments)
    (hwi : t.hwi = s.hwi) (channels : ∀ m, m ≠ n → t.channel m = s.channel m)
    (ports : ∀ p, t.port p = { s.port p with queue := (t.port p).queue }) : s.ChannelOnly t n where
  chains := chains
  channels := channels
  outside g _ := by simp only [State.segment, segments]
  taps g := by simp only [State.segment, segments, and_self]
  hwi := by rw [hwi]
  marks m _ := by simp only [State.mark, hwi]
  ports := ports

theorem port_eq_of_ports (portA : t.portA = s.portA) (portB : t.portB = s.portB) (p : Plane) : t.port p = s.port p := by
  cases p
  · exact portA
  · exact portB

theorem ports_of_ports (portA : t.portA = s.portA) (portB : t.portB = s.portB) (p : Plane) :
    t.port p = { s.port p with queue := (t.port p).queue } := by
  rw [port_eq_of_ports portA portB]

theorem Raises.ports {events : List Event} (raised : Raises s t n events) (p : Plane) :
    t.port p = { s.port p with queue := (t.port p).queue } := by
  obtain ⟨-, -, ports⟩ := raised
  rw [ports p]

theorem State.ChannelOnly.modChannel (s : State) (n : ChannelNo) (f : Channel → Channel) :
    s.ChannelOnly (s.modChannel n f) n :=
  .of_channel rfl rfl rfl (fun _ other => channel_modChannel_ne s other f) fun _ => rfl

theorem State.ChannelOnly.modMark (kept : s.ChannelOnly t n) (f : FrameMark → FrameMark) :
    s.ChannelOnly (t.modMark n f) n where
  chains := kept.chains
  channels := kept.channels
  outside := kept.outside
  taps := kept.taps
  hwi := by
    have same : (t.modMark n f).hwi = { t.hwi with marks := (t.modMark n f).hwi.marks } := rfl
    rw [same, kept.hwi]
  marks m other := (mark_modMark_ne t other f).trans (kept.marks m other)
  ports := kept.ports

/-- A change of segments that keeps a field of each. -/
theorem read_modSegments {α : Type} (read : Segment → α) {f : Segment → Segment} (keeps : ∀ x, read (f x) = read x)
    (l : List SegNo) (s : State) (g : SegNo) : read ((s.modSegments l f).segment g) = read (s.segment g) := by
  unfold State.modSegments
  induction l generalizing s with
  | nil => rfl
  | cons x l ih =>
    rw [List.foldl_cons, ih]
    by_cases same : g = x
    · subst same; rw [segment_modSegment, keeps]
    · rw [segment_modSegment_ne _ same]

/-- A change of the segments of the channel's list that keeps their taps and start delays. -/
theorem State.ChannelOnly.modSegments (s : State) (n : ChannelNo) {f : Segment → Segment}
    (coeffs : ∀ x, (f x).coeffs = x.coeffs) (startDelay : ∀ x, (f x).startDelay = x.startDelay) :
    s.ChannelOnly (s.modSegments (s.channelChain n) f) n where
  chains := by simp
  channels m _ := by simp [State.channel]
  outside g outside := segment_foldModSegment_of_notMem (fun _ => f) outside s
  taps g := ⟨read_modSegments Segment.coeffs coeffs _ s g, read_modSegments Segment.startDelay startDelay _ s g⟩
  hwi := by simp
  marks m _ := by simp [State.mark]
  ports := ports_of_ports (by simp) (by simp)

/-! ### The stages -/

theorem toneBoundary_channelOnly (s : State) (n : ChannelNo) : s.ChannelOnly (s.toneBoundary n) n := by
  refine .of_channel (by simp) (by simp) (by simp) (fun m other => ?_) (toneBoundary_raises s n).ports
  unfold State.toneBoundary
  dsimp only
  split <;> simp only [channel_raiseChannel, channel_modChannel_ne _ other]

theorem divergenceBoundary_channelOnly (s : State) (n : ChannelNo) (r : BlockRecord) :
    s.ChannelOnly (s.divergenceBoundary n r) n := by
  refine .of_channel (by simp) (by simp) (by simp) (fun m other => ?_) (divergenceBoundary_raises s n r).ports
  unfold State.divergenceBoundary
  dsimp only
  split
  · rw [requestPurge_channel_ne _ _ other, channel_raiseChannel, channel_modChannel_ne _ other]
  · rw [channel_modChannel_ne _ other]

theorem convergenceBoundary_channelOnly (s : State) (n : ChannelNo) (r : BlockRecord) :
    s.ChannelOnly (s.convergenceBoundary n r) n := by
  refine .of_channel (by simp) (by simp) (by simp) (fun m other => ?_) (convergenceBoundary_raises s n r).ports
  unfold State.convergenceBoundary
  dsimp only
  split <;> simp only [channel_raiseChannel, channel_modChannel_ne _ other]

theorem periodEnd_channelOnly (s : State) (n : ChannelNo) : s.ChannelOnly (s.periodEnd n) n := by
  have counted := State.ChannelOnly.modSegments s n (f := nextVacancy (s.largestWeight (s.channelChain n)))
    (fun _ => rfl) fun _ => rfl
  exact ⟨counted.chains, counted.channels, counted.outside, counted.taps, counted.hwi, counted.marks, counted.ports⟩

theorem trackingBoundary_channelOnly (s : State) (n : ChannelNo) (r : BlockRecord) :
    s.ChannelOnly (s.trackingBoundary n r) n := by
  unfold State.trackingBoundary
  dsimp only
  split
  · exact .modChannel s n _
  · split
    · exact .of_channel rfl rfl rfl (fun _ _ => rfl) fun _ => rfl
    · split
      · exact (State.ChannelOnly.modChannel s n _).trans (periodEnd_channelOnly _ n)
      · exact .modChannel s n _

theorem levelBoundary_channelOnly (s : State) (n : ChannelNo) : s.ChannelOnly (s.levelBoundary n) n :=
  .of_channel (by simp) (by simp) (by simp) (fun _ other => levelBoundary_channel_ne other s)
    (levelBoundary_raises s n).ports

theorem decisions_channelOnly (s : State) (n : ChannelNo) : s.ChannelOnly (s.decisions n) n := by
  unfold State.decisions
  dsimp only
  refine State.ChannelOnly.trans ?_ (.modChannel _ n _)
  refine State.ChannelOnly.trans ?_ (levelBoundary_channelOnly _ n)
  refine State.ChannelOnly.trans ?_ (trackingBoundary_channelOnly _ n _)
  refine State.ChannelOnly.trans ?_ (.modChannel _ n _)
  refine State.ChannelOnly.trans ?_ (.modChannel _ n _)
  refine State.ChannelOnly.trans ?_ (convergenceBoundary_channelOnly _ n _)
  refine State.ChannelOnly.trans ?_ (divergenceBoundary_channelOnly _ n _)
  refine State.ChannelOnly.trans ?_ (toneBoundary_channelOnly _ n)
  refine State.ChannelOnly.trans ?_ (.modChannel _ n _)
  exact (State.ChannelOnly.modSegments s n (f := Segment.refresh) (fun _ => rfl) fun _ => rfl).trans (.modChannel (s.refreshWeights n) n _)

theorem applyPending_channelOnly (s : State) (n : ChannelNo) : s.ChannelOnly (s.applyPending n) n := by
  unfold State.applyPending
  dsimp only
  split
  · exact .of_channel rfl rfl rfl (fun _ _ => rfl) fun _ => rfl
  · exact (State.ChannelOnly.modChannel s n _).modMark _

theorem openBlock_channelOnly (s : State) (n : ChannelNo) : s.ChannelOnly (s.openBlock n) n := by
  unfold State.openBlock
  split
  · exact .of_channel rfl rfl rfl (fun _ _ => rfl) fun _ => rfl
  · exact .modChannel s n _

theorem boundary_channelOnly (s : State) (n : ChannelNo) : s.ChannelOnly (s.boundary n) n := by
  have still : s.ChannelOnly s n := .of_channel rfl rfl rfl (fun _ _ => rfl) fun _ => rfl
  unfold State.boundary
  split
  · unfold State.boundaryWork
    dsimp only
    refine (State.ChannelOnly.trans (State.ChannelOnly.trans ?_ (applyPending_channelOnly _ n))
      (openBlock_channelOnly _ n)).modMark _
    split
    · exact still
    · exact decisions_channelOnly s n
  · exact still

/-! ### The boundary -/

theorem boundaryFrame_boundary (s : State) (n : ChannelNo) : s.BoundaryFrame (s.boundary n) n := by
  obtain ⟨free, chains, transit, lc, claims, pending⟩ := boundary_frame s n
  have kept := boundary_channelOnly s n
  exact ⟨free, chains, transit, lc, claims, pending, kept.channels, kept.outside, kept.taps, kept.hwi, kept.marks, kept.ports⟩

/-- A boundary that closes no block is not due, or is that of a channel whose mode is OFF. -/
theorem boundary_of_not_closes (unclosed : ¬s.ClosesBlock n) : s.boundary n = s ∨
    s.boundary n = ((s.applyPending n).openBlock n).modMark n ({ · with boundary := true }) := by
  by_cases due : s.boundaryDue n = true
  · refine .inr ((if_pos due).trans ?_)
    have off : (s.channel n).governing.mode = .off := by
      by_contra mode
      simp only [State.boundaryDue, Bool.and_eq_true, decide_eq_true_eq, Bool.not_eq_true', Bool.or_eq_true] at due
      exact unclosed ⟨due.1.1.1, due.1.1.2, due.1.2, due.2.resolve_left mode, mode⟩
    unfold State.boundaryWork
    rw [if_pos off]
  · exact .inl (if_neg due)

/-- Settles O13: the frame of every boundary, and the events of one that closes a block. -/
theorem boundaryTouchesItsChannelOnly : Obligations.BoundaryTouchesItsChannelOnly := by
  unfold Obligations.BoundaryTouchesItsChannelOnly
  refine fun s n => ⟨s.boundary n, rfl, boundaryFrame_boundary s n, fun unclosed p => ?_, fun closes receive send window => ?_⟩
  · obtain still | off := boundary_of_not_closes unclosed
    · rw [still]
    · rw [off]
      exact port_eq_of_ports (by simp) (by simp) p
  · obtain ⟨t, events, executed, told, ports⟩ := boundary_raises s n closes receive send window
    have same : s.boundary n = t := Host.Outcome.next.inj executed
    rw [same]
    exact ⟨events, told, ports⟩

end Sys2Proof.Machine
end

section
/-! PROOF. The boundary of a channel whose mode is OFF (R4 to R6, R88, R89, R150). -/

namespace Sys2Proof.Machine

variable {s : State} {n : ChannelNo} {r : ConfigRecord}

/-- A boundary that is due in a frame of phase 31 for a channel whose mode is OFF. -/
theorem boundary_of_off (framed : s.hwi.framing = .framed) (phase : s.hwi.phase = 31) (fresh : (s.mark n).boundary = false)
    (off : (s.channel n).governing.mode = .off) :
    s.boundary n = ((s.applyPending n).openBlock n).modMark n ({ · with boundary := true }) := by
  have due : s.boundaryDue n = true := by simp [State.boundaryDue, framed, phase, fresh, off]
  refine (if_pos due).trans ?_
  unfold State.boundaryWork
  rw [if_pos off]

theorem applyPending_of_none (none : (s.channel n).pendingRecord = none) : s.applyPending n = s := by
  unfold State.applyPending; dsimp only; rw [none]

theorem openBlock_of_off (off : (s.channel n).governing.mode = .off) : s.openBlock n = s := if_pos off

theorem recordApplied_of_off {c : Channel} (off : c.governing.mode = .off) (pending : c.pendingRecord = some r) :
    c.recordApplied = c.leaveOff r := by
  unfold Channel.recordApplied
  rw [pending]
  exact if_pos off

theorem blockOpened_of_not_off {c : Channel} (mode : c.governing.mode ≠ .off) (state : Canceller) : c.blockOpened state =
    { c with acc := .zero, toneRin := [], toneSin := [], beforeRin := c.toneRin, beforeSin := c.toneSin,
             freeBlock := c.freeBlock + 1, whollyRunning := decide (state = .running) } := if_neg mode

/-- The marks and channels alone are changed where a record is applied and a block opened. -/
theorem appliedOpened_eq (s : State) (n : ChannelNo) (f : FrameMark → FrameMark) :
    ((s.applyPending n).openBlock n).modMark n f = { s with
      hwi := (((s.applyPending n).openBlock n).modMark n f).hwi
      channels := (((s.applyPending n).openBlock n).modMark n f).channels } :=
  State.eq_of_fields rfl rfl (by simp) (by simp) (by simp) (by simp) (by simp) (by simp) (by simp) (by simp) (by simp)
    (by simp) (by simp)

theorem mark_openBlock (s : State) (n m : ChannelNo) : (s.openBlock n).mark m = s.mark m := by
  simp only [State.mark, openBlock_frame]

theorem mark_applyPending_of_some (pending : (s.channel n).pendingRecord = some r) : (s.applyPending n).mark n =
    { s.mark n with
      joining := ((s.mark n).joining || decide ((s.channel n).governing.mode = .off) ||
        decide (r.timeslot ≠ (s.channel n).governing.timeslot)) } := by
  unfold State.applyPending
  dsimp only
  rw [pending, mark_modMark]
  rfl

/-- Settles O14: an OFF channel's boundary with no record and with one. -/
theorem offBoundaryAppliesTheRecord : Obligations.OffBoundaryAppliesTheRecord := by
  unfold Obligations.OffBoundaryAppliesTheRecord
  intro s n framed phase fresh off
  refine ⟨fun none => congrArg Host.Outcome.next ?_, fun r pending mode => ⟨_, rfl, ?_⟩⟩
  · rw [boundary_of_off framed phase fresh off, applyPending_of_none none, openBlock_of_off off]
  rw [boundary_of_off framed phase fresh off]
  have applied : (s.applyPending n).channel n = (s.channel n).leaveOff r := by
    rw [applyPending_channel, recordApplied_of_off off pending]
  have opened := openBlock_channel (s.applyPending n) n
  rw [applied, blockOpened_of_not_off (c := (s.channel n).leaveOff r) mode, ← canceller_modMark _ n n ({ · with boundary := true })]
    at opened
  have mark : (((s.applyPending n).openBlock n).modMark n ({ · with boundary := true })).mark n =
      { (s.applyPending n).mark n with boundary := true } := by
    rw [mark_modMark, mark_openBlock]
  have unfinished : (((s.applyPending n).openBlock n).modMark n ({ · with boundary := true })).unfinished (channelCode n) =
      s.unfinished (channelCode n) := unfinished_congr (by simp) _
  refine ⟨appliedOpened_eq s n _, ?_, by rw [mark], ?_⟩
  · rw [mark, mark_applyPending_of_some pending, off]
    simp
  rw [restarting_iff, unfinished, channel_modMark, opened]
  refine ⟨rfl, rfl, rfl, rfl, rfl, rfl, rfl, rfl, rfl, rfl, rfl, rfl, rfl, rfl, rfl, rfl, rfl, rfl, rfl, rfl, rfl, rfl, rfl, rfl,
    rfl, rfl, rfl, rfl, rfl, decide_eq_true_iff, and_iff_right mode⟩

end Sys2Proof.Machine
end

section
/-! SUPPORT. A boundary at which a block closes, store by store: the record applied over the decisions, the block that opens, the
marks and the weights (R4, R9, R11, R88, R90, R93, R148). -/

namespace Sys2Proof.Machine

variable {s t u : State} {n : ChannelNo}

/-! ### The record and the block that opens -/

/-- A direction after a record is applied at a boundary, or none (R148). -/
def LsuDir.applied (d : LsuDir) (old : AlcConfig) (new : Option AlcConfig) : LsuDir :=
  match new with
  | none => d
  | some a => d.applyRecord old a

theorem levelsApplied_applied (d : LsuDir) (old : AlcConfig) (new : Option AlcConfig) :
    LevelsApplied old new d (d.applied old new) := by
  cases new with
  | none => rfl
  | some a =>
    refine ⟨fun fixed => ?_, fun auto wasFixed => ?_, fun auto wasAuto => ?_⟩
      <;> simp only [LsuDir.applied, LsuDir.applyRecord, *] <;> rfl

theorem applied_blockAcc (d : LsuDir) (old : AlcConfig) (new : Option AlcConfig) :
    (d.applied old new).blockAcc = d.blockAcc := by
  cases new with
  | none => rfl
  | some a =>
    unfold LsuDir.applied LsuDir.applyRecord
    dsimp only
    split
    · rfl
    · split <;> rfl

theorem recordApplied_of_not_off {c : Channel} (mode : c.governing.mode ≠ .off) : c.recordApplied =
    { c with
      governing := c.pendingRecord.getD c.governing, pendingRecord := none
      receive := c.receive.applied c.governing.receive (c.pendingRecord.map ConfigRecord.receive)
      send := c.send.applied c.governing.send (c.pendingRecord.map ConfigRecord.send) } := by
  unfold Channel.recordApplied
  obtain ⟨governing, pending, _⟩ := c
  cases pending with
  | none => rfl
  | some r => exact if_neg mode

theorem blockOpened_keeps (c : Channel) (state : Canceller) :
    (c.blockOpened state).governing = c.governing ∧ (c.blockOpened state).pendingRecord = c.pendingRecord ∧
    (c.blockOpened state).erle = c.erle ∧ (c.blockOpened state).blockRecord = c.blockRecord ∧
    (c.blockOpened state).blockCount = c.blockCount ∧ (c.blockOpened state).receive = c.receive ∧
    (c.blockOpened state).send = c.send ∧ (c.blockOpened state).windowPos = c.windowPos ∧
    (c.blockOpened state).history = c.history ∧ (c.blockOpened state).cursor = c.cursor := by
  unfold Channel.blockOpened
  split <;> exact ⟨rfl, rfl, rfl, rfl, rfl, rfl, rfl, rfl, rfl, rfl⟩

/-- The channel after a closing block's boundary: a record over the decisions, and a block over that. -/
theorem boundaryWork_channel (mode : (s.channel n).governing.mode ≠ .off) : (s.boundaryWork n).channel n =
    ((s.decisions n).channel n).recordApplied.blockOpened ((s.boundaryWork n).canceller n) := by
  have opened := openBlock_channel ((s.decisions n).applyPending n) n
  rw [applyPending_channel] at opened
  rw [boundaryWork_of_not_off mode, channel_modMark, canceller_modMark]
  exact opened

/-- What the decisions leave of a channel's record, stores and block. -/
theorem decisions_kept (s : State) (n : ChannelNo) :
    let c := s.channel n
    let d := (s.decisions n).channel n
    (d.governing = c.governing ∧ d.pendingRecord = c.pendingRecord ∧ d.cursor = c.cursor ∧ d.history = c.history ∧
      d.toneRin = c.toneRin ∧ d.toneSin = c.toneSin) ∧
    (d.erle = c.measured.erle ∧ d.blockRecord = some c.measured ∧ d.blockCount = c.blockCount + 1) ∧
    (d.receive = (c.receive.boundary c.governing.receive c.windowEnds).1 ∧
      d.send = (c.send.boundary c.governing.send c.windowEnds).1 ∧
      d.windowPos = if c.windowEnds then 0 else c.windowPos + 1) := by
  obtain ⟨_, decided⟩ := decisions_channel s n
  obtain ⟨⟨governing, pending, cursor, history, -, toneRin, toneSin, -, -, -⟩, measured, -, -, -, -, -, -, -, levels⟩ :=
    afterDecisions_fields (c := s.channel n) rfl rfl rfl rfl rfl rfl rfl
  dsimp only
  rw [decided]
  exact ⟨⟨governing, pending, cursor, history, toneRin, toneSin⟩, measured, levels⟩

/-- The fields of a channel that are settled by its decisions and its record, after a closing block's boundary. -/
theorem boundaryWork_fields (mode : (s.channel n).governing.mode ≠ .off) :
    let c := s.channel n
    let d := (s.boundaryWork n).channel n
    d.erle = c.measured.erle ∧ d.blockRecord = some c.measured ∧ d.blockCount = c.blockCount + 1 ∧
    d.pendingRecord = none ∧ d.governing = c.pendingRecord.getD c.governing ∧
    d.receive = (c.receive.boundary c.governing.receive c.windowEnds).1.applied c.governing.receive
      (c.pendingRecord.map ConfigRecord.receive) ∧
    d.send = (c.send.boundary c.governing.send c.windowEnds).1.applied c.governing.send
      (c.pendingRecord.map ConfigRecord.send) ∧
    d.windowPos = (if c.windowEnds then 0 else c.windowPos + 1) ∧ d.history = c.history ∧ d.cursor = c.cursor := by
  obtain ⟨⟨governing, pending, cursor, history, -⟩, ⟨erle, blockRecord, blockCount⟩, receive, send, windowPos⟩ :=
    decisions_kept s n
  have decidedMode : ((s.decisions n).channel n).governing.mode ≠ .off := by rw [governing]; exact mode
  have keeps := blockOpened_keeps ((s.decisions n).channel n).recordApplied ((s.boundaryWork n).canceller n)
  rw [← boundaryWork_channel mode, recordApplied_of_not_off decidedMode] at keeps
  dsimp only at keeps
  rw [governing, pending, erle, blockRecord, blockCount, receive, send, windowPos, history, cursor] at keeps
  obtain ⟨keepGoverning, keepPending, keepErle, keepRecord, keepCount, rest⟩ := keeps
  exact ⟨keepErle, keepRecord, keepCount, keepPending, keepGoverning, rest⟩

/-- The block that opens, for a channel whose mode is not OFF after the boundary. -/
theorem boundaryWork_opens (mode : (s.channel n).governing.mode ≠ .off) :
    let c := s.channel n
    let d := (s.boundaryWork n).channel n
    d.governing.mode ≠ .off → d.acc = .zero ∧ d.toneRin = [] ∧ d.toneSin = [] ∧ d.beforeRin = c.toneRin ∧
      d.beforeSin = c.toneSin ∧ (d.whollyRunning = true ↔ (s.boundaryWork n).canceller n = .running) := by
  obtain ⟨⟨governing, -, -, -, toneRin, toneSin⟩, -⟩ := decisions_kept s n
  have decidedMode : ((s.decisions n).channel n).governing.mode ≠ .off := by rw [governing]; exact mode
  dsimp only
  intro runs
  have running : ((s.decisions n).channel n).recordApplied.governing.mode ≠ .off := by
    obtain ⟨keep, -⟩ := blockOpened_keeps ((s.decisions n).channel n).recordApplied ((s.boundaryWork n).canceller n)
    rw [← keep, ← boundaryWork_channel mode]
    exact runs
  rw [boundaryWork_channel mode, blockOpened_of_not_off running, recordApplied_of_not_off decidedMode]
  dsimp only
  rw [toneRin, toneSin, decide_eq_true_iff]
  exact ⟨rfl, rfl, rfl, rfl, rfl, Iff.rfl⟩

/-! ### Marks -/

theorem decisions_mark (s : State) (n m : ChannelNo) : (s.decisions n).mark m = s.mark m := by
  obtain ⟨-, hwi, -⟩ := decisions_raises s n
  simp only [State.mark, hwi]

theorem boundaryWork_mark (mode : (s.channel n).governing.mode ≠ .off) : (s.boundaryWork n).mark n =
    { s.mark n with
      boundary := true
      joining := ((s.mark n).joining ||
        decide (((s.channel n).pendingRecord.getD (s.channel n).governing).timeslot ≠ (s.channel n).governing.timeslot)) } := by
  obtain ⟨⟨governing, pending, -⟩, -⟩ := decisions_kept s n
  rw [boundaryWork_of_not_off mode, mark_modMark, mark_openBlock]
  cases record : (s.channel n).pendingRecord with
  | none =>
    rw [applyPending_of_none (pending.trans record), decisions_mark]
    simp
  | some r =>
    rw [mark_applyPending_of_some (pending.trans record), decisions_mark, governing]
    simp [mode]

/-! ### Weights (R21, R93) -/

/-- The weights of all segments are the same in two states. -/
def State.SameWeights (s t : State) : Prop := ∀ g, (t.segment g).weight = (s.segment g).weight

theorem State.SameWeights.trans (first : s.SameWeights t) (second : t.SameWeights u) : s.SameWeights u :=
  fun g => (second g).trans (first g)

theorem State.SameWeights.of_segments (segments : t.segments = s.segments) : s.SameWeights t :=
  fun g => by simp only [State.segment, segments]

theorem trackingBoundary_sameWeights (s : State) (n : ChannelNo) (r : BlockRecord) :
    s.SameWeights (s.trackingBoundary n r) := by
  have period (u : State) : u.SameWeights (u.periodEnd n) :=
    read_modSegments Segment.weight (f := nextVacancy (u.largestWeight (u.channelChain n))) (fun _ => rfl) (u.channelChain n) u
  unfold State.trackingBoundary
  dsimp only
  split
  · exact .of_segments rfl
  · split
    · exact .of_segments rfl
    · split
      · exact .trans (.of_segments rfl) (period (s.modChannel n ({ · with trackCount := 0 })))
      · exact .of_segments rfl

theorem modChannel_sameWeights (s : State) (n : ChannelNo) (f : Channel → Channel) : s.SameWeights (s.modChannel n f) :=
  .of_segments rfl

theorem levelBoundary_sameWeights (s : State) (n : ChannelNo) : s.SameWeights (s.levelBoundary n) :=
  .of_segments (by simp)

theorem weight_modSegments_refresh {l : List SegNo} {g : SegNo} (member : g ∈ l) (s : State) :
    ((s.modSegments l (·.refresh)).segment g).weight = weightOf (s.segment g).coeffs := by
  induction l generalizing s with
  | nil => exact absurd member List.not_mem_nil
  | cons x l ih =>
    by_cases later : g ∈ l
    · have coeffs : ((s.modSegment x (·.refresh)).segment g).coeffs = (s.segment g).coeffs :=
        read_modSegments Segment.coeffs (f := Segment.refresh) (fun _ => rfl) [x] s g
      exact (ih later (s.modSegment x (·.refresh))).trans (congrArg weightOf coeffs)
    · have first : g = x := (List.mem_cons.1 member).resolve_right later
      subst first
      have kept := segment_foldModSegment_of_notMem (fun _ => Segment.refresh) later (s.modSegment g (·.refresh))
      have refreshed : (s.modSegments (g :: l) (·.refresh)).segment g = (s.segment g).refresh :=
        kept.trans (segment_modSegment s g _)
      rw [refreshed]
      rfl

theorem decisions_weight {g : SegNo} (member : g ∈ s.channelChain n) :
    ((s.decisions n).segment g).weight = weightOf (s.segment g).coeffs := by
  refine Eq.trans ?_ (weight_modSegments_refresh member s)
  have after : (s.refreshWeights n).SameWeights (s.decisions n) := by
    unfold State.decisions
    dsimp only
    refine State.SameWeights.trans ?_ (modChannel_sameWeights _ n _)
    refine State.SameWeights.trans ?_ (levelBoundary_sameWeights _ n)
    refine State.SameWeights.trans ?_ (trackingBoundary_sameWeights _ n _)
    exact .of_segments (by simp)
  exact after g

theorem boundaryWork_segment (mode : (s.channel n).governing.mode ≠ .off) (g : SegNo) :
    (s.boundaryWork n).segment g = (s.decisions n).segment g := by
  rw [boundaryWork_of_not_off mode, segment_modMark]
  simp only [State.segment, openBlock_frame, applyPending_frame]

end Sys2Proof.Machine
end

section
/-! PROOF. What a boundary measures, counts and applies (R4, R9, R11, R78, R88 to R94). -/

namespace Sys2Proof.Machine

variable {d : LsuDir}

/-- Three half tenths of a dB. -/
theorem cube_bound : (1001 / 1000 : ℝ) ≤ root ^ 3 := by
  have power := pow_le_pow_right₀ one_lt_root.le (by decide : 1 ≤ 3)
  rw [pow_one] at power
  linarith [root_bounds.1]

theorem levelOf_below : levelOf (levelPower (-701)) = -700 := by
  refine levelOf_eq (levelPower_isPower _) (by decide) (fun above => absurd above (lt_irrefl _)) ?_
  have power := (levelPower_isPower (-701)).positive
  rw [show (-700 + 1 : ℤ) = -701 + 2 by norm_num, linVal_levelThreshold_add, show (2 * 2 - 1 : ℤ) = (3 : ℕ) by norm_num,
    zpow_natCast]
  exact mul_le_mul_of_nonneg_right cube_bound power.le

theorem levelOf_above : levelOf (levelPower 31) = 30 := by
  refine levelOf_of_top (levelPower_isPower _) ?_
  have above : linVal (levelThreshold 30) * root ^ 3 = linVal (levelPower 31) := by
    rw [linVal_levelThreshold, linVal_levelPower, mul_assoc, ← zpow_natCast root 3, ← zpow_add₀ root_ne_zero]
    norm_num
  have threshold := (levelThreshold_isPower 30).positive
  rw [← above, mul_comm]
  exact mul_le_mul_of_nonneg_left cube_bound threshold.le

theorem levelOf_one : levelOf (linRat 1) = 30 := by
  refine levelOf_of_top (IsPower.mono 0 one_pos) ?_
  rw [linVal_levelThreshold, linVal_rat]
  have less : root ^ (-1 : ℤ) < 1 := zpow_lt_one_of_neg₀ one_lt_root (by norm_num)
  norm_num at less ⊢
  linarith

theorem boundary_blockAcc (d : LsuDir) (a : AlcConfig) (ends : Bool) : (d.boundary a ends).1.blockAcc = [] := by
  have step (x : LsuDir) (up : Int) : (x.step up).1.blockAcc = x.blockAcc := by
    unfold LsuDir.step
    split
    · rfl
    · split <;> rfl
  unfold LsuDir.boundary
  dsimp only
  split
  · rfl
  · split
    · unfold LsuDir.judgeAuto
      dsimp only
      repeat' split
      all_goals simp only [step]
    · rfl

/-- Settles O15: levels of powers, and what a closing block's boundary measures, counts, applies and opens. -/
theorem boundaryMeasuresCountsAndApplies : Obligations.BoundaryMeasuresCountsAndApplies := by
  unfold Obligations.BoundaryMeasuresCountsAndApplies
  refine ⟨fun level low high => levelOf_levelPower ⟨low, high⟩, if_pos rfl, levelOf_below, levelOf_above, levelOf_one,
    fun level member => levelOf_near ?_, fun s n closes => ⟨_, exec_blockBoundary closes, ?_⟩⟩
  · simp only [List.mem_cons, List.not_mem_nil, or_false] at member
    omega
  have mode := closes.mode
  obtain ⟨-, -, -, arrived, -⟩ := closes
  obtain ⟨erle, blockRecord, blockCount, pending, governing, receive, send, -, history, cursor⟩ := boundaryWork_fields mode
  have mark := boundaryWork_mark mode
  refine ⟨erle, blockRecord, fun g member => ?_, blockCount, pending, governing, by rw [mark], by rw [mark]; exact arrived,
    ?_, boundaryWork_opens mode, ?_, ?_, history, cursor⟩
  · rw [boundaryWork_segment mode, decisions_weight member, weightOf]
  · rw [mark, governing, Bool.or_eq_true, decide_eq_true_iff]
  · rw [receive, applied_blockAcc, boundary_blockAcc]
  · rw [send, applied_blockAcc, boundary_blockAcc]

end Sys2Proof.Machine
end

section
/-! PROOF. The level window, and the purge a channel that enters DIVERGED requests (R73, R122, R142 to R148). -/

namespace Sys2Proof.Machine

variable {s t : State} {n : ChannelNo}

/-! ### Reports of the decisions (R158, R173) -/

/-- An event of the decisions is reported at the closing block's boundary. -/
theorem boundaryWork_reports (mode : (s.channel n).governing.mode ≠ .off) {e : Event} {events : List Event}
    (raised : Raises s (s.decisions n) n events) (member : e ∈ events) (few : events.length ≤ 6) :
    s.Reported (s.boundaryWork n) n e := by
  intro p routed room
  rw [boundaryWork_port mode]
  exact raised.reported member few p routed room

theorem length_five_events_le {a b c d e : List Event} (ha : a.length ≤ 1) (hb : b.length ≤ 1) (hc : c.length ≤ 1)
    (hd : d.length ≤ 1) (he : e.length ≤ 1) : (a ++ b ++ c ++ d ++ e).length ≤ 6 := by
  simp only [List.length_append]
  omega

theorem boundaryWork_reports_limit (mode : (s.channel n).governing.mode ≠ .off) {e : Event}
    (limit : e ∈ limitEvents n false ((s.channel n).receive.boundary (s.channel n).governing.receive
        (s.channel n).windowEnds).2 ∨
      e ∈ limitEvents n true ((s.channel n).send.boundary (s.channel n).governing.send (s.channel n).windowEnds).2) :
    s.Reported (s.boundaryWork n) n e := by
  refine boundaryWork_reports mode (decisions_raises s n) ?_ (length_five_events_le (length_ite_singleton_le _ _)
    (length_ite_singleton_le _ _) (length_ite_singleton_le _ _) (limitEvents_length ..) (limitEvents_length ..))
  obtain receive | send := limit
  · exact List.mem_append_left _ (List.mem_append_right _ receive)
  · exact List.mem_append_right _ send

theorem boundaryWork_reports_diverged (mode : (s.channel n).governing.mode ≠ .off)
    (enters : (s.channel n).divState ≠ .diverged ∧ ((s.decisions n).channel n).divState = .diverged) :
    s.Reported (s.boundaryWork n) n
      (.diverged n ((s.decisions n).channel n).divCount ((s.decisions n).channel n).erle) := by
  refine boundaryWork_reports mode (decisions_raises s n) ?_ (length_five_events_le (length_ite_singleton_le _ _)
    (length_ite_singleton_le _ _) (length_ite_singleton_le _ _) (limitEvents_length ..) (limitEvents_length ..))
  refine List.mem_append_left _ (List.mem_append_left _ (List.mem_append_left _ (List.mem_append_right _ ?_)))
  rw [if_pos enters]
  exact List.mem_singleton.2 rfl

/-! ### The level window (R142 to R148) -/

theorem boundary_of_open_window (d : LsuDir) (a : AlcConfig) : d.boundary a false =
    ({ d with windowAcc := linAdd d.windowAcc d.blockAcc, blockAcc := [] }, none) := rfl

/-- Settles O23: a window that goes on, one that is judged with its reports, and the levels a record applies. -/
theorem levelWindow : Obligations.LevelWindow := by
  unfold Obligations.LevelWindow
  intro s n closes receiveRange sendRange window
  have mode := closes.mode
  obtain ⟨-, -, -, -, -, receive, send, windowPos, -⟩ := boundaryWork_fields mode
  have reports := fun e => boundaryWork_reports_limit (e := e) mode
  obtain ⟨receiveJudged, receiveGain⟩ := boundary_judged (s.channel n).receive (s.channel n).governing.receive receiveRange
  obtain ⟨sendJudged, sendGain⟩ := boundary_judged (s.channel n).send (s.channel n).governing.send sendRange
  refine ⟨s.boundaryWork n, ((s.channel n).receive.boundary (s.channel n).governing.receive (s.channel n).windowEnds).1,
    ((s.channel n).send.boundary (s.channel n).governing.send (s.channel n).windowEnds).1,
    ((s.channel n).receive.boundary (s.channel n).governing.receive (s.channel n).windowEnds).2.isSome,
    ((s.channel n).send.boundary (s.channel n).governing.send (s.channel n).windowEnds).2.isSome,
    exec_blockBoundary closes, fun goesOn => ?_, fun ends => ?_, ?_, ?_⟩
  · have open_window : (s.channel n).windowEnds = false := decide_eq_false (by omega)
    rw [open_window] at windowPos ⊢
    exact ⟨windowPos, rfl, rfl⟩
  · have ended : (s.channel n).windowEnds = true := decide_eq_true (by omega)
    rw [ended] at windowPos reports ⊢
    refine ⟨windowPos, receiveJudged, sendJudged, fun limited => ?_, fun limited => ?_⟩
    · obtain ⟨gain, refused⟩ := Option.isSome_iff_exists.1 limited
      refine reports _ (.inl ?_)
      rw [← receiveGain gain refused, refused]
      exact List.mem_singleton.2 rfl
    · obtain ⟨gain, refused⟩ := Option.isSome_iff_exists.1 limited
      refine reports _ (.inr ?_)
      rw [← sendGain gain refused, refused]
      exact List.mem_singleton.2 rfl
  · rw [receive]
    exact levelsApplied_applied _ _ _
  · rw [send]
    exact levelsApplied_applied _ _ _

/-! ### The watcher's purge (R73, R122) -/

/-- The state in which DVW decides: block measurements, DTD and TBD have been before it (R12). -/
def State.beforeDivergence (s : State) (n : ChannelNo) : State :=
  ((((s.refreshWeights n).modChannel n ({ · with
    erle := (s.channel n).measured.erle, blockRecord := some (s.channel n).measured })).doubleTalkBoundary n
      (s.channel n).measured).toneBoundary n)

theorem beforeDivergence_pge (s : State) (n : ChannelNo) : (s.beforeDivergence n).pge = s.pge := by
  unfold State.beforeDivergence; simp

theorem beforeDivergence_channel (s : State) (n : ChannelNo) :
    ((s.beforeDivergence n).channel n).divState = (s.channel n).divState ∧
      ((s.beforeDivergence n).channel n).owed = (s.channel n).owed ∧
      ((s.beforeDivergence n).channel n).governing = (s.channel n).governing := by
  unfold State.beforeDivergence
  rw [toneBoundary_channel, doubleTalkBoundary_channel, channel_modChannel]
  obtain ⟨_, _, _, _, toned⟩ := decideTone_writes (Channel.testDoubleTalk { (s.refreshWeights n).channel n with
    erle := (s.channel n).measured.erle, blockRecord := some (s.channel n).measured } _ (s.channel n).measured) n
  obtain ⟨_, _, _, tested⟩ := testDoubleTalk_writes { (s.refreshWeights n).channel n with
    erle := (s.channel n).measured.erle, blockRecord := some (s.channel n).measured } _ (s.channel n).measured
  have same : (s.refreshWeights n).channel n = s.channel n := by simp only [State.channel, refreshWeights_frame]
  rw [toned, tested, same]
  exact ⟨rfl, rfl, rfl⟩

/-- The state DVW leaves. -/
def State.afterDivergence (s : State) (n : ChannelNo) : State :=
  (s.beforeDivergence n).divergenceBoundary n (s.channel n).measured

/-- The decisions after DVW's, without the block count (R12). -/
def State.laterDecisions (u : State) (n : ChannelNo) (r : BlockRecord) : State :=
  ((((u.convergenceBoundary n r).standingBoundary n r).suppressorBoundary n r).trackingBoundary n r).levelBoundary n

theorem decisions_eq (s : State) (n : ChannelNo) : s.decisions n =
    ((s.afterDivergence n).laterDecisions n (s.channel n).measured).modChannel n
      fun c => { c with blockCount := c.blockCount + 1 } := rfl

theorem decisions_pge_eq (s : State) (n : ChannelNo) : (s.decisions n).pge = (s.afterDivergence n).pge := by
  rw [decisions_eq, modChannel_pge]
  unfold State.laterDecisions
  simp only [convergenceBoundary_frame, standingBoundary_frame, suppressorBoundary_frame, trackingBoundary_frame,
    levelBoundary_frame]

/-- The decisions after DVW's touch neither the divergence state nor the owed flag nor the record. -/
theorem laterDecisions_channel (u : State) (n : ChannelNo) (r : BlockRecord) :
    ((u.laterDecisions n r).channel n).divState = (u.channel n).divState ∧
      ((u.laterDecisions n r).channel n).owed = (u.channel n).owed ∧
      ((u.laterDecisions n r).channel n).governing = (u.channel n).governing := by
  unfold State.laterDecisions
  rw [levelBoundary_channel, trackingBoundary_channel, suppressorBoundary_channel, standingBoundary_channel,
    convergenceBoundary_channel]
  obtain ⟨_, _, converged⟩ := decideConvergence_writes (u.channel n) r
  obtain ⟨_, _, _, suppressed⟩ := suppressor_writes (((u.channel n).decideConvergence r).decideStanding r
    ((u.convergenceBoundary n r).canceller n)) r
  rw [suppressed, converged]
  exact ⟨rfl, rfl, rfl⟩

theorem decisions_channel_after (s : State) (n : ChannelNo) :
    ((s.decisions n).channel n).divState = ((s.afterDivergence n).channel n).divState ∧
      ((s.decisions n).channel n).owed = ((s.afterDivergence n).channel n).owed ∧
      ((s.decisions n).channel n).governing = ((s.afterDivergence n).channel n).governing := by
  obtain ⟨state, owed, governing⟩ := laterDecisions_channel (s.afterDivergence n) n (s.channel n).measured
  rw [decisions_eq]
  generalize (s.afterDivergence n).laterDecisions n (s.channel n).measured = v at state owed governing ⊢
  rw [channel_modChannel]
  exact ⟨state, owed, governing⟩

theorem afterDivergence_of_stays (stays : ¬((s.channel n).divState ≠ .diverged ∧
      ((s.decisions n).channel n).divState = .diverged)) :
    (s.afterDivergence n).pge = s.pge ∧ ((s.afterDivergence n).channel n).owed = (s.channel n).owed := by
  obtain ⟨state, owed, -⟩ := beforeDivergence_channel s n
  obtain ⟨after, -⟩ := decisions_channel_after s n
  by_cases entered : ((s.beforeDivergence n).channel n).divState ≠ .diverged ∧
      (((s.beforeDivergence n).channel n).decideDivergence (s.channel n).measured).divState = .diverged
  · refine absurd ⟨state ▸ entered.1, after.trans ?_⟩ stays
    obtain ⟨w, channel⟩ := divergenceBoundary_channel (s.beforeDivergence n) n (s.channel n).measured
    obtain ⟨_, _, _, _, _, writes⟩ := watched_writes ((s.beforeDivergence n).channel n) (s.channel n).measured
      (s.beforeDivergence n).pge.owes w (s.beforeDivergence n).hwi.framing
    rw [State.afterDivergence, channel, writes]
    exact entered.2
  · have moved : s.afterDivergence n = (s.beforeDivergence n).modChannel n
        fun _ => ((s.beforeDivergence n).channel n).decideDivergence (s.channel n).measured := if_neg entered
    rw [moved, channel_modChannel]
    refine ⟨beforeDivergence_pge s n, ?_⟩
    rw [← owed]
    unfold Channel.decideDivergence
    split <;> rfl

/-- A channel that enters DIVERGED: DVW has requested the purge of its list. -/
theorem afterDivergence_of_enters (enters : (s.channel n).divState ≠ .diverged ∧
      ((s.decisions n).channel n).divState = .diverged) :
    ∃ u : State, u.pge = s.pge ∧ (u.channel n).governing = (s.channel n).governing ∧
      s.afterDivergence n = u.requestPurge n .ofInternal := by
  obtain ⟨state, -, governing⟩ := beforeDivergence_channel s n
  obtain ⟨after, -⟩ := decisions_channel_after s n
  have decided : (((s.beforeDivergence n).channel n).decideDivergence (s.channel n).measured).divState = .diverged := by
    obtain ⟨w, channel⟩ := divergenceBoundary_channel (s.beforeDivergence n) n (s.channel n).measured
    obtain ⟨_, _, _, _, _, writes⟩ := watched_writes ((s.beforeDivergence n).channel n) (s.channel n).measured
      (s.beforeDivergence n).pge.owes w (s.beforeDivergence n).hwi.framing
    rw [enters.2, State.afterDivergence, channel, writes] at after
    exact after.symm
  refine ⟨_, ?_, ?_, if_pos ⟨state ▸ enters.1, decided⟩⟩
  · rw [← beforeDivergence_pge s n]
    simp
  · rw [channel_raiseChannel, channel_modChannel, ← governing]
    unfold Channel.decideDivergence
    split <;> rfl

/-- Settles O19: PGE and the owed flag as they were, or the report, the HOLD and the purge of a channel that enters
DIVERGED. -/
theorem divergenceRequestsAPurge : Obligations.DivergenceRequestsAPurge := by
  unfold Obligations.DivergenceRequestsAPurge
  intro s n closes inv
  have mode := closes.mode
  obtain ⟨_, _, _, _, _, _, _, _, _, _, _, opened⟩ := boundaryWork_channel_writes mode
  have pge := (boundaryWork_pge mode).trans (decisions_pge_eq s n)
  obtain ⟨-, owed, governing⟩ := decisions_channel_after s n
  have divState : ((s.boundaryWork n).channel n).divState = ((s.decisions n).channel n).divState := by rw [opened]
  have owedAfter : ((s.boundaryWork n).channel n).owed = ((s.afterDivergence n).channel n).owed := by rw [opened, owed]
  refine ⟨s.boundaryWork n, exec_blockBoundary closes, ?_⟩
  dsimp only
  rw [divState]
  refine ⟨fun stays => ?_, fun enters => ?_⟩
  · obtain ⟨kept, keptOwed⟩ := afterDivergence_of_stays stays
    exact ⟨pge.trans kept, owedAfter.trans keptOwed⟩
  obtain ⟨u, before, record, requested⟩ := afterDivergence_of_enters enters
  have restarting : (s.afterDivergence n).canceller n = .restarting := by
    rw [requested]
    exact requestPurge_restarting (by rw [before]; exact inv) (by rw [record]; exact mode) _
  have waits := ((restarting_iff _ _).1 restarting).2
  have batch := decisions_pge_eq s n
  have decided : (s.decisions n).canceller n = .restarting := by
    rw [restarting_iff, decisions_governing, owed, unfinished_congr (congrArg Pge.batch batch)]
    exact ⟨mode, waits⟩
  obtain ⟨notSteady, -⟩ := decisions_convergence_cases s n
  refine ⟨?_, ?_, ?_, fun runs => ?_, ?_⟩
  · have count : ((s.boundaryWork n).channel n).divCount = ((s.decisions n).channel n).divCount := by rw [opened]
    have erle : ((s.boundaryWork n).channel n).erle = ((s.decisions n).channel n).erle := by rw [opened]
    rw [count, erle]
    exact boundaryWork_reports_diverged mode enters
  · have still : ((s.decisions n).channel n).standing ≠ .adapt := by
      intro adapt
      obtain ⟨running, -⟩ := (decisions_standing_adapt_iff s n).1 adapt
      rw [decided] at running
      cases running
    have kept : ((s.boundaryWork n).channel n).standing = ((s.decisions n).channel n).standing := by rw [opened]
    rw [kept]
    cases standing : ((s.decisions n).channel n).standing with
    | hold => rfl
    | adapt => exact absurd standing still
  · have kept : ((s.boundaryWork n).channel n).converged = ((s.decisions n).channel n).converged := by rw [opened]
    rw [kept]
    exact (notSteady (by rw [enters.2]; decide)).2
  · rw [restarting_iff, owedAfter, unfinished_congr (congrArg Pge.batch pge)]
    exact ⟨runs, waits⟩
  · refine State.PurgeRequested.congr (s := u) (t := s.afterDivergence n) ?_ before.symm pge owedAfter
    rw [requested]
    exact requestPurge_requested u n .ofInternal

end Sys2Proof.Machine
end

section
/-! PROOF. TBD's decision at a boundary: what it measures, its state machine and its report (R103 to R108). -/

namespace Sys2Proof.Machine

variable {s : State} {n : ChannelNo}

/-! ### What TBD measures (R103, R104) -/

theorem dot_self (l : List Rat) : dot l l = (l.map fun x => x * x).sum := by
  unfold dot
  rw [List.zipWith_self]

theorem directionLevel_eq (l : List Rat) :
    directionLevel l = levelOf (linScale (1 / 32) (linRat (l.map fun x => x * x).sum)) := by
  unfold directionLevel blockLevel sumSquares
  rw [dot_self]

theorem carriesTone_iff {block : Nat} {send : Bool} {l : List Rat} : carriesTone n block send l = true ↔
    -310 ≤ toneBandLevel n block send l ∧ directionLevel l - toneBandLevel n block send l ≤ 10 := by
  unfold carriesTone
  simp

theorem toneMeasure_reversal_iff {block : Nat} {send : Bool} {before l : List Rat} :
    (toneMeasure n block send before l).reversal = true ↔
      carriesTone n block send l = true ∧ toneReversal n block send before l = true := by
  unfold toneMeasure
  simp

/-- A tone of the band that is loud enough is carried: its level within the band is its whole level (R103). -/
theorem IsTone.carriesTone {factor : Rat} {l : List Rat} (h : IsTone factor l) (band : inBand factor = true)
    (i : Nat) (hi : i + 2 < l.length) (hx : l.getD (i + 1) 0 ≠ 0) (block : Nat) (send : Bool)
    (loud : -310 ≤ directionLevel l) : Machine.carriesTone n block send l = true := by
  rw [carriesTone_iff, h.toneBandLevel band i hi hx]
  omega

theorem IsTone.append_left {factor : Rat} {l m : List Rat} (h : IsTone factor (l ++ m)) : IsTone factor l := by
  intro i hi
  have step := h i (by rw [List.length_append]; omega)
  rwa [List.getD_append _ _ _ _ (by omega), List.getD_append _ _ _ _ (by omega),
    List.getD_append _ _ _ _ (by omega)] at step

theorem inBand_iff {factor : Rat} : inBand factor = true ↔
    -94890197 / 1000000000 ≤ factor ∧ factor ≤ -62006652 / 1000000000 := by
  unfold inBand
  rw [Bool.and_eq_true, decide_eq_true_iff, decide_eq_true_iff]

/-! ### The state machine (R106, R107) -/

section Decision

variable {c : Channel}

theorem decideTone_of_disabled (off : c.governing.toneBypass = false) : c.decideTone n = c.enterTone .listening := by
  unfold Channel.decideTone
  rw [off]
  rfl

theorem decideTone_of_enabled (on : c.governing.toneBypass = true) : c.decideTone n = c.toneEnabled (c.toneBlock n) := by
  unfold Channel.decideTone
  rw [if_pos on]

variable {b : ToneBlock}

theorem toneEnabled_of_listening (tone : c.tone = .listening) : c.toneEnabled b =
    if b.tonePresent then { c with tone := .tone, toneCount := 1, reversed := b.reversal } else c := by
  unfold Channel.toneEnabled
  rw [tone]

theorem toneEnabled_of_tone (tone : c.tone = .tone) : c.toneEnabled b =
    if !b.tonePresent then { c with tone := .listening, toneCount := 0, reversed := false }
    else if c.toneCount < 99 then { c with toneCount := c.toneCount + 1, reversed := c.reversed || b.reversal }
    else if c.reversed || b.reversal then c.enterTone .bypassFull
    else c.enterTone .bypassSuppressor := by
  unfold Channel.toneEnabled
  rw [tone]

theorem toneEnabled_of_bypassSuppressor (tone : c.tone = .bypassSuppressor) : c.toneEnabled b =
    if b.reversal then { c with tone := .bypassFull, quietCount := 0 } else c.quietStep b.quiet := by
  unfold Channel.toneEnabled
  rw [tone]

theorem toneEnabled_of_bypassFull (tone : c.tone = .bypassFull) : c.toneEnabled b = c.quietStep b.quiet := by
  unfold Channel.toneEnabled
  rw [tone]

/-- The quiet count in a bypass state: 63 quiet blocks on end return the channel to LISTENING (R107). -/
theorem quietStep_cases (c : Channel) (quiet : Bool) :
    if quiet = false then (c.quietStep quiet).tone = c.tone ∧ (c.quietStep quiet).quietCount = 0
    else if c.quietCount < 62 then
      (c.quietStep quiet).tone = c.tone ∧ (c.quietStep quiet).quietCount = c.quietCount + 1
    else (c.quietStep quiet).tone = .listening ∧ (c.quietStep quiet).quietCount = 0 := by
  unfold Channel.quietStep
  cases quiet with
  | false => exact ⟨rfl, rfl⟩
  | true =>
    by_cases few : c.quietCount < 62
    · simp [few, show ¬63 ≤ c.quietCount + 1 by omega]
    · simp [few, show 63 ≤ c.quietCount + 1 by omega]

/-- A channel with the fields that block measurements and DTD write (R91 to R101). -/
def Channel.withMeasurement (c : Channel) (peaks : List Lin) (talk : Bool) (hangover : Nat) (erle : Int)
    (r : Option BlockRecord) : Channel :=
  { c with peakHistory := peaks, doubleTalk := talk, hangover := hangover, erle := erle, blockRecord := r }

variable (peaks : List Lin) (talk : Bool) (hangover : Nat) (erle : Int) (r : Option BlockRecord)

theorem quietStep_withMeasurement (quiet : Bool) :
    (c.withMeasurement peaks talk hangover erle r).quietStep quiet =
      (c.quietStep quiet).withMeasurement peaks talk hangover erle r := by
  have count : (c.withMeasurement peaks talk hangover erle r).quietCount = c.quietCount := rfl
  unfold Channel.quietStep
  rw [count]
  split_ifs <;> rfl

theorem toneEnabled_withMeasurement :
    (c.withMeasurement peaks talk hangover erle r).toneEnabled b =
      (c.toneEnabled b).withMeasurement peaks talk hangover erle r := by
  have same : (c.withMeasurement peaks talk hangover erle r).tone = c.tone := rfl
  cases tone : c.tone with
  | listening =>
    rw [toneEnabled_of_listening tone, toneEnabled_of_listening (same.trans tone)]
    split_ifs <;> rfl
  | tone =>
    have count : (c.withMeasurement peaks talk hangover erle r).toneCount = c.toneCount := rfl
    have reversed : (c.withMeasurement peaks talk hangover erle r).reversed = c.reversed := rfl
    rw [toneEnabled_of_tone tone, toneEnabled_of_tone (same.trans tone), count, reversed]
    split_ifs <;> rfl
  | bypassSuppressor =>
    rw [toneEnabled_of_bypassSuppressor tone, toneEnabled_of_bypassSuppressor (same.trans tone),
      quietStep_withMeasurement]
    split_ifs <;> rfl
  | bypassFull =>
    rw [toneEnabled_of_bypassFull tone, toneEnabled_of_bypassFull (same.trans tone),
      quietStep_withMeasurement]

/-- TBD's decision reads nothing that block measurements and DTD write. -/
theorem decideTone_withMeasurement :
    (c.withMeasurement peaks talk hangover erle r).decideTone n =
      (c.decideTone n).withMeasurement peaks talk hangover erle r := by
  have same : (c.withMeasurement peaks talk hangover erle r).governing = c.governing := rfl
  cases on : c.governing.toneBypass with
  | false => rw [decideTone_of_disabled on, decideTone_of_disabled ((congrArg ConfigRecord.toneBypass same).trans on)]; rfl
  | true =>
    rw [decideTone_of_enabled on, decideTone_of_enabled ((congrArg ConfigRecord.toneBypass same).trans on), ← toneEnabled_withMeasurement]
    rfl

end Decision

/-- The tone fields after a closing block's boundary are those of TBD's decision: what comes after leaves them. -/
theorem boundaryWork_tone (mode : (s.channel n).governing.mode ≠ .off) :
    let c := s.channel n
    let d := (s.boundaryWork n).channel n
    d.tone = (c.decideTone n).tone ∧ d.toneCount = (c.decideTone n).toneCount ∧
      d.reversed = (c.decideTone n).reversed ∧ d.quietCount = (c.decideTone n).quietCount := by
  obtain ⟨_, _, _, _, _, _, _, _, _, _, _, opened⟩ := boundaryWork_channel_writes mode
  obtain ⟨_, decided⟩ := decisions_channel s n
  obtain ⟨-, -, -, ⟨tone, count, reversed, quiet⟩, -⟩ :=
    afterDecisions_fields (c := s.channel n) rfl rfl rfl rfl rfl rfl rfl
  obtain ⟨_, _, _, tested⟩ := testDoubleTalk_writes { s.channel n with
    erle := (s.channel n).measured.erle, blockRecord := some (s.channel n).measured } _ (s.channel n).measured
  have same := decideTone_withMeasurement (c := s.channel n) (n := n)
  unfold Channel.withMeasurement at same
  rw [tested, same] at tone count reversed quiet
  dsimp only
  rw [opened]
  dsimp only
  rw [decided]
  exact ⟨tone, count, reversed, quiet⟩

theorem boundaryWork_reports_tone (mode : (s.channel n).governing.mode ≠ .off)
    (moves : ((s.boundaryWork n).channel n).tone ≠ (s.channel n).tone)
    (bypass : Tone.isBypass (s.channel n).tone = true ∨ Tone.isBypass ((s.boundaryWork n).channel n).tone = true) :
    s.Reported (s.boundaryWork n) n (.toneBypass n ((s.boundaryWork n).channel n).tone) := by
  obtain ⟨_, _, _, _, _, _, _, _, _, _, _, opened⟩ := boundaryWork_channel_writes mode
  have kept : ((s.boundaryWork n).channel n).tone = ((s.decisions n).channel n).tone := by rw [opened]
  rw [kept] at moves bypass ⊢
  have isBypass : ∀ t : Tone, Tone.isBypass t = true ↔ t = .bypassSuppressor ∨ t = .bypassFull := by
    intro t
    cases t <;> decide
  rw [isBypass, isBypass, or_assoc] at bypass
  refine boundaryWork_reports mode (decisions_raises s n) ?_ (length_five_events_le (length_ite_singleton_le _ _)
    (length_ite_singleton_le _ _) (length_ite_singleton_le _ _) (limitEvents_length ..) (limitEvents_length ..))
  refine List.mem_append_left _ (List.mem_append_left _ (List.mem_append_left _ (List.mem_append_left _ ?_)))
  rw [if_pos ⟨moves, bypass⟩]
  exact List.mem_singleton.2 rfl

/-- Settles O17: the measurements, those of a tone of the band, and the state machine with its report. -/
theorem toneStateAtBoundary : Obligations.ToneStateAtBoundary := by
  unfold Obligations.ToneStateAtBoundary
  simp only [← directionLevel_eq]
  refine ⟨fun n block send before samples => ?_, fun s n closes => ?_⟩
  case refine_1 =>
    refine ⟨carriesTone_iff, fun reversal => (toneMeasure_reversal_iff.1 reversal).1,
      fun cosine low high isTone sounds => ?_⟩
    have band := inBand_iff.2 ⟨low, high⟩
    obtain ⟨i, inside, sounding⟩ := sounds
    have tone : IsTone cosine samples := isTone
    refine ⟨tone.toneBandLevel band i inside sounding n block send,
      tone.carriesTone band i inside sounding block send, fun silent => ?_, fun sounded loudBefore loud => ?_⟩
    · rw [← Bool.not_eq_true, toneMeasure_reversal_iff,
        tone.toneReversal band i inside sounding n block send before silent]
      simp
    · obtain ⟨j, insideBefore, soundingBefore⟩ := sounded
      have carries := tone.carriesTone (n := n) band i inside sounding block send loud
      have across : ∀ sign : Rat, sign = 1 ∨ sign = -1 → IsTone cosine (before ++ samples.map (sign * ·)) →
          toneReversal n block send before samples = decide (sign = -1) := fun sign signed whole =>
        IsTone.toneReversal_across signed whole tone band i inside sounding whole.append_left j insideBefore
          soundingBefore n block send
          (whole.append_left.carriesTone band j insideBefore soundingBefore (block - 1) send loudBefore)
      refine ⟨fun goesOn => ?_, fun negated => ?_⟩
      · have whole : IsTone cosine (before ++ samples.map ((1 : Rat) * ·)) := by
          simp only [one_mul, List.map_id']
          exact goesOn
        rw [← Bool.not_eq_true, toneMeasure_reversal_iff, across 1 (.inl rfl) whole]
        norm_num
      · have whole : IsTone cosine (before ++ samples.map ((-1 : Rat) * ·)) := by
          simp only [neg_one_mul]
          exact negated
        rw [toneMeasure_reversal_iff, across (-1) (.inr rfl) whole]
        exact ⟨carries, rfl⟩
  case refine_2 =>
    have mode := closes.mode
    obtain ⟨tone, count, reversed, quiet⟩ := boundaryWork_tone mode
    have reports := boundaryWork_reports_tone mode
    refine ⟨s.boundaryWork n, exec_blockBoundary closes, ?_⟩
    generalize (s.boundaryWork n).channel n = d at tone count reversed quiet reports ⊢
    rw [tone, count, reversed, quiet]
    rw [tone] at reports
    refine ⟨Bool.or_eq_true_iff, Bool.or_eq_true_iff, fun rev => ?_, ?_, fun off => ?_, fun on => ?_, reports⟩
    · exact Bool.or_eq_true_iff.2 ((Bool.or_eq_true_iff.1 rev).imp (fun r => (toneMeasure_reversal_iff.1 r).1)
        fun r => (toneMeasure_reversal_iff.1 r).1)
    · exact Bool.and_eq_true_iff.trans (and_congr decide_eq_true_iff decide_eq_true_iff)
    · rw [decideTone_of_disabled off]
      exact ⟨rfl, rfl, rfl, rfl⟩
    · rw [decideTone_of_enabled on]
      generalize (s.channel n).toneBlock n = b
      refine ⟨fun listening => ?_, fun tone => ?_, fun suppressor => ?_, fun full => ?_⟩
      · rw [toneEnabled_of_listening listening]
        cases b.tonePresent with
        | true => exact ⟨rfl, rfl, rfl⟩
        | false => exact ⟨listening, rfl⟩
      · rw [toneEnabled_of_tone tone]
        cases b.tonePresent with
        | false => exact ⟨rfl, rfl, rfl⟩
        | true =>
          by_cases few : (s.channel n).toneCount < 99
          · rw [if_neg (by decide), if_pos few, if_neg (by decide), if_pos few]
            exact ⟨tone, rfl, rfl⟩
          · rw [if_neg (by decide), if_neg few, if_neg (by decide), if_neg few]
            simp only [← Bool.or_eq_true]
            split <;> exact ⟨rfl, rfl, rfl, rfl⟩
      · rw [toneEnabled_of_bypassSuppressor suppressor]
        cases b.reversal with
        | true => exact ⟨rfl, rfl⟩
        | false => exact quietStep_cases _ _
      · rw [toneEnabled_of_bypassFull full]
        exact quietStep_cases _ _

end Sys2Proof.Machine
end

section
/-! PROOF. The end of a segment clear: the segment, the entry's progress, and the selection, the suspension or the exhausted
batch that follows (R64 to R67, R70, R75, R123). -/

namespace Sys2Proof.Machine

variable {s t u : State} {k : Clear} {e : BatchEntry} {n : ChannelNo}

/-! ### Entries of a batch that holds no list twice (R60) -/

theorem entry_eq_of_list {batch : List BatchEntry} (distinct : (batch.map BatchEntry.list).Nodup) {x y : BatchEntry}
    (hx : x ∈ batch) (hy : y ∈ batch) (same : x.list = y.list) : x = y :=
  List.inj_on_of_nodup_map distinct hx hy same

/-- The entry of a clear in progress is unfinished, and the engine is RUNNING or SUSPENDING (R59). -/
theorem clearing_entry (inv : s.pge.Inv) (clearing : s.pge.clear = some k) (member : e ∈ s.pge.batch)
    (list : e.list = k.list) :
    e.finished = false ∧ (s.pge.engine = .running ∨ s.pge.engine = .suspending) := by
  obtain ⟨-, distinct, follows⟩ := inv
  have works (working : ∃ k', s.pge.clear = some k' ∧ ∃ x ∈ s.pge.batch, x.list = k'.list ∧ x.finished = false) :
      e.finished = false := by
    obtain ⟨k', clearing', x, member', list', unfinished⟩ := working
    obtain rfl := Option.some.inj (clearing.symm.trans clearing')
    rw [entry_eq_of_list distinct member member' (list.trans list'.symm)]
    exact unfinished
  cases engine : s.pge.engine <;> rw [engine] at follows
  case idle => rw [clearing] at follows; cases follows.2.1
  case gathering => rw [clearing] at follows; cases follows.2.2.1
  case running => exact ⟨works follows.2.2, .inl rfl⟩
  case suspending => exact ⟨works follows.2.2, .inr rfl⟩
  case suspended => rw [clearing] at follows; cases follows.1

/-- A batch with the progress of one list set. -/
def progressTo (c : ChainCode) (progress : Nat) (batch : List BatchEntry) : List BatchEntry :=
  batch.map fun x => if x.list = c then { x with progress := progress } else x

section Progress

variable {c : ChainCode} {progress : Nat} {batch : List BatchEntry}

theorem progressTo_lists : (progressTo c progress batch).map BatchEntry.list = batch.map BatchEntry.list := by
  unfold progressTo
  rw [List.map_map]
  refine List.map_congr_left fun x _ => ?_
  simp only [Function.comp]
  split <;> rfl

theorem mem_progressTo (member : e ∈ batch) (list : e.list = c) :
    { e with progress := progress } ∈ progressTo c progress batch :=
  List.mem_map.2 ⟨e, member, if_pos list⟩

theorem progressTo_own (distinct : (batch.map BatchEntry.list).Nodup) (member : e ∈ batch) (list : e.list = c) :
    progressTo c e.progress batch = batch := by
  unfold progressTo
  conv_rhs => rw [← List.map_id batch]
  refine List.map_congr_left fun x other => ?_
  split
  · next same => rw [entry_eq_of_list distinct other member (same.trans list.symm)]; rfl
  · rfl

theorem find?_unfinished_progressTo (first : batch.find? (fun x => !x.finished) = some e) (list : e.list = c) :
    (progressTo c progress batch).find? (fun x => !x.finished) = some { e with progress := progress } := by
  unfold progressTo
  rw [List.find?_map]
  have same : ((fun x : BatchEntry => !x.finished) ∘ fun x : BatchEntry =>
      if x.list = c then { x with progress := progress } else x) = fun x => !x.finished := by
    funext x
    simp only [Function.comp]
    split <;> rfl
  rw [same, first, Option.map_some, if_pos list]

end Progress

/-! ### The end of the clear on its target and its entry (R65) -/

/-- The state with a clear ended: its entry has come to some progress. -/
def State.cleared (s : State) (k : Clear) (progress : Nat) : State :=
  { s with
    segments := (s.endClear k).segments
    pge := { s.pge with batch := progressTo k.list progress s.pge.batch, clear := none } }

theorem endClear_eq_cleared (distinct : (s.pge.batch.map BatchEntry.list).Nodup) (member : e ∈ s.pge.batch)
    (list : e.list = k.list) (unfinished : e.finished = false) :
    s.endClear k = s.cleared k (if k.disturbed then e.progress else e.progress + 1) := by
  have batch : (if k.disturbed then s.pge.batch
      else s.pge.batch.map fun e =>
        if e.list = k.list ∧ e.finished = false then { e with progress := e.progress + 1 } else e) =
      progressTo k.list (if k.disturbed then e.progress else e.progress + 1) s.pge.batch := by
    cases k.disturbed with
    | true => exact (progressTo_own distinct member list).symm
    | false =>
      refine List.map_congr_left fun x other => ?_
      by_cases same : x.list = k.list
      · obtain rfl := entry_eq_of_list distinct other member (same.trans list.symm)
        rw [if_pos ⟨same, unfinished⟩, if_pos same]
        rfl
      · rw [if_neg fun both => same both.1, if_neg same]
  have pge : (s.endClear k).pge = (s.cleared k (if k.disturbed then e.progress else e.progress + 1)).pge := by
    unfold State.cleared
    rw [← batch]
    unfold State.endClear
    split <;> rfl
  apply State.eq_of_fields
  case pge => exact pge
  case segments => rfl
  all_goals simp only [endClear_frame, State.cleared]

theorem endClear_segments : (s.endClear k).segments =
    (if k.segment ∈ s.chain k.list then s.modSegment k.segment (·.zero) else s).segments := rfl

theorem endClear_segment_ne {h : SegNo} (other : h ≠ k.segment) : (s.endClear k).segment h = s.segment h := by
  unfold State.segment
  rw [endClear_segments]
  split
  · exact segment_modSegment_ne (s := s) other _
  · rfl

theorem endClear_segment (listed : k.segment ∈ s.chain k.list) :
    (s.endClear k).segment k.segment = (s.segment k.segment).zero := by
  unfold State.segment
  rw [endClear_segments, if_pos listed]
  exact segment_modSegment (s := s) _ _

theorem endClear_segments_of_not_mem (unlisted : k.segment ∉ s.chain k.list) : (s.endClear k).segments = s.segments := by
  rw [endClear_segments, if_neg unlisted]

/-! ### The entry finishes, or does not (R65, R66) -/

/-- What finishes is an entry's list, with its requesters. -/
theorem finishEntry_progress (s : State) (e : BatchEntry) (progress : Nat) :
    s.finishEntry { e with progress := progress } = s.finishEntry e := rfl

section Finish

variable (distinct : (s.pge.batch.map BatchEntry.list).Nodup) (member : e ∈ s.pge.batch) (unfinished : e.finished = false)
include distinct member unfinished

theorem finishIfDone_eq : s.finishIfDone e.list =
    if (s.chain e.list).length ≤ e.progress then s.finishEntry e else s := by
  have found : s.pge.batch.find? (fun x => decide (x.list = e.list) && !x.finished) = some e := by
    cases sought : s.pge.batch.find? (fun x => decide (x.list = e.list) && !x.finished) with
    | none => exact absurd (List.find?_eq_none.1 sought e member) (by simp [unfinished])
    | some x =>
      have same : (decide (x.list = e.list) && !x.finished) = true :=
        List.find?_some (p := fun x : BatchEntry => decide (x.list = e.list) && !x.finished) sought
      rw [entry_eq_of_list distinct (List.mem_of_find?_eq_some sought) member
        (of_decide_eq_true (Bool.and_eq_true_iff.1 same).1)]
  unfold State.finishIfDone
  rw [found]

end Finish

theorem finishEntry_unfinished {c : ChainCode} :
    (s.finishEntry e).unfinished c = true ↔ s.unfinished c = true ∧ c ≠ e.list := by
  obtain ⟨-, -, pge⟩ := finishEntry_finishes s e
  rw [unfinished_iff, unfinished_iff, pge]
  refine ⟨?_, ?_⟩
  · rintro ⟨y, member, rfl, left⟩
    obtain ⟨x, old, rfl⟩ := List.mem_map.1 member
    split at left
    · cases left
    · next other => rw [if_neg other]; exact ⟨⟨x, old, rfl, left⟩, other⟩
  · rintro ⟨⟨x, old, rfl, left⟩, other⟩
    exact ⟨x, List.mem_map.2 ⟨x, old, if_neg other⟩, rfl, left⟩

/-- The record of a finished entry stands in every queue it reaches that has room (R66, R173). -/
theorem finishEntry_reports (p : Plane) (reaches : PurgeDoneReaches e.requesters (s.holder e.list) p)
    (room : (s.port p).queue.entries.length ≤ 62) :
    s.purgeDoneOf e ∈ ((s.finishEntry e).port p).queue.entries := by
  obtain ⟨⟨-, ports⟩, -, -⟩ := finishEntry_finishes s e
  have stored : ((s.port p).queue.arrive (s.purgeDoneOf e)).entries = (s.port p).queue.entries ++ [s.purgeDoneOf e] :=
    if_pos (by omega)
  have queue : s.queueAfter p [e] = (s.port p).queue.arrive (s.purgeDoneOf e) := if_pos reaches
  rw [ports p, queue]
  dsimp only
  rw [stored]
  exact List.mem_append_right _ (List.mem_singleton.2 rfl)

/-! ### What follows (R65, R70) -/

theorem afterClear_of_running (running : s.pge.engine = .running) : s.afterClear = s.select := by
  unfold State.afterClear
  rw [running]

theorem afterClear_of_suspending (suspending : s.pge.engine = .suspending) : s.afterClear =
    if ∃ x ∈ s.pge.batch, x.finished = false then
      { s with pge := { s.pge with engine := .suspended, suspendTimer := true } }
    else s.exhaust := by
  have some_left : s.firstUnfinished.isSome = true ↔ ∃ x ∈ s.pge.batch, x.finished = false := by
    simp [State.firstUnfinished]
  unfold State.afterClear
  rw [suspending]
  simp only [some_left]

theorem afterClear_grows (s : State) : s.QueuesGrow s.afterClear := by
  unfold State.afterClear
  split
  · exact selectNext_grows _ s
  · split
    · exact .of_queues ⟨rfl, rfl⟩
    · exact .of_queues (by simp)
  all_goals exact .refl s

/-- A record that stands in a queue stands there after further arrivals (R173). -/
theorem State.QueuesGrow.mem (grow : s.QueuesGrow t) {p : Plane} {r : EventRecord}
    (member : r ∈ (s.port p).queue.entries) : r ∈ (t.port p).queue.entries := by
  generalize (t.port p).queue = q, grow p = grown
  induction grown with
  | refl => exact member
  | tail _ arrival ih =>
    obtain ⟨x, -, rfl⟩ := arrival
    have kept : ∀ l : List EventRecord, r ∈ l → r ∈ storeRecord x l := by
      intro l old
      unfold storeRecord
      split_ifs
      · exact List.mem_append_left _ old
      · exact List.mem_append_left _ old
      · exact old
    exact kept _ ih

/-! ### Channels that no longer wait for a purge (R66, R67) -/

theorem exhaust_channel (owed : (s.channel n).owed = false) : s.exhaust.channel n = s.channel n := by
  obtain ⟨-, -, channels⟩ := (exhaust_exhausts s).2
  rw [channels n, channelAfter_nil, owed, Bool.false_and]
  conv_rhs => rw [← (show ({ s.channel n with owed := (s.channel n).owed } : Channel) = s.channel n from rfl), owed]

theorem selectNext_channel (fuel : Nat) (owed : (s.channel n).owed = false)
    (left : s.unfinished (channelCode n) = false) : (s.selectNext fuel).channel n = s.channel n := by
  induction fuel generalizing s with
  | zero => rfl
  | succ fuel ih =>
    unfold State.selectNext
    cases first : s.firstUnfinished with
    | none => exact exhaust_channel owed
    | some x =>
      dsimp only
      split
      · obtain ⟨-, channels, -⟩ := finishEntry_finishes s x
        have other : x.list ≠ channelCode n := by
          intro named
          have waits : s.unfinished (channelCode n) = true :=
            (unfinished_iff _ _).2 ⟨x, List.mem_of_find?_eq_some first, named, by simpa using List.find?_some first⟩
          rw [left] at waits
          cases waits
        have same : (s.finishEntry x).channel n = s.channel n := by
          rw [channels n]
          unfold State.channelAfter
          rw [if_neg]
          rintro ⟨⟨y, member, named⟩, -⟩
          rw [List.mem_singleton.1 member] at named
          exact other named
        rw [ih (by rw [same]; exact owed) ?_, same]
        rw [← Bool.not_eq_true, finishEntry_unfinished, left]
        simp
      · rfl

theorem afterClear_channel (owed : (s.channel n).owed = false) (left : s.unfinished (channelCode n) = false) :
    s.afterClear.channel n = s.channel n := by
  unfold State.afterClear
  split
  · exact selectNext_channel _ owed left
  · split
    · rfl
    · exact exhaust_channel owed
  all_goals rfl

end Sys2Proof.Machine
end

section
/-! PROOF. The whole event at the end of a segment clear (R65, R66, R70), over its parts. -/

namespace Sys2Proof.Machine

variable {s t : State} {k : Clear} {e : BatchEntry} {n : ChannelNo}

/-- The progress of a clear's entry once the clear ends: one more, unless a structural event has reset it (R65). -/
def Clear.progress (k : Clear) (e : BatchEntry) : Nat := if k.disturbed then e.progress else e.progress + 1

/-- The unfinished entries that the clear's entry leaves. -/
theorem finished_left_iff (list : e.list = k.list) :
    (∃ x ∈ ((s.cleared k (k.progress e)).finishEntry e).pge.batch, x.finished = false) ↔
      ∃ x ∈ s.pge.batch, x.list ≠ k.list ∧ x.finished = false := by
  obtain ⟨-, -, pge⟩ := finishEntry_finishes (s.cleared k (k.progress e)) e
  rw [pge]
  simp only [finishList, State.cleared, progressTo, List.mem_map, list]
  constructor
  · rintro ⟨_, ⟨_, ⟨x, old, rfl⟩, rfl⟩, left⟩
    by_cases same : x.list = k.list
    · simp [same] at left
    · rw [if_neg same, if_neg same] at left
      exact ⟨x, old, same, left⟩
  · rintro ⟨x, old, other, left⟩
    exact ⟨x, ⟨x, ⟨x, old, if_neg other⟩, if_neg other⟩, left⟩

/-- The channel of a finished list with nothing owed leaves RESTARTING. -/
theorem channelAfter_own (list : e.list = channelCode n) (owed : (s.channel n).owed = false) :
    s.channelAfter n [e] = (s.channel n).leaveRestarting := by
  have free : ¬(s.channel n).owed = true := by rw [owed]; decide
  unfold State.channelAfter Channel.leaveRestarting
  rw [if_pos ⟨⟨e, List.mem_singleton.2 rfl, list⟩, owed⟩, if_neg free]

section Clearing

variable (inv : s.pge.Inv) (clearing : s.pge.clear = some k) (member : e ∈ s.pge.batch) (list : e.list = k.list)
include inv clearing member list

theorem clearEnd_eq : s.clearEnd = State.afterClear
    (if (s.chain k.list).length ≤ k.progress e then (s.cleared k (k.progress e)).finishEntry e
      else s.cleared k (k.progress e)) := by
  obtain ⟨unfinished, -⟩ := clearing_entry inv clearing member list
  have ⟨_, distinct, _⟩ := inv
  have ended : s.endClear k = s.cleared k (k.progress e) := endClear_eq_cleared distinct member list unfinished
  have lists : ((s.cleared k (k.progress e)).pge.batch.map BatchEntry.list).Nodup := by
    rw [State.cleared, progressTo_lists]
    exact distinct
  have finish := finishIfDone_eq lists (mem_progressTo member list) unfinished
  rw [finishEntry_progress] at finish
  unfold State.clearEnd
  rw [clearing]
  dsimp only
  rw [ended, ← list, finish]
  rfl

theorem clearEnd_selects (running : s.pge.engine = .running)
    (first : s.pge.batch.find? (fun x => !x.finished) = some e) :
    (s.cleared k (k.progress e)).Selects s.clearEnd := by
  have ⟨_, distinct, _⟩ := inv
  have lists : ((s.cleared k (k.progress e)).pge.batch.map BatchEntry.list).Nodup := by
    rw [State.cleared, progressTo_lists]
    exact distinct
  rw [clearEnd_eq inv clearing member list]
  split
  · next done =>
    obtain ⟨-, -, pge⟩ := finishEntry_finishes (s.cleared k (k.progress e)) e
    have after : State.afterClear ((s.cleared k (k.progress e)).finishEntry e) =
        (s.cleared k (k.progress e)).selectNext ((s.cleared k (k.progress e)).pge.batch.length + 2) := by
      have found : (s.cleared k (k.progress e)).firstUnfinished = some { e with progress := k.progress e } :=
        find?_unfinished_progressTo first list
      have passed : ((s.cleared k (k.progress e)).chain e.list)[k.progress e]? = none := by
        rw [list]
        exact List.getElem?_eq_none done
      rw [afterClear_of_running (by rw [pge]; exact running), State.select, pge]
      conv_rhs => rw [State.selectNext, found]
      dsimp only
      rw [passed, finishList, List.length_map]
      rfl
    rw [after]
    exact selectNext_selects _ _ (by omega) lists
  · rw [afterClear_of_running (by exact running)]
    exact select_selects _ lists

theorem clearEnd_of_suspending_left (suspending : s.pge.engine = .suspending)
    (left : k.progress e < (s.chain k.list).length) : s.clearEnd =
      { s with
        segments := (s.endClear k).segments
        pge := { s.pge with
          engine := .suspended, batch := progressTo k.list (k.progress e) s.pge.batch, clear := none
          suspendTimer := true } } := by
  obtain ⟨unfinished, -⟩ := clearing_entry inv clearing member list
  rw [clearEnd_eq inv clearing member list, if_neg (by omega), afterClear_of_suspending (by exact suspending),
    if_pos ⟨_, mem_progressTo member list, unfinished⟩]
  rfl

theorem clearEnd_of_suspending_done (suspending : s.pge.engine = .suspending)
    (done : (s.chain k.list).length ≤ k.progress e) :
    (s.cleared k (k.progress e)).EntriesFinish s.clearEnd [e] ∧
      ((∃ x ∈ s.pge.batch, x.list ≠ k.list ∧ x.finished = false) →
        (∀ n, s.clearEnd.channel n = (s.cleared k (k.progress e)).channelAfter n [e]) ∧
        s.clearEnd.pge = { s.pge with
          engine := .suspended, clear := none, suspendTimer := true
          batch := finishList k.list (progressTo k.list (k.progress e) s.pge.batch) }) ∧
      ((∀ x ∈ s.pge.batch, x.list ≠ k.list → x.finished = true) →
        (s.cleared k (k.progress e)).Exhausts s.clearEnd [e]) := by
  obtain ⟨finishes, channels, pge⟩ := finishEntry_finishes (s.cleared k (k.progress e)) e
  have engine : ((s.cleared k (k.progress e)).finishEntry e).pge.engine = .suspending := by rw [pge]; exact suspending
  rw [clearEnd_eq inv clearing member list, if_pos done, afterClear_of_suspending engine]
  simp only [finished_left_iff list]
  by_cases others : ∃ x ∈ s.pge.batch, x.list ≠ k.list ∧ x.finished = false
  · rw [if_pos others]
    refine ⟨⟨?_, finishes.2⟩, fun _ => ⟨channels, ?_⟩, fun none => ?_⟩
    · rw [finishes.1]
    · rw [pge, list]
      rfl
    · obtain ⟨x, old, other, left⟩ := others
      rw [none x old other] at left
      cases left
  · rw [if_neg others]
    obtain ⟨kept, exhausts⟩ := exhaust_exhausts ((s.cleared k (k.progress e)).finishEntry e)
    exact ⟨finishes.trans kept, fun some => absurd some others, fun _ => Exhausts_cons pge channels exhausts⟩

/-! ### The finished list (R66, R75, R88, R123) -/

theorem clearEnd_reports (done : (s.chain k.list).length ≤ k.progress e) (p : Plane)
    (reaches : PurgeDoneReaches e.requesters (s.holder k.list) p) (room : (s.port p).queue.entries.length ≤ 62) :
    s.purgeDoneOf e ∈ (s.clearEnd.port p).queue.entries := by
  rw [clearEnd_eq inv clearing member list, if_pos done]
  rw [← list] at reaches
  exact (afterClear_grows _).mem (finishEntry_reports (s := s.cleared k (k.progress e)) p reaches room)

theorem clearEnd_channel (done : (s.chain k.list).length ≤ k.progress e) (own : channelCode n = k.list)
    (owed : (s.channel n).owed = false) :
    s.clearEnd.channel n = (s.channel n).leaveRestarting ∧ s.clearEnd.canceller n ≠ .restarting := by
  obtain ⟨-, channels, -⟩ := finishEntry_finishes (s.cleared k (k.progress e)) e
  have channel : ((s.cleared k (k.progress e)).finishEntry e).channel n = (s.channel n).leaveRestarting := by
    rw [channels n, channelAfter_own (list.trans own.symm) (by exact owed)]
    rfl
  have settled : ((s.cleared k (k.progress e)).finishEntry e).unfinished (channelCode n) = false := by
    rw [← Bool.not_eq_true, finishEntry_unfinished, own, list]
    exact fun both => both.2 rfl
  have stillOwed : (((s.cleared k (k.progress e)).finishEntry e).channel n).owed = false := by
    rw [channels n, channelAfter_owed]
    exact owed
  rw [clearEnd_eq inv clearing member list, if_pos done]
  refine ⟨(afterClear_channel stillOwed settled).trans channel, fun restarting => ?_⟩
  have waits := (restarting_iff _ _).1 (afterClear_settles _ n restarting).1
  rw [settled, stillOwed] at waits
  simp at waits

end Clearing

theorem clearEnd_segments (s : State) (k : Clear) (clearing : s.pge.clear = some k) :
    s.clearEnd.segments = (s.endClear k).segments := by
  unfold State.clearEnd
  rw [clearing]
  simp only [afterClear_frame, finishIfDone_frame]

/-- Settles O48: the segment, the selection or the suspension, and the finished list's record and channel. -/
theorem segmentClearEnd : Obligations.SegmentClearEnd := by
  unfold Obligations.SegmentClearEnd
  intro s k e inv clearing member list
  have segments := clearEnd_segments s k clearing
  refine ⟨s.clearEnd, rfl, fun listed => ?_, fun unlisted => ?_, fun h other => ?_, ?_, ?_⟩
  · unfold State.segment
    rw [segments]
    exact endClear_segment listed
  · rw [segments, endClear_segments_of_not_mem unlisted]
  · unfold State.segment
    rw [segments]
    exact endClear_segment_ne other
  · unfold State.clearEnd
    rw [clearing]
    apply State.eq_of_fields <;> simp only [afterClear_frame, finishIfDone_frame, endClear_frame]
  · rw [segments]
    refine ⟨fun running first => clearEnd_selects inv clearing member list running first,
      fun suspending => ⟨fun left => ?_, fun done =>
        clearEnd_of_suspending_done inv clearing member list suspending done⟩,
      fun done => ⟨fun p reaches room => ?_, fun n own owed => ?_⟩⟩
    · rw [clearEnd_of_suspending_left inv clearing member list suspending left]
      exact ⟨rfl, rfl, rfl, rfl⟩
    · exact clearEnd_reports inv clearing member list done p reaches (by omega)
    · obtain ⟨channel, leaves⟩ := clearEnd_channel inv clearing member list done own owed
      rw [channel, Channel.leaveRestarting, if_neg (by rw [owed]; decide)]
      by_cases diverged : (s.channel n).divState = .diverged
      · rw [if_pos diverged]
        exact ⟨rfl, leaves, fun _ => ⟨rfl, rfl⟩, fun other => absurd diverged other, rfl⟩
      · rw [if_neg diverged]
        exact ⟨rfl, leaves, fun other => absurd other diverged, fun _ => rfl, rfl⟩

end Sys2Proof.Machine
end

section
/-! PROOF. The companding laws: the table of magnitudes, and the code that is sent for a rational value (R77). -/

namespace Sys2Proof.Machine

variable {law : Law} {x y : Rat}

/-! ### Sums that are rational -/

theorem linRat_eq (q : Rat) : linRat q = if q = 0 then [] else [(0, q)] := by
  have one : pow10 (0 / 200) = 1 := by norm_num [pow10]
  unfold linRat linMono linInsert
  rw [one, mul_one]
  rfl

theorem linNeg_linRat (q : Rat) : linNeg (linRat q) = linRat (-q) := by
  unfold linNeg linScale
  rw [if_neg (by norm_num), linRat_eq, linRat_eq]
  by_cases zero : q = 0
  · simp [zero]
  · simp [zero]

theorem linAdd_linRat (x y : Rat) : linAdd (linRat x) (linRat y) = linRat (x + y) := by
  rw [linRat_eq, linRat_eq, linRat_eq]
  unfold linAdd
  by_cases zero : x = 0
  · simp [zero]
  by_cases zero' : y = 0
  · simp [zero, zero', linInsert]
  · simp [zero, zero', linInsert]

theorem linSign_linRat (q : Rat) : linSign (linRat q) = if 0 < q then 1 else if q < 0 then -1 else 0 := by
  rw [linRat_eq]
  by_cases zero : q = 0
  · simp [zero, linSign]
  · rw [if_neg zero]; rfl

theorem linSign_linRat_pos_iff {q : Rat} : 0 < linSign (linRat q) ↔ 0 < q := by
  rw [linSign_linRat]
  split_ifs with positive negative <;> simp [positive]

theorem linLt_linRat (x y : Rat) : linLt (linRat x) (linRat y) = decide (x < y) := by
  unfold linLt linSub
  rw [linNeg_linRat, linAdd_linRat]
  exact decide_eq_decide.2 (linSign_linRat_pos_iff.trans (by constructor <;> intro h <;> linarith))

theorem linAbs_linRat (x : Rat) : linAbs (linRat x) = linRat |x| := by
  unfold linAbs
  rw [linSign_linRat]
  obtain positive | rfl | negative := lt_trichotomy 0 x
  · rw [if_pos positive, if_neg (by decide), abs_of_pos positive]
  · simp
  · rw [if_neg negative.le.not_gt, if_pos negative, if_pos (by decide), linNeg_linRat, abs_of_neg negative]

/-! ### The table of magnitudes -/

/-- The magnitude of an index over no scale: the two codes of magnitude 1 under A-law have 0. -/
def tableMagnitude (law : Law) (i : Nat) : Nat :=
  if law = .aLaw ∧ lawMagnitude law (i / 16) (i % 16) = 1 then 0 else lawMagnitude law (i / 16) (i % 16)

theorem expandedMagnitude_eq (law : Law) (i : Nat) :
    expandedMagnitude law i = (tableMagnitude law i : Rat) / (lawFullScale law : Rat) := by
  unfold expandedMagnitude tableMagnitude
  dsimp only
  split
  · rw [Nat.cast_zero, zero_div]
  · rfl

theorem lawFullScale_pos (law : Law) : (0 : Rat) < lawFullScale law := by
  cases law <;> norm_num [lawFullScale]

theorem expandedMagnitude_zero (law : Law) : expandedMagnitude law 0 = 0 := by
  cases law <;> norm_num [expandedMagnitude, lawMagnitude]

/-- The table grows from each index to the next. -/
theorem tableMagnitude_lt_succ (law : Law) : ∀ i < 127, tableMagnitude law i < tableMagnitude law (i + 1) := by
  cases law <;> decide

theorem tableMagnitude_lt {i j : Nat} (below : i < j) (last : j ≤ 127) :
    tableMagnitude law i < tableMagnitude law j := by
  induction j, below using Nat.le_induction with
  | base => exact tableMagnitude_lt_succ law i (by omega)
  | succ j _ ih => exact (ih (by omega)).trans (tableMagnitude_lt_succ law j (by omega))

theorem expandedMagnitude_lt {i j : Nat} (below : i < j) (last : j ≤ 127) :
    expandedMagnitude law i < expandedMagnitude law j := by
  rw [expandedMagnitude_eq, expandedMagnitude_eq]
  exact div_lt_div_of_pos_right (by exact_mod_cast tableMagnitude_lt below last) (lawFullScale_pos law)

theorem expandedMagnitude_le {i j : Nat} (below : i ≤ j) (last : j ≤ 127) :
    expandedMagnitude law i ≤ expandedMagnitude law j := by
  obtain rfl | below := Nat.eq_or_lt_of_le below
  · exact le_rfl
  · exact (expandedMagnitude_lt below last).le

theorem expandedMagnitude_nonneg (law : Law) (i : Nat) : 0 ≤ expandedMagnitude law i := by
  rw [expandedMagnitude_eq]
  exact div_nonneg (Nat.cast_nonneg _) (lawFullScale_pos law).le

theorem expandedMagnitude_eq_zero_iff {i : Nat} (last : i ≤ 127) : expandedMagnitude law i = 0 ↔ i = 0 := by
  constructor
  · intro zero
    by_contra later
    have := expandedMagnitude_lt (law := law) (Nat.pos_of_ne_zero later) last
    rw [zero, expandedMagnitude_zero] at this
    exact lt_irrefl _ this
  · rintro rfl
    exact expandedMagnitude_zero law

/-! ### The nearest magnitude -/

/-- Half way between the magnitudes of an index and the one before. -/
def midpoint (law : Law) (i : Nat) : Rat := (expandedMagnitude law (i - 1) + expandedMagnitude law i) / 2

theorem midpoint_le {i j : Nat} (below : i ≤ j) (last : j ≤ 127) : midpoint law i ≤ midpoint law j := by
  have first := expandedMagnitude_le (law := law) (show i - 1 ≤ j - 1 by omega) (by omega)
  have second := expandedMagnitude_le (law := law) below last
  unfold midpoint
  linarith

theorem nearestIndex_eq {i : Nat} (last : i ≤ 127) (above : ∀ j, 0 < j → j ≤ i → midpoint law j < x)
    (below : ∀ j, i < j → j ≤ 127 → x ≤ midpoint law j) : nearestIndex law (linRat x) = i := by
  refine searchTop_eq (fun j positive few => ?_) (Nat.zero_le _) (by omega)
  rw [linLt_linRat, decide_eq_true_iff]
  refine ⟨fun less => ?_, fun le => above j positive le⟩
  by_contra more
  exact absurd less (not_lt.2 (below j (by omega) (by omega)))

/-- The index that is found: x stands above the midpoints up to it and not above those after it. -/
theorem nearestIndex_spec (law : Law) (x : Rat) : nearestIndex law (linRat x) ≤ 127 ∧
    (∀ j, 0 < j → j ≤ nearestIndex law (linRat x) → midpoint law j < x) ∧
      ∀ j, nearestIndex law (linRat x) < j → j ≤ 127 → x ≤ midpoint law j := by
  let i := Nat.findGreatest (fun j => midpoint law j < x) 127
  have last : i ≤ 127 := Nat.findGreatest_le 127
  have above : ∀ j, 0 < j → j ≤ i → midpoint law j < x := fun j positive le =>
    (midpoint_le le last).trans_lt (Nat.findGreatest_of_ne_zero (P := fun j => midpoint law j < x) rfl (by omega))
  have below : ∀ j, i < j → j ≤ 127 → x ≤ midpoint law j := fun j later few =>
    not_lt.1 (Nat.findGreatest_is_greatest later few)
  rw [nearestIndex_eq last above below]
  exact ⟨last, above, below⟩

/-- No magnitude is nearer than that of the index found, and one equally near is no smaller. -/
theorem nearestIndex_nearest {j : Nat} (few : j ≤ 127) :
    let m := expandedMagnitude law (nearestIndex law (linRat x))
    |x - m| ≤ |x - expandedMagnitude law j| ∧
      (|x - expandedMagnitude law j| = |x - m| → m ≤ expandedMagnitude law j) := by
  obtain ⟨last, above, below⟩ := nearestIndex_spec law x
  generalize nearestIndex law (linRat x) = i at last above below
  dsimp only
  obtain less | rfl | more := lt_trichotomy j i
  · have far := above i (by omega) le_rfl
    have before := expandedMagnitude_le (law := law) (show j ≤ i - 1 by omega) (by omega)
    have apart := expandedMagnitude_lt (law := law) less last
    unfold midpoint at far
    have nearer : |x - expandedMagnitude law i| < |x - expandedMagnitude law j| := by
      rw [abs_of_pos (show 0 < x - expandedMagnitude law j by linarith)]
      exact abs_lt.2 ⟨by linarith, by linarith⟩
    exact ⟨nearer.le, fun equal => absurd equal nearer.ne'⟩
  · exact ⟨le_rfl, fun _ => le_rfl⟩
  · have near := below (i + 1) (by omega) (by omega)
    have after := expandedMagnitude_le (law := law) (show i + 1 ≤ j by omega) few
    have apart := expandedMagnitude_lt (law := law) more few
    unfold midpoint at near
    rw [Nat.add_sub_cancel] at near
    refine ⟨?_, fun _ => apart.le⟩
    rw [abs_of_nonpos (show x - expandedMagnitude law j ≤ 0 by linarith)]
    exact abs_le.2 ⟨by linarith, by linarith⟩

/-- A magnitude of the table is nearest to itself. -/
theorem nearestIndex_expandedMagnitude {i : Nat} (last : i ≤ 127) :
    nearestIndex law (linRat (expandedMagnitude law i)) = i := by
  refine nearestIndex_eq last (fun j positive le => ?_) fun j more few => ?_
  · have before := expandedMagnitude_lt (law := law) (show j - 1 < j by omega) (by omega)
    have upper := expandedMagnitude_le (law := law) le last
    unfold midpoint
    linarith
  · have lower := expandedMagnitude_le (law := law) (show i ≤ j - 1 by omega) (by omega)
    have before := expandedMagnitude_lt (law := law) more few
    unfold midpoint
    linarith

/-! ### Codes -/

/-- The index of a code: its bits 6 to 0 after the mask. -/
def codeIndex (law : Law) (code : Byte) : Nat := (code ^^^ lawMask law).toNat % 128

/-- Whether a code stands for a positive value. -/
def codePositive (law : Law) (code : Byte) : Bool := lawPositive law ((code ^^^ lawMask law).toNat ≥ 128)

/-- A magnitude with a sign. -/
def signed (positive : Bool) (m : Rat) : Rat := if positive then m else -m

theorem abs_signed (positive : Bool) {m : Rat} (nonneg : 0 ≤ m) : |signed positive m| = m := by
  cases positive with
  | true => exact abs_of_nonneg nonneg
  | false => exact (abs_neg m).trans (abs_of_nonneg nonneg)

theorem signed_abs (x : Rat) : signed (decide (0 < x)) |x| = x := by
  unfold signed
  by_cases positive : 0 < x
  · rw [if_pos (decide_eq_true positive), abs_of_pos positive]
  · rw [if_neg (by simpa using positive), abs_of_nonpos (not_lt.1 positive), neg_neg]

theorem abs_signed_sub (positive : Bool) (x y : Rat) : |signed positive x - signed positive y| = |x - y| := by
  cases positive with
  | true => rfl
  | false => exact (congrArg abs (neg_sub_neg x y)).trans (abs_sub_comm y x)

theorem expand_eq (law : Law) (code : Byte) :
    expand law code = signed (codePositive law code) (expandedMagnitude law (codeIndex law code)) := rfl

theorem codeIndex_le (law : Law) (code : Byte) : codeIndex law code ≤ 127 :=
  Nat.le_of_lt_succ (Nat.mod_lt _ (by decide))

theorem lawPositive_injective {b c : Bool} : lawPositive law b = lawPositive law c ↔ b = c := by
  cases law <;> simp [lawPositive]

theorem xor_lawMask (law : Law) (x : Byte) : x ^^^ lawMask law ^^^ lawMask law = x := by
  rw [BitVec.xor_assoc, BitVec.xor_self, BitVec.xor_zero]

/-- A code is made of its sign and its index. -/
theorem codeOf_code (law : Law) (code : Byte) : codeOf law (codePositive law code) (codeIndex law code) = code := by
  have bits : BitVec.ofNat 8 (codeIndex law code +
      if lawPositive law true = codePositive law code then 128 else 0) = code ^^^ lawMask law := by
    apply BitVec.eq_of_toNat_eq
    unfold codePositive codeIndex
    rw [BitVec.toNat_ofNat]
    simp only [lawPositive_injective, eq_comm (a := true), decide_eq_true_eq]
    have := (code ^^^ lawMask law).isLt
    split <;> omega
  unfold codeOf
  rw [bits, xor_lawMask]

theorem codeOf_masked (positive : Bool) {i : Nat} (last : i ≤ 127) :
    (codeOf law positive i ^^^ lawMask law).toNat = i + if lawPositive law true = positive then 128 else 0 := by
  unfold codeOf
  rw [xor_lawMask, BitVec.toNat_ofNat, Nat.mod_eq_of_lt]
  split <;> omega

theorem codeIndex_codeOf (positive : Bool) {i : Nat} (last : i ≤ 127) : codeIndex law (codeOf law positive i) = i := by
  unfold codeIndex
  rw [codeOf_masked positive last]
  split <;> omega

theorem codePositive_codeOf (positive : Bool) {i : Nat} (last : i ≤ 127) :
    codePositive law (codeOf law positive i) = positive := by
  unfold codePositive
  rw [codeOf_masked positive last]
  cases law <;> cases positive <;> simp [lawPositive] <;> omega

theorem expand_codeOf (positive : Bool) {i : Nat} (last : i ≤ 127) :
    expand law (codeOf law positive i) = signed positive (expandedMagnitude law i) := by
  rw [expand_eq, codeIndex_codeOf positive last, codePositive_codeOf positive last]

theorem expand_idleCode (law : Law) : expand law (idleCode law) = 0 := by
  have index : codeIndex law (idleCode law) = 0 := by cases law <;> decide
  rw [expand_eq, index, expandedMagnitude_zero]
  simp [signed]

/-- The code that is sent for a rational value. -/
theorem compand_linRat (law : Law) (x : Rat) : compand law (linRat x) =
    if nearestIndex law (linRat |x|) = 0 then idleCode law
    else codeOf law (decide (0 < x)) (nearestIndex law (linRat |x|)) := by
  obtain ⟨last, -, -⟩ := nearestIndex_spec law |x|
  unfold compand
  dsimp only
  rw [linAbs_linRat]
  simp only [expandedMagnitude_eq_zero_iff last, linSign_linRat_pos_iff]

/-- The value of the code that is sent has the sign of the value it is sent for and the nearest magnitude. -/
theorem expand_compand (law : Law) (x : Rat) : expand law (compand law (linRat x)) =
    signed (decide (0 < x)) (expandedMagnitude law (nearestIndex law (linRat |x|))) := by
  obtain ⟨last, -, -⟩ := nearestIndex_spec law |x|
  rw [compand_linRat]
  split
  · next zero =>
    rw [zero, expandedMagnitude_zero, expand_idleCode]
    simp [signed]
  · exact expand_codeOf _ last

/-- The value of the code that is sent stands as far from the value it is sent for as the magnitudes stand apart. -/
theorem abs_sub_expand_compand (law : Law) (x : Rat) : |x - expand law (compand law (linRat x))| =
    |(|x|) - expandedMagnitude law (nearestIndex law (linRat |x|))| := by
  have apart := abs_signed_sub (decide (0 < x)) |x| (expandedMagnitude law (nearestIndex law (linRat |x|)))
  rw [signed_abs] at apart
  rw [expand_compand, apart]

theorem abs_expand (law : Law) (code : Byte) : |expand law code| = expandedMagnitude law (codeIndex law code) := by
  rw [expand_eq, abs_signed _ (expandedMagnitude_nonneg _ _)]

/-- What a code stands for is sent as that code, but the codes of value 0 as the idle code. -/
theorem compand_expand (law : Law) (code : Byte) : compand law (linRat (expand law code)) =
    if expand law code = 0 then idleCode law else code := by
  have last := codeIndex_le law code
  have index : nearestIndex law (linRat |expand law code|) = codeIndex law code := by
    rw [abs_expand, nearestIndex_expandedMagnitude last]
  have zero : expand law code = 0 ↔ codeIndex law code = 0 := by
    rw [← abs_eq_zero, abs_expand, expandedMagnitude_eq_zero_iff last]
  rw [compand_linRat, index]
  simp only [zero]
  split
  · rfl
  · next other =>
    have size : 0 < expandedMagnitude law (codeIndex law code) :=
      (expandedMagnitude_nonneg _ _).lt_of_ne' (mt (expandedMagnitude_eq_zero_iff last).1 other)
    have sign : decide (0 < expand law code) = codePositive law code := by
      rw [expand_eq]
      cases codePositive law code with
      | true => exact decide_eq_true size
      | false => exact decide_eq_false (not_lt.2 (neg_nonpos.2 size.le))
    rw [sign, codeOf_code]

/-! ### The tables (R77) -/

/-- The code with segment number e, step number m and bit 7 after the mask. -/
theorem expand_masked (law : Law) (e : Fin 8) (m : Fin 16) (bit7 : Bool) :
    expand law (BitVec.ofNat 8 ((if bit7 then 128 else 0) + 16 * e.val + m.val) ^^^ lawMask law) =
      signed (lawPositive law bit7) (expandedMagnitude law (16 * e.val + m.val)) := by
  have bits : (BitVec.ofNat 8 ((if bit7 then 128 else 0) + 16 * e.val + m.val) ^^^ lawMask law ^^^ lawMask law).toNat =
      (if bit7 then 128 else 0) + 16 * e.val + m.val := by
    rw [xor_lawMask, BitVec.toNat_ofNat, Nat.mod_eq_of_lt]
    split <;> omega
  rw [expand_eq, codePositive, codeIndex, bits]
  congr 2
  · cases bit7 <;> simp <;> omega
  · split <;> omega

theorem expandedMagnitude_step (law : Law) (e : Fin 8) (m : Fin 16) : expandedMagnitude law (16 * e.val + m.val) =
    if law = .aLaw ∧ lawMagnitude law e m = 1 then 0 else (lawMagnitude law e m : Rat) / (lawFullScale law : Rat) := by
  have segment : (16 * e.val + m.val) / 16 = e.val := by omega
  have step : (16 * e.val + m.val) % 16 = m.val := by omega
  unfold expandedMagnitude
  rw [segment, step]

theorem lawMagnitude_aLaw (e m : Nat) : (lawMagnitude .aLaw e m : Rat) =
    if e = 0 then 2 * (m : Rat) + 1 else (2 * m + 33) * 2 ^ (e - 1) := by
  simp only [lawMagnitude]
  push_cast
  rfl

theorem lawMagnitude_muLaw (e m : Nat) : (lawMagnitude .muLaw e m : Rat) =
    if e = 0 then 2 * (m : Rat) else (2 * m + 33) * 2 ^ e - 33 := by
  have enough : 33 ≤ (2 * m + 33) * 2 ^ e := (Nat.le_add_left 33 (2 * m)).trans (Nat.le_mul_of_pos_right _ (by positivity))
  simp only [lawMagnitude]
  split
  · push_cast; rfl
  · push_cast [Nat.cast_sub enough]; rfl

/-- Settles O49: the two tables, the nearest code, and the codes that are sent as they were received. -/
theorem compandingRoundTrip : Obligations.CompandingRoundTrip := by
  unfold Obligations.CompandingRoundTrip
  refine ⟨fun e m bit7 => ⟨?_, ?_⟩, fun law => ⟨fun value other _ _ => ?_, fun code => ?_⟩⟩
  · rw [← lawMagnitude_aLaw]
    refine (expand_masked .aLaw e m bit7).trans ?_
    rw [expandedMagnitude_step]
    by_cases one : lawMagnitude .aLaw e m = 1
    · rw [if_pos ⟨rfl, one⟩, one, if_pos Nat.cast_one]
      simp [signed]
    · rw [if_neg fun both => one both.2, if_neg (by exact_mod_cast one)]
      cases bit7 with
      | true => rfl
      | false => exact (neg_div _ _).symm
  · rw [← lawMagnitude_muLaw]
    refine (expand_masked .muLaw e m bit7).trans ?_
    rw [expandedMagnitude_step, if_neg fun both => by cases both.1]
    cases bit7 with
    | true => exact (neg_div _ _).symm
    | false => rfl
  · obtain ⟨near, smaller⟩ := nearestIndex_nearest (law := law) (x := |value|) (codeIndex_le law other)
    have apart := abs_abs_sub_abs_le value (expand law other)
    rw [abs_expand] at apart
    have distance := abs_sub_expand_compand law value
    have magnitude : |expand law (compand law (linRat value))| =
        expandedMagnitude law (nearestIndex law (linRat |value|)) := by
      rw [expand_compand, abs_signed _ (expandedMagnitude_nonneg _ _)]
    dsimp only
    refine ⟨?_, fun equal => ?_, fun zero => ?_⟩
    · rw [distance]
      exact near.trans apart
    · rw [magnitude, abs_expand]
      rw [distance] at equal
      exact smaller (le_antisymm (equal ▸ apart) near)
    · rw [zero, abs_zero] at magnitude
      obtain ⟨last, -, -⟩ := nearestIndex_spec law |value|
      rw [compand_linRat, if_pos ((expandedMagnitude_eq_zero_iff last).1 magnitude.symm)]
      cases law <;> rfl
  · have sent := compand_expand law code
    exact ⟨fun other => sent.trans (if_neg other), fun zero => sent.trans (if_pos zero)⟩

end Sys2Proof.Machine
end
